-- ==== Sys2Proof/Word.lean ====
section
/-! DEFINITION. The word types of the block and the number format of its matrices. -/

namespace Sys2Proof

/-- One byte of the input memory or of the data buffer (20_memory.md R200). -/
abbrev Byte := BitVec 8

/-- A 32-bit register, stream word or command word (00_scope.md R12). -/
abbrev Word := BitVec 32

/-- The bits of one IEEE 754 binary64 value (00_scope.md R9 ENTRIES_FORMAT, R15). -/
abbrev F64 := BitVec 64

/-- The input memory IN: the bytes that differ from what an unlisted address reads as, in
rising address order (20_memory.md R200, R205; Machine/Ops.lean keeps the form). -/
abbrev Memory := List Host.Cell

end Sys2Proof
end

