-- ==== Sys2Proof/Syntax.lean ====
section
/-! DEFINITION. The instructions: the 37 commands of the opcode map (30_encoding.md R332) and the
12 record kinds of the stream (30_encoding.md R311), and the small name sets they use. -/

namespace Sys2Proof

/-- The five converter kinds (42_convert.md R450). -/
inductive ConvKind where
  | s3a | s3b2 | s3b4 | dcd2 | dcd4
  deriving DecidableEq, Repr, Inhabited

/-- The three element types of a view or a converter (41_stream.md R430, 42_convert.md R452). -/
inductive ElemType where
  | int8 | int16 | uint32
  deriving DecidableEq, Repr, Inhabited

/-- The record kinds of the stream (30_encoding.md R311). -/
inductive RecKind where
  | groupRunBegin | groupRunEnd | groupData
  | depfet | depfet128 | depfetDcd
  | bat | tpll | unknown | tlu | info | other
  deriving DecidableEq, Repr, Inhabited

/-- The fields of a record's header and trigger words that its kind does not fix
(30_encoding.md R301, R302). -/
structure RecHdr where
  eventSize : BitVec 20
  flag0     : BitVec 1
  flag1     : BitVec 1
  eventType : BitVec 2
  moduleNo  : BitVec 4
  trigger   : BitVec 32
  deriving DecidableEq, Repr, Inhabited

/-- The instructions. A command carries the operand fields A, B and C its rule uses, each an
8-bit field of the command word; a field its rule does not use is not carried
(30_encoding.md R330). A record carries its header fields. -/
inductive Instr where
  -- 40_system.md
  | nop | reset | abort
  -- 41_stream.md
  | segPush | segClear | openStream | openNext | readHeader | readData | skipData
  | viewRead (a : BitVec 8)
  -- 42_convert.md
  | convS3A (a : BitVec 8) | convS3B2 (a : BitVec 8) | convS3B4 (a : BitVec 8)
  | convDCD2 (a : BitVec 8) | convDCD4 (a : BitVec 8)
  -- 43_assembler.md
  | next | skip
  -- 44_matrix.md
  | mresize (a : BitVec 8) | mget (a : BitVec 8) | mput (a : BitVec 8)
  | mgetf (a : BitVec 8) | mputf (a : BitVec 8)
  | madd (a b : BitVec 8) | msub (a b : BitVec 8) | mset (a b : BitVec 8)
  | minfo (a : BitVec 8) | mtrig (a : BitVec 8)
  -- 45_calibration.md
  | accClear (a : BitVec 8) | accAdd (a : BitVec 8) | accAddm (a b c : BitVec 8)
  | accRead (a b : BitVec 8) | calCommit (a : BitVec 8) | calInit (a : BitVec 8)
  | calLoad (a : BitVec 8)
  -- 46_commonmode.md
  | cmApply (a b c : BitVec 8) | cmCorr (a : BitVec 8)
  -- 30_encoding.md R311: the records of the stream
  | groupRunBegin (h : RecHdr) | groupRunEnd (h : RecHdr) | groupData (h : RecHdr)
  | depfet (h : RecHdr) | depfet128 (h : RecHdr) | depfetDcd (h : RecHdr)
  | bat (h : RecHdr) | tpll (h : RecHdr) | unknown (h : RecHdr) | tlu (h : RecHdr)
  | info (h : RecHdr) | other (h : RecHdr)
  deriving DecidableEq, Repr

/-- The instruction of a record of kind `k` with header `h`. -/
def Instr.ofRecord (k : RecKind) (h : RecHdr) : Instr :=
  match k with
  | .groupRunBegin => .groupRunBegin h
  | .groupRunEnd => .groupRunEnd h
  | .groupData => .groupData h
  | .depfet => .depfet h
  | .depfet128 => .depfet128 h
  | .depfetDcd => .depfetDcd h
  | .bat => .bat h
  | .tpll => .tpll h
  | .unknown => .unknown h
  | .tlu => .tlu h
  | .info => .info h
  | .other => .other h

/-- The two encoded spaces: a command word the HOST writes to CMD, and a record of the stream
(30_encoding.md, opening). A word means nothing before its space is known: the two overlap. -/
inductive Space where
  | command | record
  deriving DecidableEq, Repr

/-- The record an instruction is, if it is one. -/
def Instr.record? : Instr → Option (RecKind × RecHdr)
  | .groupRunBegin h => some (.groupRunBegin, h)
  | .groupRunEnd h => some (.groupRunEnd, h)
  | .groupData h => some (.groupData, h)
  | .depfet h => some (.depfet, h)
  | .depfet128 h => some (.depfet128, h)
  | .depfetDcd h => some (.depfetDcd, h)
  | .bat h => some (.bat, h)
  | .tpll h => some (.tpll, h)
  | .unknown h => some (.unknown, h)
  | .tlu h => some (.tlu, h)
  | .info h => some (.info, h)
  | .other h => some (.other, h)
  | .nop | .reset | .abort | .segPush | .segClear | .openStream | .openNext
  | .readHeader | .readData | .skipData | .viewRead _ | .convS3A _ | .convS3B2 _ | .convS3B4 _
  | .convDCD2 _ | .convDCD4 _ | .next | .skip | .mresize _ | .mget _ | .mput _ | .mgetf _
  | .mputf _ | .madd _ _ | .msub _ _ | .mset _ _ | .minfo _ | .mtrig _ | .accClear _ | .accAdd _
  | .accAddm _ _ _ | .accRead _ _ | .calCommit _ | .calInit _ | .calLoad _ | .cmApply _ _ _
  | .cmCorr _ => none

/-- The encoded space an instruction belongs to. -/
def Instr.space (i : Instr) : Space :=
  match i.record? with
  | some _ => .record
  | none => .command

end Sys2Proof
end

