-- ==== Sys2Proof/WellFormed.lean ====
section
/-! DEFINITION. Which instructions are well formed. A command's operand fields take every 8-bit
value (an illegal value raises a fault when the command runs, 44_matrix.md R555), so every command
is well formed. A record's eventType must be the one its kind fixes, and never the reserved 3
(30_encoding.md R304, R311). -/

namespace Sys2Proof

/-- The eventType a record kind fixes: only the three GROUP kinds fix one (30_encoding.md R311). -/
def RecKind.fixedEventType : RecKind → Option (BitVec 2)
  | .groupRunBegin => some 0
  | .groupRunEnd => some 1
  | .groupData => some 2
  | .depfet | .depfet128 | .depfetDcd | .bat | .tpll | .unknown | .tlu | .info | .other => none

/-- A record is well formed when its eventType is the one its kind fixes and is not 3. -/
def RecKind.wellFormed (k : RecKind) (h : RecHdr) : Bool :=
  match k.fixedEventType with
  | some t => h.eventType == t
  | none => h.eventType != 3

/-- The well-formedness of an instruction. -/
def Instr.wellFormed (i : Instr) : Bool :=
  match i.record? with
  | some (k, h) => k.wellFormed h
  | none => true

end Sys2Proof
end

