-- ==== Sys2Proof/Decode.lean ====
section
/-! DEFINITION. Decoding the two encoded spaces, total and refusing by name, and the encoder.
Command words: 30_encoding.md R330 to R333. Record headers: R301 to R304, R311. Info words: R305,
R306. Byte order: 20_memory.md R207. -/

namespace Sys2Proof

/-- Why a word is no instruction. -/
inductive DecodeError where
  /-- OP is not in the opcode map (30_encoding.md R333). -/
  | illegalCommand
  /-- deviceType 0x1, 0x6 to 0x9 or 0xC (30_encoding.md R303). -/
  | reservedDevType
  /-- eventType 3 (30_encoding.md R304). -/
  | reservedEvType
  /-- Fewer words or bytes than the instruction has. -/
  | truncated
  deriving DecidableEq, Repr

/-! ### Bit fields and byte order -/

/-- OP, bits 7:0 of a command word (30_encoding.md R330). -/
def opField (w : Word) : BitVec 8 := w.extractLsb' 0 8

/-- A, bits 15:8 of a command word (30_encoding.md R330). -/
def aField (w : Word) : BitVec 8 := w.extractLsb' 8 8

/-- B, bits 23:16 of a command word (30_encoding.md R330). -/
def bField (w : Word) : BitVec 8 := w.extractLsb' 16 8

/-- C, bits 31:24 of a command word (30_encoding.md R330). -/
def cField (w : Word) : BitVec 8 := w.extractLsb' 24 8

/-- LE32 of four bytes, the lowest address first (00_scope.md R13, 20_memory.md R207). -/
def le32 (b0 b1 b2 b3 : Byte) : Word := b3 ++ b2 ++ b1 ++ b0

/-- LE16 of two bytes (00_scope.md R13). -/
def le16 (b0 b1 : Byte) : BitVec 16 := b1 ++ b0

/-- The four bytes of a word as they lie in memory, the lowest address first (20_memory.md R207). -/
def bytesOf (w : Word) : List Byte :=
  [w.extractLsb' 0 8, w.extractLsb' 8 8, w.extractLsb' 16 8, w.extractLsb' 24 8]

/-! ### Commands -/

/-- The command a word written to CMD asks for (30_encoding.md R332). -/
def decodeCommand (w : Word) : Except DecodeError Instr :=
  let a := aField w
  let b := bField w
  let c := cField w
  match (opField w).toNat with
  | 0x00 => .ok .nop
  | 0x01 => .ok .reset
  | 0x02 => .ok .abort
  | 0x10 => .ok .segPush
  | 0x11 => .ok .segClear
  | 0x12 => .ok .openStream
  | 0x13 => .ok .openNext
  | 0x14 => .ok .readHeader
  | 0x15 => .ok .readData
  | 0x16 => .ok .skipData
  | 0x17 => .ok (.viewRead a)
  | 0x20 => .ok (.convS3A a)
  | 0x21 => .ok (.convS3B2 a)
  | 0x22 => .ok (.convS3B4 a)
  | 0x23 => .ok (.convDCD2 a)
  | 0x24 => .ok (.convDCD4 a)
  | 0x30 => .ok .next
  | 0x31 => .ok .skip
  | 0x40 => .ok (.mresize a)
  | 0x41 => .ok (.mget a)
  | 0x42 => .ok (.mput a)
  | 0x43 => .ok (.mgetf a)
  | 0x44 => .ok (.mputf a)
  | 0x45 => .ok (.madd a b)
  | 0x46 => .ok (.msub a b)
  | 0x47 => .ok (.mset a b)
  | 0x48 => .ok (.minfo a)
  | 0x49 => .ok (.mtrig a)
  | 0x50 => .ok (.accClear a)
  | 0x51 => .ok (.accAdd a)
  | 0x52 => .ok (.accAddm a b c)
  | 0x53 => .ok (.accRead a b)
  | 0x54 => .ok (.calCommit a)
  | 0x55 => .ok (.calInit a)
  | 0x56 => .ok (.calLoad a)
  | 0x60 => .ok (.cmApply a b c)
  | 0x61 => .ok (.cmCorr a)
  | _ => .error .illegalCommand

/-! ### Records -/

/-- deviceType, bits 31:28 of a header word (30_encoding.md R301). -/
def deviceTypeField (h0 : Word) : BitVec 4 := h0.extractLsb' 28 4

/-- The header fields of a record (30_encoding.md R302). -/
def decodeHeader (h0 h1 : Word) : RecHdr :=
  { eventSize := h0.extractLsb' 0 20
    flag0 := h0.extractLsb' 20 1
    flag1 := h0.extractLsb' 21 1
    eventType := h0.extractLsb' 22 2
    moduleNo := h0.extractLsb' 24 4
    trigger := h1 }

/-- The record kind of a device type and an event type (30_encoding.md R303, R304, R311), with the
two checks in the order of 43_assembler.md R502. -/
def recordKind (dev : BitVec 4) (ev : BitVec 2) : Except DecodeError RecKind :=
  let known (k : RecKind) : Except DecodeError RecKind :=
    if ev = 3 then .error .reservedEvType else .ok k
  match dev.toNat with
  | 0x0 =>
    match ev.toNat with
    | 0 => .ok .groupRunBegin
    | 1 => .ok .groupRunEnd
    | 2 => .ok .groupData
    | _ => .error .reservedEvType
  | 0x2 => known .depfet
  | 0x3 => known .depfet128
  | 0x4 => known .depfetDcd
  | 0x5 => known .bat
  | 0xA => known .tpll
  | 0xB => known .unknown
  | 0xD => known .tlu
  | 0xE => known .info
  | 0xF => known .other
  | _ => .error .reservedDevType

/-- The record a header word and a trigger word announce (30_encoding.md R302, R311). -/
def decodeRecord (h0 h1 : Word) : Except DecodeError (RecKind × RecHdr) :=
  match recordKind (deviceTypeField h0) (h0.extractLsb' 22 2) with
  | .ok k => .ok (k, decodeHeader h0 h1)
  | .error e => .error e

/-- The first instruction of a sequence of words of one space, and the words after it. -/
def decodeWords (sp : Space) (ws : List Word) : Except DecodeError (Instr × List Word) :=
  match sp, ws with
  | .command, w :: rest =>
    match decodeCommand w with
    | .ok i => .ok (i, rest)
    | .error e => .error e
  | .record, h0 :: h1 :: rest =>
    match decodeRecord h0 h1 with
    | .ok (k, h) => .ok (Instr.ofRecord k h, rest)
    | .error e => .error e
  | _, _ => .error .truncated

/-- The record at the head of a byte stream: two little-endian words (30_encoding.md R300), and
the bytes after them. -/
def decodeRecordBytes : List Byte → Except DecodeError (Instr × List Byte)
  | a0 :: a1 :: a2 :: a3 :: b0 :: b1 :: b2 :: b3 :: rest =>
    match decodeRecord (le32 a0 a1 a2 a3) (le32 b0 b1 b2 b3) with
    | .ok (k, h) => .ok (Instr.ofRecord k h, rest)
    | .error e => .error e
  | _ => .error .truncated

/-! ### The info word -/

/-- The fields of an info word (30_encoding.md R306). -/
structure InfoWord where
  framecnt     : BitVec 10
  startGate    : BitVec 10
  padding      : BitVec 3
  zerosupp     : BitVec 1
  startgateVer : BitVec 1
  tempRaw      : BitVec 10
  deriving DecidableEq, Repr

/-- Decoding an info word under CFG_INFO_LAYOUT (30_encoding.md R305, R306). -/
def decodeInfo (w : Word) (layout : BitVec 1) : InfoWord :=
  { framecnt := w.extractLsb' 0 10
    startGate := if layout = 0 then (w.extractLsb' 10 7).zeroExtend 10 else w.extractLsb' 10 10
    padding := if layout = 0 then w.extractLsb' 17 3 else 0
    zerosupp := w.extractLsb' 20 1
    startgateVer := w.extractLsb' 21 1
    tempRaw := w.extractLsb' 22 10 }

/-! ### The encoder -/

/-- A command word from its four fields (30_encoding.md R330). -/
def commandWord (op a b c : BitVec 8) : Word := c ++ b ++ a ++ op

/-- The device type code of a record kind (30_encoding.md R303). -/
def RecKind.deviceType : RecKind → BitVec 4
  | .groupRunBegin | .groupRunEnd | .groupData => 0x0
  | .depfet => 0x2
  | .depfet128 => 0x3
  | .depfetDcd => 0x4
  | .bat => 0x5
  | .tpll => 0xA
  | .unknown => 0xB
  | .tlu => 0xD
  | .info => 0xE
  | .other => 0xF

/-- A header word from its fields (30_encoding.md R301). -/
def headerWord (k : RecKind) (h : RecHdr) : Word :=
  k.deviceType ++ h.moduleNo ++ h.eventType ++ h.flag1 ++ h.flag0 ++ h.eventSize

/-- The header and trigger words of a record (30_encoding.md R300, R301). -/
def recordWords (k : RecKind) (h : RecHdr) : List Word := [headerWord k h, h.trigger]

/-- The words of an instruction; an operand field its rule does not use is 0
(30_encoding.md R332, R301). -/
def encode : Instr → List Word
  | .nop => [commandWord 0x00 0 0 0]
  | .reset => [commandWord 0x01 0 0 0]
  | .abort => [commandWord 0x02 0 0 0]
  | .segPush => [commandWord 0x10 0 0 0]
  | .segClear => [commandWord 0x11 0 0 0]
  | .openStream => [commandWord 0x12 0 0 0]
  | .openNext => [commandWord 0x13 0 0 0]
  | .readHeader => [commandWord 0x14 0 0 0]
  | .readData => [commandWord 0x15 0 0 0]
  | .skipData => [commandWord 0x16 0 0 0]
  | .viewRead a => [commandWord 0x17 a 0 0]
  | .convS3A a => [commandWord 0x20 a 0 0]
  | .convS3B2 a => [commandWord 0x21 a 0 0]
  | .convS3B4 a => [commandWord 0x22 a 0 0]
  | .convDCD2 a => [commandWord 0x23 a 0 0]
  | .convDCD4 a => [commandWord 0x24 a 0 0]
  | .next => [commandWord 0x30 0 0 0]
  | .skip => [commandWord 0x31 0 0 0]
  | .mresize a => [commandWord 0x40 a 0 0]
  | .mget a => [commandWord 0x41 a 0 0]
  | .mput a => [commandWord 0x42 a 0 0]
  | .mgetf a => [commandWord 0x43 a 0 0]
  | .mputf a => [commandWord 0x44 a 0 0]
  | .madd a b => [commandWord 0x45 a b 0]
  | .msub a b => [commandWord 0x46 a b 0]
  | .mset a b => [commandWord 0x47 a b 0]
  | .minfo a => [commandWord 0x48 a 0 0]
  | .mtrig a => [commandWord 0x49 a 0 0]
  | .accClear a => [commandWord 0x50 a 0 0]
  | .accAdd a => [commandWord 0x51 a 0 0]
  | .accAddm a b c => [commandWord 0x52 a b c]
  | .accRead a b => [commandWord 0x53 a b 0]
  | .calCommit a => [commandWord 0x54 a 0 0]
  | .calInit a => [commandWord 0x55 a 0 0]
  | .calLoad a => [commandWord 0x56 a 0 0]
  | .cmApply a b c => [commandWord 0x60 a b c]
  | .cmCorr a => [commandWord 0x61 a 0 0]
  | .groupRunBegin h => recordWords .groupRunBegin h
  | .groupRunEnd h => recordWords .groupRunEnd h
  | .groupData h => recordWords .groupData h
  | .depfet h => recordWords .depfet h
  | .depfet128 h => recordWords .depfet128 h
  | .depfetDcd h => recordWords .depfetDcd h
  | .bat h => recordWords .bat h
  | .tpll h => recordWords .tpll h
  | .unknown h => recordWords .unknown h
  | .tlu h => recordWords .tlu h
  | .info h => recordWords .info h
  | .other h => recordWords .other h

/-! ### The host's numbering of the opcode table -/

/-- Which space a word of the opcode table is read in. The table joins two spaces that overlap, so
a number alone does not say: a word the table gives fewer than 32 bits is a command (a record is
fixed in bits 31:28); a longer one whose OP byte is 0 is a record; any other is a command if its OP
is assigned, else a record (log 15). -/
def tableSpace (nbits w : Nat) : Space :=
  if nbits < 32 then .command
  else if w % 256 = 0 then .record
  else
    match decodeCommand (BitVec.ofNat 32 w) with
    | .ok _ => .command
    | .error _ => .record

/-- The instruction the decoder reads from the table's number `w` of `nbits` bits, every higher bit
0: one word for a command, a header word and a trigger word for a record. -/
def decodeTableWord (nbits w : Nat) : Option Instr :=
  let v := w % 2 ^ nbits
  match decodeWords (tableSpace nbits v) [BitVec.ofNat 32 v, BitVec.ofNat 32 (v / 2 ^ 32)] with
  | .ok (i, _) => some i
  | .error _ => none

end Sys2Proof
end

