-- ==== Sys2Proof/Config.lean ====
section
/-! DEFINITION. What an implementation of the block fixes, and the values the spec leaves open.
An `opaque` constant has no body: nothing can evaluate it, and a statement about it holds for every
value of it. -/

namespace Sys2Proof

/-- SEGQ_DEPTH (00_scope.md R10, I27). -/
def Config.segqDepth : Nat := 64

/-- DATA_BUF_BYTES = 4 * (2^20 - 4) (00_scope.md R10). -/
def Config.dataBufBytes : Nat := 4194288

/-- MAX_PIXELS (00_scope.md R10). -/
def Config.maxPixels : Nat := 16384

/-- The ID register's constant, ASCII DEPF (10_state.md R195, D49). -/
def Config.idWord : Word := 0x44455046

/-- SWBChannelMap, the fixed identity table of 16 entries (10_state.md R180, 42_convert.md R458). -/
def Config.swbChannelMap : Fin 16 → Fin 16 := id

/-- FPGAToDrainMap, a bijection on 0..127 whose values are OPEN (10_state.md R181, I13). No other
rule of the spec reads it: how PLACE_T is built from it is open too (42_convert.md R458). -/
opaque Config.fpgaToDrainMap : Equiv.Perm (Fin 128)

/-- log2 of NPIX_T: the pixel counts 8192, 16384, 16384, 2048, 2048 (42_convert.md R451). -/
def ConvKind.pixLog : ConvKind → Nat
  | .s3a => 13
  | .s3b2 => 14
  | .s3b4 => 14
  | .dcd2 => 11
  | .dcd4 => 11

/-- NPIX_T, the pixel count of a converter's output (42_convert.md R451). -/
def ConvKind.npix : ConvKind → Nat
  | .s3a => 8192
  | .s3b2 => 16384
  | .s3b4 => 16384
  | .dcd2 => 2048
  | .dcd4 => 2048

/-- DIMS_T as (nX, nY) (42_convert.md R451). -/
def ConvKind.dims : ConvKind → Nat × Nat
  | .s3a => (64, 128)
  | .s3b2 => (64, 256)
  | .s3b4 => (32, 512)
  | .dcd2 => (64, 32)
  | .dcd4 => (32, 64)

/-- ELEM_T, the element type of a converter: OPEN (42_convert.md R452, I14). -/
opaque Config.elemType : ConvKind → ElemType

/-- The open choice behind N_T: NPIX_T is a power of two and N_T * INNER_T = NPIX_T
(42_convert.md R454), so N_T is 2^a for some a up to log2 NPIX_T, and every such a is possible. -/
opaque Config.gateChoice : ConvKind → Nat

/-- N_T, the gate positions per frame: OPEN (42_convert.md R454). -/
def Config.gates (t : ConvKind) : Nat := 2 ^ min (Config.gateChoice t) t.pixLog

/-- INNER_T, the sub-pixel offsets per gate position: OPEN (42_convert.md R454). -/
def Config.inner (t : ConvKind) : Nat := 2 ^ (t.pixLog - min (Config.gateChoice t) t.pixLog)

/-- OFF_T, the rotation offset: OPEN (42_convert.md R454). -/
opaque Config.gateOffset : ConvKind → Nat

/-- PLACE_T, the bijection from (gate position G, inner step j), coded as G * INNER_T + j, to the
flat index of the pixel: OPEN (42_convert.md R454, I14). -/
opaque Config.place (t : ConvKind) : Equiv.Perm (Fin t.npix)

/-- PASSTHRU_T, the bijection from pixels to elements for useMapping = 0, a function of the start
gate: OPEN (42_convert.md R456, I15). Only DCD2 and DCD4 read it. -/
opaque Config.passthru (t : ConvKind) (startGate : Nat) : Equiv.Perm (Fin t.npix)

/-- The sign bit and the 51 payload bits of a computed NaN: any value (00_scope.md R15, I3).
`tick` is State.freeTick, `op` numbers the operation inside the command and `k` is the index it is
done for. A free value: log 3. -/
opaque Config.freeNaN (tick op k : Nat) : BitVec 52

/-- The state items an imprecise fault leaves unspecified (60_exceptions.md R711, I12), but for FSM,
whose value 43_assembler.md R501 states. -/
inductive FaultItem where
  | curSeg | off | hdr0 | hdr1 | info | dataLen | dataByte | runNumber | eventNumber | eoi
  | nmod | modmap | mapValid | nslots
  | slotX | slotY | slotPixel | slotModule | slotTrigger | slotGate | slotFrame
  | cmPixel | corrRowLen | corrRow | corrColLen | corrCol
  deriving DecidableEq, Repr

/-- The bits an unspecified state item is made from after an imprecise fault: any value
(60_exceptions.md R711, I12). `tick` is State.freeTick, `i` and `k` say which slot and which
element. A free value: log 4 and log 5. -/
opaque Config.freeItem (tick : Nat) (item : FaultItem) (i k : Nat) : BitVec 64

end Sys2Proof
end

