-- ==== Sys2Proof/Machine/Float64.lean ====
section
/-! DEFINITION. IEEE 754 binary64 arithmetic (00_scope.md R15): round to nearest, ties to even, no
fused multiply-add. Every operation converts to exact integers, computes exactly and rounds once.
A finite value is an integer number of units of 2^-1074. The first argument `n` of an operation is
the NaN it answers where the result is a NaN: its payload and sign are free (I3, log 3). -/

namespace Sys2Proof.Machine

open Sys2Proof

/-! ### Constants and classes -/

/-- The magnitude bits of infinity. -/
def fInfMag : Nat := 0x7FF0000000000000

/-- +0.0. -/
def fZero : F64 := 0

/-- 1.0 (95_test_vectors.md, G7). -/
def fOne : F64 := 0x3FF0000000000000

/-- The sign bit. -/
def fSign (a : F64) : Bool := a.getLsbD 63

/-- The 63 bits below the sign. -/
def fMag (a : F64) : Nat := a.toNat % 2 ^ 63

/-- A NaN: all exponent bits set and a fraction that is not 0. -/
def fIsNaN (a : F64) : Bool := fInfMag < fMag a

/-- An infinity. -/
def fIsInf (a : F64) : Bool := fMag a == fInfMag

/-- Neither an infinity nor a NaN (45_calibration.md R600, `finite`). -/
def fFinite (a : F64) : Bool := fMag a < fInfMag

/-- +0.0 or -0.0. -/
def fIsZero (a : F64) : Bool := fMag a == 0

/-- A value from its sign and its magnitude bits. -/
def fMake (neg : Bool) (mag : Nat) : F64 :=
  if neg then BitVec.ofNat 64 (mag + 2 ^ 63) else BitVec.ofNat 64 mag

/-- A quiet NaN from 52 free bits: the sign and the 51 payload bits (I3). -/
def fNaN (p : BitVec 52) : F64 :=
  p.extractLsb' 51 1 ++ (0xFFF#12 ++ p.extractLsb' 0 51)

/-! ### Exact value and rounding -/

/-- The integer significand of a finite value. -/
def fMant (a : F64) : Nat :=
  if fMag a < 2 ^ 52 then fMag a else fMag a % 2 ^ 52 + 2 ^ 52

/-- The exponent of a finite value: its magnitude is `fMant a * 2^(fExp a)` units of 2^-1074. -/
def fExp (a : F64) : Nat := fMag a / 2 ^ 52 - 1

/-- The magnitude of a finite value in units of 2^-1074. -/
def fUnits (a : F64) : Nat := fMant a <<< fExp a

/-- A finite value in units of 2^-1074. -/
def fInt (a : F64) : Int := if fSign a then -(fUnits a : Int) else (fUnits a : Int)

/-- Rounding to nearest, ties to even: the magnitude bits of the binary64 nearest to `m` eighths of
a unit, where the lowest bit of `m` may stand for all that was shifted out below it. Past the
largest finite value the result is infinity. -/
def fRoundMag (m : Nat) : Nat :=
  let t := max (Nat.log2 m - 52) 3
  let q := m >>> t
  let r := m % (1 <<< t)
  let half := 1 <<< (t - 1)
  let q' := if half < r ∨ (r = half ∧ q % 2 = 1) then q + 1 else q
  min (((t - 3) <<< 52) + q') fInfMag

/-- A right shift that keeps in the lowest bit whether a bit was lost. -/
def stickyShift (m k : Nat) : Nat :=
  if (m >>> k) <<< k = m then m >>> k else (m >>> k) ||| 1

/-- A quotient that keeps in the lowest bit whether there is a remainder. -/
def stickyDiv (m d : Nat) : Nat :=
  if m % d = 0 then m / d else (m / d) ||| 1

/-- The integer square root of `n`, from `b` candidate bits below the root `r` found so far. -/
def isqrtBits : Nat → Nat → Nat → Nat
  | 0, _, r => r
  | b + 1, n, r =>
    if (r + 1 <<< b) * (r + 1 <<< b) ≤ n then isqrtBits b n (r + 1 <<< b) else isqrtBits b n r

/-! ### Operations -/

/-- Negation: the sign bit inverted. -/
def fNeg (a : F64) : F64 := a ^^^ 0x8000000000000000

/-- `|v|`, exact (R15): the sign bit cleared. -/
def fAbs (a : F64) : F64 := a &&& 0x7FFFFFFFFFFFFFFF

/-- `+f` (R15). -/
def fAdd (n a b : F64) : F64 :=
  if fIsNaN a || fIsNaN b then n
  else if fIsInf a then (if fIsInf b && (fSign a != fSign b) then n else a)
  else if fIsInf b then b
  else
    let z := fInt a + fInt b
    if z = 0 then fMake (fSign a && fSign b) 0
    else fMake (decide (z < 0)) (fRoundMag (z.natAbs <<< 3))

/-- `-f` (R15): the sum with the second operand negated. -/
def fSub (n a b : F64) : F64 := fAdd n a (fNeg b)

/-- `*f` (R15). `1.0 *f b` is exactly `b`, NaN included (44_matrix.md R557, G5). -/
def fMul (n a b : F64) : F64 :=
  if a = fOne then b
  else if fIsNaN a || fIsNaN b then n
  else if fIsInf a || fIsInf b then
    if fIsZero a || fIsZero b then n else fMake (fSign a != fSign b) fInfMag
  else
    fMake (fSign a != fSign b)
      (fRoundMag (stickyShift ((fMant a * fMant b) <<< (fExp a + fExp b)) 1071))

/-- `/f` (R15). -/
def fDiv (n a b : F64) : F64 :=
  if fIsNaN a || fIsNaN b then n
  else if fIsInf a then
    if fIsInf b then n else fMake (fSign a != fSign b) fInfMag
  else if fIsInf b then fMake (fSign a != fSign b) 0
  else if fIsZero b then
    if fIsZero a then n else fMake (fSign a != fSign b) fInfMag
  else
    fMake (fSign a != fSign b)
      (fRoundMag (stickyDiv (fMant a <<< (fExp a + 1077)) (fMant b <<< fExp b)))

/-- `sqrtf` (R15, G2): correctly rounded. -/
def fSqrt (n a : F64) : F64 :=
  if fIsNaN a then n
  else if fIsZero a then a
  else if fSign a then n
  else if fIsInf a then a
  else
    let t := fExp a + 1074
    let m := if t % 2 = 1 then 2 * fMant a else fMant a
    let x := m <<< 120
    let r := isqrtBits 88 x 0
    let s := if r * r = x then 0 else 1
    fMake false (fRoundMag ((2 * r + s) <<< (t / 2 - 58)))

/-! ### Comparison and conversion -/

/-- A number whose order on values that are not NaN is the numeric order; the two zeros are equal. -/
def fKey (a : F64) : Int := if fSign a then -(fMag a : Int) else (fMag a : Int)

/-- IEEE `<` (R15): false with a NaN operand. -/
def fLt (a b : F64) : Bool := !fIsNaN a && !fIsNaN b && decide (fKey a < fKey b)

/-- `v != 0.0` by IEEE comparison (44_matrix.md R552): true of a NaN, false of both zeros. -/
def fNonZero (a : F64) : Bool := !fIsZero a

/-- `fp(n)` (R15): the binary64 value of an integer. -/
def fOfInt (z : Int) : F64 :=
  if z = 0 then fZero else fMake (decide (z < 0)) (fRoundMag (z.natAbs <<< 1077))

end Sys2Proof.Machine
end

