-- ==== Sys2Proof/Machine/State.lean ====
section
/-! DEFINITION. The state of the block (10_state.md), the reasons a step can stop, and the state
after reset (70_reset_and_hazards.md R800). INVENTORY.md lists every field with its rule. -/

namespace Sys2Proof.Machine

open Sys2Proof

/-- The codes of ERR_CODE (60_exceptions.md R700). `none` is code 0x00, no fault recorded. -/
inductive ErrCode where
  | none | viewExtent | dimMismatch | outOfBounds | truncatedEvent | truncatedRecord | size
  | reservedDevType | reservedEvType | unexpectedRecord | duplicateModule | unknownModule | config
  | badOperand | numeric | unsupported | notOpen | illegalCommand | illegalOperand | overrun
  | capacity
  deriving DecidableEq, Repr, Inhabited

/-- A fault about to be entered: `raise F(info)` (00_scope.md R14, 60_exceptions.md R710). -/
structure Raise where
  code : ErrCode
  info : Word
  deriving DecidableEq, Repr

/-- The assembler's states (43_assembler.md R501); the fourth encoding is never held (I21). -/
inductive Fsm where
  | waitGroup | readingModules | eventReady
  deriving DecidableEq, Repr, Inhabited

/-- A segment descriptor: IN[base .. base+len-1] is one input file (41_stream.md R401). -/
structure Seg where
  base : Word
  len  : Word
  deriving DecidableEq, Repr

/-- A matrix register (10_state.md R150). -/
structure Mat where
  nX        : Nat
  nY        : Nat
  data      : List F64
  moduleNr  : BitVec 4
  triggerNr : BitVec 32
  startGate : BitVec 10
  frameNr   : BitVec 3
  deriving DecidableEq, Repr

/-- A matrix register at reset: no pixel, tags 0 (70_reset_and_hazards.md R800). -/
def Mat.empty : Mat :=
  { nX := 0, nY := 0, data := [], moduleNr := 0, triggerNr := 0, startGate := 0, frameNr := 0 }

/-- The streaming statistic of one pixel (10_state.md R160). -/
structure AccCell where
  entries : F64
  mean    : F64
  var     : F64
  deriving DecidableEq, Repr

/-- An accumulator: one statistic per flat pixel index (10_state.md R160). -/
structure Acc where
  nX    : Nat
  nY    : Nat
  cells : List AccCell
  deriving DecidableEq, Repr

/-- An accumulator at reset (70_reset_and_hazards.md R800). -/
def Acc.empty : Acc := { nX := 0, nY := 0, cells := [] }

/-- The command that walks the record stream: NEXT, or SKIP of `n` events with `k` skipped so far
(43_assembler.md R510, R521). -/
inductive WalkCmd where
  | next
  | skip (n k : Nat)
  deriving DecidableEq, Repr

/-- Where the walk stands: outside any group (R503), or inside a DATA group with the locals of
R504: the words left, the modules seen, and whether the group establishes the slot map. -/
inductive Place where
  | top
  | group (remaining : Nat) (seen : List (BitVec 4)) (establishing : Bool)
  deriving DecidableEq, Repr

/-- The walk of a NEXT or SKIP in execution: the model's own field (log 6). -/
structure Walk where
  cmd   : WalkCmd
  place : Place
  deriving DecidableEq, Repr

/-- A move of the HOST (00_scope.md R18, R20; log 7). A register is named by its word index, its
byte offset divided by 4, so only the aligned 32-bit accesses of 20_memory.md R201 can be written. -/
inductive HostMove where
  /-- Write a register. -/
  | write (reg : BitVec 10) (v : Word)
  /-- Read a register. -/
  | read (reg : BitVec 10)
  /-- Write one byte of the input memory. -/
  | poke (addr : Word) (b : Byte)
  /-- Wait until BUSY = 0 (30_encoding.md R336, WAIT). -/
  | wait
  deriving DecidableEq, Repr

/-- The state of the block, of the input memory, and of the run (the last four fields). -/
structure State where
  -- operand and result registers (R100)
  argN0 : Word
  argN1 : Word
  argN2 : Word
  argX : F64
  argW : F64
  resN0 : Word
  resN1 : Word
  resN2 : Word
  resF : F64
  -- command and fault state (R101, R102)
  busy : Bool
  pending : Word
  fault : Bool
  errCode : ErrCode
  errInfo : Word
  -- status flags (R103)
  opened : Bool
  eoi : Bool
  limit : Bool
  mapValid : Bool
  fsm : Fsm
  -- configuration registers (R104)
  cfgFold : BitVec 3
  cfgUseMapping : BitVec 1
  cfgTrailing : BitVec 3
  cfgMaxEvents : Word
  cfgInfoLayout : BitVec 1
  cfgSigmaCut : F64
  cmRowSize : BitVec 16
  cmRowDiv : BitVec 16
  cmColSize : BitVec 16
  cmColDiv : BitVec 16
  cmCut : F64
  -- stream cursor (R120): SEGQ_COUNT is the length of segq
  segq : List Seg
  curSeg : Nat
  off : Word
  -- record registers and data buffer (R130): DATA_LEN is the length of dataBuf
  hdr0 : Word
  hdr1 : Word
  info : Word
  dataBuf : List Byte
  -- assembler (R140)
  runNumber : Word
  eventNumber : Word
  eventCount : Word
  tLatch : BitVec 3
  nmod : Nat
  modmap : Vector (Option (BitVec 4)) 16
  nslots : Nat
  -- matrix register file (R150) by id 0x00 to 0xB7, accumulators (R160), diagnostics (R170)
  mats : Vector Mat 184
  accs : Vector Acc 16
  corrRow : List F64
  corrCol : List F64
  -- the HOST's input memory (20_memory.md R200)
  inMem : Memory
  -- the model's own fields: the HOST's next moves, the value its last read returned, the walk in
  -- execution, the counter of the free values (log 7, log 6, log 3)
  host : List HostMove
  hostData : Word
  walk : Option Walk
  freeTick : Nat
  deriving DecidableEq, Repr

/-- Why a step stops with a fault. The block's own faults are NEXT states (60_exceptions.md R710);
this is the model's stop. -/
inductive Fault where
  /-- Raised by NEXT and SKIP when the record walk exceeds the step bound that
  70_reset_and_hazards.md R841 gives it; the rule says it never does. Safe: the model stops. -/
  | walkUnbounded
  deriving DecidableEq, Repr

/-- Why a step is refused. -/
inductive Refusal where
  /-- Raised by exec's arm of an instruction that has no meaning yet. Safe: the model stops. -/
  | notModelled (mnemonic : String)
  /-- Raised by the step when the HOST's next move writes a byte of a queued segment, a move the
  spec does not give the HOST (20_memory.md R206, I19). Safe: the model stops. -/
  | queuedInput
  deriving DecidableEq, Repr

/-- The outcome of a step. -/
abbrev Result := Host.Outcome State Fault Refusal

/-- The state after reset (70_reset_and_hazards.md R800, R801). -/
def State.reset : State :=
  { argN0 := 0, argN1 := 0, argN2 := 0, argX := 0, argW := 0
    resN0 := 0, resN1 := 0, resN2 := 0, resF := 0
    busy := false, pending := 0, fault := false, errCode := .none, errInfo := 0
    opened := false, eoi := false, limit := false, mapValid := false, fsm := .waitGroup
    cfgFold := 2, cfgUseMapping := 1, cfgTrailing := 0, cfgMaxEvents := 0, cfgInfoLayout := 0
    cfgSigmaCut := 0, cmRowSize := 0, cmRowDiv := 1, cmColSize := 0, cmColDiv := 1, cmCut := 0
    segq := [], curSeg := 0, off := 0
    hdr0 := 0, hdr1 := 0, info := 0, dataBuf := []
    runNumber := 0, eventNumber := 0, eventCount := 0, tLatch := 0, nmod := 0
    modmap := Vector.replicate 16 none, nslots := 0
    mats := Vector.replicate 184 Mat.empty, accs := Vector.replicate 16 Acc.empty
    corrRow := [], corrCol := []
    inMem := []
    host := [], hostData := 0, walk := none, freeTick := 0 }

end Sys2Proof.Machine
end

