-- ==== Sys2Proof/Machine/Ops.lean ====
section
/-! DEFINITION. The named operations over the input memory, the register files and the fault state.
Every meaning reads and writes the state through these. -/

namespace Sys2Proof

/-! ### The input memory IN (20_memory.md R200, R205) -/

/-- What a byte of IN that nothing has written reads as. The spec gives none: DESIGN CHOICE, unsafe
(log 1). -/
def inDefault : Byte := 0

/-- The canonical form of IN: addresses inside the 32-bit space (R200) and strictly rising, and no
entry equal to what an unlisted address reads as. -/
def Memory.wf (m : Memory) : Bool :=
  decide (m.Pairwise fun p q => p.1 < q.1)
    && m.all fun p => decide (p.1 < 2 ^ 32) && p.2 != inDefault

end Sys2Proof

namespace Sys2Proof.Machine

open Sys2Proof

/-- The byte at address `a`. -/
def memRead : Memory → Nat → Byte
  | [], _ => inDefault
  | (a', b) :: rest, a => if a' = a then b else memRead rest a

/-- Writing the byte at address `a`, keeping the canonical form. -/
def memWrite : Memory → Nat → Byte → Memory
  | [], a, b => if b = inDefault then [] else [(a, b)]
  | (a', b') :: rest, a, b =>
    if a < a' then (if b = inDefault then (a', b') :: rest else (a, b) :: (a', b') :: rest)
    else if a = a' then (if b = inDefault then rest else (a, b) :: rest)
    else (a', b') :: memWrite rest a b

/-- `MemRead(a, n)`: the n bytes from address `a` on (20_memory.md R205). -/
def memReadN (m : Memory) (a n : Nat) : List Byte := (List.range n).map fun i => memRead m (a + i)

/-- The little-endian word at address `a` (20_memory.md R207). -/
def memWord (m : Memory) (a : Nat) : Word :=
  le32 (memRead m a) (memRead m (a + 1)) (memRead m (a + 2)) (memRead m (a + 3))

/-- Writing a list of bytes from address `a` on. -/
def memWriteBytes : Memory → Nat → List Byte → Memory
  | m, _, [] => m
  | m, a, b :: rest => memWriteBytes (memWrite m a b) (a + 1) rest

/-! ### The matrix file, the accumulator file and the slot map (10_state.md R140, R150, R160) -/

/-- `M[id]`: the matrix register of an id below 184. -/
def readMat (s : State) (id : Nat) : Mat := s.mats[id]?.getD Mat.empty

/-- Writing a matrix register. -/
def writeMat (id : Nat) (m : Mat) (s : State) : State :=
  { s with mats := s.mats.setIfInBounds id m }

/-- `ACC[m]`: the accumulator of module m. -/
def readAcc (s : State) (m : Nat) : Acc := s.accs[m]?.getD Acc.empty

/-- Writing an accumulator. -/
def writeAcc (m : Nat) (a : Acc) (s : State) : State :=
  { s with accs := s.accs.setIfInBounds m a }

/-- The ordinal MODMAP gives a module, if its entry is valid. -/
def readModmap (s : State) (m : BitVec 4) : Option (BitVec 4) := s.modmap[m.toNat]?.getD none

/-- The number of pixels of a matrix. -/
def matPixels (m : Mat) : Nat := m.nX * m.nY

/-- Element `k` of a matrix by flat index (44_matrix.md R550). -/
def matElem (m : Mat) (k : Nat) : F64 := m.data.getD k fZero

/-- Equal shapes (44_matrix.md R553). -/
def sameDims (a b : Mat) : Bool := a.nX == b.nX && a.nY == b.nY

/-- A matrix given dimensions and cleared to +0.0; its tags stay (44_matrix.md R551, 10_state.md
R151). -/
def matResize (nX nY : Nat) (m : Mat) : Mat :=
  { m with nX := nX, nY := nY, data := List.replicate (nX * nY) fZero }

/-- A matrix given dimensions and data; its tags stay (10_state.md R151). -/
def matFill (nX nY : Nat) (d : List F64) (m : Mat) : Mat := { m with nX := nX, nY := nY, data := d }

/-- A matrix with one element replaced. -/
def matPut (k : Nat) (v : F64) (m : Mat) : Mat := { m with data := m.data.set k v }

/-! ### Completion and fault entry (00_scope.md R19, 60_exceptions.md R710 to R712) -/

/-- The end of a command: BUSY is cleared (20_memory.md R210). -/
def finish (s : State) : State := { s with busy := false }

/-- Taking a fault, ONE operation for all of them (60_exceptions.md R710): FAULT is set, the code
and the info word are recorded, the command ends and BUSY is cleared. There is no handler, mode or
saved program counter. -/
def faultEntry (r : Raise) (s : State) : State :=
  { s with fault := true, errCode := r.code, errInfo := r.info, busy := false, walk := none }

/-- Leaving the fault state, beside it: what RESET and ABORT do to FAULT, ERR_CODE and ERR_INFO
(60_exceptions.md R712). -/
def faultExit (s : State) : State := { s with fault := false, errCode := .none, errInfo := 0 }

/-- One command whose faults are precise (60_exceptions.md R711): with FAULT = 1 it is ignored
(40_system.md R393); otherwise it completes, or it enters the fault from the state before it. -/
def command (s : State) (body : Except Raise State) : Result :=
  if s.fault then .next (finish s)
  else
    match body with
    | .ok s' => .next (finish s')
    | .error r => .next (faultEntry r s)

/-- The next free values: the counter they are drawn with moves on (log 3). -/
def draw (s : State) : State := { s with freeTick := s.freeTick + 1 }

/-- The NaN a computation answers where its result is a NaN: operation number `op` of the command,
done for index `k` (I3, log 3). -/
def nanAt (s : State) (op k : Nat) : F64 := fNaN (Config.freeNaN s.freeTick op k)

/-! ### What an imprecise fault leaves (60_exceptions.md R711, I12; log 4, log 5) -/

/-- A free number below `bound`. -/
def freeBelow (t : Nat) (item : FaultItem) (i k bound : Nat) : Nat :=
  (Config.freeItem t item i k).toNat % bound

/-- A free value of `w` bits. -/
def freeBits (w t : Nat) (item : FaultItem) (i k : Nat) : BitVec w :=
  (Config.freeItem t item i k).setWidth w

/-- A free truth value. -/
def freeBool (t : Nat) (item : FaultItem) : Bool := (Config.freeItem t item 0 0).getLsbD 0

/-- The free extents of event slot `i`: each at most MAX_PIXELS, and their product too. -/
def freeDims (t i : Nat) : Nat × Nat :=
  let nX := freeBelow t .slotX i 0 (Config.maxPixels + 1)
  (nX, freeBelow t .slotY i 0 (Config.maxPixels / max nX 1 + 1))

/-- A free event slot, within the limits of 10_state.md R150. -/
def freeSlot (t i : Nat) : Mat :=
  let d := freeDims t i
  { nX := d.1, nY := d.2
    data := (List.range (d.1 * d.2)).map fun k => Config.freeItem t .slotPixel i k
    moduleNr := freeBits 4 t .slotModule i 0
    triggerNr := freeBits 32 t .slotTrigger i 0
    startGate := freeBits 10 t .slotGate i 0
    frameNr := freeBits 3 t .slotFrame i 0 }

/-- A free slot-map entry. -/
def freeModmapEntry (t i : Nat) : Option (BitVec 4) :=
  let b := freeBits 5 t .modmap i 0
  if b.getLsbD 4 then some (b.setWidth 4) else none

/-- The cursor items unspecified after an imprecise fault, within the limits of 10_state.md R120
and R121 and 20_memory.md R209: CUR_SEG at most SEGQ_COUNT, OFF a multiple of 4 inside the current
segment and 0 with no segment. -/
def freeCursor (s : State) : Nat × Word :=
  let t := s.freeTick
  let cur := freeBelow t .curSeg 0 0 (s.segq.length + 1)
  match s.segq[cur]? with
  | some g => (cur, BitVec.ofNat 32 (4 * freeBelow t .off 0 0 (g.len.toNat / 4 + 1)))
  | none => (cur, 0)

/-- The items a faulting NEXT or SKIP leaves unspecified (60_exceptions.md R711). FSM keeps the value
it had when the fault struck (43_assembler.md R501). INFO, DATA_BUF, DATA_LEN and the E slots are
written only while decoding: SKIP leaves them unchanged (43_assembler.md R521; log 4). -/
def forgetWalk (decode : Bool) (s : State) : State :=
  let t := s.freeTick
  { s with
    curSeg := (freeCursor s).1
    off := (freeCursor s).2
    hdr0 := freeBits 32 t .hdr0 0 0
    hdr1 := freeBits 32 t .hdr1 0 0
    info := if decode then freeBits 32 t .info 0 0 else s.info
    dataBuf :=
      if decode then
        (List.range (4 * freeBelow t .dataLen 0 0 (Config.dataBufBytes / 4 + 1))).map fun k =>
          freeBits 8 t .dataByte 0 k
      else s.dataBuf
    runNumber := freeBits 32 t .runNumber 0 0
    eventNumber := freeBits 32 t .eventNumber 0 0
    eoi := freeBool t .eoi
    nmod := freeBelow t .nmod 0 0 17
    modmap := Vector.ofFn fun i : Fin 16 => freeModmapEntry t i.val
    mapValid := freeBool t .mapValid
    nslots := freeBelow t .nslots 0 0 129
    mats :=
      if decode then
        Vector.ofFn fun i : Fin 184 => if i.val < 128 then freeSlot t i.val else s.mats[i]
      else s.mats
    freeTick := t + 1 }

/-- A free list of at most MAX_PIXELS corrections. -/
def freeCorr (t : Nat) (len item : FaultItem) : List F64 :=
  (List.range (freeBelow t len 0 0 (Config.maxPixels + 1))).map fun k => Config.freeItem t item 0 k

/-- The items NUMERIC in CM_APPLY leaves unspecified (60_exceptions.md R711): the destination's
pixels (its shape is not written), CORR_ROW, CORR_COL and their lengths. -/
def forgetCm (dst : Nat) (s : State) : State :=
  let t := s.freeTick
  let m := readMat s dst
  { (writeMat dst
      { m with data := (List.range m.data.length).map fun k => Config.freeItem t .cmPixel 0 k } s) with
    corrRow := freeCorr t .corrRowLen .corrRow
    corrCol := freeCorr t .corrColLen .corrCol
    freeTick := t + 1 }

end Sys2Proof.Machine
end

