-- ==== Sys2Proof/Machine/Operands.lean ====
section
/-! DEFINITION. The operand forms of the commands: matrix ids, module numbers, sizes, views of the
data buffer; the checks of each and the info words of their faults. -/

namespace Sys2Proof.Machine

open Sys2Proof

/-- `raise F(info)` in a body (60_exceptions.md R710). -/
def raise {α : Type} (code : ErrCode) (info : Word) : Except Raise α := .error ⟨code, info⟩

/-! ### Ids (10_state.md R150, 30_encoding.md R331, 44_matrix.md R555) -/

/-- ILLEGAL_OPERAND on an operand field, whose value is the info word. -/
def illegalOperand {α : Type} (a : BitVec 8) : Except Raise α :=
  raise .illegalOperand (a.setWidth 32)

/-- Any matrix register: 0x00 to 0xB7. -/
def checkMat {α : Type} (a : BitVec 8) (k : Nat → Except Raise α) : Except Raise α :=
  if a.toNat < 184 then k a.toNat else illegalOperand a

/-- A destination that the matrix and converter commands may write: W[0..7], 0xB0 to 0xB7. -/
def checkWork {α : Type} (a : BitVec 8) (k : Nat → Except Raise α) : Except Raise α :=
  if 0xB0 ≤ a.toNat ∧ a.toNat ≤ 0xB7 then k a.toNat else illegalOperand a

/-- A matrix register or NONE (0xFF), where a rule allows it. -/
def checkMatOrNone {α : Type} (a : BitVec 8) (k : Option Nat → Except Raise α) : Except Raise α :=
  if a = 0xFF then k none else checkMat a fun i => k (some i)

/-- A module number: A above 15 raises (30_encoding.md R331). -/
def checkModule {α : Type} (a : BitVec 8) (k : Nat → Except Raise α) : Except Raise α :=
  if a.toNat ≤ 15 then k a.toNat else illegalOperand a

/-- Id of PED[m]. -/
def pedId (m : Nat) : Nat := 0x80 + m

/-- Id of NOISE[m]. -/
def noiseId (m : Nat) : Nat := 0x90 + m

/-- Id of MASK[m]. -/
def maskId (m : Nat) : Nat := 0xA0 + m

/-! ### Info words and sizes -/

/-- The info word of DIM_MISMATCH: the second id in bits 15:8, the first in bits 7:0
(44_matrix.md R553). -/
def pairInfo (second first : BitVec 8) : Word := (second ++ first).setWidth 32

/-- The info word of a 2D index: {y[15:0], x[15:0]} (44_matrix.md R554). -/
def xyInfo (x y : Word) : Word := y.extractLsb' 0 16 ++ x.extractLsb' 0 16

/-- The extents ARG_N0 x ARG_N1, or CAPACITY (44_matrix.md R560, 45_calibration.md R610, R621). -/
def checkExtents {α : Type} (s : State) (k : Nat → Nat → Except Raise α) : Except Raise α :=
  if Config.maxPixels < s.argN0.toNat ∨ Config.maxPixels < s.argN1.toNat
      ∨ Config.maxPixels < s.argN0.toNat * s.argN1.toNat then
    raise .capacity s.argN0
  else k s.argN0.toNat s.argN1.toNat

/-- A pixel is masked iff its mask element is not 0.0 (44_matrix.md R552). -/
def maskedAt (mask : Option Mat) (k : Nat) : Bool :=
  match mask with
  | none => false
  | some m => fNonZero (matElem m k)

/-! ### Views of the data buffer (41_stream.md R430, R431; 42_convert.md R452) -/

/-- The width of an element in bytes. -/
def elemSize : ElemType → Nat
  | .int8 => 1
  | .int16 => 2
  | .uint32 => 4

/-- Byte `p` of DATA_BUF; every rule reads it below DATA_LEN only (log 2). -/
def bufByte (buf : List Byte) (p : Nat) : Byte := buf.getD p 0

/-- The element at byte `p`, little-endian, as an integer. -/
def elemAt (t : ElemType) (buf : List Byte) (p : Nat) : Int :=
  match t with
  | .int8 => (bufByte buf p).toInt
  | .int16 => (le16 (bufByte buf p) (bufByte buf (p + 1))).toInt
  | .uint32 =>
    ((le32 (bufByte buf p) (bufByte buf (p + 1)) (bufByte buf (p + 2)) (bufByte buf (p + 3))).toNat
      : Int)

/-- The element type a view names by its code; a code above 2 raises (41_stream.md R432). -/
def checkElemType {α : Type} (a : BitVec 8) (k : ElemType → Except Raise α) : Except Raise α :=
  match a.toNat with
  | 0 => k .int8
  | 1 => k .int16
  | 2 => k .uint32
  | _ => illegalOperand a

/-- ViewExtent: the extents of a view over `len` bytes, a missing one (0) inferred from the other
(41_stream.md R430). -/
def viewExtent (t : ElemType) (len : Nat) (off : Word) (nX nY : Nat) : Except Raise (Nat × Nat) :=
  if len < off.toNat then raise .viewExtent off
  else
    let bytes := len - off.toNat
    if 0 < nX ∧ 0 < nY then
      if bytes < nX * nY * elemSize t then raise .viewExtent off else .ok (nX, nY)
    else if 0 < nX then .ok (nX, bytes / (nX * elemSize t))
    else if 0 < nY then .ok (bytes / (nY * elemSize t), nY)
    else .ok (bytes / elemSize t, 1)

end Sys2Proof.Machine
end

