-- ==== Sys2Proof/Machine/Convert.lean ====
section
/-! DEFINITION. The TopologyConverters (42_convert.md). The tables and the index arithmetic are
OPEN parameters of Config (R11, R452 to R458, log 11); the structure of the remap is here. -/

namespace Sys2Proof.Machine

open Sys2Proof

/-- Under mapping, the code G * INNER_T + j of the placement argument that element `e` goes to:
i = e div INNER_T, j = e mod INNER_T, G = (startGate + OFF_T + i) mod N_T (R454). -/
def scanCode (t : ConvKind) (startGate e : Nat) : Nat :=
  (startGate + Config.gateOffset t + e / Config.inner t) % Config.gates t * Config.inner t
    + e % Config.inner t

/-- The inverse of `scanCode`: the element whose placement argument is coded `p`. -/
def scanElement (t : ConvKind) (startGate p : Nat) : Nat :=
  (p / Config.inner t + (Config.gates t - (startGate + Config.gateOffset t) % Config.gates t))
      % Config.gates t * Config.inner t
    + p % Config.inner t

/-- `LUT_T(um, sg)`: the element that pixel `q` takes (R455, R456). -/
def lut (t : ConvKind) (useMapping : Bool) (startGate : Nat) (q : Fin t.npix) : Nat :=
  if useMapping then scanElement t startGate ((Config.place t).symm q).val
  else (Config.passthru t startGate q).val

/-- `CONSUMED_T`, the bytes a conversion takes (R453). -/
def consumed (t : ConvKind) : Nat := t.npix * elemSize (Config.elemType t)

/-- The pixels of a frame at byte `off` of the data buffer (R455). -/
def convertData (t : ConvKind) (useMapping : Bool) (off startGate : Nat) (buf : List Byte) :
    List F64 :=
  List.ofFn fun q : Fin t.npix =>
    fOfInt (elemAt (Config.elemType t) buf
      (off + lut t useMapping startGate q * elemSize (Config.elemType t)))

/-- The destination after a conversion: resized if its dimensions differ, then every pixel
overwritten; its tags stay (R459, 44_matrix.md R551). -/
def convertMat (t : ConvKind) (d : List F64) (m : Mat) : Mat :=
  let m' := if (m.nX, m.nY) = t.dims then m else matResize t.dims.1 t.dims.2 m
  { m' with data := d }

/-- Convert (R459): one frame at byte `off` into matrix register `dst`. The bytes it consumes are
`consumed t`. -/
def convert (t : ConvKind) (useMapping : Bool) (dst off startGate : Nat) (s : State) :
    Except Raise State :=
  if s.dataBuf.length < off ∨ s.dataBuf.length - off < consumed t then
    raise .viewExtent (BitVec.ofNat 32 off)
  else
    .ok (writeMat dst
      (convertMat t (convertData t useMapping off startGate s.dataBuf) (readMat s dst)) s)

/-- The start gates a conversion command accepts: 7 bits in the authoritative layout, 10 in the
legacy one (R460, D51). -/
def gateLimit (s : State) : Nat := if s.cfgInfoLayout = 0 then 2 ^ 7 else 2 ^ 10

/-- A conversion command of kind `t` (R460 to R464): A is the destination, ARG_N0 the byte offset,
ARG_N1 the start gate. -/
def convCommand (t : ConvKind) (useMapping : Bool) (a : BitVec 8) (s : State) : Result :=
  command s
    (checkWork a fun dst =>
      if gateLimit s ≤ s.argN1.toNat then raise .illegalOperand s.argN1
      else
        match convert t useMapping dst s.argN0.toNat s.argN1.toNat s with
        | .ok s' => .ok { s' with resN0 := BitVec.ofNat 32 (consumed t) }
        | .error r => .error r)

/-- CONV_S3A (R460). -/
def execConvS3A (a : BitVec 8) (s : State) : Result := convCommand .s3a true a s

/-- CONV_S3B2 (R461). -/
def execConvS3B2 (a : BitVec 8) (s : State) : Result := convCommand .s3b2 true a s

/-- CONV_S3B4 (R462). -/
def execConvS3B4 (a : BitVec 8) (s : State) : Result := convCommand .s3b4 true a s

/-- CONV_DCD2 (R463): useMapping is CFG_USE_MAPPING. -/
def execConvDCD2 (a : BitVec 8) (s : State) : Result :=
  convCommand .dcd2 (s.cfgUseMapping == 1) a s

/-- CONV_DCD4 (R464): useMapping is CFG_USE_MAPPING. -/
def execConvDCD4 (a : BitVec 8) (s : State) : Result :=
  convCommand .dcd4 (s.cfgUseMapping == 1) a s

end Sys2Proof.Machine
end

