-- ==== Sys2Proof/Machine/Flags.lean ====
section
/-! DEFINITION. The status flags (10_state.md R103) and the register words composed of flags and
counts (10_state.md R195). The block has no arithmetic condition codes. -/

namespace Sys2Proof.Machine

open Sys2Proof

/-- The code byte of a fault (60_exceptions.md R700). -/
def errCodeByte : ErrCode → BitVec 8
  | .none => 0x00
  | .viewExtent => 0x01
  | .dimMismatch => 0x02
  | .outOfBounds => 0x03
  | .truncatedEvent => 0x04
  | .truncatedRecord => 0x05
  | .size => 0x06
  | .reservedDevType => 0x07
  | .reservedEvType => 0x08
  | .unexpectedRecord => 0x09
  | .duplicateModule => 0x0A
  | .unknownModule => 0x0B
  | .config => 0x0C
  | .badOperand => 0x0D
  | .numeric => 0x0E
  | .unsupported => 0x0F
  | .notOpen => 0x10
  | .illegalCommand => 0x11
  | .illegalOperand => 0x12
  | .overrun => 0x13
  | .capacity => 0x14

/-- The FSM encodings (10_state.md R103). -/
def fsmBits : Fsm → BitVec 2
  | .waitGroup => 0
  | .readingModules => 1
  | .eventReady => 2

/-- STATUS: [0] BUSY, [1] FAULT, [2] OPEN, [3] EOI, [4] LIMIT, [5] MAP_VALID, [7:6] FSM. -/
def statusWord (s : State) : Word :=
  (0 : BitVec 24) ++ fsmBits s.fsm ++ BitVec.ofBool s.mapValid ++ BitVec.ofBool s.limit
    ++ BitVec.ofBool s.eoi ++ BitVec.ofBool s.opened ++ BitVec.ofBool s.fault
    ++ BitVec.ofBool s.busy

/-- The NSLOTS register: [7:0] NSLOTS, [15:8] NMOD, [18:16] T_LATCH. -/
def nslotsWord (s : State) : Word :=
  (0 : BitVec 13) ++ s.tLatch ++ BitVec.ofNat 8 s.nmod ++ BitVec.ofNat 8 s.nslots

/-- MODMAP[m]: [31] valid, [3:0] ordinal, [14:8] base slot = ordinal * (1 + T_LATCH). -/
def modmapWord (s : State) (m : BitVec 4) : Word :=
  match readModmap s m with
  | none => 0
  | some o =>
    (1 : BitVec 1) ++ (0 : BitVec 16) ++ BitVec.ofNat 7 (o.toNat * (1 + s.tLatch.toNat))
      ++ (0 : BitVec 4) ++ o

/-- Closing the stream, as ABORT does: OPEN, EOI, LIMIT and MAP_VALID cleared, FSM in WAIT_GROUP
(40_system.md R392). -/
def clearFlags (s : State) : State :=
  { s with opened := false, eoi := false, limit := false, mapValid := false, fsm := .waitGroup }

/-- The slot map emptied: NMOD, NSLOTS 0 and every MODMAP entry invalid (40_system.md R392,
41_stream.md R404). -/
def clearMap (s : State) : State :=
  { s with nmod := 0, nslots := 0, modmap := Vector.replicate 16 none }

end Sys2Proof.Machine
end

