-- ==== Sys2Proof/Machine/Stream.lean ====
section
/-! DEFINITION. The FrameStream: its routines ReadHeader, ReadData, SkipData, SkipWords, and its
commands (41_stream.md). -/

namespace Sys2Proof.Machine

open Sys2Proof

/-- NOT_OPEN unless the stream is open (R400). -/
def needOpen (s : State) (k : Except Raise State) : Except Raise State :=
  if s.opened then k else raise .notOpen s.pending

/-! ### Routines -/

/-- The search of ReadHeader from a segment index and an offset: the first segment with 8 bytes
left, or the cursor past the last one (R410, R412). -/
def scanHeader : List Seg → Nat → Nat → Nat × Nat × Option Seg
  | [], cur, off => (cur, off, none)
  | g :: rest, cur, off =>
    if 8 ≤ g.len.toNat - off then (cur, off, some g) else scanHeader rest (cur + 1) 0

/-- ReadHeader (R410): the state after it, and whether a header was read (OK) or the input has
ended (END). -/
def readHeader (s : State) : State × Bool :=
  match scanHeader (s.segq.drop s.curSeg) s.curSeg s.off.toNat with
  | (cur, off, none) => ({ s with curSeg := cur, off := BitVec.ofNat 32 off, eoi := true }, false)
  | (cur, off, some g) =>
    ({ s with
        curSeg := cur
        off := BitVec.ofNat 32 (off + 8)
        hdr0 := memWord s.inMem (g.base.toNat + off)
        hdr1 := memWord s.inMem (g.base.toNat + off + 4)
        eoi := false }, true)

/-- The check of every read inside a record: `need` bytes left in the current segment, or
TRUNCATED_RECORD (R420, R425, R426). The continuation gets the address of the read. -/
def inSegment (s : State) (need : Nat) (k : Nat → Except Raise State) : Except Raise State :=
  match s.segq[s.curSeg]? with
  | none => raise .truncatedRecord s.off
  | some g =>
    if g.len.toNat - s.off.toNat < need then raise .truncatedRecord s.off
    else k (g.base.toNat + s.off.toNat)

/-- The cursor moved over `need` bytes of the current segment (10_state.md R121). -/
def advance (need : Nat) (s : State) : State := { s with off := BitVec.ofNat 32 (s.off.toNat + need) }

/-- ReadData(n) (R420): the info word and 4n payload bytes. -/
def readData (n : Nat) (s : State) : Except Raise State :=
  if Config.dataBufBytes < 4 * n then raise .capacity (BitVec.ofNat 32 n)
  else
    inSegment s (4 * (1 + n)) fun a =>
      .ok (advance (4 * (1 + n))
        { s with info := memWord s.inMem a, dataBuf := memReadN s.inMem (a + 4) (4 * n) })

/-- SkipData(n) (R425). -/
def skipData (n : Nat) (s : State) : Except Raise State :=
  inSegment s (4 * (1 + n)) fun _ => .ok (advance (4 * (1 + n)) s)

/-- SkipWords(k) (R426). -/
def skipWords (k : Nat) (s : State) : Except Raise State :=
  if k = 0 then .ok s else inSegment s (4 * k) fun _ => .ok (advance (4 * k) s)

/-! ### Commands -/

/-- SEG_PUSH (R402). -/
def execSegPush (s : State) : Result :=
  command s
    (if s.segq.length = Config.segqDepth then raise .capacity (BitVec.ofNat 32 Config.segqDepth)
    else if 2 ^ 32 < s.argN0.toNat + s.argN1.toNat then raise .illegalOperand s.argN0
    else
      .ok { s with
        segq := s.segq ++ [⟨s.argN0, s.argN1⟩]
        resN0 := BitVec.ofNat 32 (s.segq.length + 1) })

/-- SEG_CLEAR (R403). -/
def execSegClear (s : State) : Result :=
  command s (.ok { s with segq := [], curSeg := 0, off := 0, opened := false, eoi := false })

/-- OPEN (R404). -/
def execOpenStream (s : State) : Result :=
  command s
    (.ok { clearMap (clearFlags s) with
      opened := true, curSeg := 0, off := 0
      tLatch := s.cfgTrailing
      runNumber := 0, eventNumber := 0, eventCount := 0
      resN0 := if 0 < s.segq.length then 1 else 0 })

/-- OPEN_NEXT (R405). -/
def execOpenNext (s : State) : Result :=
  command s
    (needOpen s
      (.ok { s with
        curSeg := if s.curSeg < s.segq.length then s.curSeg + 1 else s.curSeg
        off := if s.curSeg < s.segq.length then 0 else s.off
        resN0 := if s.curSeg + 1 < s.segq.length then 1 else 0 }))

/-- READ_HEADER (R411). -/
def execReadHeader (s : State) : Result :=
  command s
    (needOpen s
      (match readHeader s with
      | (s', true) => .ok { s' with resN0 := 1, resN1 := s'.hdr0, resN2 := s'.hdr1 }
      | (s', false) => .ok { s' with resN0 := 0 }))

/-- READ_DATA (R421). -/
def execReadData (s : State) : Result :=
  command s
    (needOpen s
      (match readData s.argN0.toNat s with
      | .ok s' => .ok { s' with resN0 := s'.info, resN1 := BitVec.ofNat 32 s'.dataBuf.length }
      | .error r => .error r))

/-- SKIP_DATA (R425). -/
def execSkipData (s : State) : Result :=
  command s
    (needOpen s
      (match skipData s.argN0.toNat s with
      | .ok s' => .ok { s' with resN0 := s'.off }
      | .error r => .error r))

/-- VIEW_READ (R432): A is the element type, ARG_N0 the byte offset, ARG_N1 the extents {nY, nX},
ARG_N2 the index {y, x}. -/
def execViewRead (a : BitVec 8) (s : State) : Result :=
  let x := (s.argN2.extractLsb' 0 16).toNat
  let y := (s.argN2.extractLsb' 16 16).toNat
  command s
    (checkElemType a fun t =>
      match viewExtent t s.dataBuf.length s.argN0 (s.argN1.extractLsb' 0 16).toNat
          (s.argN1.extractLsb' 16 16).toNat with
      | .error r => .error r
      | .ok (nX, nY) =>
        if nX ≤ x ∨ nY ≤ y then raise .outOfBounds s.argN2
        else
          let v := elemAt t s.dataBuf (s.argN0.toNat + (x * nY + y) * elemSize t)
          .ok { s with
            resN0 := BitVec.ofInt 32 v
            resN1 := BitVec.ofNat 32 nX
            resN2 := BitVec.ofNat 32 nY
            resF := fOfInt v })

end Sys2Proof.Machine
end

