-- ==== Sys2Proof/Machine/Assembler.lean ====
section
/-! DEFINITION. The EventAssembler (43_assembler.md): what the walk does on each record kind, the
walk itself, and the commands NEXT and SKIP that run it. The locals of the rules' pseudocode stand
in `State.walk` while a NEXT or SKIP is in execution (log 6). -/

namespace Sys2Proof.Machine

open Sys2Proof

/-- NEXT decodes the data it walks over, SKIP does not (R510, R521). -/
def decodes : WalkCmd → Bool
  | .next => true
  | .skip _ _ => false

/-- The walk put at a place. -/
def setPlace (c : WalkCmd) (p : Place) (s : State) : State := { s with walk := some ⟨c, p⟩ }

/-- The end of the command that walks. -/
def endWalk (s : State) : State := finish { s with walk := none }

/-- A fault inside NEXT or SKIP, from the state in which it struck: imprecise, the items of
60_exceptions.md R711 are forgotten (R524), but for FSM (R501). -/
def walkFault (c : WalkCmd) (r : Raise) (s : State) : State := faultEntry r (forgetWalk (decodes c) s)

/-! ### Decoding a blob (R506 to R508) -/

/-- The converter of a data-bearing record kind and its useMapping, or CONFIG (R506). -/
def dispatchConv (k : RecKind) (s : State) : Except Raise (ConvKind × Bool) :=
  match k with
  | .depfet128 =>
    if s.cfgFold = 2 then .ok (.s3b2, true)
    else if s.cfgFold = 4 then .ok (.s3b4, true)
    else raise .config (s.cfgFold.setWidth 32)
  | .depfetDcd =>
    if s.cfgFold = 2 then .ok (.dcd2, s.cfgUseMapping == 1)
    else if s.cfgFold = 4 then .ok (.dcd4, s.cfgUseMapping == 1)
    else raise .config (s.cfgFold.setWidth 32)
  | _ => .ok (.s3a, true)

/-- The four tags of an E slot (R507, R508). -/
def tagSlot (slot f : Nat) (h : RecHdr) (gate : BitVec 10) (s : State) : State :=
  writeMat slot
    { readMat s slot with
      moduleNr := h.moduleNo, triggerNr := h.trigger, startGate := gate
      frameNr := BitVec.ofNat 3 f } s

/-- The frames of a blob from frame `f` on, `left` of them, packed back to back (R507). `base` is
the module's first slot. -/
def decodeFrames (t : ConvKind) (um : Bool) (h : RecHdr) (gate : BitVec 10) (base : Nat) :
    Nat → Nat → Nat → State → Except Raise State
  | 0, _, _, s => .ok s
  | left + 1, f, off, s =>
    match convert t um (base + f) off gate.toNat s with
    | .error r => .error r
    | .ok s' =>
      decodeFrames t um h gate base left (f + 1) (off + consumed t)
        (tagSlot (base + f) f h gate s')

/-- DecodeBlob (R507) for the module with ordinal `ord`. -/
def decodeBlob (k : RecKind) (h : RecHdr) (ord : BitVec 4) (s : State) : Except Raise State :=
  let i := decodeInfo s.info s.cfgInfoLayout
  if i.zerosupp = 1 then raise .unsupported s.info
  else
    match dispatchConv k s with
    | .error r => .error r
    | .ok (t, um) =>
      decodeFrames t um h i.startGate (ord.toNat * (1 + s.tLatch.toNat)) (1 + s.tLatch.toNat) 0 0 s

/-! ### What the walk does with a record -/

/-- A record kind outside a group where it may not stand (R503, D8). -/
def unexpectedTop (_c : WalkCmd) (s : State) : Except Raise State := raise .unexpectedRecord s.hdr0

/-- A GROUP inside a group (R504, D8). -/
def unexpectedNested (_c : WalkCmd) (_seen : List (BitVec 4)) (_est : Bool) (s : State) :
    Except Raise (State × List (BitVec 4)) := raise .unexpectedRecord s.hdr0

/-- The words of a record's body: eventSize - 2 (30_encoding.md R308). -/
def bodyWords (h : RecHdr) : Nat := h.eventSize.toNat - 2

/-- A run-bracket marker at the top level: its body is skipped (R503, R516). -/
def skipTop (h : RecHdr) (_c : WalkCmd) (s : State) : Except Raise State := skipWords (bodyWords h) s

/-- An ignored record inside a group: its body is skipped (R504). -/
def skipNested (h : RecHdr) (_c : WalkCmd) (seen : List (BitVec 4)) (_est : Bool) (s : State) :
    Except Raise (State × List (BitVec 4)) :=
  match skipWords (bodyWords h) s with
  | .ok s' => .ok (s', seen)
  | .error r => .error r

/-- An INFO record at the top level: the run number, and its body skipped (R503, R515). -/
def infoTop (h : RecHdr) (_c : WalkCmd) (s : State) : Except Raise State :=
  skipWords (bodyWords h) { s with runNumber := h.trigger }

/-- An INFO record inside a group (R504, R515). -/
def infoNested (h : RecHdr) (c : WalkCmd) (seen : List (BitVec 4)) (est : Bool) (s : State) :
    Except Raise (State × List (BitVec 4)) :=
  skipNested h c seen est { s with runNumber := h.trigger }

/-- A DATA group at the top level: the event number, and the walk enters the group
(R503, R504, R510, R521). -/
def enterGroup (h : RecHdr) (c : WalkCmd) (s : State) : Except Raise State :=
  .ok (setPlace c (.group (bodyWords h) [] (!s.mapValid))
    { s with eventNumber := h.trigger, fsm := .readingModules })

/-- The slot map while it is being established: module `m` takes the next ordinal (R505, R512). -/
def addModule (m : BitVec 4) (s : State) : State :=
  { s with
    modmap := s.modmap.setIfInBounds m.toNat (some (BitVec.ofNat 4 s.nmod))
    nmod := s.nmod + 1 }

/-- The data of a record whose module the map knows: read and decoded, or skipped (R505). -/
def takeData (k : RecKind) (h : RecHdr) (decode : Bool) (s : State) : Except Raise State :=
  if decode then
    match readData (h.eventSize.toNat - 3) s with
    | .ok s' => decodeBlob k h ((readModmap s' h.moduleNo).getD 0) s'
    | .error r => .error r
  else skipData (h.eventSize.toNat - 3) s

/-- DataRecord (R505): one data-bearing record inside a group. -/
def dataNested (k : RecKind) (h : RecHdr) (c : WalkCmd) (seen : List (BitVec 4)) (est : Bool)
    (s : State) : Except Raise (State × List (BitVec 4)) :=
  if h.eventSize.toNat < 3 then raise .size s.hdr0
  else if h.moduleNo ∈ seen then raise .duplicateModule (h.moduleNo.setWidth 32)
  else if !est && (readModmap s h.moduleNo).isNone then
    raise .unknownModule (h.moduleNo.setWidth 32)
  else
    match takeData k h (decodes c) (if est then addModule h.moduleNo s else s) with
    | .ok s' => .ok (s', h.moduleNo :: seen)
    | .error r => .error r

/-- Taking a record whose header has just been read: the size check (R502), then its meaning
outside a group (R503) or inside one, where its words are counted off (R504). -/
def takeRecord (h : RecHdr) (top : WalkCmd → State → Except Raise State)
    (nested : WalkCmd → List (BitVec 4) → Bool → State → Except Raise (State × List (BitVec 4)))
    (w : Walk) (s : State) : Except Raise State :=
  if h.eventSize.toNat < 2 then raise .size s.hdr0
  else
    match w.place with
    | .top => top w.cmd s
    | .group remaining seen est =>
      if remaining < h.eventSize.toNat then raise .size s.hdr0
      else
        match nested w.cmd seen est s with
        | .ok (s', seen') =>
          .ok (setPlace w.cmd (.group (remaining - h.eventSize.toNat) seen' est) s')
        | .error r => .error r

/-! ### The record kinds (30_encoding.md R311) -/

/-- GROUP/RUN_BEGIN (R516). -/
def bodyGroupRunBegin (h : RecHdr) : Walk → State → Except Raise State :=
  takeRecord h (skipTop h) unexpectedNested

/-- GROUP/RUN_END (R516). -/
def bodyGroupRunEnd (h : RecHdr) : Walk → State → Except Raise State :=
  takeRecord h (skipTop h) unexpectedNested

/-- GROUP/DATA (R503, R504). -/
def bodyGroupData (h : RecHdr) : Walk → State → Except Raise State :=
  takeRecord h (enterGroup h) unexpectedNested

/-- DEPFET (R505, R506: the S3A converter). -/
def bodyDepfet (h : RecHdr) : Walk → State → Except Raise State :=
  takeRecord h unexpectedTop (dataNested .depfet h)

/-- DEPFET_128 (R505, R506: the S3B converters). -/
def bodyDepfet128 (h : RecHdr) : Walk → State → Except Raise State :=
  takeRecord h unexpectedTop (dataNested .depfet128 h)

/-- DEPFET_DCD (R505, R506: the DCD converters). -/
def bodyDepfetDcd (h : RecHdr) : Walk → State → Except Raise State :=
  takeRecord h unexpectedTop (dataNested .depfetDcd h)

/-- BAT (R504, R505: ignored). -/
def bodyBat (h : RecHdr) : Walk → State → Except Raise State :=
  takeRecord h unexpectedTop (skipNested h)

/-- TPLL (R504, R505: ignored). -/
def bodyTpll (h : RecHdr) : Walk → State → Except Raise State :=
  takeRecord h unexpectedTop (skipNested h)

/-- UNKNOWN (R504, R505: ignored). -/
def bodyUnknown (h : RecHdr) : Walk → State → Except Raise State :=
  takeRecord h unexpectedTop (skipNested h)

/-- TLU (R504, R505: ignored). -/
def bodyTlu (h : RecHdr) : Walk → State → Except Raise State :=
  takeRecord h unexpectedTop (skipNested h)

/-- INFO (R515). -/
def bodyInfo (h : RecHdr) : Walk → State → Except Raise State :=
  takeRecord h (infoTop h) (infoNested h)

/-- OTHER (R504, R505: ignored). -/
def bodyOther (h : RecHdr) : Walk → State → Except Raise State :=
  takeRecord h unexpectedTop (skipNested h)

/-- What the walk does with a record of a kind. -/
def recordBody (k : RecKind) (h : RecHdr) : Walk → State → Except Raise State :=
  match k with
  | .groupRunBegin => bodyGroupRunBegin h
  | .groupRunEnd => bodyGroupRunEnd h
  | .groupData => bodyGroupData h
  | .depfet => bodyDepfet h
  | .depfet128 => bodyDepfet128 h
  | .depfetDcd => bodyDepfetDcd h
  | .bat => bodyBat h
  | .tpll => bodyTpll h
  | .unknown => bodyUnknown h
  | .tlu => bodyTlu h
  | .info => bodyInfo h
  | .other => bodyOther h

/-- A record as an instruction: the walk in execution takes it, and goes on or faults. A record that
no walk takes has no effect (log 6). -/
def runRecord (body : Walk → State → Except Raise State) (s : State) : Result :=
  match s.walk with
  | none => .next s
  | some w =>
    match body w s with
    | .ok s' => .next s'
    | .error r => .next (walkFault w.cmd r s)

/-- The record GROUP/RUN_BEGIN. -/
def execGroupRunBegin (h : RecHdr) (s : State) : Result := runRecord (bodyGroupRunBegin h) s
/-- The record GROUP/RUN_END. -/
def execGroupRunEnd (h : RecHdr) (s : State) : Result := runRecord (bodyGroupRunEnd h) s
/-- The record GROUP/DATA. -/
def execGroupData (h : RecHdr) (s : State) : Result := runRecord (bodyGroupData h) s
/-- The record DEPFET. -/
def execDepfet (h : RecHdr) (s : State) : Result := runRecord (bodyDepfet h) s
/-- The record DEPFET_128. -/
def execDepfet128 (h : RecHdr) (s : State) : Result := runRecord (bodyDepfet128 h) s
/-- The record DEPFET_DCD. -/
def execDepfetDcd (h : RecHdr) (s : State) : Result := runRecord (bodyDepfetDcd h) s
/-- The record BAT. -/
def execBat (h : RecHdr) (s : State) : Result := runRecord (bodyBat h) s
/-- The record TPLL. -/
def execTpll (h : RecHdr) (s : State) : Result := runRecord (bodyTpll h) s
/-- The record UNKNOWN. -/
def execUnknown (h : RecHdr) (s : State) : Result := runRecord (bodyUnknown h) s
/-- The record TLU. -/
def execTlu (h : RecHdr) (s : State) : Result := runRecord (bodyTlu h) s
/-- The record INFO. -/
def execInfo (h : RecHdr) (s : State) : Result := runRecord (bodyInfo h) s
/-- The record OTHER. -/
def execOther (h : RecHdr) (s : State) : Result := runRecord (bodyOther h) s

/-! ### The walk (R503, R504, R510, R521) -/

/-- True end of input at the top level: NEXT gives 0, SKIP the number of events skipped
(R503, R510, R521). DEDUCED (log 21): NEXT leaves the E slots here, so after SKIP n on fewer than
n + 1 events they hold what they held before the SKIP, and not the last event, which n + 1 NEXTs leave;
R522's inference speaks of equal E slots without excluding this. -/
def walkEnd (c : WalkCmd) (s : State) : State :=
  match c with
  | .next => endWalk { s with resN0 := 0 }
  | .skip _ k => endWalk { s with fsm := .waitGroup, resN0 := BitVec.ofNat 32 k }

/-- An event whose group is consumed: NEXT delivers it; SKIP counts it and goes on to the next
(R510, R521). -/
def eventDone (c : WalkCmd) (s : State) : State :=
  match c with
  | .next =>
    endWalk { s with
      fsm := .eventReady, eventCount := s.eventCount + 1
      resN0 := 1, resN1 := s.eventNumber, resN2 := s.runNumber }
  | .skip n k =>
    if k + 1 < n then setPlace (.skip n (k + 1)) .top { s with fsm := .waitGroup }
    else endWalk { s with fsm := .waitGroup, resN0 := BitVec.ofNat 32 (k + 1) }

/-- The end of a group: the slot map is established, or every module of it must have been seen
(R504, R512, R514). -/
def closeGroup (c : WalkCmd) (seen : List (BitVec 4)) (est : Bool) (s : State) :
    Except Raise State :=
  if est then
    .ok (eventDone c { s with mapValid := true, nslots := s.nmod * (1 + s.tLatch.toNat) })
  else if seen.length < s.nmod then raise .truncatedEvent (BitVec.ofNat 32 seen.length)
  else .ok (eventDone c s)

/-- What the walk fetches next: nothing more to fetch (the command went on without a record), a
fault of the fetch, or a record with the state after its header was read. -/
inductive Fetched where
  | moved (s : State)
  | faulted (r : Raise)
  | record (k : RecKind) (h : RecHdr) (s : State)

/-- The fault of a header whose codes are reserved (R502). -/
def headerFault (e : DecodeError) (s : State) : Raise :=
  match e with
  | .reservedDevType => ⟨.reservedDevType, s.hdr0⟩
  | _ => ⟨.reservedEvType, s.hdr0⟩

/-- Reading and decoding the next header, or what stands in its place (R502 to R504). -/
def fetchRecord (w : Walk) (s : State) : Fetched :=
  match w.place with
  | .group 0 seen est =>
    match closeGroup w.cmd seen est s with
    | .ok s' => .moved s'
    | .error r => .faulted r
  | .group 1 _ _ => .faulted ⟨.size, 1⟩
  | p =>
    match readHeader s with
    | (s', false) =>
      match p with
      | .top => .moved (walkEnd w.cmd s')
      | .group remaining _ _ => .faulted ⟨.truncatedEvent, BitVec.ofNat 32 remaining⟩
    | (s', true) =>
      match decodeRecord s'.hdr0 s'.hdr1 with
      | .ok (k, h) => .record k h s'
      | .error e => .faulted (headerFault e s')

/-- One action of the walk: a record taken, a group closed, or the command ended. -/
def walkStep (w : Walk) (s : State) : Except Raise State :=
  match fetchRecord w s with
  | .moved s' => .ok s'
  | .faulted r => .error r
  | .record k h s' => recordBody k h w s'

/-- The walk run until its command has ended or faulted, at most the given number of actions; none if
they do not suffice. -/
def walkRun : Nat → State → Option State
  | 0, _ => none
  | fuel + 1, s =>
    match s.walk with
    | none => some s
    | some w =>
      match walkStep w s with
      | .error r => some (walkFault w.cmd r s)
      | .ok s' => walkRun fuel s'

/-- The bound on the actions of a walk: every one reads a header of 8 bytes of a queued segment, or
closes the group a header opened, or is the last (70_reset_and_hazards.md R841). -/
def walkBound (s : State) : Nat := (s.segq.map fun g => g.len.toNat).sum + 4

/-- A command run as one walk from the top level (R510, R521). -/
def runWalk (c : WalkCmd) (s : State) : Result :=
  match walkRun (walkBound s) (setPlace c .top { s with fsm := .waitGroup }) with
  | some s' => .next s'
  | none => .fault .walkUnbounded

/-! ### The commands -/

/-- NEXT (R510), with the event limit of R520. At the limit FSM ends in WAIT_GROUP as R501 says; the
pseudocode of R510 does not write it there (log 17). -/
def execNext (s : State) : Result :=
  if s.fault then .next (finish s)
  else if !s.opened then .next (faultEntry ⟨.notOpen, s.pending⟩ s)
  else if s.cfgMaxEvents ≠ 0 ∧ s.cfgMaxEvents.toNat ≤ s.eventCount.toNat then
    .next (finish { s with fsm := .waitGroup, limit := true, resN0 := 0 })
  else runWalk .next s

/-- SKIP (R521). -/
def execSkip (s : State) : Result :=
  if s.fault then .next (finish s)
  else if !s.opened then .next (faultEntry ⟨.notOpen, s.pending⟩ s)
  else if s.argN0 = 0 then .next (finish { s with fsm := .waitGroup, resN0 := 0 })
  else runWalk (.skip s.argN0.toNat 0) s

end Sys2Proof.Machine
end

