-- ==== Sys2Proof/Machine/Matrix.lean ====
section
/-! DEFINITION. The ValueMatrix commands (44_matrix.md). -/

namespace Sys2Proof.Machine

open Sys2Proof

/-- MRESIZE (R560). -/
def execMresize (a : BitVec 8) (s : State) : Result :=
  command s
    (checkWork a fun i => checkExtents s fun nX nY =>
      .ok (writeMat i (matResize nX nY (readMat s i)) s))

/-- The flat index of ARG_N0, ARG_N1 as a 2D index of a matrix, or OUT_OF_BOUNDS (R550, R554). -/
def checkXY (s : State) (m : Mat) (k : Nat → Except Raise State) : Except Raise State :=
  if m.nX ≤ s.argN0.toNat ∨ m.nY ≤ s.argN1.toNat then raise .outOfBounds (xyInfo s.argN0 s.argN1)
  else k (s.argN0.toNat * m.nY + s.argN1.toNat)

/-- ARG_N0 as a flat index of a matrix, or OUT_OF_BOUNDS (R554). -/
def checkFlat (s : State) (n : Nat) (k : Nat → Except Raise State) : Except Raise State :=
  if n ≤ s.argN0.toNat then raise .outOfBounds s.argN0 else k s.argN0.toNat

/-- MGET (R561). -/
def execMget (a : BitVec 8) (s : State) : Result :=
  command s
    (checkMat a fun i => checkXY s (readMat s i) fun k =>
      .ok { s with resF := matElem (readMat s i) k })

/-- MPUT (R562). -/
def execMput (a : BitVec 8) (s : State) : Result :=
  command s
    (checkWork a fun i => checkXY s (readMat s i) fun k =>
      .ok (writeMat i (matPut k s.argX (readMat s i)) s))

/-- MGETF (R563). -/
def execMgetf (a : BitVec 8) (s : State) : Result :=
  command s
    (checkMat a fun i => checkFlat s (matPixels (readMat s i)) fun k =>
      .ok { s with resF := matElem (readMat s i) k })

/-- MPUTF (R564). -/
def execMputf (a : BitVec 8) (s : State) : Result :=
  command s
    (checkWork a fun i => checkFlat s (matPixels (readMat s i)) fun k =>
      .ok (writeMat i (matPut k s.argX (readMat s i)) s))

/-- An element-wise command: A (W only), B (any), equal shapes or DIM_MISMATCH; element k of A
becomes `f k a b` (R553, R555, R557). -/
def elementwise (a b : BitVec 8) (f : Nat → F64 → F64 → F64) (s : State) : Result :=
  command s
    (checkWork a fun i => checkMat b fun j =>
      if sameDims (readMat s i) (readMat s j) then
        let d := (readMat s i).data.mapIdx fun k v => f k v (matElem (readMat s j) k)
        .ok (draw (writeMat i { readMat s i with data := d } s))
      else raise .dimMismatch (pairInfo b a))

/-- MADD (R565): `a +f (s *f b)`. -/
def execMadd (a b : BitVec 8) (s : State) : Result :=
  elementwise a b
    (fun k v w => fAdd (nanAt s 0 k) v (fMul (nanAt s 1 k) s.argX w)) s

/-- MSUB (R566): `a -f (s *f b)`. -/
def execMsub (a b : BitVec 8) (s : State) : Result :=
  elementwise a b
    (fun k v w => fSub (nanAt s 0 k) v (fMul (nanAt s 1 k) s.argX w)) s

/-- MSET (R567): `s *f b`. -/
def execMset (a b : BitVec 8) (s : State) : Result :=
  elementwise a b (fun k _ w => fMul (nanAt s 1 k) s.argX w) s

/-- The tag word of MINFO: startGate in bits 25:16, frameNr in 10:8, moduleNr in 3:0 (R568). -/
def tagWord (m : Mat) : Word :=
  (0 : BitVec 6) ++ m.startGate ++ (0 : BitVec 5) ++ m.frameNr ++ (0 : BitVec 4) ++ m.moduleNr

/-- MINFO (R568). -/
def execMinfo (a : BitVec 8) (s : State) : Result :=
  command s
    (checkMat a fun i =>
      let m := readMat s i
      .ok { s with
        resN0 := BitVec.ofNat 32 m.nX, resN1 := BitVec.ofNat 32 m.nY, resN2 := tagWord m })

/-- MTRIG (R569). -/
def execMtrig (a : BitVec 8) (s : State) : Result :=
  command s (checkMat a fun i => .ok { s with resN0 := (readMat s i).triggerNr })

end Sys2Proof.Machine
end

