-- ==== Sys2Proof/Machine/Calibration.lean ====
section
/-! DEFINITION. The CalibrationEngine: the accumulator update and its commands
(45_calibration.md). -/

namespace Sys2Proof.Machine

open Sys2Proof

/-! ### The update (R600 to R603) -/

/-- A bad sigma cut, NaN or negative, is a bad configuration value: CONFIG with the offset of
CFG_SIGMA_CUT_LO (R600). -/
def checkCut (c : F64) (k : Except Raise State) : Except Raise State :=
  if fIsNaN c || fLt c fZero then raise .config 0x098 else k

/-- The checks of Add: the sample, the weight, the cut, in this order (R600). -/
def checkSample (x w c : F64) (k : Except Raise State) : Except Raise State :=
  if !fFinite x then raise .badOperand 0
  else if !fFinite w || !fLt fZero w then raise .badOperand 1
  else checkCut c k

/-- `sigmaf`: sqrtf(var /f entries), a NaN at zero entries (R602). `nan` gives the NaN of each
numbered operation. -/
def sigma (nan : Nat → F64) (p : AccCell) : F64 :=
  fSqrt (nan 1) (fDiv (nan 0) p.var p.entries)

/-- The rejection test, with the pixel's own mean and sigma from before the update (R600, R603). DEDUCED
(log 20): under the cut +inf, a pixel with var 0 has the bound 0 *f inf, a NaN, so R600's formula
accepts every sample, where R603's inference from it says that one off the mean is rejected. -/
def rejects (nan : Nat → F64) (x c : F64) (p : AccCell) : Bool :=
  fLt fZero c && fLt (fMul (nan 3) (sigma nan p) c) (fAbs (fSub (nan 2) x p.mean))

/-- The accepted update (R600), with C's left-to-right grouping. -/
def welford (nan : Nat → F64) (x w : F64) (p : AccCell) : AccCell :=
  let e1 := fAdd (nan 4) p.entries w
  let d := fSub (nan 2) x p.mean
  let wd := fMul (nan 5) w d
  let mu1 := fAdd (nan 7) p.mean (fDiv (nan 6) wd e1)
  { entries := e1
    mean := mu1
    var := fAdd (nan 10) p.var (fMul (nan 9) wd (fSub (nan 8) x mu1)) }

/-- Add without its checks (R600): the pixel after it, and whether the sample was accepted. -/
def addSample (nan : Nat → F64) (x w c : F64) (p : AccCell) : AccCell × Bool :=
  if rejects nan x c p then (p, false) else (welford nan x w p, true)

/-- The triple of a pixel that has taken no sample (10_state.md R160). -/
def accZero : AccCell := { entries := fZero, mean := fZero, var := fZero }

/-- Pixel `k` of an accumulator. -/
def accCell (a : Acc) (k : Nat) : AccCell := a.cells.getD k accZero

/-! ### Accumulator commands -/

/-- ACC_CLEAR (R610). -/
def execAccClear (a : BitVec 8) (s : State) : Result :=
  command s
    (checkModule a fun m => checkExtents s fun nX nY =>
      .ok (writeAcc m { nX := nX, nY := nY, cells := List.replicate (nX * nY) accZero } s))

/-- ACC_ADD (R611). -/
def execAccAdd (a : BitVec 8) (s : State) : Result :=
  command s
    (checkModule a fun m =>
      let acc := readAcc s m
      checkFlat s (acc.nX * acc.nY) fun k =>
        checkSample s.argX s.argW s.cfgSigmaCut
          (let r := addSample (fun op => nanAt s op k) s.argX s.argW s.cfgSigmaCut (accCell acc k)
          .ok (draw { writeAcc m { acc with cells := acc.cells.set k r.1 } s with
            resN0 := if r.2 then 1 else 0 })))

/-- The first pixel that would be added and is not finite (R612). -/
def firstBad (mask : Option Mat) (d : List F64) : Option Nat :=
  (List.range d.length).find? fun k => !maskedAt mask k && !fFinite (d.getD k fZero)

/-- The pixels of an accumulator after a whole matrix is added, each with whether it was accepted
or, where it is masked, nothing (R612). -/
def addMatrix (s : State) (mask : Option Mat) (m : Mat) (acc : Acc) :
    List (AccCell × Option Bool) :=
  acc.cells.mapIdx fun k p =>
    if maskedAt mask k then (p, none)
    else
      let r := addSample (fun op => nanAt s op k) (matElem m k) fOne s.cfgSigmaCut p
      (r.1, some r.2)

/-- ACC_ADDM (R612). -/
def execAccAddm (a b c : BitVec 8) (s : State) : Result :=
  command s
    (checkModule a fun m => checkMat b fun i => checkMatOrNone c fun j =>
      let acc := readAcc s m
      let d := readMat s i
      let mask := j.map (readMat s)
      if ¬(acc.nX = d.nX ∧ acc.nY = d.nY) then raise .dimMismatch (pairInfo b a)
      else if ¬(mask.all fun q => sameDims q d) then raise .dimMismatch (pairInfo c b)
      else
        checkCut s.cfgSigmaCut
          (match firstBad mask d.data with
          | some k => raise .badOperand (BitVec.ofNat 32 k)
          | none =>
            let r := addMatrix s mask d acc
            .ok (draw { writeAcc m { acc with cells := r.map Prod.fst } s with
              resN0 := BitVec.ofNat 32 (r.countP fun p => p.2 == some true)
              resN1 := BitVec.ofNat 32 (r.countP fun p => p.2 == some false) })))

/-- ACC_READ (R613): B is 0 entries, 1 mean, 2 var, 3 sigma. -/
def execAccRead (a b : BitVec 8) (s : State) : Result :=
  command s
    (checkModule a fun m =>
      if 3 < b.toNat then illegalOperand b
      else
        let acc := readAcc s m
        checkFlat s (acc.nX * acc.nY) fun k =>
          let p := accCell acc k
          let v :=
            match b.toNat with
            | 0 => p.entries
            | 1 => p.mean
            | 2 => p.var
            | _ => sigma (fun op => nanAt s op k) p
          .ok (draw { s with
            resF := v, resN0 := BitVec.ofNat 32 acc.nX, resN1 := BitVec.ofNat 32 acc.nY }))

/-! ### Snapshot commands -/

/-- CAL_COMMIT (R620). -/
def execCalCommit (a : BitVec 8) (s : State) : Result :=
  command s
    (checkModule a fun m =>
      let acc := readAcc s m
      let noise := acc.cells.mapIdx fun k p => sigma (fun op => nanAt s op k) p
      .ok (draw
        (writeMat (noiseId m) (matFill acc.nX acc.nY noise (readMat s (noiseId m)))
          (writeMat (pedId m)
            (matFill acc.nX acc.nY (acc.cells.map AccCell.mean) (readMat s (pedId m))) s))))

/-- CAL_INIT (R621). -/
def execCalInit (a : BitVec 8) (s : State) : Result :=
  command s
    (checkModule a fun m => checkExtents s fun nX nY =>
      .ok
        (writeMat (maskId m) (matResize nX nY (readMat s (maskId m)))
          (writeMat (noiseId m) (matResize nX nY (readMat s (noiseId m)))
            (writeMat (pedId m) (matResize nX nY (readMat s (pedId m))) s))))

/-- CAL_LOAD (R622): col is x, row is y. The rule checks the index against PED; where the same flat
index lies past MASK or NOISE, an access past a matrix raises OUT_OF_BOUNDS (44_matrix.md R554,
log 13). -/
def execCalLoad (a : BitVec 8) (s : State) : Result :=
  command s
    (checkModule a fun m => checkXY s (readMat s (pedId m)) fun k =>
      if matPixels (readMat s (maskId m)) ≤ k ∨ matPixels (readMat s (noiseId m)) ≤ k then
        raise .outOfBounds (BitVec.ofNat 32 k)
      else
        .ok
          (writeMat (noiseId m) (matPut k s.argW (readMat s (noiseId m)))
            (writeMat (pedId m) (matPut k s.argX (readMat s (pedId m)))
              (writeMat (maskId m)
                (matPut k (fOfInt (s.argN2.toNat : Int)) (readMat s (maskId m))) s))))

end Sys2Proof.Machine
end

