-- ==== Sys2Proof/Machine/CommonMode.lean ====
section
/-! DEFINITION. The CommonModeCorrector (46_commonmode.md). -/

namespace Sys2Proof.Machine

open Sys2Proof

/-! ### Geometry (R650, R651) -/

/-- The two stages: row (0), then column (1). -/
inductive CmStage where
  | row | col
  deriving DecidableEq, Repr

/-- Block size S of a stage. -/
def cmSize (s : State) : CmStage → Nat
  | .row => s.cmRowSize.toNat
  | .col => s.cmColSize.toNat

/-- Division count D of a stage. -/
def cmDiv (s : State) : CmStage → Nat
  | .row => s.cmRowDiv.toNat
  | .col => s.cmColDiv.toNat

/-- The number of a stage. -/
def cmNumber : CmStage → Nat
  | .row => 0
  | .col => 1

/-- A stage whose size register is 0 is disabled (R650). -/
def cmEnabled (s : State) (g : CmStage) : Bool := cmSize s g != 0

/-- The extents a stage bands and divides: (nY, nX) for the row stage, (nX, nY) for the column
stage. -/
def cmExtents (g : CmStage) (nX nY : Nat) : Nat × Nat :=
  match g with
  | .row => (nY, nX)
  | .col => (nX, nY)

/-- The legality of a stage's configuration on a matrix of nX x nY (R651). -/
def cmLegal (s : State) (g : CmStage) (nX nY : Nat) : Bool :=
  decide (1 ≤ cmDiv s g) && (cmExtents g nX nY).1 % cmSize s g == 0
    && (cmExtents g nX nY).2 % cmDiv s g == 0

/-- The block count of a stage (R651). -/
def cmBlockCount (s : State) (g : CmStage) (nX nY : Nat) : Nat :=
  (cmExtents g nX nY).1 / cmSize s g * cmDiv s g

/-- Whether the pixel of flat index `k` lies in block `j` of a stage: band j div D, range j mod D
(R651). -/
def cmInBlock (s : State) (g : CmStage) (nX nY j k : Nat) : Bool :=
  let x := k / nY
  let y := k % nY
  let u := match g with | .row => y | .col => x
  let v := match g with | .row => x | .col => y
  let size := cmSize s g
  let width := (cmExtents g nX nY).2 / cmDiv s g
  let b := j / cmDiv s g
  let d := j % cmDiv s g
  decide (b * size ≤ u) && decide (u < (b + 1) * size)
    && decide (d * width ≤ v) && decide (v < (d + 1) * width)

/-! ### One block (R653 to R658) -/

/-- Whether a pixel is excluded as signal: its current value exceeds CM_CUT *f noise (R653). -/
def cmExcluded (s : State) (g : CmStage) (noise : Option Mat) (k : Nat) (v : F64) : Bool :=
  match noise with
  | none => false
  | some z => fLt (fMul (nanAt s (cmNumber g) k) s.cmCut (matElem z k)) v

/-- The selection of a block, in ascending flat index (R653). -/
def cmSelection (s : State) (g : CmStage) (nX nY j : Nat) (mask noise : Option Mat)
    (data : List F64) : List F64 :=
  (data.zipIdx.filter fun p =>
    cmInBlock s g nX nY j p.2 && !maskedAt mask p.2 && !cmExcluded s g noise p.2 p.1).map Prod.fst

/-- `sort_asc` (00_scope.md R16): ascending by value, equal values in their order. -/
def sortAsc (l : List F64) : List F64 := l.insertionSort fun a b => fKey a ≤ fKey b

/-- The correction of a selection: +0.0 if empty, else the element at index size div 2 of the
sorted selection (R654, R655). -/
def cmMedian (sel : List F64) : F64 :=
  if sel.isEmpty then fZero else (sortAsc sel).getD (sel.length / 2) fZero

/-- The block corrected: the correction subtracted, masked pixels forced to +0.0 (R656). -/
def cmCorrect (s : State) (g : CmStage) (nX nY j : Nat) (mask : Option Mat) (corr : F64)
    (data : List F64) : List F64 :=
  data.mapIdx fun k v =>
    if cmInBlock s g nX nY j k then
      if maskedAt mask k then fZero else fSub (nanAt s (2 + cmNumber g) k) v corr
    else v

/-- The info word of NUMERIC: the stage in bit 16, the block in bits 15:0 (R658). -/
def cmInfo (g : CmStage) (j : Nat) : Word :=
  BitVec.ofNat 16 (cmNumber g) ++ BitVec.ofNat 16 j

/-- The blocks of a stage from block `j` on, `left` of them: the data after them and their
corrections, or NUMERIC at the first selection that holds a NaN (R658, R660). -/
def cmBlocks (s : State) (g : CmStage) (nX nY : Nat) (mask noise : Option Mat) :
    Nat → Nat → List F64 → Except Raise (List F64 × List F64)
  | 0, _, data => .ok (data, [])
  | left + 1, j, data =>
    let sel := cmSelection s g nX nY j mask noise data
    if sel.any fIsNaN then raise .numeric (cmInfo g j)
    else
      match cmBlocks s g nX nY mask noise left (j + 1)
          (cmCorrect s g nX nY j mask (cmMedian sel) data) with
      | .ok (data', corrs) => .ok (data', cmMedian sel :: corrs)
      | .error r => .error r

/-- One stage, skipped when disabled (R650, R660). -/
def cmRunStage (s : State) (g : CmStage) (nX nY : Nat) (mask noise : Option Mat)
    (data : List F64) : Except Raise (List F64 × List F64) :=
  if cmEnabled s g then
    cmBlocks s g nX nY mask noise (cmBlockCount s g nX nY) 0 data
  else .ok (data, [])

/-! ### The commands -/

/-- The checks of CM_APPLY in their order (R660, 60_exceptions.md R720): the destination and the
snapshots of the mask and the noise map, or a precise fault. -/
def cmOperands (a b c : BitVec 8) (s : State) :
    Except Raise (Nat × Option Mat × Option Mat) :=
  checkWork a fun i => checkMatOrNone b fun j => checkMatOrNone c fun z =>
    let w := readMat s i
    let mask := j.map (readMat s)
    let noise := z.map (readMat s)
    if ¬(mask.all fun q => sameDims q w) then raise .dimMismatch (pairInfo b a)
    else if ¬(noise.all fun q => sameDims q w) then raise .dimMismatch (pairInfo c a)
    else if cmEnabled s .row && !cmLegal s .row w.nX w.nY then raise .config 0
    else if cmEnabled s .col && !cmLegal s .col w.nX w.nY then raise .config 1
    else .ok (i, mask, noise)

/-- The masked pixels forced to +0.0 before the stages (R660, D53). -/
def cmZeroMasked (mask : Option Mat) (data : List F64) : List F64 :=
  data.mapIdx fun k v => if maskedAt mask k then fZero else v

/-- The two stages in order: the final data and the two lists of corrections (R650, R665). -/
def cmRun (s : State) (nX nY : Nat) (mask noise : Option Mat) (data : List F64) :
    Except Raise (List F64 × List F64 × List F64) :=
  match cmRunStage s .row nX nY mask noise (cmZeroMasked mask data) with
  | .error r => .error r
  | .ok (d1, rows) =>
    match cmRunStage s .col nX nY mask noise d1 with
    | .error r => .error r
    | .ok (d2, cols) => .ok (d2, rows, cols)

/-- CM_APPLY (R660). The faults of its checks are precise; NUMERIC is not (R658). A correction is
recorded for every block (R657). DEDUCED (log 14): also past MAX_PIXELS blocks, which only an empty
matrix has, where 10_state.md R170 bounds their number. -/
def execCmApply (a b c : BitVec 8) (s : State) : Result :=
  if s.fault then .next (finish s)
  else
    match cmOperands a b c s with
    | .error r => .next (faultEntry r s)
    | .ok (i, mask, noise) =>
      let w := readMat s i
      match cmRun s w.nX w.nY mask noise w.data with
      | .error r => .next (faultEntry r (forgetCm i s))
      | .ok (d, rows, cols) =>
        .next (finish (draw { writeMat i { w with data := d } s with
          corrRow := rows, corrCol := cols }))

/-- CM_CORR (R662): A is the stage, ARG_N0 the block. -/
def execCmCorr (a : BitVec 8) (s : State) : Result :=
  command s
    (if 1 < a.toNat then illegalOperand a
    else
      let l := if a.toNat = 0 then s.corrRow else s.corrCol
      if l.length ≤ s.argN0.toNat then raise .outOfBounds s.argN0
      else
        .ok { s with
          resF := l.getD s.argN0.toNat fZero, resN0 := BitVec.ofNat 32 l.length })

end Sys2Proof.Machine
end

