-- ==== Sys2Proof/Machine/System.lean ====
section
/-! DEFINITION. The system commands (40_system.md). -/

namespace Sys2Proof.Machine

open Sys2Proof

/-- NOP (R390). -/
def execNop (s : State) : Result := command s (.ok s)

/-- Every state item at its reset value (70_reset_and_hazards.md R800). The input memory is the
HOST's and stays (R802); the HOST's moves and the free-value counter are the model's and stay. -/
def resetState (s : State) : State :=
  { State.reset with inMem := s.inMem, host := s.host, hostData := s.hostData, freeTick := s.freeTick }

/-- RESET (R391): accepted in every state. -/
def execReset (s : State) : Result := .next (resetState s)

/-- What ABORT does (R392): the fault state is left, the stream is closed and rewound, the slot map
is emptied; T_LATCH and everything the rule does not name stay. -/
def abortState (s : State) : State :=
  { clearMap (clearFlags (faultExit s)) with curSeg := 0, off := 0 }

/-- ABORT (R392): accepted with FAULT = 1. -/
def execAbort (s : State) : Result := .next (finish (abortState s))

/-- A command word that is no command: ILLEGAL_COMMAND with the word as its info, ignored like any
command while FAULT = 1 (30_encoding.md R333, 60_exceptions.md R720). -/
def illegalCommand (s : State) : Result := command s (raise .illegalCommand s.pending)

end Sys2Proof.Machine
end

