-- ==== Sys2Proof/Machine/Dispatch.lean ====
section
/-! DEFINITION. The dispatch: one arm per row of the opcode table. -/

namespace Sys2Proof.Machine

open Sys2Proof

def exec (i : Instr) (s : State) : Host.Outcome State Fault Refusal :=
  match i with
  | .nop => Sys2Proof.Machine.execNop s
  | .reset => Sys2Proof.Machine.execReset s
  | .abort => Sys2Proof.Machine.execAbort s
  | .segPush => Sys2Proof.Machine.execSegPush s
  | .segClear => Sys2Proof.Machine.execSegClear s
  | .openStream => Sys2Proof.Machine.execOpenStream s
  | .openNext => Sys2Proof.Machine.execOpenNext s
  | .readHeader => Sys2Proof.Machine.execReadHeader s
  | .readData => Sys2Proof.Machine.execReadData s
  | .skipData => Sys2Proof.Machine.execSkipData s
  | .viewRead a => Sys2Proof.Machine.execViewRead a s
  | .convS3A a => Sys2Proof.Machine.execConvS3A a s
  | .convS3B2 a => Sys2Proof.Machine.execConvS3B2 a s
  | .convS3B4 a => Sys2Proof.Machine.execConvS3B4 a s
  | .convDCD2 a => Sys2Proof.Machine.execConvDCD2 a s
  | .convDCD4 a => Sys2Proof.Machine.execConvDCD4 a s
  | .next => Sys2Proof.Machine.execNext s
  | .skip => Sys2Proof.Machine.execSkip s
  | .mresize a => Sys2Proof.Machine.execMresize a s
  | .mget a => Sys2Proof.Machine.execMget a s
  | .mput a => Sys2Proof.Machine.execMput a s
  | .mgetf a => Sys2Proof.Machine.execMgetf a s
  | .mputf a => Sys2Proof.Machine.execMputf a s
  | .madd a b => Sys2Proof.Machine.execMadd a b s
  | .msub a b => Sys2Proof.Machine.execMsub a b s
  | .mset a b => Sys2Proof.Machine.execMset a b s
  | .minfo a => Sys2Proof.Machine.execMinfo a s
  | .mtrig a => Sys2Proof.Machine.execMtrig a s
  | .accClear a => Sys2Proof.Machine.execAccClear a s
  | .accAdd a => Sys2Proof.Machine.execAccAdd a s
  | .accAddm a b c => Sys2Proof.Machine.execAccAddm a b c s
  | .accRead a b => Sys2Proof.Machine.execAccRead a b s
  | .calCommit a => Sys2Proof.Machine.execCalCommit a s
  | .calInit a => Sys2Proof.Machine.execCalInit a s
  | .calLoad a => Sys2Proof.Machine.execCalLoad a s
  | .cmApply a b c => Sys2Proof.Machine.execCmApply a b c s
  | .cmCorr a => Sys2Proof.Machine.execCmCorr a s
  | .groupRunBegin h => Sys2Proof.Machine.execGroupRunBegin h s
  | .groupRunEnd h => Sys2Proof.Machine.execGroupRunEnd h s
  | .groupData h => Sys2Proof.Machine.execGroupData h s
  | .depfet h => Sys2Proof.Machine.execDepfet h s
  | .depfet128 h => Sys2Proof.Machine.execDepfet128 h s
  | .depfetDcd h => Sys2Proof.Machine.execDepfetDcd h s
  | .bat h => Sys2Proof.Machine.execBat h s
  | .tpll h => Sys2Proof.Machine.execTpll h s
  | .unknown h => Sys2Proof.Machine.execUnknown h s
  | .tlu h => Sys2Proof.Machine.execTlu h s
  | .info h => Sys2Proof.Machine.execInfo h s
  | .other h => Sys2Proof.Machine.execOther h s

end Sys2Proof.Machine
end

