-- ==== Sys2Proof/Machine/HostPort.lean ====
section
/-! DEFINITION. The HOST's side: the register map (10_state.md R195), its reads and writes
(20_memory.md R201, R202, R210, 60_exceptions.md R713), the input memory it owns (R206), and its
moves (log 7). -/

namespace Sys2Proof.Machine

open Sys2Proof

/-- The byte offset of a register (10_state.md R195). -/
def regOffset (reg : BitVec 10) : Nat := 4 * reg.toNat

/-- Bits 31:0 of a 64-bit register (20_memory.md R202). -/
def lowHalf (v : F64) : Word := v.extractLsb' 0 32

/-- Bits 63:32 of a 64-bit register (20_memory.md R202). -/
def highHalf (v : F64) : Word := v.extractLsb' 32 32

/-- A 64-bit register with its low half replaced. -/
def setLow (v : F64) (x : Word) : F64 := highHalf v ++ x

/-- A 64-bit register with its high half replaced. -/
def setHigh (v : F64) (x : Word) : F64 := x ++ lowHalf v

/-- What a read of the register at byte offset `o` returns; CMD and unmapped offsets read 0
(R195, R201). -/
def readOffset (s : State) (o : Nat) : Word :=
  match o with
  | 0x000 => Config.idWord
  | 0x004 => statusWord s
  | 0x008 => (errCodeByte s.errCode).setWidth 32
  | 0x00C => s.errInfo
  | 0x014 => s.argN0
  | 0x018 => s.argN1
  | 0x01C => s.argN2
  | 0x020 => lowHalf s.argX
  | 0x024 => highHalf s.argX
  | 0x028 => lowHalf s.argW
  | 0x02C => highHalf s.argW
  | 0x030 => s.resN0
  | 0x034 => s.resN1
  | 0x038 => s.resN2
  | 0x040 => lowHalf s.resF
  | 0x044 => highHalf s.resF
  | 0x080 => s.cfgFold.setWidth 32
  | 0x084 => s.cfgUseMapping.setWidth 32
  | 0x088 => s.cfgTrailing.setWidth 32
  | 0x08C => s.cfgMaxEvents
  | 0x090 => s.cfgInfoLayout.setWidth 32
  | 0x098 => lowHalf s.cfgSigmaCut
  | 0x09C => highHalf s.cfgSigmaCut
  | 0x0A0 => s.cmRowSize.setWidth 32
  | 0x0A4 => s.cmRowDiv.setWidth 32
  | 0x0A8 => s.cmColSize.setWidth 32
  | 0x0AC => s.cmColDiv.setWidth 32
  | 0x0B0 => lowHalf s.cmCut
  | 0x0B4 => highHalf s.cmCut
  | 0x100 => s.hdr0
  | 0x104 => s.hdr1
  | 0x108 => s.info
  | 0x10C => BitVec.ofNat 32 s.dataBuf.length
  | 0x110 => s.runNumber
  | 0x114 => s.eventNumber
  | 0x118 => s.eventCount
  | 0x11C => nslotsWord s
  | 0x120 => BitVec.ofNat 32 s.curSeg
  | 0x124 => s.off
  | 0x128 => BitVec.ofNat 32 s.segq.length
  | _ =>
    if 0x140 ≤ o ∧ o < 0x180 then modmapWord s (BitVec.ofNat 4 ((o - 0x140) / 4)) else 0

/-- A read of a register by the HOST. -/
def regRead (s : State) (reg : BitVec 10) : Word := readOffset s (regOffset reg)

/-- A write to an RW register stores the value masked to the register's fields; a write to an RO
register or an unmapped offset is ignored (R104, R195, R201). CMD is not one of these. -/
def storeOffset (o : Nat) (v : Word) (s : State) : State :=
  match o with
  | 0x014 => { s with argN0 := v }
  | 0x018 => { s with argN1 := v }
  | 0x01C => { s with argN2 := v }
  | 0x020 => { s with argX := setLow s.argX v }
  | 0x024 => { s with argX := setHigh s.argX v }
  | 0x028 => { s with argW := setLow s.argW v }
  | 0x02C => { s with argW := setHigh s.argW v }
  | 0x080 => { s with cfgFold := v.extractLsb' 0 3 }
  | 0x084 => { s with cfgUseMapping := v.extractLsb' 0 1 }
  | 0x088 => { s with cfgTrailing := v.extractLsb' 0 3 }
  | 0x08C => { s with cfgMaxEvents := v }
  | 0x090 => { s with cfgInfoLayout := v.extractLsb' 0 1 }
  | 0x098 => { s with cfgSigmaCut := setLow s.cfgSigmaCut v }
  | 0x09C => { s with cfgSigmaCut := setHigh s.cfgSigmaCut v }
  | 0x0A0 => { s with cmRowSize := v.extractLsb' 0 16 }
  | 0x0A4 => { s with cmRowDiv := v.extractLsb' 0 16 }
  | 0x0A8 => { s with cmColSize := v.extractLsb' 0 16 }
  | 0x0AC => { s with cmColDiv := v.extractLsb' 0 16 }
  | 0x0B0 => { s with cmCut := setLow s.cmCut v }
  | 0x0B4 => { s with cmCut := setHigh s.cmCut v }
  | _ => s

/-- The byte offset of CMD. -/
def cmdOffset : Nat := 0x010

/-- The registers whose write raises OVERRUN while BUSY = 1: CMD, ARG_*, CFG_* and CM_*
(60_exceptions.md R713). -/
def guardedOffsets : List Nat :=
  [0x010, 0x014, 0x018, 0x01C, 0x020, 0x024, 0x028, 0x02C,
   0x080, 0x084, 0x088, 0x08C, 0x090, 0x098, 0x09C,
   0x0A0, 0x0A4, 0x0A8, 0x0AC, 0x0B0, 0x0B4]

/-- OVERRUN (60_exceptions.md R713, R714): the write is discarded and the awaiting command dropped;
the first fault is kept. -/
def overrun (o : Nat) (s : State) : State :=
  if s.fault then { s with busy := false, walk := none }
  else faultEntry ⟨.overrun, BitVec.ofNat 32 o⟩ s

/-- Issuing a command: BUSY is set and PENDING holds the word (10_state.md R101, 20_memory.md
R210). -/
def issue (w : Word) (s : State) : State := { s with busy := true, pending := w, walk := none }

/-- A write of the register at byte offset `o` (20_memory.md R201, R210, 60_exceptions.md R713). A
CMD write of RESET is accepted in every state (40_system.md R391, log 9). -/
def writeOffset (o : Nat) (v : Word) (s : State) : State :=
  if o = cmdOffset then
    if s.busy && opField v != 0x01 then overrun o s else issue v s
  else if s.busy && guardedOffsets.contains o then overrun o s
  else storeOffset o v s

/-- A write of a register by the HOST. -/
def regWrite (reg : BitVec 10) (v : Word) (s : State) : State := writeOffset (regOffset reg) v s

/-- Whether an address of IN lies in a queued segment (R206). -/
def inQueue (s : State) (a : Nat) : Bool :=
  s.segq.any fun g => decide (g.base.toNat ≤ a) && decide (a < g.base.toNat + g.len.toNat)

/-- One move of the HOST. A write of a byte of a queued segment is no move of the HOST's
(R206, I19): it is refused. -/
def hostMove (mv : HostMove) (s : State) : Result :=
  match mv with
  | .write reg v => .next (regWrite reg v s)
  | .read reg => .next { s with hostData := regRead s reg }
  | .poke a b =>
    if inQueue s a.toNat then .refused .queuedInput
    else .next { s with inMem := memWrite s.inMem a.toNat b }
  | .wait => .next s

end Sys2Proof.Machine
end

