-- ==== Sys2Proof/Machine/Step.lean ====
section
/-! DEFINITION. One step of the machine: a move of the HOST, or a step of the ENGINE
(00_scope.md R18). -/

namespace Sys2Proof.Machine

open Sys2Proof

/-- One step of the ENGINE. With BUSY = 0 it does nothing (60_exceptions.md R737). A command runs
whole (R18, R210): NEXT and SKIP too run their walk to its end inside their own meaning. The first
case is a state inside such a walk: the record at the cursor is fetched and taken (log 6). -/
def engineStep (s : State) : Result :=
  match s.walk with
  | some w =>
    match fetchRecord w s with
    | .moved s' => .next s'
    | .faulted r => .next (walkFault w.cmd r s)
    | .record k h s' => exec (Instr.ofRecord k h) s'
  | none =>
    if s.busy then
      match decodeCommand s.pending with
      | .ok i => exec i s
      | .error _ => illegalCommand s
    else .next s

/-- One step. The HOST's next move comes first when there is one, but not inside a walk, since a
command is indivisible (20_memory.md R210, R215), and not while the HOST waits for BUSY = 0. -/
def step (s : State) : Host.Outcome State Fault Refusal :=
  if s.walk.isSome then engineStep s
  else
    match s.host with
    | [] => engineStep s
    | .wait :: rest => if s.busy then engineStep s else .next { s with host := rest }
    | mv :: rest => hostMove mv { s with host := rest }

/-- Where a record stands so that a walk takes it: GROUP and INFO at the top level, every other
kind inside a group of its size. -/
def recordPlace (s : State) (h0 : Word) : Place :=
  match decodeRecord h0 0 with
  | .ok (k, h) =>
    match k with
    | .groupRunBegin | .groupRunEnd | .groupData | .info => .top
    | _ => .group (max 2 h.eventSize.toNat) [] (!s.mapValid)
  | .error _ => .top

/-- The state with one instruction of the opcode table where the next step fetches it: a command
word is the pending command; a record is the head of the only segment, and a NEXT is in execution
whose walk stands where the record may stand (log 15). -/
def State.withFetchWord (s : State) (nbits w : Nat) : State :=
  let v := w % 2 ^ nbits
  let h0 : Word := BitVec.ofNat 32 v
  let h1 : Word := BitVec.ofNat 32 (v / 2 ^ 32)
  match tableSpace nbits v with
  | .command => { s with busy := true, pending := h0, walk := none, host := [] }
  | .record =>
    { s with
      busy := true, opened := true, host := []
      inMem := memWriteBytes s.inMem 0 (bytesOf h0 ++ bytesOf h1)
      segq := [⟨0, BitVec.ofNat 32 (8 + 4 * (v % 2 ^ 20))⟩], curSeg := 0, off := 0
      walk := some ⟨.next, recordPlace s h0⟩ }

end Sys2Proof.Machine
end

