-- ==== Sys2Proof/Safety.lean ====
section
/-! DEFINITION. The terms safety statements use: a run without a recorded fault (40_system.md R393),
and the well-formed states, whose parts the rules of 10_state.md state. -/

namespace Sys2Proof.Machine

open Sys2Proof

/-- "No fault recorded", the premise of every claim about a command sequence (40_system.md R393). -/
def NoFault (s : State) : Prop := s.fault = false

/-- The limits of a matrix register: as many elements as pixels, each extent and the pixel count at
most MAX_PIXELS (10_state.md R150). -/
def Mat.wf (m : Mat) : Prop :=
  m.data.length = m.nX * m.nY ∧ m.nX ≤ Config.maxPixels ∧ m.nY ≤ Config.maxPixels
    ∧ m.nX * m.nY ≤ Config.maxPixels

/-- The limits of an accumulator (10_state.md R160, and ACC_CLEAR's check of each extent,
45_calibration.md R610). -/
def Acc.wf (a : Acc) : Prop :=
  a.cells.length = a.nX * a.nY ∧ a.nX ≤ Config.maxPixels ∧ a.nY ≤ Config.maxPixels
    ∧ a.nX * a.nY ≤ Config.maxPixels

/-- All four tags 0 (10_state.md R151). -/
def Mat.untagged (m : Mat) : Prop :=
  m.moduleNr = 0 ∧ m.triggerNr = 0 ∧ m.startGate = 0 ∧ m.frameNr = 0

/-- The input memory has its canonical form. -/
def MemoryOk (s : State) : Prop := s.inMem.wf = true

/-- The stream cursor is inside the queue (10_state.md R120, R121, 41_stream.md R402,
20_memory.md R209): at most SEGQ_DEPTH segments, none past 2^32, CUR_SEG at most SEGQ_COUNT, OFF
inside its segment and a multiple of 4, and 0 where the queue is exhausted. -/
structure StreamOk (s : State) : Prop where
  depth : s.segq.length ≤ Config.segqDepth
  ends : ∀ g ∈ s.segq, g.base.toNat + g.len.toNat ≤ 2 ^ 32
  cursor : s.curSeg ≤ s.segq.length
  offset : ∀ g, s.segq[s.curSeg]? = some g → s.off.toNat ≤ g.len.toNat ∧ s.off.toNat % 4 = 0
  exhausted : s.segq[s.curSeg]? = none → s.off = 0

/-- The matrix file, the accumulators, the data buffer and the recorded corrections are within their
limits (10_state.md R130, R150, R151, R160, R170), and PED and NOISE of a module have one shape
(45_calibration.md R620, R621). Only the corrections of an empty matrix, all +0.0, pass MAX_PIXELS
(46_commonmode.md R657 against R170, log 14). -/
structure FilesOk (s : State) : Prop where
  mats : ∀ i, i < 184 → (readMat s i).wf
  tags : ∀ i, 128 ≤ i → i < 184 → (readMat s i).untagged
  snapshot : ∀ m, m < 16 → sameDims (readMat s (pedId m)) (readMat s (noiseId m)) = true
  accs : ∀ m, m < 16 → (readAcc s m).wf
  buffer : s.dataBuf.length ≤ Config.dataBufBytes
  corr : ∀ l ∈ [s.corrRow, s.corrCol], l.length ≤ Config.maxPixels ∨ ∀ v ∈ l, v = fZero

/-- ERR_CODE and ERR_INFO describe the recorded fault, and nothing when there is none
(10_state.md R102, 60_exceptions.md R714). -/
structure FaultOk (s : State) : Prop where
  clear : s.fault = false → s.errCode = .none ∧ s.errInfo = 0
  recorded : s.fault = true → s.errCode ≠ .none

/-- The slot map holds exactly these modules, each once, with the ordinals 0, 1, 2, … in this order
(10_state.md R140, 43_assembler.md R512). -/
def MapHolds (s : State) (mods : List (BitVec 4)) : Prop :=
  mods.Nodup ∧ s.nmod = mods.length
    ∧ ∀ (m o : BitVec 4), readModmap s m = some o ↔ mods[o.toNat]? = some m

/-- The slot map outside a group: established, with NSLOTS = NMOD * (1 + T_LATCH), or empty
(10_state.md R140, 43_assembler.md R511, R512). -/
def MapIdle (s : State) : Prop :=
  if s.mapValid then (∃ mods, MapHolds s mods) ∧ s.nslots = s.nmod * (1 + s.tLatch.toNat)
  else MapHolds s [] ∧ s.nslots = 0

/-- Where a walk may stand: inside the establishing group the map holds the modules seen, in the order
of their records; inside a later one it is established (43_assembler.md R504, R505, R512, R513). -/
def PlaceOk (s : State) : Place → Prop
  | .top => MapIdle s
  | .group _ seen est =>
    if est then s.mapValid = false ∧ s.nslots = 0 ∧ MapHolds s seen.reverse
    else s.mapValid = true ∧ MapIdle s

/-- The slot map is within its limits in every state (10_state.md R140), and what it must be between
commands and inside a walk. After a fault of the walk its items are free until ABORT or RESET
(60_exceptions.md R711; log 4). -/
structure MapOk (s : State) : Prop where
  nmod : s.nmod ≤ 16
  nslots : s.nslots ≤ 128
  idle : s.walk = none → s.fault = false → MapIdle s
  walking : ∀ w, s.walk = some w → PlaceOk s w.place

/-! ### What a statement says of a walk and of a stage -/

/-- The result is the fault of a walk that struck in state `s`: the fault recorded, the command
ended, the items of 60_exceptions.md R711 left open but FSM, which keeps its value
(43_assembler.md R501, R524), and everything else as it was. -/
def walkFaults (s : State) (code : ErrCode) (info : Word) (r : Result) : Prop :=
  ∃ t, r = .next t
    ∧ t = { s with
        fault := true, errCode := code, errInfo := info, busy := false, walk := none
        curSeg := t.curSeg, off := t.off, hdr0 := t.hdr0, hdr1 := t.hdr1, eoi := t.eoi
        info := t.info, dataBuf := t.dataBuf, runNumber := t.runNumber
        eventNumber := t.eventNumber, nmod := t.nmod, modmap := t.modmap
        mapValid := t.mapValid, nslots := t.nslots, mats := t.mats, freeTick := s.freeTick + 1 }
    ∧ ∀ id, 128 ≤ id → readMat t id = readMat s id

/-- A walk from `s` ends in `t`: the steps of the machine, one after another while it is inside the
walk. -/
inductive WalkRuns : State → State → Prop where
  | done (s : State) (h : s.walk = none) : WalkRuns s s
  | more (s u t : State) (h : s.walk.isSome) (hs : step s = .next u) (ht : WalkRuns u t) :
      WalkRuns s t

/-- A stage of CM_APPLY on a matrix of nX x nY takes the data `d` to `d'` and records `corrs`: skipped
when disabled; otherwise every block's correction is the median of its selection in `d`, and is
subtracted from every unmasked pixel of the block (46_commonmode.md R650 to R657). A correction is
recorded for every block, past MAX_PIXELS too (log 14). -/
def stageDone (s : State) (g : CmStage) (nX nY : Nat) (mask noise : Option Mat)
    (d d' corrs : List F64) : Prop :=
  if cmEnabled s g then
    d'.length = d.length ∧ corrs.length = cmBlockCount s g nX nY
      ∧ (∀ j, j < corrs.length →
          corrs[j]? = some (cmMedian (cmSelection s g nX nY j mask noise d)))
      ∧ ∀ j k v, k < nX * nY → cmInBlock s g nX nY j k = true → d[k]? = some v →
          d'[k]? = some (if maskedAt mask k then 0
            else fSub (nanAt s (2 + cmNumber g) k) v
              (cmMedian (cmSelection s g nX nY j mask noise d)))
  else d' = d ∧ corrs = []

/-- No selection of the blocks below `n` of an enabled stage holds a NaN (46_commonmode.md R658). -/
def stageNoNaN (s : State) (g : CmStage) (nX nY : Nat) (mask noise : Option Mat) (d : List F64)
    (n : Nat) : Prop :=
  cmEnabled s g = true → ∀ j, j < n → ∀ v ∈ cmSelection s g nX nY j mask noise d, fIsNaN v = false

/-! ### Names of groups of instructions -/

/-- The conversion command of a kind (42_convert.md R460 to R464). -/
def convInstr (t : ConvKind) (a : BitVec 8) : Instr :=
  match t with
  | .s3a => .convS3A a
  | .s3b2 => .convS3B2 a
  | .s3b4 => .convS3B4 a
  | .dcd2 => .convDCD2 a
  | .dcd4 => .convDCD4 a

/-- The useMapping of a conversion command: only the DCD kinds take it (42_convert.md R450, R456). -/
def convMapping (s : State) : ConvKind → Bool
  | .s3a | .s3b2 | .s3b4 => true
  | .dcd2 | .dcd4 => s.cfgUseMapping == 1

/-- The encoding of a command: every word with this OP decodes to it, with the operand fields it uses
(30_encoding.md R330, R332). -/
def decodesTo (op : BitVec 8) (i : BitVec 8 → BitVec 8 → BitVec 8 → Instr) : Prop :=
  ∀ w : Word, opField w = op → decodeCommand w = .ok (i (aField w) (bField w) (cField w))

/-- An id of a work matrix, W[0..7] (10_state.md R150). -/
def isWork (a : BitVec 8) : Prop := 0xB0 ≤ a.toNat ∧ a.toNat ≤ 0xB7

/-- The matrix registers an instruction may write: the "written by" column of 10_state.md R150. The
records write what the walk that takes them writes, the event slots; RESET clears every register
(40_system.md R391). -/
def mayWrite (i : Instr) (id : Nat) : Prop :=
  match i with
  | .reset => True
  | .next => id < 128
  | .depfet _ | .depfet128 _ | .depfetDcd _ | .groupRunBegin _ | .groupRunEnd _ | .groupData _
  | .bat _ | .tpll _ | .unknown _ | .tlu _ | .info _ | .other _ => id < 128
  | .calInit a | .calLoad a =>
    a.toNat ≤ 15 ∧ (id = pedId a.toNat ∨ id = noiseId a.toNat ∨ id = maskId a.toNat)
  | .calCommit a => a.toNat ≤ 15 ∧ (id = pedId a.toNat ∨ id = noiseId a.toNat)
  | .mresize a | .mput a | .mputf a | .madd a _ | .msub a _ | .mset a _ | .convS3A a | .convS3B2 a
  | .convS3B4 a | .convDCD2 a | .convDCD4 a | .cmApply a _ _ => isWork a ∧ id = a.toNat
  | .nop | .abort | .segPush | .segClear | .openStream | .openNext | .readHeader | .readData
  | .skipData | .viewRead _ | .skip | .mget _ | .mgetf _ | .minfo _ | .mtrig _ | .accClear _
  | .accAdd _ | .accAddm _ _ _ | .accRead _ _ | .cmCorr _ => False

end Sys2Proof.Machine
end

