-- ==== Sys2Proof/Certificates/Slice0/Obligations.lean ====
section
/-! DEFINITION. The statements for the provers. OBLIGATIONS.json lists each with the rules of spec/ it
formalises; Tests/Slice0.lean has a state that meets the hypotheses of each. -/

open Sys2Proof Sys2Proof.Machine

/-! ### System commands and the fault state -/

/-- NOP changes nothing but the BUSY handshake (40_system.md R390). ABORT clears the fault, closes and
rewinds the stream and empties the slot map, in every state; everything else keeps its value, T_LATCH
too, which the rule does not name (R392). A CMD write of it while BUSY = 1 raises OVERRUN. -/
def Obligations.NopAndAbortComplete : Prop :=
  decodesTo 0x00 (fun _ _ _ => .nop) ∧ decodesTo 0x02 (fun _ _ _ => .abort) ∧ ∀ s : State,
    (s.fault = false → exec .nop s = .next { s with busy := false })
    ∧ (s.busy = true → s.fault = false → ∀ v : Word, opField v = 0x02 →
        regWrite 4 v s = faultEntry ⟨.overrun, 0x010⟩ s)
    ∧ exec .abort s = .next { s with
        fault := false, errCode := .none, errInfo := 0
        opened := false, eoi := false, limit := false, mapValid := false, fsm := .waitGroup
        nmod := 0, nslots := 0, modmap := Vector.replicate 16 none
        curSeg := 0, off := 0, busy := false }

/-- RESET puts every state item at its reset value, in every state, and the input memory stays
(40_system.md R391, 70_reset_and_hazards.md R802). A CMD write of it raises no OVERRUN while BUSY = 1
(60_exceptions.md R713). The model's choices: the HOST's moves, `hostData` and the free-value counter
stay too (log 7), and a CMD write of RESET while BUSY = 1 replaces the pending word, BUSY staying 1
until it runs (log 9). -/
def Obligations.ResetRestoresEveryItem : Prop :=
  decodesTo 0x01 (fun _ _ _ => .reset)
    ∧ (∀ s : State, exec .reset s = .next { State.reset with
      inMem := s.inMem, host := s.host, hostData := s.hostData, freeTick := s.freeTick })
    ∧ (∀ s t : State, exec .reset s = .next t → regRead t 1 = 0 ∧ regRead t 2 = 0)
    ∧ ∀ (s : State) (v : Word), s.busy = true → opField v = 0x01 →
        (regWrite 4 v s).fault = s.fault ∧ (regWrite 4 v s).busy = true
          ∧ (regWrite 4 v s).pending = v

/-- While FAULT = 1 every command but RESET and ABORT is ignored, a word that is no command too
(40_system.md R393). -/
def Obligations.FaultStateIgnoresCommands : Prop :=
  (∀ (i : Instr) (s : State), i.space = .command → i ≠ .reset → i ≠ .abort → s.fault = true →
      exec i s = .next { s with busy := false })
    ∧ ∀ s : State, s.walk = none → s.host = [] → s.busy = true → s.fault = true →
        decodeCommand s.pending = .error .illegalCommand → step s = .next { s with busy := false }

/-- ERR_CODE and ERR_INFO describe the first fault until RESET or ABORT runs: no other step outside a
walk leaves the fault state or changes them (60_exceptions.md R712, R714). -/
def Obligations.FirstFaultIsKept : Prop :=
  ∀ s t : State, step s = .next t → s.walk = none → s.fault = true →
    (t.fault = true ∧ t.errCode = s.errCode ∧ t.errInfo = s.errInfo)
      ∨ (s.busy = true
        ∧ (decodeCommand s.pending = .ok .reset ∨ decodeCommand s.pending = .ok .abort))

/-- A command whose faults are precise leaves, when it raises one, every state item but FAULT,
ERR_CODE, ERR_INFO and BUSY as before (60_exceptions.md R711). NEXT, SKIP and CM_APPLY are the
commands with imprecise faults; CM_APPLY's other faults are precise, and NOT_OPEN of NEXT and SKIP is
taken as precise, since the check stands before every write (log 19, the model's reading). -/
def Obligations.FaultsArePrecise : Prop :=
  ∀ (i : Instr) (s t : State), i.space = .command → s.walk = none → s.fault = false →
    exec i s = .next t → t.fault = true →
    (i ≠ .next ∧ i ≠ .skip ∧ (∀ a b c, i = .cmApply a b c → t.errCode ≠ .numeric)
        ∨ t.errCode = .notOpen) →
    t = { s with fault := true, errCode := t.errCode, errInfo := t.errInfo, busy := false }

/-- Every instruction answers a next state: none stops, NEXT and SKIP end their walk within the bound
of 70_reset_and_hazards.md R841. -/
def Obligations.EveryInstructionTerminates : Prop :=
  ∀ (i : Instr) (s : State), ∃ t, exec i s = .next t

/-! ### Stream commands -/

/-- SEG_PUSH appends one segment, or raises CAPACITY or ILLEGAL_OPERAND (41_stream.md R402). -/
def Obligations.SegPushAppends : Prop :=
  decodesTo 0x10 (fun _ _ _ => .segPush) ∧ ∀ s : State, s.fault = false →
    (s.segq.length ≠ 64 → s.argN0.toNat + s.argN1.toNat ≤ 2 ^ 32 →
      exec .segPush s = .next { s with
        segq := s.segq ++ [⟨s.argN0, s.argN1⟩]
        resN0 := BitVec.ofNat 32 (s.segq.length + 1), busy := false })
    ∧ (s.segq.length = 64 → exec .segPush s = .next (faultEntry ⟨.capacity, 64⟩ s))
    ∧ (s.segq.length ≠ 64 → 2 ^ 32 < s.argN0.toNat + s.argN1.toNat →
      exec .segPush s = .next (faultEntry ⟨.illegalOperand, s.argN0⟩ s))

/-- SEG_CLEAR, OPEN and OPEN_NEXT (41_stream.md R403, R404, R405). -/
def Obligations.CursorCommands : Prop :=
  decodesTo 0x11 (fun _ _ _ => .segClear) ∧ decodesTo 0x12 (fun _ _ _ => .openStream)
    ∧ decodesTo 0x13 (fun _ _ _ => .openNext) ∧ ∀ s : State, s.fault = false →
    exec .segClear s = .next { s with
        segq := [], curSeg := 0, off := 0, opened := false, eoi := false, busy := false }
    ∧ exec .openStream s = .next { s with
        opened := true, curSeg := 0, off := 0, eoi := false, limit := false
        fsm := .waitGroup, mapValid := false, nmod := 0, nslots := 0
        modmap := Vector.replicate 16 none, tLatch := s.cfgTrailing
        runNumber := 0, eventNumber := 0, eventCount := 0
        resN0 := if 0 < s.segq.length then 1 else 0, busy := false }
    ∧ (s.opened = true → s.curSeg < s.segq.length → exec .openNext s = .next { s with
        curSeg := s.curSeg + 1, off := 0
        resN0 := if s.curSeg + 1 < s.segq.length then 1 else 0, busy := false })
    ∧ (s.opened = true → s.segq.length ≤ s.curSeg →
        exec .openNext s = .next { s with resN0 := 0, busy := false })
    ∧ (s.opened = false → exec .openNext s = .next (faultEntry ⟨.notOpen, s.pending⟩ s))

/-- The six commands that need an open stream raise NOT_OPEN without one, and leave the state
otherwise as it was (41_stream.md R400; for NEXT and SKIP log 19, the model's reading). -/
def Obligations.StreamCommandsNeedOpen : Prop :=
  ∀ (i : Instr) (s : State),
    i ∈ [Instr.openNext, .readHeader, .readData, .skipData, .next, .skip] →
    s.fault = false → s.opened = false →
    exec i s = .next (faultEntry ⟨.notOpen, s.pending⟩ s)

/-- READ_HEADER reads 8 bytes of the first segment, from the cursor's on, that has 8 left; segments
with fewer are passed over and their bytes never read (41_stream.md R410, R411, R412). With no such
segment the input has ended. -/
def Obligations.ReadHeaderSplices : Prop :=
  decodesTo 0x14 (fun _ _ _ => .readHeader) ∧ ∀ s : State, s.fault = false →
    (s.opened = false → exec .readHeader s = .next (faultEntry ⟨.notOpen, s.pending⟩ s))
    ∧ (s.opened = true →
    (∀ (j : Nat) (g : Seg), s.segq[s.curSeg + j]? = some g →
      (if j = 0 then s.off.toNat else 0) + 8 ≤ g.len.toNat →
      (∀ i g', i < j → s.segq[s.curSeg + i]? = some g' →
        g'.len.toNat < (if i = 0 then s.off.toNat else 0) + 8) →
      exec .readHeader s = .next { s with
        curSeg := s.curSeg + j
        off := BitVec.ofNat 32 ((if j = 0 then s.off.toNat else 0) + 8)
        hdr0 := memWord s.inMem (g.base.toNat + (if j = 0 then s.off.toNat else 0))
        hdr1 := memWord s.inMem (g.base.toNat + (if j = 0 then s.off.toNat else 0) + 4)
        eoi := false, resN0 := 1
        resN1 := memWord s.inMem (g.base.toNat + (if j = 0 then s.off.toNat else 0))
        resN2 := memWord s.inMem (g.base.toNat + (if j = 0 then s.off.toNat else 0) + 4)
        busy := false })
    ∧ ((∀ i g', s.segq[s.curSeg + i]? = some g' →
        g'.len.toNat < (if i = 0 then s.off.toNat else 0) + 8) →
      exec .readHeader s = .next { s with
        curSeg := max s.curSeg s.segq.length
        off := if s.curSeg < s.segq.length then 0 else s.off
        eoi := true, resN0 := 0, busy := false }))

/-- READ_DATA and SKIP_DATA read or pass 1 + n words of the current segment, or raise CAPACITY or
TRUNCATED_RECORD before any write (41_stream.md R420, R421, R425). -/
def Obligations.DataReadsAndSkips : Prop :=
  decodesTo 0x15 (fun _ _ _ => .readData) ∧ decodesTo 0x16 (fun _ _ _ => .skipData)
  ∧ (∀ s : State, s.fault = false →
    (s.opened = false → ∀ i ∈ [Instr.readData, .skipData],
      exec i s = .next (faultEntry ⟨.notOpen, s.pending⟩ s))
    ∧ (s.opened = true → 4194288 < 4 * s.argN0.toNat →
      exec .readData s = .next (faultEntry ⟨.capacity, s.argN0⟩ s))
    ∧ (s.opened = true → s.segq[s.curSeg]? = none →
      exec .skipData s = .next (faultEntry ⟨.truncatedRecord, s.off⟩ s)
        ∧ (4 * s.argN0.toNat ≤ 4194288 →
          exec .readData s = .next (faultEntry ⟨.truncatedRecord, s.off⟩ s))))
  ∧ ∀ (s : State) (g : Seg), s.fault = false → s.opened = true → s.segq[s.curSeg]? = some g →
    (4 * s.argN0.toNat ≤ 4194288 → s.off.toNat + 4 * (1 + s.argN0.toNat) ≤ g.len.toNat →
      exec .readData s = .next { s with
        info := memWord s.inMem (g.base.toNat + s.off.toNat)
        dataBuf := memReadN s.inMem (g.base.toNat + s.off.toNat + 4) (4 * s.argN0.toNat)
        off := BitVec.ofNat 32 (s.off.toNat + 4 * (1 + s.argN0.toNat))
        resN0 := memWord s.inMem (g.base.toNat + s.off.toNat)
        resN1 := BitVec.ofNat 32 (4 * s.argN0.toNat), busy := false })
    ∧ (s.off.toNat + 4 * (1 + s.argN0.toNat) ≤ g.len.toNat →
      exec .skipData s = .next { s with
        off := BitVec.ofNat 32 (s.off.toNat + 4 * (1 + s.argN0.toNat))
        resN0 := BitVec.ofNat 32 (s.off.toNat + 4 * (1 + s.argN0.toNat)), busy := false })
    ∧ (g.len.toNat < s.off.toNat + 4 * (1 + s.argN0.toNat) →
      exec .skipData s = .next (faultEntry ⟨.truncatedRecord, s.off⟩ s)
        ∧ (4 * s.argN0.toNat ≤ 4194288 →
          exec .readData s = .next (faultEntry ⟨.truncatedRecord, s.off⟩ s)))

/-- VIEW_READ answers the element of the view, its extents and its binary64 value, or raises
ILLEGAL_OPERAND, VIEW_EXTENT or OUT_OF_BOUNDS (41_stream.md R430, R431, R432). The extents are the
given ones where both are given, a missing one (0) is inferred from the bytes left, and with neither
given the view is one column of all of them. -/
def Obligations.ViewReadsOneElement : Prop :=
  ∀ (s : State) (a : BitVec 8), s.fault = false →
    (2 < a.toNat → exec (.viewRead a) s = .next (faultEntry ⟨.illegalOperand, a.setWidth 32⟩ s))
    ∧ ∀ (es bytes gX gY x y : Nat), (a, es) ∈ [((0 : BitVec 8), 1), (1, 2), (2, 4)] →
      bytes = s.dataBuf.length - s.argN0.toNat →
      gX = (s.argN1.extractLsb' 0 16).toNat → gY = (s.argN1.extractLsb' 16 16).toNat →
      x = (s.argN2.extractLsb' 0 16).toNat → y = (s.argN2.extractLsb' 16 16).toNat →
      (s.dataBuf.length < s.argN0.toNat ∨ (0 < gX ∧ 0 < gY ∧ bytes < gX * gY * es) →
        exec (.viewRead a) s = .next (faultEntry ⟨.viewExtent, s.argN0⟩ s))
      ∧ ∀ nX nY : Nat, s.argN0.toNat ≤ s.dataBuf.length →
        (0 < gX ∧ 0 < gY ∧ gX * gY * es ≤ bytes ∧ nX = gX ∧ nY = gY
          ∨ 0 < gX ∧ gY = 0 ∧ nX = gX ∧ nY = bytes / (gX * es)
          ∨ gX = 0 ∧ 0 < gY ∧ nX = bytes / (gY * es) ∧ nY = gY
          ∨ gX = 0 ∧ gY = 0 ∧ nX = bytes / es ∧ nY = 1) →
        (nX ≤ x ∨ nY ≤ y → exec (.viewRead a) s = .next (faultEntry ⟨.outOfBounds, s.argN2⟩ s))
        ∧ (x < nX → y < nY → ∀ (b : Nat → Byte) (v : Int),
          (∀ i, i < es → s.dataBuf[s.argN0.toNat + (x * nY + y) * es + i]? = some (b i)) →
          (a = 0 ∧ v = (b 0).toInt ∨ a = 1 ∧ v = (b 1 ++ b 0).toInt
            ∨ a = 2 ∧ v = ((b 3 ++ b 2 ++ b 1 ++ b 0).toNat : Int)) →
          exec (.viewRead a) s = .next { s with
            resN0 := BitVec.ofInt 32 v
            resN1 := BitVec.ofNat 32 nX, resN2 := BitVec.ofNat 32 nY
            resF := fOfInt v, busy := false })

/-! ### Converters -/

/-- A conversion command converts one frame into a work matrix, whose tags stay, and answers the
bytes it took; or it raises ILLEGAL_OPERAND or VIEW_EXTENT before any write (42_convert.md R459 to
R464). -/
def Obligations.ConversionCompletes : Prop :=
  (∀ p ∈ [((0x20 : BitVec 8), ConvKind.s3a), (0x21, .s3b2), (0x22, .s3b4), (0x23, .dcd2),
      (0x24, .dcd4)], decodesTo p.1 (fun a _ _ => convInstr p.2 a))
  ∧ ∀ (k : ConvKind) (a : BitVec 8) (s : State), s.fault = false →
    (isWork a → s.argN1.toNat < (if s.cfgInfoLayout = 0 then 2 ^ 7 else 2 ^ 10) →
      s.argN0.toNat + k.npix * elemSize (Config.elemType k) ≤ s.dataBuf.length →
      exec (convInstr k a) s = .next { (writeMat a.toNat { readMat s a.toNat with
          nX := k.dims.1, nY := k.dims.2
          data := convertData k (convMapping s k) s.argN0.toNat s.argN1.toNat s.dataBuf } s) with
        resN0 := BitVec.ofNat 32 (k.npix * elemSize (Config.elemType k)), busy := false })
    ∧ (¬ isWork a →
      exec (convInstr k a) s = .next (faultEntry ⟨.illegalOperand, a.setWidth 32⟩ s))
    ∧ (isWork a → (if s.cfgInfoLayout = 0 then 2 ^ 7 else 2 ^ 10) ≤ s.argN1.toNat →
      exec (convInstr k a) s = .next (faultEntry ⟨.illegalOperand, s.argN1⟩ s))
    ∧ (isWork a → s.argN1.toNat < (if s.cfgInfoLayout = 0 then 2 ^ 7 else 2 ^ 10) →
      s.dataBuf.length < s.argN0.toNat + k.npix * elemSize (Config.elemType k) →
      exec (convInstr k a) s = .next (faultEntry ⟨.viewExtent, s.argN0⟩ s))

/-- Under mapping, element e of the frame goes to the pixel PLACE(G, j) with i = e div INNER,
j = e mod INNER and G = (startGate + OFF + i) mod N, and to no other (42_convert.md R454). -/
def Obligations.ConversionPlacesElements : Prop :=
  ∀ (k : ConvKind) (off sg e : Nat) (buf : List Byte), e < k.npix →
    ∃ q : Fin k.npix,
      (∃ hc : (sg + Config.gateOffset k + e / Config.inner k) % Config.gates k * Config.inner k
          + e % Config.inner k < k.npix, q = Config.place k ⟨_, hc⟩)
      ∧ (convertData k true off sg buf)[q.val]? = some (fOfInt (elemAt (Config.elemType k) buf
          (off + e * elemSize (Config.elemType k))))
      ∧ ∀ q' : Fin k.npix, lut k true sg q' = e → q' = q

/-- The six properties of a converter that hold whatever its tables (42_convert.md R457): P1 the
dimensions, P2 purity, P3 and P4 the pixels are a permutation of the elements, P5 and P6 the rotation
with the start gate under mapping. -/
def Obligations.ConverterProperties : Prop :=
  ∀ (k : ConvKind) (um : Bool) (off sg : Nat) (buf : List Byte),
    (∀ (s t : State) (dst : Nat), dst < 184 → convert k um dst off sg s = .ok t →
      (readMat t dst).nX = k.dims.1 ∧ (readMat t dst).nY = k.dims.2
        ∧ (readMat t dst).data = convertData k um off sg s.dataBuf
        ∧ (readMat t dst).data.length = k.dims.1 * k.dims.2)
    ∧ (∀ buf' : List Byte,
        (∀ i, i < k.npix * elemSize (Config.elemType k) →
          bufByte buf' (off + i) = bufByte buf (off + i)) →
        convertData k um off sg buf' = convertData k um off sg buf)
    ∧ Function.Injective (lut k um sg) ∧ (∀ e, e < k.npix → ∃ q, lut k um sg q = e)
    ∧ List.Perm (convertData k um off sg buf)
        ((List.range k.npix).map fun e =>
          fOfInt (elemAt (Config.elemType k) buf (off + e * elemSize (Config.elemType k))))
    ∧ (∀ buf' : List Byte,
        (∀ e i, e < k.npix → i < elemSize (Config.elemType k) →
          bufByte buf' (off + e * elemSize (Config.elemType k) + i)
            = bufByte buf (off + ((e / Config.inner k + (Config.gates k - 1)) % Config.gates k
                * Config.inner k + e % Config.inner k) * elemSize (Config.elemType k) + i)) →
        convertData k true off (sg + 1) buf = convertData k true off sg buf')
    ∧ convertData k true off (sg % Config.gates k) buf = convertData k true off sg buf

/-- An element becomes a pixel value exactly: `fp` of an integer below 2^53 is that integer
(42_convert.md R452, 00_scope.md R15). -/
def Obligations.ElementConversionIsExact : Prop :=
  ∀ z : Int, z.natAbs < 2 ^ 53 →
    fFinite (fOfInt z) = true ∧ fInt (fOfInt z) = z * 2 ^ 1074

/-! ### Matrix commands -/

/-- MRESIZE sets the dimensions of a work matrix and clears it, its tags stay; or it raises
ILLEGAL_OPERAND or CAPACITY (44_matrix.md R560). -/
def Obligations.MresizeClears : Prop :=
  decodesTo 0x40 (fun a _ _ => .mresize a) ∧ ∀ (a : BitVec 8) (s : State), s.fault = false →
    (¬ isWork a → exec (.mresize a) s = .next (faultEntry ⟨.illegalOperand, a.setWidth 32⟩ s))
    ∧ (isWork a → s.argN0.toNat ≤ 16384 → s.argN1.toNat ≤ 16384 → s.argN0.toNat * s.argN1.toNat ≤ 16384 →
      exec (.mresize a) s = .next { (writeMat a.toNat { readMat s a.toNat with
        nX := s.argN0.toNat, nY := s.argN1.toNat
        data := List.replicate (s.argN0.toNat * s.argN1.toNat) fZero } s) with busy := false })
    ∧ (isWork a → 16384 < s.argN0.toNat ∨ 16384 < s.argN1.toNat ∨ 16384 < s.argN0.toNat * s.argN1.toNat →
      exec (.mresize a) s = .next (faultEntry ⟨.capacity, s.argN0⟩ s))

/-- MGET and MGETF answer one element, by 2D and by flat index; for an index in range the two agree.
MINFO and MTRIG answer the shape and the tags; a reserved id raises ILLEGAL_OPERAND
(44_matrix.md R550, R554, R561, R563, R568, R569). -/
def Obligations.MatrixReads : Prop :=
  decodesTo 0x41 (fun a _ _ => .mget a) ∧ decodesTo 0x43 (fun a _ _ => .mgetf a)
  ∧ decodesTo 0x48 (fun a _ _ => .minfo a) ∧ decodesTo 0x49 (fun a _ _ => .mtrig a)
  ∧ (∀ (a : BitVec 8) (s : State), s.fault = false → 184 ≤ a.toNat →
    ∀ i ∈ [Instr.mget a, .mgetf a, .minfo a, .mtrig a],
      exec i s = .next (faultEntry ⟨.illegalOperand, a.setWidth 32⟩ s))
  ∧ ∀ (a : BitVec 8) (s : State), s.fault = false → a.toNat < 184 →
    (s.argN0.toNat < (readMat s a.toNat).nX → s.argN1.toNat < (readMat s a.toNat).nY →
      exec (.mget a) s = .next { s with
          resF := (readMat s a.toNat).data.getD
            (s.argN0.toNat * (readMat s a.toNat).nY + s.argN1.toNat) 0
          busy := false }
        ∧ ∀ s' t t' : State, s' = { s with
            argN0 := BitVec.ofNat 32 (s.argN0.toNat * (readMat s a.toNat).nY + s.argN1.toNat) } →
          (readMat s a.toNat).nX * (readMat s a.toNat).nY ≤ 16384 →
          exec (.mget a) s = .next t → exec (.mgetf a) s' = .next t' → t'.resF = t.resF)
    ∧ (s.argN0.toNat < (readMat s a.toNat).nX * (readMat s a.toNat).nY →
      exec (.mgetf a) s = .next { s with
        resF := (readMat s a.toNat).data.getD s.argN0.toNat 0, busy := false })
    ∧ ((readMat s a.toNat).nX ≤ s.argN0.toNat ∨ (readMat s a.toNat).nY ≤ s.argN1.toNat →
      exec (.mget a) s = .next (faultEntry
        ⟨.outOfBounds, s.argN1.extractLsb' 0 16 ++ s.argN0.extractLsb' 0 16⟩ s))
    ∧ ((readMat s a.toNat).nX * (readMat s a.toNat).nY ≤ s.argN0.toNat →
      exec (.mgetf a) s = .next (faultEntry ⟨.outOfBounds, s.argN0⟩ s))
    ∧ exec (.mtrig a) s = .next { s with resN0 := (readMat s a.toNat).triggerNr, busy := false }
    ∧ ∃ t, exec (.minfo a) s = .next t
      ∧ t = { s with
          resN0 := BitVec.ofNat 32 (readMat s a.toNat).nX
          resN1 := BitVec.ofNat 32 (readMat s a.toNat).nY, resN2 := t.resN2, busy := false }
      ∧ t.resN2.extractLsb' 16 10 = (readMat s a.toNat).startGate
      ∧ t.resN2.extractLsb' 8 3 = (readMat s a.toNat).frameNr
      ∧ t.resN2.extractLsb' 0 4 = (readMat s a.toNat).moduleNr
      ∧ t.resN2 &&& 0xFC00F8F0 = 0

/-- MPUT and MPUTF write one element of a work matrix and nothing else; a read of the element then
answers ARG_X bit for bit, a read of any other element what it answered before
(44_matrix.md R554, R562, R564). -/
def Obligations.ElementWrites : Prop :=
  decodesTo 0x42 (fun a _ _ => .mput a) ∧ decodesTo 0x44 (fun a _ _ => .mputf a)
  ∧ (∀ (a : BitVec 8) (s : State), s.fault = false → ¬ isWork a → ∀ i ∈ [Instr.mput a, .mputf a],
    exec i s = .next (faultEntry ⟨.illegalOperand, a.setWidth 32⟩ s))
  ∧ ∀ (a : BitVec 8) (s : State), s.fault = false → isWork a → (readMat s a.toNat).wf →
    (s.argN0.toNat < (readMat s a.toNat).nX → s.argN1.toNat < (readMat s a.toNat).nY →
      ∃ t, exec (.mput a) s = .next t
        ∧ t = { s with mats := t.mats, busy := false }
        ∧ (∀ id, id ≠ a.toNat → readMat t id = readMat s id)
        ∧ readMat t a.toNat = { readMat s a.toNat with data := (readMat t a.toNat).data }
        ∧ ∀ k, (readMat t a.toNat).data[k]?
            = if k = s.argN0.toNat * (readMat s a.toNat).nY + s.argN1.toNat then some s.argX
              else (readMat s a.toNat).data[k]?)
    ∧ (s.argN0.toNat < (readMat s a.toNat).nX * (readMat s a.toNat).nY →
      ∃ t, exec (.mputf a) s = .next t
        ∧ t = { s with mats := t.mats, busy := false }
        ∧ (∀ id, id ≠ a.toNat → readMat t id = readMat s id)
        ∧ readMat t a.toNat = { readMat s a.toNat with data := (readMat t a.toNat).data }
        ∧ ∀ k, (readMat t a.toNat).data[k]?
            = if k = s.argN0.toNat then some s.argX else (readMat s a.toNat).data[k]?)
    ∧ ((readMat s a.toNat).nX ≤ s.argN0.toNat ∨ (readMat s a.toNat).nY ≤ s.argN1.toNat →
      exec (.mput a) s = .next (faultEntry
        ⟨.outOfBounds, s.argN1.extractLsb' 0 16 ++ s.argN0.extractLsb' 0 16⟩ s))
    ∧ ((readMat s a.toNat).nX * (readMat s a.toNat).nY ≤ s.argN0.toNat →
      exec (.mputf a) s = .next (faultEntry ⟨.outOfBounds, s.argN0⟩ s))

/-- MADD, MSUB and MSET on matrices of equal shape: each element from the same element of both, the
shape and tags and every other register unchanged (44_matrix.md R557, R565, R566, R567). Where a
result is a NaN it is the free NaN of the operation (log 3). -/
def Obligations.ElementwiseAlgebra : Prop :=
  ∀ (a b : BitVec 8) (s : State) (i : Instr) (f : Nat → F64 → F64 → F64),
    s.fault = false → isWork a → b.toNat < 184 →
    (readMat s a.toNat).wf → (readMat s b.toNat).wf →
    (readMat s a.toNat).nX = (readMat s b.toNat).nX →
    (readMat s a.toNat).nY = (readMat s b.toNat).nY →
    (i = .madd a b ∧ f = (fun k v w => fAdd (nanAt s 0 k) v (fMul (nanAt s 1 k) s.argX w))
      ∨ i = .msub a b ∧ f = (fun k v w => fSub (nanAt s 0 k) v (fMul (nanAt s 1 k) s.argX w))
      ∨ i = .mset a b ∧ f = (fun k _ w => fMul (nanAt s 1 k) s.argX w)) →
    ∃ t, exec i s = .next t
      ∧ t = { s with mats := t.mats, freeTick := s.freeTick + 1, busy := false }
      ∧ (∀ id, id ≠ a.toNat → readMat t id = readMat s id)
      ∧ readMat t a.toNat = { readMat s a.toNat with data := (readMat t a.toNat).data }
      ∧ (readMat t a.toNat).data.length = (readMat s a.toNat).data.length
      ∧ ∀ k v w, (readMat s a.toNat).data[k]? = some v → (readMat s b.toNat).data[k]? = some w →
          (readMat t a.toNat).data[k]? = some (f k v w)

/-- The operand checks and DIM_MISMATCH: reserved ids, NONE where it is not allowed, destinations a
command may not write, module numbers above 15, different shapes (44_matrix.md R553, R555,
30_encoding.md R331, 45_calibration.md R612, 46_commonmode.md R660). A is checked before B, B before
C, and the shapes after the operands. -/
def Obligations.IllegalOperandsAreRaised : Prop :=
  ∀ (a b c : BitVec 8) (s : State), s.fault = false →
    (184 ≤ a.toNat → ∀ i ∈ [Instr.mget a, .mgetf a, .minfo a, .mtrig a],
      exec i s = .next (faultEntry ⟨.illegalOperand, a.setWidth 32⟩ s))
    ∧ (¬ isWork a → ∀ i ∈ [Instr.mresize a, .mput a, .mputf a, .madd a b, .msub a b, .mset a b,
        .cmApply a b c],
      exec i s = .next (faultEntry ⟨.illegalOperand, a.setWidth 32⟩ s))
    ∧ (15 < a.toNat → ∀ i ∈ [Instr.accClear a, .accAdd a, .accAddm a b c, .accRead a b,
        .calCommit a, .calInit a, .calLoad a],
      exec i s = .next (faultEntry ⟨.illegalOperand, a.setWidth 32⟩ s))
    ∧ (isWork a → 184 ≤ b.toNat → ∀ i ∈ [Instr.madd a b, .msub a b, .mset a b],
      exec i s = .next (faultEntry ⟨.illegalOperand, b.setWidth 32⟩ s))
    ∧ (isWork a → b.toNat < 184 → ¬ ((readMat s a.toNat).nX = (readMat s b.toNat).nX
          ∧ (readMat s a.toNat).nY = (readMat s b.toNat).nY) →
      ∀ i ∈ [Instr.madd a b, .msub a b, .mset a b],
        exec i s = .next (faultEntry ⟨.dimMismatch, (b ++ a).setWidth 32⟩ s))
    ∧ (a.toNat ≤ 15 → b.toNat < 184 → (c = 0xFF ∨ c.toNat < 184) →
      ¬ ((readAcc s a.toNat).nX = (readMat s b.toNat).nX
        ∧ (readAcc s a.toNat).nY = (readMat s b.toNat).nY) →
      exec (.accAddm a b c) s = .next (faultEntry ⟨.dimMismatch, (b ++ a).setWidth 32⟩ s))
    ∧ (a.toNat ≤ 15 → 184 ≤ b.toNat →
      exec (.accAddm a b c) s = .next (faultEntry ⟨.illegalOperand, b.setWidth 32⟩ s))
    ∧ (a.toNat ≤ 15 → b.toNat < 184 → c ≠ 0xFF → 184 ≤ c.toNat →
      exec (.accAddm a b c) s = .next (faultEntry ⟨.illegalOperand, c.setWidth 32⟩ s))
    ∧ (a.toNat ≤ 15 → b.toNat < 184 → c.toNat < 184 →
      (readAcc s a.toNat).nX = (readMat s b.toNat).nX →
      (readAcc s a.toNat).nY = (readMat s b.toNat).nY →
      ¬ ((readMat s c.toNat).nX = (readMat s b.toNat).nX
        ∧ (readMat s c.toNat).nY = (readMat s b.toNat).nY) →
      exec (.accAddm a b c) s = .next (faultEntry ⟨.dimMismatch, (c ++ b).setWidth 32⟩ s))
    ∧ (isWork a → b ≠ 0xFF → 184 ≤ b.toNat →
      exec (.cmApply a b c) s = .next (faultEntry ⟨.illegalOperand, b.setWidth 32⟩ s))
    ∧ (isWork a → (b = 0xFF ∨ b.toNat < 184) → c ≠ 0xFF → 184 ≤ c.toNat →
      exec (.cmApply a b c) s = .next (faultEntry ⟨.illegalOperand, c.setWidth 32⟩ s))
    ∧ (isWork a → b.toNat < 184 → (c = 0xFF ∨ c.toNat < 184) →
      ¬ ((readMat s b.toNat).nX = (readMat s a.toNat).nX
        ∧ (readMat s b.toNat).nY = (readMat s a.toNat).nY) →
      exec (.cmApply a b c) s = .next (faultEntry ⟨.dimMismatch, (b ++ a).setWidth 32⟩ s))
    ∧ (isWork a → c.toNat < 184 →
      (b = 0xFF ∨ b.toNat < 184 ∧ (readMat s b.toNat).nX = (readMat s a.toNat).nX
        ∧ (readMat s b.toNat).nY = (readMat s a.toNat).nY) →
      ¬ ((readMat s c.toNat).nX = (readMat s a.toNat).nX
        ∧ (readMat s c.toNat).nY = (readMat s a.toNat).nY) →
      exec (.cmApply a b c) s = .next (faultEntry ⟨.dimMismatch, (c ++ a).setWidth 32⟩ s))

/-- A matrix register is written only by the instructions of its "written by" column
(10_state.md R150; 45_calibration.md R632: only CAL_INIT, CAL_LOAD and CAL_COMMIT write the
snapshots). -/
def Obligations.MatrixRegistersHaveFixedWriters : Prop :=
  ∀ (i : Instr) (s t : State) (id : Nat), exec i s = .next t → ¬ mayWrite i id → readMat t id = readMat s id

/-! ### Calibration commands -/

/-- ACC_CLEAR gives an accumulator its dimensions and zero triples, or raises ILLEGAL_OPERAND or
CAPACITY (45_calibration.md R610). -/
def Obligations.AccClearZeroes : Prop :=
  decodesTo 0x50 (fun a _ _ => .accClear a) ∧ ∀ (a : BitVec 8) (s : State), s.fault = false →
    (15 < a.toNat →
      exec (.accClear a) s = .next (faultEntry ⟨.illegalOperand, a.setWidth 32⟩ s))
    ∧ (a.toNat ≤ 15 → s.argN0.toNat ≤ 16384 → s.argN1.toNat ≤ 16384 → s.argN0.toNat * s.argN1.toNat ≤ 16384 →
      exec (.accClear a) s = .next { (writeAcc a.toNat
        { nX := s.argN0.toNat, nY := s.argN1.toNat
          cells := List.replicate (s.argN0.toNat * s.argN1.toNat) ⟨0, 0, 0⟩ } s) with
        busy := false })
    ∧ (a.toNat ≤ 15 → 16384 < s.argN0.toNat ∨ 16384 < s.argN1.toNat ∨ 16384 < s.argN0.toNat * s.argN1.toNat →
      exec (.accClear a) s = .next (faultEntry ⟨.capacity, s.argN0⟩ s))

/-- ACC_ADD takes a finite sample with a positive finite weight under a legal cut: it updates the
pixel's triple by the rule's formulas, or leaves it where the sample is rejected. Otherwise it raises
ILLEGAL_OPERAND, OUT_OF_BOUNDS, BAD_OPERAND or CONFIG (45_calibration.md R600, R605, R611). The
model's choices: a NaN result is the free NaN of its operation, drawn with a counter that moves on
(log 3); under the cut +inf a pixel with var 0 accepts every sample, as R600's formula gives (log 20). -/
def Obligations.AccAddUpdatesOrRejects : Prop :=
  decodesTo 0x51 (fun a _ _ => .accAdd a)
  ∧ (∀ (a : BitVec 8) (s : State), s.fault = false →
    (15 < a.toNat → exec (.accAdd a) s = .next (faultEntry ⟨.illegalOperand, a.setWidth 32⟩ s))
    ∧ (a.toNat ≤ 15 → (readAcc s a.toNat).nX * (readAcc s a.toNat).nY ≤ s.argN0.toNat →
      exec (.accAdd a) s = .next (faultEntry ⟨.outOfBounds, s.argN0⟩ s)))
  ∧ ∀ (a : BitVec 8) (s : State) (e mu v : F64), s.fault = false → a.toNat ≤ 15 →
    s.argN0.toNat < (readAcc s a.toNat).nX * (readAcc s a.toNat).nY →
    (readAcc s a.toNat).cells[s.argN0.toNat]? = some ⟨e, mu, v⟩ →
    (¬ fFinite s.argX → exec (.accAdd a) s = .next (faultEntry ⟨.badOperand, 0⟩ s))
    ∧ (fFinite s.argX → ¬ (fFinite s.argW ∧ fLt 0 s.argW) →
      exec (.accAdd a) s = .next (faultEntry ⟨.badOperand, 1⟩ s))
    ∧ (fFinite s.argX → fFinite s.argW → fLt 0 s.argW →
      (fIsNaN s.cfgSigmaCut ∨ fLt s.cfgSigmaCut 0) →
      exec (.accAdd a) s = .next (faultEntry ⟨.config, 0x098⟩ s))
    ∧ (fFinite s.argX → fFinite s.argW → fLt 0 s.argW →
      ¬ (fIsNaN s.cfgSigmaCut ∨ fLt s.cfgSigmaCut 0) →
      ∀ n : Nat → F64, (∀ op, n op = nanAt s op s.argN0.toNat) →
        ∀ d e1 mu1 sg : F64, d = fSub (n 2) s.argX mu → e1 = fAdd (n 4) e s.argW →
          mu1 = fAdd (n 7) mu (fDiv (n 6) (fMul (n 5) s.argW d) e1) →
          sg = fSqrt (n 1) (fDiv (n 0) v e) →
          exec (.accAdd a) s = .next
            (if fLt 0 s.cfgSigmaCut ∧ fLt (fMul (n 3) sg s.cfgSigmaCut) (fAbs d) then
              { s with resN0 := 0, freeTick := s.freeTick + 1, busy := false }
            else
              { (writeAcc a.toNat { readAcc s a.toNat with
                  cells := (readAcc s a.toNat).cells.set s.argN0.toNat
                    ⟨e1, mu1, fAdd (n 10) v (fMul (n 9) (fMul (n 5) s.argW d)
                      (fSub (n 8) s.argX mu1))⟩ } s) with
                resN0 := 1, freeTick := s.freeTick + 1, busy := false }))

/-- The first sample of a pixel is always accepted, whatever the cut: with no entries sigma is a NaN
and the comparison is false (45_calibration.md R602, R603). -/
def Obligations.FirstSampleIsAccepted : Prop :=
  ∀ (a : BitVec 8) (s t : State), s.fault = false → a.toNat ≤ 15 →
    s.argN0.toNat < (readAcc s a.toNat).nX * (readAcc s a.toNat).nY →
    (readAcc s a.toNat).cells[s.argN0.toNat]? = some ⟨0, 0, 0⟩ →
    exec (.accAdd a) s = .next t → t.fault = false → t.resN0 = 1

/-- ACC_ADDM adds every pixel that is not masked with weight 1, each on its own; masked pixels stay;
RES_N0 counts the accepted and RES_N1 the rejected (45_calibration.md R612). A bad cut raises CONFIG,
and then the first unmasked pixel that is not finite BAD_OPERAND with its index. The model's choice: a
NaN result is the free NaN of its operation, and the counter it is drawn with moves on (log 3). -/
def Obligations.AccAddmAddsEveryUnmaskedPixel : Prop :=
  ∀ (a b c : BitVec 8) (s : State) (mask : Option Mat) (p : Nat → AccCell × Bool),
    s.fault = false → a.toNat ≤ 15 → b.toNat < 184 →
    (c = 0xFF ∧ mask = none ∨ c.toNat < 184 ∧ mask = some (readMat s c.toNat)
      ∧ (readMat s c.toNat).nX = (readMat s b.toNat).nX
      ∧ (readMat s c.toNat).nY = (readMat s b.toNat).nY) →
    (readAcc s a.toNat).wf → (readMat s b.toNat).wf →
    (readAcc s a.toNat).nX = (readMat s b.toNat).nX →
    (readAcc s a.toNat).nY = (readMat s b.toNat).nY →
    (∀ k, p k = addSample (fun op => nanAt s op k) (matElem (readMat s b.toNat) k) fOne s.cfgSigmaCut
      (accCell (readAcc s a.toNat) k)) →
    (fIsNaN s.cfgSigmaCut ∨ fLt s.cfgSigmaCut 0 →
      exec (.accAddm a b c) s = .next (faultEntry ⟨.config, 0x098⟩ s))
    ∧ (¬ (fIsNaN s.cfgSigmaCut ∨ fLt s.cfgSigmaCut 0) →
      (∀ k v, (readMat s b.toNat).data[k]? = some v → maskedAt mask k = false → ¬ fFinite v →
        (∀ k' v', k' < k → (readMat s b.toNat).data[k']? = some v' →
          maskedAt mask k' = true ∨ fFinite v') →
        exec (.accAddm a b c) s = .next (faultEntry ⟨.badOperand, BitVec.ofNat 32 k⟩ s))
      ∧ ((∀ k v, (readMat s b.toNat).data[k]? = some v → maskedAt mask k = false → fFinite v) →
        ∃ t, exec (.accAddm a b c) s = .next t
          ∧ t = { s with
              accs := t.accs, freeTick := s.freeTick + 1, busy := false
              resN0 := BitVec.ofNat 32 ((List.range (readAcc s a.toNat).cells.length).countP
                fun k => !maskedAt mask k && (p k).2)
              resN1 := BitVec.ofNat 32 ((List.range (readAcc s a.toNat).cells.length).countP
                fun k => !maskedAt mask k && !(p k).2) }
          ∧ (∀ m, m ≠ a.toNat → readAcc t m = readAcc s m)
          ∧ readAcc t a.toNat
              = { readAcc s a.toNat with cells := (readAcc t a.toNat).cells }
          ∧ ∀ k, k < (readAcc s a.toNat).cells.length → (readAcc t a.toNat).cells[k]?
              = if maskedAt mask k then (readAcc s a.toNat).cells[k]? else some (p k).1))

/-- ACC_READ answers one statistic of one pixel and the accumulator's shape, or raises
ILLEGAL_OPERAND or OUT_OF_BOUNDS (45_calibration.md R602, R613). The model's choice: a NaN sigma is
the free NaN of its operation, and the counter it is drawn with moves on at every read (log 3). -/
def Obligations.AccReadAnswers : Prop :=
  decodesTo 0x53 (fun a b _ => .accRead a b)
  ∧ (∀ (a b : BitVec 8) (s : State), s.fault = false → 15 < a.toNat →
    exec (.accRead a b) s = .next (faultEntry ⟨.illegalOperand, a.setWidth 32⟩ s))
  ∧ ∀ (a b : BitVec 8) (s : State) (e mu v : F64), s.fault = false → a.toNat ≤ 15 →
    (3 < b.toNat → exec (.accRead a b) s = .next (faultEntry ⟨.illegalOperand, b.setWidth 32⟩ s))
    ∧ (b.toNat ≤ 3 → (readAcc s a.toNat).nX * (readAcc s a.toNat).nY ≤ s.argN0.toNat →
      exec (.accRead a b) s = .next (faultEntry ⟨.outOfBounds, s.argN0⟩ s))
    ∧ (s.argN0.toNat < (readAcc s a.toNat).nX * (readAcc s a.toNat).nY →
      (readAcc s a.toNat).cells[s.argN0.toNat]? = some ⟨e, mu, v⟩ →
      ∀ r : F64, (b, r) ∈ [((0 : BitVec 8), e), (1, mu), (2, v),
          (3, fSqrt (nanAt s 1 s.argN0.toNat) (fDiv (nanAt s 0 s.argN0.toNat) v e))] →
        exec (.accRead a b) s = .next { s with
          resF := r
          resN0 := BitVec.ofNat 32 (readAcc s a.toNat).nX
          resN1 := BitVec.ofNat 32 (readAcc s a.toNat).nY
          freeTick := s.freeTick + 1, busy := false })

/-- CAL_COMMIT replaces the pedestal and noise snapshots of a module by the means and sigmas of its
accumulator, in one step; the mask, the accumulator and the tags stay (45_calibration.md R620). The
model's choice: a NaN sigma is the free NaN of its operation, and the counter it is drawn with moves
on (log 3). -/
def Obligations.CalCommitReplacesSnapshots : Prop :=
  decodesTo 0x54 (fun a _ _ => .calCommit a)
  ∧ (∀ (a : BitVec 8) (s : State), s.fault = false → 15 < a.toNat →
    exec (.calCommit a) s = .next (faultEntry ⟨.illegalOperand, a.setWidth 32⟩ s))
  ∧ ∀ (a : BitVec 8) (s : State), s.fault = false → a.toNat ≤ 15 → (readAcc s a.toNat).wf →
    ∃ t, exec (.calCommit a) s = .next t
      ∧ t = { s with mats := t.mats, freeTick := s.freeTick + 1, busy := false }
      ∧ (∀ id, id ≠ 0x80 + a.toNat → id ≠ 0x90 + a.toNat → readMat t id = readMat s id)
      ∧ readMat t (0x80 + a.toNat) = { readMat s (0x80 + a.toNat) with
          nX := (readAcc s a.toNat).nX, nY := (readAcc s a.toNat).nY
          data := (readAcc s a.toNat).cells.map fun p => p.mean }
      ∧ readMat t (0x90 + a.toNat) = { readMat s (0x90 + a.toNat) with
          nX := (readAcc s a.toNat).nX, nY := (readAcc s a.toNat).nY
          data := (readMat t (0x90 + a.toNat)).data }
      ∧ (readMat t (0x90 + a.toNat)).data.length = (readAcc s a.toNat).cells.length
      ∧ ∀ k p, (readAcc s a.toNat).cells[k]? = some p →
          (readMat t (0x90 + a.toNat)).data[k]?
            = some (fSqrt (nanAt s 1 k) (fDiv (nanAt s 0 k) p.var p.entries))

/-- CAL_INIT gives the three snapshots of a module the dimensions and zeros; CAL_LOAD checks (col, row)
against PED and writes the pixel of that flat index in each (45_calibration.md R621, R622). The model's
choice: where MASK or NOISE has another shape and the index lies past it, CAL_LOAD raises OUT_OF_BOUNDS
with the flat index before any write (log 13). -/
def Obligations.CalInitAndLoad : Prop :=
  decodesTo 0x55 (fun a _ _ => .calInit a) ∧ decodesTo 0x56 (fun a _ _ => .calLoad a)
  ∧ (∀ (a : BitVec 8) (s : State), s.fault = false → 15 < a.toNat →
    ∀ i ∈ [Instr.calInit a, .calLoad a],
      exec i s = .next (faultEntry ⟨.illegalOperand, a.setWidth 32⟩ s))
  ∧ ∀ (a : BitVec 8) (s : State), s.fault = false → a.toNat ≤ 15 →
    (s.argN0.toNat ≤ 16384 → s.argN1.toNat ≤ 16384 → s.argN0.toNat * s.argN1.toNat ≤ 16384 →
      ∃ t, exec (.calInit a) s = .next t
        ∧ t = { s with mats := t.mats, busy := false }
        ∧ (∀ id, id ∉ [0x80 + a.toNat, 0x90 + a.toNat, 0xA0 + a.toNat] →
          readMat t id = readMat s id)
        ∧ ∀ id ∈ [0x80 + a.toNat, 0x90 + a.toNat, 0xA0 + a.toNat],
          readMat t id = { readMat s id with
            nX := s.argN0.toNat, nY := s.argN1.toNat
            data := List.replicate (s.argN0.toNat * s.argN1.toNat) 0 })
    ∧ (16384 < s.argN0.toNat ∨ 16384 < s.argN1.toNat ∨ 16384 < s.argN0.toNat * s.argN1.toNat →
      exec (.calInit a) s = .next (faultEntry ⟨.capacity, s.argN0⟩ s))
    ∧ ((readMat s (0x80 + a.toNat)).nX ≤ s.argN0.toNat
        ∨ (readMat s (0x80 + a.toNat)).nY ≤ s.argN1.toNat →
      exec (.calLoad a) s = .next (faultEntry
        ⟨.outOfBounds, s.argN1.extractLsb' 0 16 ++ s.argN0.extractLsb' 0 16⟩ s))
    ∧ ∀ k, s.argN0.toNat < (readMat s (0x80 + a.toNat)).nX →
      s.argN1.toNat < (readMat s (0x80 + a.toNat)).nY →
      k = s.argN0.toNat * (readMat s (0x80 + a.toNat)).nY + s.argN1.toNat →
      ((∃ id ∈ [0x90 + a.toNat, 0xA0 + a.toNat], (readMat s id).nX * (readMat s id).nY ≤ k) →
        exec (.calLoad a) s = .next (faultEntry ⟨.outOfBounds, BitVec.ofNat 32 k⟩ s))
      ∧ ((∀ id ∈ [0x90 + a.toNat, 0xA0 + a.toNat], k < (readMat s id).nX * (readMat s id).nY) →
        ∃ t, exec (.calLoad a) s = .next t
          ∧ t = { s with mats := t.mats, busy := false }
          ∧ (∀ id, id ∉ [0x80 + a.toNat, 0x90 + a.toNat, 0xA0 + a.toNat] →
            readMat t id = readMat s id)
          ∧ ∀ id v, (id, v) ∈ [(0x80 + a.toNat, s.argX), (0x90 + a.toNat, s.argW),
              (0xA0 + a.toNat, fOfInt (s.argN2.toNat : Int))] →
            readMat t id = { readMat s id with data := (readMat s id).data.set k v })

/-! ### Common-mode commands -/

/-- Every pixel of a legal stage lies in exactly one of its blocks (46_commonmode.md R651). -/
def Obligations.BlocksPartitionTheMatrix : Prop :=
  ∀ (s : State) (g : CmStage) (nX nY k : Nat), cmEnabled s g = true → cmLegal s g nX nY = true →
    k < nX * nY →
    ∃ j, j < cmBlockCount s g nX nY ∧ cmInBlock s g nX nY j k = true
      ∧ ∀ j', cmInBlock s g nX nY j' k = true → j' = j

/-- CM_APPLY: the masked pixels are set to +0.0, then the row stage and then the column stage correct
every block, the column stage on the row stage's result; the corrections of both are recorded
(46_commonmode.md R650, R653 to R657, R660, R665). A stage whose values are not legal raises CONFIG
(R651), the first selection with a NaN raises NUMERIC with its stage and block (R658), and finite
pixels never do. The model's choices: a NaN result is the free NaN of its operation, drawn with a
counter that moves on (log 3), the items of an imprecise fault are free (log 5), and the corrections of
an empty matrix are recorded past MAX_PIXELS too (R657 against 10_state.md R170, log 14). -/
def Obligations.RowStageCorrectsEveryBlock : Prop :=
  ∀ (a b c : BitVec 8) (s : State) (w : Mat), s.fault = false → isWork a → w = readMat s a.toNat →
    (∀ o ∈ [b, c], o = 0xFF ∨ o.toNat < 184 ∧ (readMat s o.toNat).nX = w.nX
      ∧ (readMat s o.toNat).nY = w.nY) →
    (s.cmRowSize ≠ 0 → (s.cmRowDiv = 0 ∨ w.nY % s.cmRowSize.toNat ≠ 0
        ∨ w.nX % s.cmRowDiv.toNat ≠ 0) →
      exec (.cmApply a b c) s = .next (faultEntry ⟨.config, 0⟩ s))
    ∧ ((s.cmRowSize = 0 ∨ s.cmRowDiv ≠ 0 ∧ w.nY % s.cmRowSize.toNat = 0
        ∧ w.nX % s.cmRowDiv.toNat = 0) → s.cmColSize ≠ 0 →
      (s.cmColDiv = 0 ∨ w.nX % s.cmColSize.toNat ≠ 0 ∨ w.nY % s.cmColDiv.toNat ≠ 0) →
      exec (.cmApply a b c) s = .next (faultEntry ⟨.config, 1⟩ s))
    ∧ ((s.cmRowSize = 0 ∨ s.cmRowDiv ≠ 0 ∧ w.nY % s.cmRowSize.toNat = 0
        ∧ w.nX % s.cmRowDiv.toNat = 0) →
      (s.cmColSize = 0 ∨ s.cmColDiv ≠ 0 ∧ w.nX % s.cmColSize.toNat = 0
        ∧ w.nY % s.cmColDiv.toNat = 0) →
      w.wf → ∀ (mask noise : Option Mat) (d0 : List F64),
      mask = (if b = 0xFF then none else some (readMat s b.toNat)) →
      noise = (if c = 0xFF then none else some (readMat s c.toNat)) →
      d0.length = w.data.length →
      (∀ k v, w.data[k]? = some v → d0[k]? = some (if maskedAt mask k then 0 else v)) →
      ∃ d1 rows d2 cols, stageDone s .row w.nX w.nY mask noise d0 d1 rows
        ∧ stageDone s .col w.nX w.nY mask noise d1 d2 cols
        ∧ ((∀ k v, w.data[k]? = some v → maskedAt mask k = false → fFinite v) →
          stageNoNaN s .row w.nX w.nY mask noise d0 (cmBlockCount s .row w.nX w.nY)
            ∧ stageNoNaN s .col w.nX w.nY mask noise d1 (cmBlockCount s .col w.nX w.nY))
        ∧ (stageNoNaN s .row w.nX w.nY mask noise d0 (cmBlockCount s .row w.nX w.nY) →
          stageNoNaN s .col w.nX w.nY mask noise d1 (cmBlockCount s .col w.nX w.nY) →
          exec (.cmApply a b c) s = .next { (writeMat a.toNat { w with data := d2 } s) with
            corrRow := rows, corrCol := cols, freeTick := s.freeTick + 1, busy := false })
        ∧ ∀ g d j, (g = .row ∧ d = d0
            ∨ g = .col ∧ d = d1
              ∧ stageNoNaN s .row w.nX w.nY mask noise d0 (cmBlockCount s .row w.nX w.nY)) →
          cmEnabled s g = true → j < cmBlockCount s g w.nX w.nY →
          stageNoNaN s g w.nX w.nY mask noise d j →
          (∃ v ∈ cmSelection s g w.nX w.nY j mask noise d, fIsNaN v = true) →
          ∃ t, exec (.cmApply a b c) s = .next t
            ∧ t = { s with
                fault := true, errCode := .numeric, busy := false, walk := none
                errInfo := BitVec.ofNat 32 (2 ^ 16 * (if g = .row then 0 else 1) + j)
                mats := t.mats, corrRow := t.corrRow, corrCol := t.corrCol
                freeTick := s.freeTick + 1 }
            ∧ ∀ id, id ≠ a.toNat → readMat t id = readMat s id)

/-- After CM_APPLY completes without a fault every masked pixel is +0.0, for any input values and any
configuration (46_commonmode.md R663). -/
def Obligations.MaskedPixelsAreZeroAfterApply : Prop :=
  ∀ (a b c : BitVec 8) (s t : State) (k : Nat), s.fault = false →
    exec (.cmApply a b c) s = .next t → t.fault = false → b ≠ 0xFF →
    maskedAt (some (readMat s b.toNat)) k = true →
    k < (readMat s a.toNat).data.length → (readMat t a.toNat).data[k]? = some 0

/-- The correction of a selection is the element at index size div 2 of the sorted selection, and +0.0
for an empty one. So it is one of the values, never an average, with at most half of the selection
below it and less than half above (46_commonmode.md R654, R655). -/
def Obligations.CorrectionIsAMedian : Prop :=
  cmMedian [] = 0 ∧ ∀ sel : List F64, sel ≠ [] →
    (sel.insertionSort fun a b => fKey a ≤ fKey b)[sel.length / 2]? = some (cmMedian sel)
      ∧ cmMedian sel ∈ sel
      ∧ 2 * sel.countP (fun v => decide (fKey v < fKey (cmMedian sel))) ≤ sel.length
      ∧ 2 * sel.countP (fun v => decide (fKey (cmMedian sel) < fKey v)) < sel.length

/-- CM_CORR answers one recorded correction and their number, or raises ILLEGAL_OPERAND or
OUT_OF_BOUNDS (46_commonmode.md R662). -/
def Obligations.CmCorrAnswers : Prop :=
  ∀ (a : BitVec 8) (s : State) (l : List F64), s.fault = false →
    (1 < a.toNat → exec (.cmCorr a) s = .next (faultEntry ⟨.illegalOperand, a.setWidth 32⟩ s))
    ∧ ((a, l) ∈ [((0 : BitVec 8), s.corrRow), (1, s.corrCol)] →
      (∀ v, l[s.argN0.toNat]? = some v → exec (.cmCorr a) s = .next { s with
        resF := v, resN0 := BitVec.ofNat 32 l.length, busy := false })
      ∧ (l.length ≤ s.argN0.toNat →
        exec (.cmCorr a) s = .next (faultEntry ⟨.outOfBounds, s.argN0⟩ s)))

/-! ### The record walk -/

/-- A record the walk takes at the top level: a run-bracket marker is passed over, INFO also sets the
run number, a DATA group sets the event number and is entered (43_assembler.md R503, R504, R515,
R516). -/
def Obligations.RecordsAtTopLevel : Prop :=
  ∀ (s : State) (c : WalkCmd) (h : RecHdr) (g : Seg), s.walk = some ⟨c, .top⟩ →
    2 ≤ h.eventSize.toNat → s.segq[s.curSeg]? = some g → s.off.toNat ≤ g.len.toNat →
    exec (.groupData h) s = .next { s with
        eventNumber := h.trigger, fsm := .readingModules
        walk := some ⟨c, .group (h.eventSize.toNat - 2) [] (!s.mapValid)⟩ }
    ∧ (s.off.toNat + 4 * (h.eventSize.toNat - 2) ≤ g.len.toNat →
      (∀ i ∈ [Instr.groupRunBegin h, .groupRunEnd h], exec i s = .next { s with
        off := BitVec.ofNat 32 (s.off.toNat + 4 * (h.eventSize.toNat - 2)) })
      ∧ exec (.info h) s = .next { s with
        runNumber := h.trigger
        off := BitVec.ofNat 32 (s.off.toNat + 4 * (h.eventSize.toNat - 2)) })

/-- A record the walk passes over inside a group: the ignored kinds, INFO, and under SKIP the
data-bearing kinds of a module of the map (43_assembler.md R504, R505, R515; 41_stream.md R425,
R426). -/
def Obligations.RecordsPassedInGroup : Prop :=
  ∀ (s : State) (c : WalkCmd) (h : RecHdr) (g : Seg) (remaining : Nat) (seen : List (BitVec 4))
    (est : Bool),
    s.walk = some ⟨c, .group remaining seen est⟩ → s.segq[s.curSeg]? = some g →
    2 ≤ h.eventSize.toNat → h.eventSize.toNat ≤ remaining →
    s.off.toNat + 4 * (h.eventSize.toNat - 2) ≤ g.len.toNat →
    (∀ i ∈ [Instr.bat h, .tpll h, .unknown h, .tlu h, .other h], exec i s = .next { s with
      off := BitVec.ofNat 32 (s.off.toNat + 4 * (h.eventSize.toNat - 2))
      walk := some ⟨c, .group (remaining - h.eventSize.toNat) seen est⟩ })
    ∧ exec (.info h) s = .next { s with
      runNumber := h.trigger
      off := BitVec.ofNat 32 (s.off.toNat + 4 * (h.eventSize.toNat - 2))
      walk := some ⟨c, .group (remaining - h.eventSize.toNat) seen est⟩ }
    ∧ (∀ n k, c = .skip n k → 3 ≤ h.eventSize.toNat → h.moduleNo ∉ seen →
      ∀ i ∈ [Instr.depfet h, .depfet128 h, .depfetDcd h],
        (est = true → exec i s = .next { s with
          modmap := s.modmap.setIfInBounds h.moduleNo.toNat (some (BitVec.ofNat 4 s.nmod))
          nmod := s.nmod + 1
          off := BitVec.ofNat 32 (s.off.toNat + 4 * (h.eventSize.toNat - 2))
          walk := some ⟨c, .group (remaining - h.eventSize.toNat) (h.moduleNo :: seen) est⟩ })
        ∧ (est = false → readModmap s h.moduleNo ≠ none → exec i s = .next { s with
          off := BitVec.ofNat 32 (s.off.toNat + 4 * (h.eventSize.toNat - 2))
          walk := some ⟨c, .group (remaining - h.eventSize.toNat) (h.moduleNo :: seen) est⟩ }))

/-- A data-bearing record NEXT takes inside a group: its payload is read and every frame of it decoded
into the slots of its module, with the four tags; nothing else of the matrix file changes
(43_assembler.md R505 to R508). -/
def Obligations.DataRecordDecodesEveryFrame : Prop :=
  ∀ (s : State) (h : RecHdr) (g : Seg) (remaining : Nat) (seen : List (BitVec 4)) (est : Bool)
    (k : RecKind) (t : ConvKind) (um : Bool) (ord : Nat) (iw : Word) (payload : List Byte),
    s.walk = some ⟨.next, .group remaining seen est⟩ → s.segq[s.curSeg]? = some g →
    3 ≤ h.eventSize.toNat → h.eventSize.toNat ≤ remaining → h.moduleNo ∉ seen →
    s.off.toNat + 4 * (h.eventSize.toNat - 2) ≤ g.len.toNat →
    ((k, t, um) ∈ [(RecKind.depfet, ConvKind.s3a, true)]
      ∨ s.cfgFold = 2 ∧ (k, t, um) ∈ [(RecKind.depfet128, ConvKind.s3b2, true),
          (.depfetDcd, .dcd2, s.cfgUseMapping == 1)]
      ∨ s.cfgFold = 4 ∧ (k, t, um) ∈ [(RecKind.depfet128, ConvKind.s3b4, true),
          (.depfetDcd, .dcd4, s.cfgUseMapping == 1)]) →
    (est = true ∧ ord = s.nmod ∧ s.nmod < 16
      ∨ est = false ∧ readModmap s h.moduleNo = some (BitVec.ofNat 4 ord) ∧ ord < 16) →
    iw = memWord s.inMem (g.base.toNat + s.off.toNat) → iw.getLsbD 20 = false →
    payload = memReadN s.inMem (g.base.toNat + s.off.toNat + 4) (4 * (h.eventSize.toNat - 3)) →
    (1 + s.tLatch.toNat) * (t.npix * elemSize (Config.elemType t)) ≤ payload.length →
    ∃ u, exec (Instr.ofRecord k h) s = .next u
      ∧ u = { s with
          info := iw, dataBuf := payload, mats := u.mats
          off := BitVec.ofNat 32 (s.off.toNat + 4 * (h.eventSize.toNat - 2))
          modmap := if est then
              s.modmap.setIfInBounds h.moduleNo.toNat (some (BitVec.ofNat 4 s.nmod)) else s.modmap
          nmod := if est then s.nmod + 1 else s.nmod
          walk := some ⟨.next, .group (remaining - h.eventSize.toNat) (h.moduleNo :: seen) est⟩ }
      ∧ (∀ id, (id < ord * (1 + s.tLatch.toNat) ∨ (ord + 1) * (1 + s.tLatch.toNat) ≤ id) →
          readMat u id = readMat s id)
      ∧ ∀ f, f ≤ s.tLatch.toNat → readMat u (ord * (1 + s.tLatch.toNat) + f) =
          { nX := t.dims.1, nY := t.dims.2
            data := convertData t um (f * (t.npix * elemSize (Config.elemType t)))
              (decodeInfo iw s.cfgInfoLayout).startGate.toNat payload
            moduleNr := h.moduleNo, triggerNr := h.trigger
            startGate := (decodeInfo iw s.cfgInfoLayout).startGate
            frameNr := BitVec.ofNat 3 f }

/-- Every fault of the record walk, with ERR_CODE and ERR_INFO exact (43_assembler.md R502 to R507,
R514, 41_stream.md R420, R425, R426, 42_convert.md R459): those of fetching a header, those of the
checks made on the record, and those of its data. FSM keeps its value (R501), the other items of
60_exceptions.md R711 are left open, and everything else stays. That a step inside a walk takes one
record is the model's choice (log 6); WalkActionsAreEngineSteps says that NEXT and SKIP are such
steps. -/
def Obligations.MisplacedRecordsFault : Prop :=
  ∀ (s : State) (c : WalkCmd) (p : Place), s.walk = some ⟨c, p⟩ →
    -- fetching the next header
    ((∀ seen est, p = .group 1 seen est → walkFaults s .size 1 (step s))
    ∧ (∀ seen, p = .group 0 seen false → seen.length < s.nmod →
      walkFaults s .truncatedEvent (BitVec.ofNat 32 seen.length) (step s))
    ∧ (∀ remaining seen est, p = .group remaining seen est → 2 ≤ remaining →
      (∀ i g, s.segq[s.curSeg + i]? = some g →
        g.len.toNat < (if i = 0 then s.off.toNat else 0) + 8) →
      walkFaults s .truncatedEvent (BitVec.ofNat 32 remaining) (step s))
    ∧ ∀ u, (p = .top ∨ ∃ remaining seen est, p = .group remaining seen est ∧ 2 ≤ remaining) →
      readHeader s = (u, true) →
      ((u.hdr0.extractLsb' 28 4).toNat ∈ [0x1, 0x6, 0x7, 0x8, 0x9, 0xC] →
        walkFaults s .reservedDevType u.hdr0 (step s))
      ∧ ((u.hdr0.extractLsb' 28 4).toNat ∉ [0x1, 0x6, 0x7, 0x8, 0x9, 0xC] →
        u.hdr0.extractLsb' 22 2 = 3 → walkFaults s .reservedEvType u.hdr0 (step s)))
    -- the checks made on the record
    ∧ ∀ (h : RecHdr) (k : RecKind),
    (∀ code info,
      (h.eventSize.toNat < 2 ∧ code = ErrCode.size ∧ info = s.hdr0
        ∨ 2 ≤ h.eventSize.toNat ∧ p = .top
          ∧ k ∉ [RecKind.groupRunBegin, .groupRunEnd, .groupData, .info]
          ∧ code = .unexpectedRecord ∧ info = s.hdr0
        ∨ ∃ remaining seen est, p = .group remaining seen est ∧ 2 ≤ h.eventSize.toNat
          ∧ (remaining < h.eventSize.toNat ∧ code = .size ∧ info = s.hdr0
            ∨ h.eventSize.toNat ≤ remaining ∧ k ∈ [RecKind.groupRunBegin, .groupRunEnd, .groupData]
              ∧ code = .unexpectedRecord ∧ info = s.hdr0
            ∨ h.eventSize.toNat ≤ remaining ∧ k ∈ [RecKind.depfet, .depfet128, .depfetDcd]
              ∧ (h.eventSize.toNat = 2 ∧ code = .size ∧ info = s.hdr0
                ∨ 3 ≤ h.eventSize.toNat ∧ h.moduleNo ∈ seen ∧ code = .duplicateModule
                  ∧ info = h.moduleNo.setWidth 32
                ∨ 3 ≤ h.eventSize.toNat ∧ h.moduleNo ∉ seen ∧ est = false
                  ∧ readModmap s h.moduleNo = none ∧ code = .unknownModule
                  ∧ info = h.moduleNo.setWidth 32))) →
      walkFaults s code info (exec (Instr.ofRecord k h) s))
    -- its body does not lie inside the segment
    ∧ (2 < h.eventSize.toNat →
      (p = .top ∧ k ∈ [RecKind.groupRunBegin, .groupRunEnd, .info]
        ∨ ∃ remaining seen est, p = .group remaining seen est ∧ h.eventSize.toNat ≤ remaining
          ∧ (k ∈ [RecKind.bat, .tpll, .unknown, .tlu, .other, .info]
            ∨ k ∈ [RecKind.depfet, .depfet128, .depfetDcd] ∧ h.moduleNo ∉ seen
              ∧ (est = true ∨ readModmap s h.moduleNo ≠ none))) →
      (∀ g, s.segq[s.curSeg]? = some g →
        g.len.toNat - s.off.toNat < 4 * (h.eventSize.toNat - 2)) →
      walkFaults s .truncatedRecord s.off (exec (Instr.ofRecord k h) s))
    -- NEXT cannot decode its data
    ∧ ∀ (remaining : Nat) (seen : List (BitVec 4)) (est : Bool) (g : Seg) (iw : Word),
      c = .next → p = .group remaining seen est → 3 ≤ h.eventSize.toNat →
      h.eventSize.toNat ≤ remaining → k ∈ [RecKind.depfet, .depfet128, .depfetDcd] →
      h.moduleNo ∉ seen → (est = true ∨ readModmap s h.moduleNo ≠ none) →
      s.segq[s.curSeg]? = some g →
      s.off.toNat + 4 * (h.eventSize.toNat - 2) ≤ g.len.toNat →
      iw = memWord s.inMem (g.base.toNat + s.off.toNat) →
      (iw.getLsbD 20 = true → walkFaults s .unsupported iw (exec (Instr.ofRecord k h) s))
      ∧ (iw.getLsbD 20 = false → k ≠ .depfet → s.cfgFold ≠ 2 → s.cfgFold ≠ 4 →
        walkFaults s .config (s.cfgFold.setWidth 32) (exec (Instr.ofRecord k h) s))
      ∧ ∀ (t : ConvKind) (f n : Nat), iw.getLsbD 20 = false →
        (k, t) ∈ [(RecKind.depfet, ConvKind.s3a)]
          ∨ s.cfgFold = 2 ∧ (k, t) ∈ [(RecKind.depfet128, .s3b2), (.depfetDcd, .dcd2)]
          ∨ s.cfgFold = 4 ∧ (k, t) ∈ [(RecKind.depfet128, .s3b4), (.depfetDcd, .dcd4)] →
        n = t.npix * elemSize (Config.elemType t) → f ≤ s.tLatch.toNat →
        f * n ≤ 4 * (h.eventSize.toNat - 3) → 4 * (h.eventSize.toNat - 3) < (f + 1) * n →
        walkFaults s .viewExtent (BitVec.ofNat 32 (f * n)) (exec (Instr.ofRecord k h) s)

/-- NEXT and SKIP are walks of the machine: an action of the walk is one step of the ENGINE, whether it
goes on or a fault strikes, and what NEXT (below the event limit) and SKIP (of at least one event)
answer is where those steps, one after another from the top level, end (43_assembler.md R510, R521).
That a step inside a walk takes one record is the model's choice (log 6). -/
def Obligations.WalkActionsAreEngineSteps : Prop :=
  (∀ (s t : State) (w : Walk), s.walk = some w → walkStep w s = .ok t → step s = .next t)
  ∧ (∀ (s : State) (w : Walk) (r : Raise), s.walk = some w → walkStep w s = .error r →
      step s = .next (walkFault w.cmd r s))
  ∧ ∀ s t : State, s.fault = false → s.opened = true → s.walk = none →
    ((s.cfgMaxEvents = 0 ∨ s.eventCount.toNat < s.cfgMaxEvents.toNat) →
      (exec .next s = .next t
        ↔ WalkRuns { s with fsm := .waitGroup, walk := some ⟨.next, .top⟩ } t))
    ∧ (s.argN0 ≠ 0 → (exec .skip s = .next t
        ↔ WalkRuns { s with fsm := .waitGroup, walk := some ⟨.skip s.argN0.toNat 0, .top⟩ } t))

/-- NEXT at the event limit and at the end of the input (43_assembler.md R510, R520). The FSM at the
limit is WAIT_GROUP as R501 says, which the pseudocode of R510 does not write (log 17). -/
def Obligations.NextStopsAtLimitAndEnd : Prop :=
  ∀ s : State, s.fault = false → s.opened = true → s.walk = none →
    (s.cfgMaxEvents ≠ 0 → s.cfgMaxEvents.toNat ≤ s.eventCount.toNat →
      exec .next s = .next { s with
        fsm := .waitGroup, limit := true, resN0 := 0, busy := false })
    ∧ ((s.cfgMaxEvents = 0 ∨ s.eventCount.toNat < s.cfgMaxEvents.toNat) →
      (∀ i g, s.segq[s.curSeg + i]? = some g →
        g.len.toNat < (if i = 0 then s.off.toNat else 0) + 8) →
      exec .next s = .next { s with
        fsm := .waitGroup, eoi := true, resN0 := 0, busy := false
        curSeg := max s.curSeg s.segq.length
        off := if s.curSeg < s.segq.length then 0 else s.off })

/-- NEXT delivers the event whose group holds one DEPFET record: the first group after OPEN, which
establishes the slot map with that module alone. Each header is read by ReadHeader, so the group may
span segments (43_assembler.md R503 to R508, R510, R512). -/
def Obligations.NextDeliversOneModuleEvent : Prop :=
  ∀ (s u1 u2 : State) (hg hd : RecHdr) (g : Seg) (iw : Word) (payload : List Byte),
    s.fault = false → s.opened = true → s.walk = none → s.mapValid = false → s.nmod = 0 →
    s.tLatch = 0 → (s.cfgMaxEvents = 0 ∨ s.eventCount.toNat < s.cfgMaxEvents.toNat) →
    readHeader s = (u1, true) → decodeRecord u1.hdr0 u1.hdr1 = .ok (.groupData, hg) →
    readHeader u1 = (u2, true) → decodeRecord u2.hdr0 u2.hdr1 = .ok (.depfet, hd) →
    hg.eventSize.toNat = 2 + hd.eventSize.toNat → 3 ≤ hd.eventSize.toNat →
    u2.segq[u2.curSeg]? = some g →
    u2.off.toNat + 4 * (hd.eventSize.toNat - 2) ≤ g.len.toNat →
    iw = memWord s.inMem (g.base.toNat + u2.off.toNat) → iw.getLsbD 20 = false →
    payload = memReadN s.inMem (g.base.toNat + u2.off.toNat + 4) (4 * (hd.eventSize.toNat - 3)) →
    8192 * elemSize (Config.elemType .s3a) ≤ payload.length →
    ∃ t, exec .next s = .next t
      ∧ t = { s with
          curSeg := u2.curSeg, off := BitVec.ofNat 32 (u2.off.toNat + 4 * (hd.eventSize.toNat - 2))
          hdr0 := u2.hdr0, hdr1 := u2.hdr1, eoi := false, info := iw, dataBuf := payload
          eventNumber := hg.trigger, eventCount := s.eventCount + 1, fsm := .eventReady
          mapValid := true, nmod := 1, nslots := 1
          modmap := s.modmap.setIfInBounds hd.moduleNo.toNat (some 0)
          resN0 := 1, resN1 := hg.trigger, resN2 := s.runNumber, busy := false, mats := t.mats }
      ∧ (∀ id, id ≠ 0 → readMat t id = readMat s id)
      ∧ readMat t 0 =
          { nX := 64, nY := 128
            data := convertData .s3a true 0 (decodeInfo iw s.cfgInfoLayout).startGate.toNat payload
            moduleNr := hd.moduleNo, triggerNr := hd.trigger
            startGate := (decodeInfo iw s.cfgInfoLayout).startGate, frameNr := 0 }

/-- SKIP counts the events it skips (43_assembler.md R512, R521): 0 of no event and at the end of the
input; 0 or 1 of one event, and 1 over an empty first group, which establishes the empty map; and SKIP
of n + 1 events is SKIP of one and, unless the input has ended, SKIP of n, the counts added. A fault
strikes it where it strikes one of the two. -/
def Obligations.SkipCountsEvents : Prop :=
  ∀ s : State, s.fault = false → s.opened = true → s.walk = none →
    (s.argN0 = 0 → exec .skip s = .next { s with fsm := .waitGroup, resN0 := 0, busy := false })
    ∧ (s.argN0 ≠ 0 → (∀ i g, s.segq[s.curSeg + i]? = some g →
        g.len.toNat < (if i = 0 then s.off.toNat else 0) + 8) →
      exec .skip s = .next { s with
        fsm := .waitGroup, eoi := true, resN0 := 0, busy := false
        curSeg := max s.curSeg s.segq.length
        off := if s.curSeg < s.segq.length then 0 else s.off })
    ∧ (s.argN0 = 1 → s.mapValid = false → s.nmod = 0 →
      ∀ (u : State) (h : RecHdr), readHeader s = (u, true) →
        decodeRecord u.hdr0 u.hdr1 = .ok (.groupData, h) → h.eventSize = 2 →
        exec .skip s = .next { u with
          eventNumber := h.trigger, mapValid := true, nslots := 0
          fsm := .waitGroup, resN0 := 1, busy := false })
    ∧ ∀ t, 2 ≤ s.argN0.toNat → exec .skip { s with argN0 := 1 } = .next t →
      (t.fault = true → exec .skip s = .next { t with argN0 := s.argN0 })
      ∧ (t.fault = false → (t.resN0 = 0 ∨ t.resN0 = 1)
        ∧ (t.resN0 = 0 → exec .skip s = .next { t with argN0 := s.argN0 })
        ∧ (t.resN0 = 1 → ∀ u, exec .skip { t with argN0 := s.argN0 - 1 } = .next u →
          (u.fault = false →
            exec .skip s = .next { u with argN0 := s.argN0, resN0 := u.resN0 + 1 })
          ∧ (u.fault = true →
            exec .skip s = .next { u with argN0 := s.argN0, resN0 := s.resN0 })))

/-- SKIP leaves the event slots, INFO, DATA_BUF, DATA_LEN, EVENT_COUNT and LIMIT unchanged, and all
the registers it does not name (43_assembler.md R521). That the event slots, INFO, DATA_BUF and
DATA_LEN stay even where it faults is the model's choice: 60_exceptions.md R711 lists them as
unspecified then (log 4). -/
def Obligations.SkipLeavesEventData : Prop :=
  ∀ s t : State, exec .skip s = .next t →
    t.mats = s.mats ∧ t.info = s.info ∧ t.dataBuf = s.dataBuf ∧ t.eventCount = s.eventCount
      ∧ t.limit = s.limit ∧ t.tLatch = s.tLatch ∧ t.segq = s.segq ∧ t.accs = s.accs
      ∧ t.resN1 = s.resN1 ∧ t.resN2 = s.resN2 ∧ t.resF = s.resF
      ∧ t.corrRow = s.corrRow ∧ t.corrCol = s.corrCol

/-- Once established, the slot map does not change until the next OPEN, ABORT or RESET: no other
command that ends without a fault changes MAP_VALID, NMOD, NSLOTS or an entry of MODMAP
(43_assembler.md R512). -/
def Obligations.SlotMapIsImmutable : Prop :=
  ∀ (i : Instr) (s t : State), i.space = .command → i ≠ .openStream → i ≠ .abort → i ≠ .reset →
    s.mapValid = true → exec i s = .next t → t.fault = false →
    t.mapValid = true ∧ t.modmap = s.modmap ∧ t.nmod = s.nmod ∧ t.nslots = s.nslots

/-! ### The machine -/

/-- The ENGINE's step runs the pending command: with no walk and no HOST move that comes first, the
step is the meaning of the decoded command, and nothing is added around it (20_memory.md R210). -/
def Obligations.StepRunsThePendingCommand : Prop :=
  ∀ (s : State) (i : Instr), s.walk = none → s.busy = true →
    (s.host = [] ∨ ∃ rest, s.host = .wait :: rest) → decodeCommand s.pending = .ok i →
    step s = exec i s

/-- Inside a walk the step reads the next header and runs the record those 8 bytes decode to, on the
state after the header read (43_assembler.md R502 to R504, 30_encoding.md R300). That a step inside a
walk takes one record is the model's choice: the block runs a command whole (log 6). -/
def Obligations.StepRunsTheRecordAtTheCursor : Prop :=
  ∀ (s u : State) (c : WalkCmd) (p : Place) (g : Seg) (i : Instr), s.walk = some ⟨c, p⟩ →
    (p = .top ∨ ∃ remaining seen est, p = .group remaining seen est ∧ 2 ≤ remaining) →
    s.segq[s.curSeg]? = some g → s.off.toNat + 8 ≤ g.len.toNat →
    decodeRecordBytes (memReadN s.inMem (g.base.toNat + s.off.toNat) 8) = .ok (i, []) →
    u = { s with
      off := BitVec.ofNat 32 (s.off.toNat + 8), eoi := false
      hdr0 := memWord s.inMem (g.base.toNat + s.off.toNat)
      hdr1 := memWord s.inMem (g.base.toNat + s.off.toNat + 4) } →
    step s = exec i u

/-- A pending word that is no command raises ILLEGAL_COMMAND with the word, and exactly the opcodes
outside the opcode map are such words (30_encoding.md R332, R333). -/
def Obligations.ReservedOpcodesAreIllegal : Prop :=
  (∀ w : Word, decodeCommand w = .error .illegalCommand
      ↔ (opField w).toNat ∈ List.range' 0x03 13 ∨ (opField w).toNat ∈ List.range' 0x18 8
        ∨ (opField w).toNat ∈ List.range' 0x25 11 ∨ (opField w).toNat ∈ List.range' 0x32 14
        ∨ (opField w).toNat ∈ List.range' 0x4A 6 ∨ (opField w).toNat ∈ List.range' 0x57 9
        ∨ (opField w).toNat ∈ List.range' 0x62 158)
    ∧ ∀ s : State, s.walk = none → s.host = [] → s.busy = true → s.fault = false →
        decodeCommand s.pending = .error .illegalCommand →
        step s = .next (faultEntry ⟨.illegalCommand, s.pending⟩ s)

/-- OVERRUN: a HOST write to CMD, ARG_*, CFG_* or CM_* while BUSY = 1, other than a CMD write of
RESET, is discarded and the awaiting command dropped; the first fault is kept (60_exceptions.md
R713). -/
def Obligations.WritesWhileBusyOverrun : Prop :=
  ∀ (s : State) (reg : BitVec 10) (v : Word), s.busy = true → s.walk = none →
    (4 * reg.toNat = 0x010 ∧ opField v ≠ 0x01
      ∨ 4 * reg.toNat ∈ [0x014, 0x018, 0x01C, 0x020, 0x024, 0x028, 0x02C, 0x080, 0x084, 0x088, 0x08C,
        0x090, 0x098, 0x09C, 0x0A0, 0x0A4, 0x0A8, 0x0AC, 0x0B0, 0x0B4]) →
    (s.fault = false → regWrite reg v s = { s with
      fault := true, errCode := .overrun, errInfo := BitVec.ofNat 32 (4 * reg.toNat)
      busy := false })
    ∧ (s.fault = true → regWrite reg v s = { s with busy := false })

/-- A write to an RW register stores the value masked to the register's fields: a read returns it,
and no other register of the map reads differently (20_memory.md R201, R202, 10_state.md R104,
R195). A write to an RO register or an unmapped offset is ignored, and a CMD write issues the command
(R101). -/
def Obligations.RegisterWritesReadBack : Prop :=
  (∀ (s : State) (reg : BitVec 10) (v : Word),
    4 * reg.toNat ∉ [0x010, 0x014, 0x018, 0x01C, 0x020, 0x024, 0x028, 0x02C, 0x080, 0x084, 0x088,
      0x08C, 0x090, 0x098, 0x09C, 0x0A0, 0x0A4, 0x0A8, 0x0AC, 0x0B0, 0x0B4] → regWrite reg v s = s)
  ∧ (∀ (s : State) (v : Word), s.busy = false → s.walk = none →
    regWrite 4 v s = { s with busy := true, pending := v })
  ∧ ∀ (s : State) (reg : BitVec 10) (v mask : Word), s.busy = false →
    (4 * reg.toNat, mask) ∈ [(0x014, 0xFFFFFFFF), (0x018, 0xFFFFFFFF), (0x01C, 0xFFFFFFFF),
      (0x020, 0xFFFFFFFF), (0x024, 0xFFFFFFFF), (0x028, 0xFFFFFFFF), (0x02C, 0xFFFFFFFF),
      (0x080, 7), (0x084, 1), (0x088, 7), (0x08C, 0xFFFFFFFF), (0x090, 1), (0x098, 0xFFFFFFFF),
      (0x09C, 0xFFFFFFFF), (0x0A0, 0xFFFF), (0x0A4, 0xFFFF), (0x0A8, 0xFFFF), (0x0AC, 0xFFFF),
      (0x0B0, 0xFFFFFFFF), ((0x0B4 : Nat), (0xFFFFFFFF : Word))] →
    regRead (regWrite reg v s) reg = v &&& mask
      ∧ ∀ reg', reg' ≠ reg → regRead (regWrite reg v s) reg' = regRead s reg'

/-- What a HOST reads (10_state.md R195, 60_exceptions.md R700, 70_reset_and_hazards.md R800): in every
state STATUS bit by bit, the numeric fault codes, the words of NSLOTS and MODMAP, the register behind
every other offset of the map, and 0 from CMD and from every unmapped offset; and after reset ID, the
configuration's reset values and 0 in every other register. The ordinal in the word of an invalid MODMAP
entry is the model's choice (log 12), so only its valid bit is stated. -/
def Obligations.ResetValuesRead : Prop :=
  (∀ reg : BitVec 10, regRead State.reset reg
    = if 4 * reg.toNat = 0x000 then 0x44455046
      else if 4 * reg.toNat = 0x080 then 2
      else if 4 * reg.toNat = 0x084 ∨ 4 * reg.toNat = 0x0A4 ∨ 4 * reg.toNat = 0x0AC then 1
      else 0)
  ∧ ∀ s : State,
    (∀ i b, (i, b) ∈ [(0, s.busy), (1, s.fault), (2, s.opened), (3, s.eoi), (4, s.limit),
        (5, s.mapValid), (6, s.fsm == .readingModules), (7, s.fsm == .eventReady)] →
      (regRead s 1).getLsbD i = b)
    ∧ (regRead s 1).toNat < 2 ^ 8
    ∧ (s.errCode, regRead s 2) ∈ [(ErrCode.none, 0x00), (.viewExtent, 0x01), (.dimMismatch, 0x02),
        (.outOfBounds, 0x03), (.truncatedEvent, 0x04), (.truncatedRecord, 0x05), (.size, 0x06),
        (.reservedDevType, 0x07), (.reservedEvType, 0x08), (.unexpectedRecord, 0x09),
        (.duplicateModule, 0x0A), (.unknownModule, 0x0B), (.config, 0x0C), (.badOperand, 0x0D),
        (.numeric, 0x0E), (.unsupported, 0x0F), (.notOpen, 0x10), (.illegalCommand, 0x11),
        (.illegalOperand, 0x12), (.overrun, 0x13), (.capacity, 0x14)]
    ∧ (s.nmod ≤ 16 → s.nslots ≤ 128 → (regRead s 0x47).toNat
        = s.nslots + 2 ^ 8 * s.nmod + 2 ^ 16 * s.tLatch.toNat)
    ∧ (∀ (reg : BitVec 10) (m : BitVec 4), 4 * reg.toNat = 0x140 + 4 * m.toNat →
      (∀ o, readModmap s m = some o → (regRead s reg).toNat
        = 2 ^ 31 + 2 ^ 8 * (o.toNat * (1 + s.tLatch.toNat)) + o.toNat)
      ∧ (readModmap s m = none → (regRead s reg).getLsbD 31 = false))
    ∧ (∀ reg : BitVec 10, (4 * reg.toNat, regRead s reg) ∈ [(0x000, 0x44455046), (0x00C, s.errInfo),
        (0x010, 0), (0x014, s.argN0), (0x018, s.argN1), (0x01C, s.argN2),
        (0x020, s.argX.extractLsb' 0 32), (0x024, s.argX.extractLsb' 32 32),
        (0x028, s.argW.extractLsb' 0 32), (0x02C, s.argW.extractLsb' 32 32), (0x030, s.resN0),
        (0x034, s.resN1), (0x038, s.resN2), (0x040, s.resF.extractLsb' 0 32),
        (0x044, s.resF.extractLsb' 32 32), (0x080, s.cfgFold.setWidth 32),
        (0x084, s.cfgUseMapping.setWidth 32), (0x088, s.cfgTrailing.setWidth 32),
        (0x08C, s.cfgMaxEvents), (0x090, s.cfgInfoLayout.setWidth 32),
        (0x098, s.cfgSigmaCut.extractLsb' 0 32), (0x09C, s.cfgSigmaCut.extractLsb' 32 32),
        (0x0A0, s.cmRowSize.setWidth 32), (0x0A4, s.cmRowDiv.setWidth 32),
        (0x0A8, s.cmColSize.setWidth 32), (0x0AC, s.cmColDiv.setWidth 32),
        (0x0B0, s.cmCut.extractLsb' 0 32), (0x0B4, s.cmCut.extractLsb' 32 32), (0x100, s.hdr0),
        (0x104, s.hdr1), (0x108, s.info), (0x10C, BitVec.ofNat 32 s.dataBuf.length),
        (0x110, s.runNumber), (0x114, s.eventNumber), (0x118, s.eventCount),
        (0x120, BitVec.ofNat 32 s.curSeg), (0x124, s.off),
        ((0x128 : Nat), (BitVec.ofNat 32 s.segq.length : Word))]
      ∨ 4 * reg.toNat ∈ [0x004, 0x008, 0x11C]
      ∨ 0x140 ≤ 4 * reg.toNat ∧ 4 * reg.toNat ≤ 0x17C
      ∨ regRead s reg = 0 ∧ 4 * reg.toNat ∉ List.range' 0x00 15 4 ++ List.range' 0x40 2 4
          ++ List.range' 0x80 5 4 ++ List.range' 0x98 8 4 ++ List.range' 0x100 11 4)

/-- The ENGINE never writes IN (20_memory.md R205). A HOST write of a byte changes that byte alone; of
a byte of a queued segment the spec gives the HOST no such move (R206), and the step refuses it. -/
def Obligations.InputMemoryIsTheHosts : Prop :=
  (∀ (i : Instr) (s t : State), exec i s = .next t → ∀ a, memRead t.inMem a = memRead s.inMem a)
    ∧ ∀ (s : State) (a : Word) (b : Byte) (rest : List HostMove), s.inMem.wf = true →
        s.walk = none → s.host = .poke a b :: rest →
        ((∃ g ∈ s.segq, g.base.toNat ≤ a.toNat ∧ a.toNat < g.base.toNat + g.len.toNat) →
          step s = .refused .queuedInput)
        ∧ ((∀ g ∈ s.segq, a.toNat < g.base.toNat ∨ g.base.toNat + g.len.toNat ≤ a.toNat) →
          ∃ t, step s = .next t ∧ t = { s with host := rest, inMem := t.inMem }
            ∧ ∀ x, memRead t.inMem x = if x = a.toNat then b else memRead s.inMem x)

/-! ### Encoding -/

/-- Decoding the words of a well-formed instruction gives it back, with every operand at every value,
and leaves the words after it (30_encoding.md R301, R302, R311, R330, R332). -/
def Obligations.DecodeEncodeAgree : Prop :=
  ∀ (i : Instr) (rest : List Word), i.wellFormed = true →
    decodeWords i.space (encode i ++ rest) = .ok (i, rest)

/-- A header and a trigger word that decode are the words of the record they decode to, which is well
formed: each pair of words has at most one meaning, and no bit is dropped (30_encoding.md R302,
R311). -/
def Obligations.HeaderWordsHaveOneMeaning : Prop :=
  ∀ (h0 h1 : Word) (k : RecKind) (h : RecHdr), decodeRecord h0 h1 = .ok (k, h) →
    encode (Instr.ofRecord k h) = [h0, h1] ∧ (Instr.ofRecord k h).wellFormed = true

/-- The two info word layouts differ only in bits 19:17: startGate's high bits in the legacy layout,
padding in the authoritative one (30_encoding.md R305, R306). -/
def Obligations.InfoLayoutsDifferInThreeBits : Prop :=
  ∀ w : Word,
    (decodeInfo w 1).framecnt = (decodeInfo w 0).framecnt
      ∧ (decodeInfo w 1).zerosupp = (decodeInfo w 0).zerosupp
      ∧ (decodeInfo w 1).startgateVer = (decodeInfo w 0).startgateVer
      ∧ (decodeInfo w 1).tempRaw = (decodeInfo w 0).tempRaw
      ∧ (decodeInfo w 1).startGate.toNat
          = (decodeInfo w 0).startGate.toNat + 128 * (decodeInfo w 0).padding.toNat
      ∧ w.toNat = (decodeInfo w 0).framecnt.toNat + 2 ^ 10 * (decodeInfo w 0).startGate.toNat
          + 2 ^ 17 * (decodeInfo w 0).padding.toNat + 2 ^ 20 * (decodeInfo w 0).zerosupp.toNat
          + 2 ^ 21 * (decodeInfo w 0).startgateVer.toNat + 2 ^ 22 * (decodeInfo w 0).tempRaw.toNat

/-- A few words written out from the spec's own encodings: 41_stream.md R411's INFO header,
30_encoding.md R335's MSUB, 44_matrix.md R560's MRESIZE, and NOP (40_system.md R390). -/
def Obligations.SpecWordsDecode : Prop :=
  decodeRecordBytes [0x02, 0x00, 0x00, 0xE0, 0x2A, 0x00, 0x00, 0x00]
      = .ok (.info ⟨2, 0, 0, 0, 0, 42⟩, [])
    ∧ decodeWords .command [0x0083B046] = .ok (.msub 0xB0 0x83, [])
    ∧ decodeWords .command [0x0000B040] = .ok (.mresize 0xB0, [])
    ∧ decodeWords .command [0x00000000] = .ok (.nop, [])

/-! ### Invariants -/

/-- The input memory keeps its canonical form (20_memory.md R200; the form is the model's), and
ERR_CODE and ERR_INFO describe a recorded fault and only that (10_state.md R102, 60_exceptions.md
R700, R714). -/
def Obligations.MemoryAndFaultInvariantsKept : Prop :=
  ∀ s t : State, step s = .next t → (MemoryOk s → MemoryOk t) ∧ (FaultOk s → FaultOk t)

/-- The stream cursor stays inside the queue and no segment passes 2^32 (10_state.md R120, R121,
20_memory.md R205, R209). -/
def Obligations.StreamInvariantKept : Prop :=
  ∀ s t : State, StreamOk s → step s = .next t → StreamOk t

/-- The matrix file, the accumulators, the data buffer and the recorded corrections stay within their
limits, and only event slots carry tags (10_state.md R130, R150, R151, R160, R170; only the
corrections of an empty matrix, all +0.0, pass the limit, log 14). -/
def Obligations.FilesInvariantKept : Prop :=
  ∀ s t : State, FilesOk s → step s = .next t → FilesOk t

/-- NMOD and NSLOTS stay within 16 and 128. Outside a walk and with no fault recorded a map that is not
established is empty, and an established one holds NMOD modules with the ordinals 0, 1, 2, …, with
NSLOTS = NMOD * (1 + T_LATCH); inside the establishing group it holds the modules seen, in the order of
their records (10_state.md R140, 43_assembler.md R505, R511, R512). After a fault of the walk the map
is free (log 4). -/
def Obligations.MapInvariantKept : Prop :=
  ∀ s t : State, MapOk s → step s = .next t → MapOk t

/-- Every invariant holds at reset (70_reset_and_hazards.md R800). -/
def Obligations.InvariantsHoldAtReset : Prop :=
  MemoryOk State.reset ∧ StreamOk State.reset ∧ FilesOk State.reset ∧ FaultOk State.reset
    ∧ MapOk State.reset
end

