-- ==== Sys2Proof/Laws/State.lean ====
section
/-! SUPPORT. What each named update of the state does to each field: one lemma per field, true by
rfl. No later proof unfolds a record update. -/

namespace Sys2Proof.Machine

open Sys2Proof

variable (s : State)

/-! ### finish -/

@[simp] theorem finish_argN0 : (finish s).argN0 = s.argN0 := rfl
@[simp] theorem finish_argN1 : (finish s).argN1 = s.argN1 := rfl
@[simp] theorem finish_argN2 : (finish s).argN2 = s.argN2 := rfl
@[simp] theorem finish_argX : (finish s).argX = s.argX := rfl
@[simp] theorem finish_argW : (finish s).argW = s.argW := rfl
@[simp] theorem finish_resN0 : (finish s).resN0 = s.resN0 := rfl
@[simp] theorem finish_resN1 : (finish s).resN1 = s.resN1 := rfl
@[simp] theorem finish_resN2 : (finish s).resN2 = s.resN2 := rfl
@[simp] theorem finish_resF : (finish s).resF = s.resF := rfl
@[simp] theorem finish_busy : (finish s).busy = false := rfl
@[simp] theorem finish_pending : (finish s).pending = s.pending := rfl
@[simp] theorem finish_fault : (finish s).fault = s.fault := rfl
@[simp] theorem finish_errCode : (finish s).errCode = s.errCode := rfl
@[simp] theorem finish_errInfo : (finish s).errInfo = s.errInfo := rfl
@[simp] theorem finish_opened : (finish s).opened = s.opened := rfl
@[simp] theorem finish_eoi : (finish s).eoi = s.eoi := rfl
@[simp] theorem finish_limit : (finish s).limit = s.limit := rfl
@[simp] theorem finish_mapValid : (finish s).mapValid = s.mapValid := rfl
@[simp] theorem finish_fsm : (finish s).fsm = s.fsm := rfl
@[simp] theorem finish_cfgFold : (finish s).cfgFold = s.cfgFold := rfl
@[simp] theorem finish_cfgUseMapping : (finish s).cfgUseMapping = s.cfgUseMapping := rfl
@[simp] theorem finish_cfgTrailing : (finish s).cfgTrailing = s.cfgTrailing := rfl
@[simp] theorem finish_cfgMaxEvents : (finish s).cfgMaxEvents = s.cfgMaxEvents := rfl
@[simp] theorem finish_cfgInfoLayout : (finish s).cfgInfoLayout = s.cfgInfoLayout := rfl
@[simp] theorem finish_cfgSigmaCut : (finish s).cfgSigmaCut = s.cfgSigmaCut := rfl
@[simp] theorem finish_cmRowSize : (finish s).cmRowSize = s.cmRowSize := rfl
@[simp] theorem finish_cmRowDiv : (finish s).cmRowDiv = s.cmRowDiv := rfl
@[simp] theorem finish_cmColSize : (finish s).cmColSize = s.cmColSize := rfl
@[simp] theorem finish_cmColDiv : (finish s).cmColDiv = s.cmColDiv := rfl
@[simp] theorem finish_cmCut : (finish s).cmCut = s.cmCut := rfl
@[simp] theorem finish_segq : (finish s).segq = s.segq := rfl
@[simp] theorem finish_curSeg : (finish s).curSeg = s.curSeg := rfl
@[simp] theorem finish_off : (finish s).off = s.off := rfl
@[simp] theorem finish_hdr0 : (finish s).hdr0 = s.hdr0 := rfl
@[simp] theorem finish_hdr1 : (finish s).hdr1 = s.hdr1 := rfl
@[simp] theorem finish_info : (finish s).info = s.info := rfl
@[simp] theorem finish_dataBuf : (finish s).dataBuf = s.dataBuf := rfl
@[simp] theorem finish_runNumber : (finish s).runNumber = s.runNumber := rfl
@[simp] theorem finish_eventNumber : (finish s).eventNumber = s.eventNumber := rfl
@[simp] theorem finish_eventCount : (finish s).eventCount = s.eventCount := rfl
@[simp] theorem finish_tLatch : (finish s).tLatch = s.tLatch := rfl
@[simp] theorem finish_nmod : (finish s).nmod = s.nmod := rfl
@[simp] theorem finish_modmap : (finish s).modmap = s.modmap := rfl
@[simp] theorem finish_nslots : (finish s).nslots = s.nslots := rfl
@[simp] theorem finish_mats : (finish s).mats = s.mats := rfl
@[simp] theorem finish_accs : (finish s).accs = s.accs := rfl
@[simp] theorem finish_corrRow : (finish s).corrRow = s.corrRow := rfl
@[simp] theorem finish_corrCol : (finish s).corrCol = s.corrCol := rfl
@[simp] theorem finish_inMem : (finish s).inMem = s.inMem := rfl
@[simp] theorem finish_host : (finish s).host = s.host := rfl
@[simp] theorem finish_hostData : (finish s).hostData = s.hostData := rfl
@[simp] theorem finish_walk : (finish s).walk = s.walk := rfl
@[simp] theorem finish_freeTick : (finish s).freeTick = s.freeTick := rfl

/-! ### faultEntry -/

@[simp] theorem faultEntry_argN0 (r : Raise) : (faultEntry r s).argN0 = s.argN0 := rfl
@[simp] theorem faultEntry_argN1 (r : Raise) : (faultEntry r s).argN1 = s.argN1 := rfl
@[simp] theorem faultEntry_argN2 (r : Raise) : (faultEntry r s).argN2 = s.argN2 := rfl
@[simp] theorem faultEntry_argX (r : Raise) : (faultEntry r s).argX = s.argX := rfl
@[simp] theorem faultEntry_argW (r : Raise) : (faultEntry r s).argW = s.argW := rfl
@[simp] theorem faultEntry_resN0 (r : Raise) : (faultEntry r s).resN0 = s.resN0 := rfl
@[simp] theorem faultEntry_resN1 (r : Raise) : (faultEntry r s).resN1 = s.resN1 := rfl
@[simp] theorem faultEntry_resN2 (r : Raise) : (faultEntry r s).resN2 = s.resN2 := rfl
@[simp] theorem faultEntry_resF (r : Raise) : (faultEntry r s).resF = s.resF := rfl
@[simp] theorem faultEntry_busy (r : Raise) : (faultEntry r s).busy = false := rfl
@[simp] theorem faultEntry_pending (r : Raise) : (faultEntry r s).pending = s.pending := rfl
@[simp] theorem faultEntry_fault (r : Raise) : (faultEntry r s).fault = true := rfl
@[simp] theorem faultEntry_errCode (r : Raise) : (faultEntry r s).errCode = r.code := rfl
@[simp] theorem faultEntry_errInfo (r : Raise) : (faultEntry r s).errInfo = r.info := rfl
@[simp] theorem faultEntry_opened (r : Raise) : (faultEntry r s).opened = s.opened := rfl
@[simp] theorem faultEntry_eoi (r : Raise) : (faultEntry r s).eoi = s.eoi := rfl
@[simp] theorem faultEntry_limit (r : Raise) : (faultEntry r s).limit = s.limit := rfl
@[simp] theorem faultEntry_mapValid (r : Raise) : (faultEntry r s).mapValid = s.mapValid := rfl
@[simp] theorem faultEntry_fsm (r : Raise) : (faultEntry r s).fsm = s.fsm := rfl
@[simp] theorem faultEntry_cfgFold (r : Raise) : (faultEntry r s).cfgFold = s.cfgFold := rfl
@[simp] theorem faultEntry_cfgUseMapping (r : Raise) : (faultEntry r s).cfgUseMapping = s.cfgUseMapping := rfl
@[simp] theorem faultEntry_cfgTrailing (r : Raise) : (faultEntry r s).cfgTrailing = s.cfgTrailing := rfl
@[simp] theorem faultEntry_cfgMaxEvents (r : Raise) : (faultEntry r s).cfgMaxEvents = s.cfgMaxEvents := rfl
@[simp] theorem faultEntry_cfgInfoLayout (r : Raise) : (faultEntry r s).cfgInfoLayout = s.cfgInfoLayout := rfl
@[simp] theorem faultEntry_cfgSigmaCut (r : Raise) : (faultEntry r s).cfgSigmaCut = s.cfgSigmaCut := rfl
@[simp] theorem faultEntry_cmRowSize (r : Raise) : (faultEntry r s).cmRowSize = s.cmRowSize := rfl
@[simp] theorem faultEntry_cmRowDiv (r : Raise) : (faultEntry r s).cmRowDiv = s.cmRowDiv := rfl
@[simp] theorem faultEntry_cmColSize (r : Raise) : (faultEntry r s).cmColSize = s.cmColSize := rfl
@[simp] theorem faultEntry_cmColDiv (r : Raise) : (faultEntry r s).cmColDiv = s.cmColDiv := rfl
@[simp] theorem faultEntry_cmCut (r : Raise) : (faultEntry r s).cmCut = s.cmCut := rfl
@[simp] theorem faultEntry_segq (r : Raise) : (faultEntry r s).segq = s.segq := rfl
@[simp] theorem faultEntry_curSeg (r : Raise) : (faultEntry r s).curSeg = s.curSeg := rfl
@[simp] theorem faultEntry_off (r : Raise) : (faultEntry r s).off = s.off := rfl
@[simp] theorem faultEntry_hdr0 (r : Raise) : (faultEntry r s).hdr0 = s.hdr0 := rfl
@[simp] theorem faultEntry_hdr1 (r : Raise) : (faultEntry r s).hdr1 = s.hdr1 := rfl
@[simp] theorem faultEntry_info (r : Raise) : (faultEntry r s).info = s.info := rfl
@[simp] theorem faultEntry_dataBuf (r : Raise) : (faultEntry r s).dataBuf = s.dataBuf := rfl
@[simp] theorem faultEntry_runNumber (r : Raise) : (faultEntry r s).runNumber = s.runNumber := rfl
@[simp] theorem faultEntry_eventNumber (r : Raise) : (faultEntry r s).eventNumber = s.eventNumber := rfl
@[simp] theorem faultEntry_eventCount (r : Raise) : (faultEntry r s).eventCount = s.eventCount := rfl
@[simp] theorem faultEntry_tLatch (r : Raise) : (faultEntry r s).tLatch = s.tLatch := rfl
@[simp] theorem faultEntry_nmod (r : Raise) : (faultEntry r s).nmod = s.nmod := rfl
@[simp] theorem faultEntry_modmap (r : Raise) : (faultEntry r s).modmap = s.modmap := rfl
@[simp] theorem faultEntry_nslots (r : Raise) : (faultEntry r s).nslots = s.nslots := rfl
@[simp] theorem faultEntry_mats (r : Raise) : (faultEntry r s).mats = s.mats := rfl
@[simp] theorem faultEntry_accs (r : Raise) : (faultEntry r s).accs = s.accs := rfl
@[simp] theorem faultEntry_corrRow (r : Raise) : (faultEntry r s).corrRow = s.corrRow := rfl
@[simp] theorem faultEntry_corrCol (r : Raise) : (faultEntry r s).corrCol = s.corrCol := rfl
@[simp] theorem faultEntry_inMem (r : Raise) : (faultEntry r s).inMem = s.inMem := rfl
@[simp] theorem faultEntry_host (r : Raise) : (faultEntry r s).host = s.host := rfl
@[simp] theorem faultEntry_hostData (r : Raise) : (faultEntry r s).hostData = s.hostData := rfl
@[simp] theorem faultEntry_walk (r : Raise) : (faultEntry r s).walk = none := rfl
@[simp] theorem faultEntry_freeTick (r : Raise) : (faultEntry r s).freeTick = s.freeTick := rfl

/-! ### faultExit -/

@[simp] theorem faultExit_argN0 : (faultExit s).argN0 = s.argN0 := rfl
@[simp] theorem faultExit_argN1 : (faultExit s).argN1 = s.argN1 := rfl
@[simp] theorem faultExit_argN2 : (faultExit s).argN2 = s.argN2 := rfl
@[simp] theorem faultExit_argX : (faultExit s).argX = s.argX := rfl
@[simp] theorem faultExit_argW : (faultExit s).argW = s.argW := rfl
@[simp] theorem faultExit_resN0 : (faultExit s).resN0 = s.resN0 := rfl
@[simp] theorem faultExit_resN1 : (faultExit s).resN1 = s.resN1 := rfl
@[simp] theorem faultExit_resN2 : (faultExit s).resN2 = s.resN2 := rfl
@[simp] theorem faultExit_resF : (faultExit s).resF = s.resF := rfl
@[simp] theorem faultExit_busy : (faultExit s).busy = s.busy := rfl
@[simp] theorem faultExit_pending : (faultExit s).pending = s.pending := rfl
@[simp] theorem faultExit_fault : (faultExit s).fault = false := rfl
@[simp] theorem faultExit_errCode : (faultExit s).errCode = .none := rfl
@[simp] theorem faultExit_errInfo : (faultExit s).errInfo = 0 := rfl
@[simp] theorem faultExit_opened : (faultExit s).opened = s.opened := rfl
@[simp] theorem faultExit_eoi : (faultExit s).eoi = s.eoi := rfl
@[simp] theorem faultExit_limit : (faultExit s).limit = s.limit := rfl
@[simp] theorem faultExit_mapValid : (faultExit s).mapValid = s.mapValid := rfl
@[simp] theorem faultExit_fsm : (faultExit s).fsm = s.fsm := rfl
@[simp] theorem faultExit_cfgFold : (faultExit s).cfgFold = s.cfgFold := rfl
@[simp] theorem faultExit_cfgUseMapping : (faultExit s).cfgUseMapping = s.cfgUseMapping := rfl
@[simp] theorem faultExit_cfgTrailing : (faultExit s).cfgTrailing = s.cfgTrailing := rfl
@[simp] theorem faultExit_cfgMaxEvents : (faultExit s).cfgMaxEvents = s.cfgMaxEvents := rfl
@[simp] theorem faultExit_cfgInfoLayout : (faultExit s).cfgInfoLayout = s.cfgInfoLayout := rfl
@[simp] theorem faultExit_cfgSigmaCut : (faultExit s).cfgSigmaCut = s.cfgSigmaCut := rfl
@[simp] theorem faultExit_cmRowSize : (faultExit s).cmRowSize = s.cmRowSize := rfl
@[simp] theorem faultExit_cmRowDiv : (faultExit s).cmRowDiv = s.cmRowDiv := rfl
@[simp] theorem faultExit_cmColSize : (faultExit s).cmColSize = s.cmColSize := rfl
@[simp] theorem faultExit_cmColDiv : (faultExit s).cmColDiv = s.cmColDiv := rfl
@[simp] theorem faultExit_cmCut : (faultExit s).cmCut = s.cmCut := rfl
@[simp] theorem faultExit_segq : (faultExit s).segq = s.segq := rfl
@[simp] theorem faultExit_curSeg : (faultExit s).curSeg = s.curSeg := rfl
@[simp] theorem faultExit_off : (faultExit s).off = s.off := rfl
@[simp] theorem faultExit_hdr0 : (faultExit s).hdr0 = s.hdr0 := rfl
@[simp] theorem faultExit_hdr1 : (faultExit s).hdr1 = s.hdr1 := rfl
@[simp] theorem faultExit_info : (faultExit s).info = s.info := rfl
@[simp] theorem faultExit_dataBuf : (faultExit s).dataBuf = s.dataBuf := rfl
@[simp] theorem faultExit_runNumber : (faultExit s).runNumber = s.runNumber := rfl
@[simp] theorem faultExit_eventNumber : (faultExit s).eventNumber = s.eventNumber := rfl
@[simp] theorem faultExit_eventCount : (faultExit s).eventCount = s.eventCount := rfl
@[simp] theorem faultExit_tLatch : (faultExit s).tLatch = s.tLatch := rfl
@[simp] theorem faultExit_nmod : (faultExit s).nmod = s.nmod := rfl
@[simp] theorem faultExit_modmap : (faultExit s).modmap = s.modmap := rfl
@[simp] theorem faultExit_nslots : (faultExit s).nslots = s.nslots := rfl
@[simp] theorem faultExit_mats : (faultExit s).mats = s.mats := rfl
@[simp] theorem faultExit_accs : (faultExit s).accs = s.accs := rfl
@[simp] theorem faultExit_corrRow : (faultExit s).corrRow = s.corrRow := rfl
@[simp] theorem faultExit_corrCol : (faultExit s).corrCol = s.corrCol := rfl
@[simp] theorem faultExit_inMem : (faultExit s).inMem = s.inMem := rfl
@[simp] theorem faultExit_host : (faultExit s).host = s.host := rfl
@[simp] theorem faultExit_hostData : (faultExit s).hostData = s.hostData := rfl
@[simp] theorem faultExit_walk : (faultExit s).walk = s.walk := rfl
@[simp] theorem faultExit_freeTick : (faultExit s).freeTick = s.freeTick := rfl

/-! ### draw -/

@[simp] theorem draw_argN0 : (draw s).argN0 = s.argN0 := rfl
@[simp] theorem draw_argN1 : (draw s).argN1 = s.argN1 := rfl
@[simp] theorem draw_argN2 : (draw s).argN2 = s.argN2 := rfl
@[simp] theorem draw_argX : (draw s).argX = s.argX := rfl
@[simp] theorem draw_argW : (draw s).argW = s.argW := rfl
@[simp] theorem draw_resN0 : (draw s).resN0 = s.resN0 := rfl
@[simp] theorem draw_resN1 : (draw s).resN1 = s.resN1 := rfl
@[simp] theorem draw_resN2 : (draw s).resN2 = s.resN2 := rfl
@[simp] theorem draw_resF : (draw s).resF = s.resF := rfl
@[simp] theorem draw_busy : (draw s).busy = s.busy := rfl
@[simp] theorem draw_pending : (draw s).pending = s.pending := rfl
@[simp] theorem draw_fault : (draw s).fault = s.fault := rfl
@[simp] theorem draw_errCode : (draw s).errCode = s.errCode := rfl
@[simp] theorem draw_errInfo : (draw s).errInfo = s.errInfo := rfl
@[simp] theorem draw_opened : (draw s).opened = s.opened := rfl
@[simp] theorem draw_eoi : (draw s).eoi = s.eoi := rfl
@[simp] theorem draw_limit : (draw s).limit = s.limit := rfl
@[simp] theorem draw_mapValid : (draw s).mapValid = s.mapValid := rfl
@[simp] theorem draw_fsm : (draw s).fsm = s.fsm := rfl
@[simp] theorem draw_cfgFold : (draw s).cfgFold = s.cfgFold := rfl
@[simp] theorem draw_cfgUseMapping : (draw s).cfgUseMapping = s.cfgUseMapping := rfl
@[simp] theorem draw_cfgTrailing : (draw s).cfgTrailing = s.cfgTrailing := rfl
@[simp] theorem draw_cfgMaxEvents : (draw s).cfgMaxEvents = s.cfgMaxEvents := rfl
@[simp] theorem draw_cfgInfoLayout : (draw s).cfgInfoLayout = s.cfgInfoLayout := rfl
@[simp] theorem draw_cfgSigmaCut : (draw s).cfgSigmaCut = s.cfgSigmaCut := rfl
@[simp] theorem draw_cmRowSize : (draw s).cmRowSize = s.cmRowSize := rfl
@[simp] theorem draw_cmRowDiv : (draw s).cmRowDiv = s.cmRowDiv := rfl
@[simp] theorem draw_cmColSize : (draw s).cmColSize = s.cmColSize := rfl
@[simp] theorem draw_cmColDiv : (draw s).cmColDiv = s.cmColDiv := rfl
@[simp] theorem draw_cmCut : (draw s).cmCut = s.cmCut := rfl
@[simp] theorem draw_segq : (draw s).segq = s.segq := rfl
@[simp] theorem draw_curSeg : (draw s).curSeg = s.curSeg := rfl
@[simp] theorem draw_off : (draw s).off = s.off := rfl
@[simp] theorem draw_hdr0 : (draw s).hdr0 = s.hdr0 := rfl
@[simp] theorem draw_hdr1 : (draw s).hdr1 = s.hdr1 := rfl
@[simp] theorem draw_info : (draw s).info = s.info := rfl
@[simp] theorem draw_dataBuf : (draw s).dataBuf = s.dataBuf := rfl
@[simp] theorem draw_runNumber : (draw s).runNumber = s.runNumber := rfl
@[simp] theorem draw_eventNumber : (draw s).eventNumber = s.eventNumber := rfl
@[simp] theorem draw_eventCount : (draw s).eventCount = s.eventCount := rfl
@[simp] theorem draw_tLatch : (draw s).tLatch = s.tLatch := rfl
@[simp] theorem draw_nmod : (draw s).nmod = s.nmod := rfl
@[simp] theorem draw_modmap : (draw s).modmap = s.modmap := rfl
@[simp] theorem draw_nslots : (draw s).nslots = s.nslots := rfl
@[simp] theorem draw_mats : (draw s).mats = s.mats := rfl
@[simp] theorem draw_accs : (draw s).accs = s.accs := rfl
@[simp] theorem draw_corrRow : (draw s).corrRow = s.corrRow := rfl
@[simp] theorem draw_corrCol : (draw s).corrCol = s.corrCol := rfl
@[simp] theorem draw_inMem : (draw s).inMem = s.inMem := rfl
@[simp] theorem draw_host : (draw s).host = s.host := rfl
@[simp] theorem draw_hostData : (draw s).hostData = s.hostData := rfl
@[simp] theorem draw_walk : (draw s).walk = s.walk := rfl
@[simp] theorem draw_freeTick : (draw s).freeTick = s.freeTick + 1 := rfl

/-! ### writeMat -/

@[simp] theorem writeMat_argN0 (i : Nat) (m : Mat) : (writeMat i m s).argN0 = s.argN0 := rfl
@[simp] theorem writeMat_argN1 (i : Nat) (m : Mat) : (writeMat i m s).argN1 = s.argN1 := rfl
@[simp] theorem writeMat_argN2 (i : Nat) (m : Mat) : (writeMat i m s).argN2 = s.argN2 := rfl
@[simp] theorem writeMat_argX (i : Nat) (m : Mat) : (writeMat i m s).argX = s.argX := rfl
@[simp] theorem writeMat_argW (i : Nat) (m : Mat) : (writeMat i m s).argW = s.argW := rfl
@[simp] theorem writeMat_resN0 (i : Nat) (m : Mat) : (writeMat i m s).resN0 = s.resN0 := rfl
@[simp] theorem writeMat_resN1 (i : Nat) (m : Mat) : (writeMat i m s).resN1 = s.resN1 := rfl
@[simp] theorem writeMat_resN2 (i : Nat) (m : Mat) : (writeMat i m s).resN2 = s.resN2 := rfl
@[simp] theorem writeMat_resF (i : Nat) (m : Mat) : (writeMat i m s).resF = s.resF := rfl
@[simp] theorem writeMat_busy (i : Nat) (m : Mat) : (writeMat i m s).busy = s.busy := rfl
@[simp] theorem writeMat_pending (i : Nat) (m : Mat) : (writeMat i m s).pending = s.pending := rfl
@[simp] theorem writeMat_fault (i : Nat) (m : Mat) : (writeMat i m s).fault = s.fault := rfl
@[simp] theorem writeMat_errCode (i : Nat) (m : Mat) : (writeMat i m s).errCode = s.errCode := rfl
@[simp] theorem writeMat_errInfo (i : Nat) (m : Mat) : (writeMat i m s).errInfo = s.errInfo := rfl
@[simp] theorem writeMat_opened (i : Nat) (m : Mat) : (writeMat i m s).opened = s.opened := rfl
@[simp] theorem writeMat_eoi (i : Nat) (m : Mat) : (writeMat i m s).eoi = s.eoi := rfl
@[simp] theorem writeMat_limit (i : Nat) (m : Mat) : (writeMat i m s).limit = s.limit := rfl
@[simp] theorem writeMat_mapValid (i : Nat) (m : Mat) : (writeMat i m s).mapValid = s.mapValid := rfl
@[simp] theorem writeMat_fsm (i : Nat) (m : Mat) : (writeMat i m s).fsm = s.fsm := rfl
@[simp] theorem writeMat_cfgFold (i : Nat) (m : Mat) : (writeMat i m s).cfgFold = s.cfgFold := rfl
@[simp] theorem writeMat_cfgUseMapping (i : Nat) (m : Mat) : (writeMat i m s).cfgUseMapping = s.cfgUseMapping := rfl
@[simp] theorem writeMat_cfgTrailing (i : Nat) (m : Mat) : (writeMat i m s).cfgTrailing = s.cfgTrailing := rfl
@[simp] theorem writeMat_cfgMaxEvents (i : Nat) (m : Mat) : (writeMat i m s).cfgMaxEvents = s.cfgMaxEvents := rfl
@[simp] theorem writeMat_cfgInfoLayout (i : Nat) (m : Mat) : (writeMat i m s).cfgInfoLayout = s.cfgInfoLayout := rfl
@[simp] theorem writeMat_cfgSigmaCut (i : Nat) (m : Mat) : (writeMat i m s).cfgSigmaCut = s.cfgSigmaCut := rfl
@[simp] theorem writeMat_cmRowSize (i : Nat) (m : Mat) : (writeMat i m s).cmRowSize = s.cmRowSize := rfl
@[simp] theorem writeMat_cmRowDiv (i : Nat) (m : Mat) : (writeMat i m s).cmRowDiv = s.cmRowDiv := rfl
@[simp] theorem writeMat_cmColSize (i : Nat) (m : Mat) : (writeMat i m s).cmColSize = s.cmColSize := rfl
@[simp] theorem writeMat_cmColDiv (i : Nat) (m : Mat) : (writeMat i m s).cmColDiv = s.cmColDiv := rfl
@[simp] theorem writeMat_cmCut (i : Nat) (m : Mat) : (writeMat i m s).cmCut = s.cmCut := rfl
@[simp] theorem writeMat_segq (i : Nat) (m : Mat) : (writeMat i m s).segq = s.segq := rfl
@[simp] theorem writeMat_curSeg (i : Nat) (m : Mat) : (writeMat i m s).curSeg = s.curSeg := rfl
@[simp] theorem writeMat_off (i : Nat) (m : Mat) : (writeMat i m s).off = s.off := rfl
@[simp] theorem writeMat_hdr0 (i : Nat) (m : Mat) : (writeMat i m s).hdr0 = s.hdr0 := rfl
@[simp] theorem writeMat_hdr1 (i : Nat) (m : Mat) : (writeMat i m s).hdr1 = s.hdr1 := rfl
@[simp] theorem writeMat_info (i : Nat) (m : Mat) : (writeMat i m s).info = s.info := rfl
@[simp] theorem writeMat_dataBuf (i : Nat) (m : Mat) : (writeMat i m s).dataBuf = s.dataBuf := rfl
@[simp] theorem writeMat_runNumber (i : Nat) (m : Mat) : (writeMat i m s).runNumber = s.runNumber := rfl
@[simp] theorem writeMat_eventNumber (i : Nat) (m : Mat) : (writeMat i m s).eventNumber = s.eventNumber := rfl
@[simp] theorem writeMat_eventCount (i : Nat) (m : Mat) : (writeMat i m s).eventCount = s.eventCount := rfl
@[simp] theorem writeMat_tLatch (i : Nat) (m : Mat) : (writeMat i m s).tLatch = s.tLatch := rfl
@[simp] theorem writeMat_nmod (i : Nat) (m : Mat) : (writeMat i m s).nmod = s.nmod := rfl
@[simp] theorem writeMat_modmap (i : Nat) (m : Mat) : (writeMat i m s).modmap = s.modmap := rfl
@[simp] theorem writeMat_nslots (i : Nat) (m : Mat) : (writeMat i m s).nslots = s.nslots := rfl
@[simp] theorem writeMat_mats (i : Nat) (m : Mat) : (writeMat i m s).mats = s.mats.setIfInBounds i m := rfl
@[simp] theorem writeMat_accs (i : Nat) (m : Mat) : (writeMat i m s).accs = s.accs := rfl
@[simp] theorem writeMat_corrRow (i : Nat) (m : Mat) : (writeMat i m s).corrRow = s.corrRow := rfl
@[simp] theorem writeMat_corrCol (i : Nat) (m : Mat) : (writeMat i m s).corrCol = s.corrCol := rfl
@[simp] theorem writeMat_inMem (i : Nat) (m : Mat) : (writeMat i m s).inMem = s.inMem := rfl
@[simp] theorem writeMat_host (i : Nat) (m : Mat) : (writeMat i m s).host = s.host := rfl
@[simp] theorem writeMat_hostData (i : Nat) (m : Mat) : (writeMat i m s).hostData = s.hostData := rfl
@[simp] theorem writeMat_walk (i : Nat) (m : Mat) : (writeMat i m s).walk = s.walk := rfl
@[simp] theorem writeMat_freeTick (i : Nat) (m : Mat) : (writeMat i m s).freeTick = s.freeTick := rfl

/-! ### writeAcc -/

@[simp] theorem writeAcc_argN0 (m : Nat) (a : Acc) : (writeAcc m a s).argN0 = s.argN0 := rfl
@[simp] theorem writeAcc_argN1 (m : Nat) (a : Acc) : (writeAcc m a s).argN1 = s.argN1 := rfl
@[simp] theorem writeAcc_argN2 (m : Nat) (a : Acc) : (writeAcc m a s).argN2 = s.argN2 := rfl
@[simp] theorem writeAcc_argX (m : Nat) (a : Acc) : (writeAcc m a s).argX = s.argX := rfl
@[simp] theorem writeAcc_argW (m : Nat) (a : Acc) : (writeAcc m a s).argW = s.argW := rfl
@[simp] theorem writeAcc_resN0 (m : Nat) (a : Acc) : (writeAcc m a s).resN0 = s.resN0 := rfl
@[simp] theorem writeAcc_resN1 (m : Nat) (a : Acc) : (writeAcc m a s).resN1 = s.resN1 := rfl
@[simp] theorem writeAcc_resN2 (m : Nat) (a : Acc) : (writeAcc m a s).resN2 = s.resN2 := rfl
@[simp] theorem writeAcc_resF (m : Nat) (a : Acc) : (writeAcc m a s).resF = s.resF := rfl
@[simp] theorem writeAcc_busy (m : Nat) (a : Acc) : (writeAcc m a s).busy = s.busy := rfl
@[simp] theorem writeAcc_pending (m : Nat) (a : Acc) : (writeAcc m a s).pending = s.pending := rfl
@[simp] theorem writeAcc_fault (m : Nat) (a : Acc) : (writeAcc m a s).fault = s.fault := rfl
@[simp] theorem writeAcc_errCode (m : Nat) (a : Acc) : (writeAcc m a s).errCode = s.errCode := rfl
@[simp] theorem writeAcc_errInfo (m : Nat) (a : Acc) : (writeAcc m a s).errInfo = s.errInfo := rfl
@[simp] theorem writeAcc_opened (m : Nat) (a : Acc) : (writeAcc m a s).opened = s.opened := rfl
@[simp] theorem writeAcc_eoi (m : Nat) (a : Acc) : (writeAcc m a s).eoi = s.eoi := rfl
@[simp] theorem writeAcc_limit (m : Nat) (a : Acc) : (writeAcc m a s).limit = s.limit := rfl
@[simp] theorem writeAcc_mapValid (m : Nat) (a : Acc) : (writeAcc m a s).mapValid = s.mapValid := rfl
@[simp] theorem writeAcc_fsm (m : Nat) (a : Acc) : (writeAcc m a s).fsm = s.fsm := rfl
@[simp] theorem writeAcc_cfgFold (m : Nat) (a : Acc) : (writeAcc m a s).cfgFold = s.cfgFold := rfl
@[simp] theorem writeAcc_cfgUseMapping (m : Nat) (a : Acc) : (writeAcc m a s).cfgUseMapping = s.cfgUseMapping := rfl
@[simp] theorem writeAcc_cfgTrailing (m : Nat) (a : Acc) : (writeAcc m a s).cfgTrailing = s.cfgTrailing := rfl
@[simp] theorem writeAcc_cfgMaxEvents (m : Nat) (a : Acc) : (writeAcc m a s).cfgMaxEvents = s.cfgMaxEvents := rfl
@[simp] theorem writeAcc_cfgInfoLayout (m : Nat) (a : Acc) : (writeAcc m a s).cfgInfoLayout = s.cfgInfoLayout := rfl
@[simp] theorem writeAcc_cfgSigmaCut (m : Nat) (a : Acc) : (writeAcc m a s).cfgSigmaCut = s.cfgSigmaCut := rfl
@[simp] theorem writeAcc_cmRowSize (m : Nat) (a : Acc) : (writeAcc m a s).cmRowSize = s.cmRowSize := rfl
@[simp] theorem writeAcc_cmRowDiv (m : Nat) (a : Acc) : (writeAcc m a s).cmRowDiv = s.cmRowDiv := rfl
@[simp] theorem writeAcc_cmColSize (m : Nat) (a : Acc) : (writeAcc m a s).cmColSize = s.cmColSize := rfl
@[simp] theorem writeAcc_cmColDiv (m : Nat) (a : Acc) : (writeAcc m a s).cmColDiv = s.cmColDiv := rfl
@[simp] theorem writeAcc_cmCut (m : Nat) (a : Acc) : (writeAcc m a s).cmCut = s.cmCut := rfl
@[simp] theorem writeAcc_segq (m : Nat) (a : Acc) : (writeAcc m a s).segq = s.segq := rfl
@[simp] theorem writeAcc_curSeg (m : Nat) (a : Acc) : (writeAcc m a s).curSeg = s.curSeg := rfl
@[simp] theorem writeAcc_off (m : Nat) (a : Acc) : (writeAcc m a s).off = s.off := rfl
@[simp] theorem writeAcc_hdr0 (m : Nat) (a : Acc) : (writeAcc m a s).hdr0 = s.hdr0 := rfl
@[simp] theorem writeAcc_hdr1 (m : Nat) (a : Acc) : (writeAcc m a s).hdr1 = s.hdr1 := rfl
@[simp] theorem writeAcc_info (m : Nat) (a : Acc) : (writeAcc m a s).info = s.info := rfl
@[simp] theorem writeAcc_dataBuf (m : Nat) (a : Acc) : (writeAcc m a s).dataBuf = s.dataBuf := rfl
@[simp] theorem writeAcc_runNumber (m : Nat) (a : Acc) : (writeAcc m a s).runNumber = s.runNumber := rfl
@[simp] theorem writeAcc_eventNumber (m : Nat) (a : Acc) : (writeAcc m a s).eventNumber = s.eventNumber := rfl
@[simp] theorem writeAcc_eventCount (m : Nat) (a : Acc) : (writeAcc m a s).eventCount = s.eventCount := rfl
@[simp] theorem writeAcc_tLatch (m : Nat) (a : Acc) : (writeAcc m a s).tLatch = s.tLatch := rfl
@[simp] theorem writeAcc_nmod (m : Nat) (a : Acc) : (writeAcc m a s).nmod = s.nmod := rfl
@[simp] theorem writeAcc_modmap (m : Nat) (a : Acc) : (writeAcc m a s).modmap = s.modmap := rfl
@[simp] theorem writeAcc_nslots (m : Nat) (a : Acc) : (writeAcc m a s).nslots = s.nslots := rfl
@[simp] theorem writeAcc_mats (m : Nat) (a : Acc) : (writeAcc m a s).mats = s.mats := rfl
@[simp] theorem writeAcc_accs (m : Nat) (a : Acc) : (writeAcc m a s).accs = s.accs.setIfInBounds m a := rfl
@[simp] theorem writeAcc_corrRow (m : Nat) (a : Acc) : (writeAcc m a s).corrRow = s.corrRow := rfl
@[simp] theorem writeAcc_corrCol (m : Nat) (a : Acc) : (writeAcc m a s).corrCol = s.corrCol := rfl
@[simp] theorem writeAcc_inMem (m : Nat) (a : Acc) : (writeAcc m a s).inMem = s.inMem := rfl
@[simp] theorem writeAcc_host (m : Nat) (a : Acc) : (writeAcc m a s).host = s.host := rfl
@[simp] theorem writeAcc_hostData (m : Nat) (a : Acc) : (writeAcc m a s).hostData = s.hostData := rfl
@[simp] theorem writeAcc_walk (m : Nat) (a : Acc) : (writeAcc m a s).walk = s.walk := rfl
@[simp] theorem writeAcc_freeTick (m : Nat) (a : Acc) : (writeAcc m a s).freeTick = s.freeTick := rfl

/-! ### clearFlags -/

@[simp] theorem clearFlags_argN0 : (clearFlags s).argN0 = s.argN0 := rfl
@[simp] theorem clearFlags_argN1 : (clearFlags s).argN1 = s.argN1 := rfl
@[simp] theorem clearFlags_argN2 : (clearFlags s).argN2 = s.argN2 := rfl
@[simp] theorem clearFlags_argX : (clearFlags s).argX = s.argX := rfl
@[simp] theorem clearFlags_argW : (clearFlags s).argW = s.argW := rfl
@[simp] theorem clearFlags_resN0 : (clearFlags s).resN0 = s.resN0 := rfl
@[simp] theorem clearFlags_resN1 : (clearFlags s).resN1 = s.resN1 := rfl
@[simp] theorem clearFlags_resN2 : (clearFlags s).resN2 = s.resN2 := rfl
@[simp] theorem clearFlags_resF : (clearFlags s).resF = s.resF := rfl
@[simp] theorem clearFlags_busy : (clearFlags s).busy = s.busy := rfl
@[simp] theorem clearFlags_pending : (clearFlags s).pending = s.pending := rfl
@[simp] theorem clearFlags_fault : (clearFlags s).fault = s.fault := rfl
@[simp] theorem clearFlags_errCode : (clearFlags s).errCode = s.errCode := rfl
@[simp] theorem clearFlags_errInfo : (clearFlags s).errInfo = s.errInfo := rfl
@[simp] theorem clearFlags_opened : (clearFlags s).opened = false := rfl
@[simp] theorem clearFlags_eoi : (clearFlags s).eoi = false := rfl
@[simp] theorem clearFlags_limit : (clearFlags s).limit = false := rfl
@[simp] theorem clearFlags_mapValid : (clearFlags s).mapValid = false := rfl
@[simp] theorem clearFlags_fsm : (clearFlags s).fsm = .waitGroup := rfl
@[simp] theorem clearFlags_cfgFold : (clearFlags s).cfgFold = s.cfgFold := rfl
@[simp] theorem clearFlags_cfgUseMapping : (clearFlags s).cfgUseMapping = s.cfgUseMapping := rfl
@[simp] theorem clearFlags_cfgTrailing : (clearFlags s).cfgTrailing = s.cfgTrailing := rfl
@[simp] theorem clearFlags_cfgMaxEvents : (clearFlags s).cfgMaxEvents = s.cfgMaxEvents := rfl
@[simp] theorem clearFlags_cfgInfoLayout : (clearFlags s).cfgInfoLayout = s.cfgInfoLayout := rfl
@[simp] theorem clearFlags_cfgSigmaCut : (clearFlags s).cfgSigmaCut = s.cfgSigmaCut := rfl
@[simp] theorem clearFlags_cmRowSize : (clearFlags s).cmRowSize = s.cmRowSize := rfl
@[simp] theorem clearFlags_cmRowDiv : (clearFlags s).cmRowDiv = s.cmRowDiv := rfl
@[simp] theorem clearFlags_cmColSize : (clearFlags s).cmColSize = s.cmColSize := rfl
@[simp] theorem clearFlags_cmColDiv : (clearFlags s).cmColDiv = s.cmColDiv := rfl
@[simp] theorem clearFlags_cmCut : (clearFlags s).cmCut = s.cmCut := rfl
@[simp] theorem clearFlags_segq : (clearFlags s).segq = s.segq := rfl
@[simp] theorem clearFlags_curSeg : (clearFlags s).curSeg = s.curSeg := rfl
@[simp] theorem clearFlags_off : (clearFlags s).off = s.off := rfl
@[simp] theorem clearFlags_hdr0 : (clearFlags s).hdr0 = s.hdr0 := rfl
@[simp] theorem clearFlags_hdr1 : (clearFlags s).hdr1 = s.hdr1 := rfl
@[simp] theorem clearFlags_info : (clearFlags s).info = s.info := rfl
@[simp] theorem clearFlags_dataBuf : (clearFlags s).dataBuf = s.dataBuf := rfl
@[simp] theorem clearFlags_runNumber : (clearFlags s).runNumber = s.runNumber := rfl
@[simp] theorem clearFlags_eventNumber : (clearFlags s).eventNumber = s.eventNumber := rfl
@[simp] theorem clearFlags_eventCount : (clearFlags s).eventCount = s.eventCount := rfl
@[simp] theorem clearFlags_tLatch : (clearFlags s).tLatch = s.tLatch := rfl
@[simp] theorem clearFlags_nmod : (clearFlags s).nmod = s.nmod := rfl
@[simp] theorem clearFlags_modmap : (clearFlags s).modmap = s.modmap := rfl
@[simp] theorem clearFlags_nslots : (clearFlags s).nslots = s.nslots := rfl
@[simp] theorem clearFlags_mats : (clearFlags s).mats = s.mats := rfl
@[simp] theorem clearFlags_accs : (clearFlags s).accs = s.accs := rfl
@[simp] theorem clearFlags_corrRow : (clearFlags s).corrRow = s.corrRow := rfl
@[simp] theorem clearFlags_corrCol : (clearFlags s).corrCol = s.corrCol := rfl
@[simp] theorem clearFlags_inMem : (clearFlags s).inMem = s.inMem := rfl
@[simp] theorem clearFlags_host : (clearFlags s).host = s.host := rfl
@[simp] theorem clearFlags_hostData : (clearFlags s).hostData = s.hostData := rfl
@[simp] theorem clearFlags_walk : (clearFlags s).walk = s.walk := rfl
@[simp] theorem clearFlags_freeTick : (clearFlags s).freeTick = s.freeTick := rfl

/-! ### clearMap -/

@[simp] theorem clearMap_argN0 : (clearMap s).argN0 = s.argN0 := rfl
@[simp] theorem clearMap_argN1 : (clearMap s).argN1 = s.argN1 := rfl
@[simp] theorem clearMap_argN2 : (clearMap s).argN2 = s.argN2 := rfl
@[simp] theorem clearMap_argX : (clearMap s).argX = s.argX := rfl
@[simp] theorem clearMap_argW : (clearMap s).argW = s.argW := rfl
@[simp] theorem clearMap_resN0 : (clearMap s).resN0 = s.resN0 := rfl
@[simp] theorem clearMap_resN1 : (clearMap s).resN1 = s.resN1 := rfl
@[simp] theorem clearMap_resN2 : (clearMap s).resN2 = s.resN2 := rfl
@[simp] theorem clearMap_resF : (clearMap s).resF = s.resF := rfl
@[simp] theorem clearMap_busy : (clearMap s).busy = s.busy := rfl
@[simp] theorem clearMap_pending : (clearMap s).pending = s.pending := rfl
@[simp] theorem clearMap_fault : (clearMap s).fault = s.fault := rfl
@[simp] theorem clearMap_errCode : (clearMap s).errCode = s.errCode := rfl
@[simp] theorem clearMap_errInfo : (clearMap s).errInfo = s.errInfo := rfl
@[simp] theorem clearMap_opened : (clearMap s).opened = s.opened := rfl
@[simp] theorem clearMap_eoi : (clearMap s).eoi = s.eoi := rfl
@[simp] theorem clearMap_limit : (clearMap s).limit = s.limit := rfl
@[simp] theorem clearMap_mapValid : (clearMap s).mapValid = s.mapValid := rfl
@[simp] theorem clearMap_fsm : (clearMap s).fsm = s.fsm := rfl
@[simp] theorem clearMap_cfgFold : (clearMap s).cfgFold = s.cfgFold := rfl
@[simp] theorem clearMap_cfgUseMapping : (clearMap s).cfgUseMapping = s.cfgUseMapping := rfl
@[simp] theorem clearMap_cfgTrailing : (clearMap s).cfgTrailing = s.cfgTrailing := rfl
@[simp] theorem clearMap_cfgMaxEvents : (clearMap s).cfgMaxEvents = s.cfgMaxEvents := rfl
@[simp] theorem clearMap_cfgInfoLayout : (clearMap s).cfgInfoLayout = s.cfgInfoLayout := rfl
@[simp] theorem clearMap_cfgSigmaCut : (clearMap s).cfgSigmaCut = s.cfgSigmaCut := rfl
@[simp] theorem clearMap_cmRowSize : (clearMap s).cmRowSize = s.cmRowSize := rfl
@[simp] theorem clearMap_cmRowDiv : (clearMap s).cmRowDiv = s.cmRowDiv := rfl
@[simp] theorem clearMap_cmColSize : (clearMap s).cmColSize = s.cmColSize := rfl
@[simp] theorem clearMap_cmColDiv : (clearMap s).cmColDiv = s.cmColDiv := rfl
@[simp] theorem clearMap_cmCut : (clearMap s).cmCut = s.cmCut := rfl
@[simp] theorem clearMap_segq : (clearMap s).segq = s.segq := rfl
@[simp] theorem clearMap_curSeg : (clearMap s).curSeg = s.curSeg := rfl
@[simp] theorem clearMap_off : (clearMap s).off = s.off := rfl
@[simp] theorem clearMap_hdr0 : (clearMap s).hdr0 = s.hdr0 := rfl
@[simp] theorem clearMap_hdr1 : (clearMap s).hdr1 = s.hdr1 := rfl
@[simp] theorem clearMap_info : (clearMap s).info = s.info := rfl
@[simp] theorem clearMap_dataBuf : (clearMap s).dataBuf = s.dataBuf := rfl
@[simp] theorem clearMap_runNumber : (clearMap s).runNumber = s.runNumber := rfl
@[simp] theorem clearMap_eventNumber : (clearMap s).eventNumber = s.eventNumber := rfl
@[simp] theorem clearMap_eventCount : (clearMap s).eventCount = s.eventCount := rfl
@[simp] theorem clearMap_tLatch : (clearMap s).tLatch = s.tLatch := rfl
@[simp] theorem clearMap_nmod : (clearMap s).nmod = 0 := rfl
@[simp] theorem clearMap_modmap : (clearMap s).modmap = Vector.replicate 16 none := rfl
@[simp] theorem clearMap_nslots : (clearMap s).nslots = 0 := rfl
@[simp] theorem clearMap_mats : (clearMap s).mats = s.mats := rfl
@[simp] theorem clearMap_accs : (clearMap s).accs = s.accs := rfl
@[simp] theorem clearMap_corrRow : (clearMap s).corrRow = s.corrRow := rfl
@[simp] theorem clearMap_corrCol : (clearMap s).corrCol = s.corrCol := rfl
@[simp] theorem clearMap_inMem : (clearMap s).inMem = s.inMem := rfl
@[simp] theorem clearMap_host : (clearMap s).host = s.host := rfl
@[simp] theorem clearMap_hostData : (clearMap s).hostData = s.hostData := rfl
@[simp] theorem clearMap_walk : (clearMap s).walk = s.walk := rfl
@[simp] theorem clearMap_freeTick : (clearMap s).freeTick = s.freeTick := rfl

/-! ### advance -/

@[simp] theorem advance_argN0 (n : Nat) : (advance n s).argN0 = s.argN0 := rfl
@[simp] theorem advance_argN1 (n : Nat) : (advance n s).argN1 = s.argN1 := rfl
@[simp] theorem advance_argN2 (n : Nat) : (advance n s).argN2 = s.argN2 := rfl
@[simp] theorem advance_argX (n : Nat) : (advance n s).argX = s.argX := rfl
@[simp] theorem advance_argW (n : Nat) : (advance n s).argW = s.argW := rfl
@[simp] theorem advance_resN0 (n : Nat) : (advance n s).resN0 = s.resN0 := rfl
@[simp] theorem advance_resN1 (n : Nat) : (advance n s).resN1 = s.resN1 := rfl
@[simp] theorem advance_resN2 (n : Nat) : (advance n s).resN2 = s.resN2 := rfl
@[simp] theorem advance_resF (n : Nat) : (advance n s).resF = s.resF := rfl
@[simp] theorem advance_busy (n : Nat) : (advance n s).busy = s.busy := rfl
@[simp] theorem advance_pending (n : Nat) : (advance n s).pending = s.pending := rfl
@[simp] theorem advance_fault (n : Nat) : (advance n s).fault = s.fault := rfl
@[simp] theorem advance_errCode (n : Nat) : (advance n s).errCode = s.errCode := rfl
@[simp] theorem advance_errInfo (n : Nat) : (advance n s).errInfo = s.errInfo := rfl
@[simp] theorem advance_opened (n : Nat) : (advance n s).opened = s.opened := rfl
@[simp] theorem advance_eoi (n : Nat) : (advance n s).eoi = s.eoi := rfl
@[simp] theorem advance_limit (n : Nat) : (advance n s).limit = s.limit := rfl
@[simp] theorem advance_mapValid (n : Nat) : (advance n s).mapValid = s.mapValid := rfl
@[simp] theorem advance_fsm (n : Nat) : (advance n s).fsm = s.fsm := rfl
@[simp] theorem advance_cfgFold (n : Nat) : (advance n s).cfgFold = s.cfgFold := rfl
@[simp] theorem advance_cfgUseMapping (n : Nat) : (advance n s).cfgUseMapping = s.cfgUseMapping := rfl
@[simp] theorem advance_cfgTrailing (n : Nat) : (advance n s).cfgTrailing = s.cfgTrailing := rfl
@[simp] theorem advance_cfgMaxEvents (n : Nat) : (advance n s).cfgMaxEvents = s.cfgMaxEvents := rfl
@[simp] theorem advance_cfgInfoLayout (n : Nat) : (advance n s).cfgInfoLayout = s.cfgInfoLayout := rfl
@[simp] theorem advance_cfgSigmaCut (n : Nat) : (advance n s).cfgSigmaCut = s.cfgSigmaCut := rfl
@[simp] theorem advance_cmRowSize (n : Nat) : (advance n s).cmRowSize = s.cmRowSize := rfl
@[simp] theorem advance_cmRowDiv (n : Nat) : (advance n s).cmRowDiv = s.cmRowDiv := rfl
@[simp] theorem advance_cmColSize (n : Nat) : (advance n s).cmColSize = s.cmColSize := rfl
@[simp] theorem advance_cmColDiv (n : Nat) : (advance n s).cmColDiv = s.cmColDiv := rfl
@[simp] theorem advance_cmCut (n : Nat) : (advance n s).cmCut = s.cmCut := rfl
@[simp] theorem advance_segq (n : Nat) : (advance n s).segq = s.segq := rfl
@[simp] theorem advance_curSeg (n : Nat) : (advance n s).curSeg = s.curSeg := rfl
@[simp] theorem advance_off (n : Nat) : (advance n s).off = BitVec.ofNat 32 (s.off.toNat + n) := rfl
@[simp] theorem advance_hdr0 (n : Nat) : (advance n s).hdr0 = s.hdr0 := rfl
@[simp] theorem advance_hdr1 (n : Nat) : (advance n s).hdr1 = s.hdr1 := rfl
@[simp] theorem advance_info (n : Nat) : (advance n s).info = s.info := rfl
@[simp] theorem advance_dataBuf (n : Nat) : (advance n s).dataBuf = s.dataBuf := rfl
@[simp] theorem advance_runNumber (n : Nat) : (advance n s).runNumber = s.runNumber := rfl
@[simp] theorem advance_eventNumber (n : Nat) : (advance n s).eventNumber = s.eventNumber := rfl
@[simp] theorem advance_eventCount (n : Nat) : (advance n s).eventCount = s.eventCount := rfl
@[simp] theorem advance_tLatch (n : Nat) : (advance n s).tLatch = s.tLatch := rfl
@[simp] theorem advance_nmod (n : Nat) : (advance n s).nmod = s.nmod := rfl
@[simp] theorem advance_modmap (n : Nat) : (advance n s).modmap = s.modmap := rfl
@[simp] theorem advance_nslots (n : Nat) : (advance n s).nslots = s.nslots := rfl
@[simp] theorem advance_mats (n : Nat) : (advance n s).mats = s.mats := rfl
@[simp] theorem advance_accs (n : Nat) : (advance n s).accs = s.accs := rfl
@[simp] theorem advance_corrRow (n : Nat) : (advance n s).corrRow = s.corrRow := rfl
@[simp] theorem advance_corrCol (n : Nat) : (advance n s).corrCol = s.corrCol := rfl
@[simp] theorem advance_inMem (n : Nat) : (advance n s).inMem = s.inMem := rfl
@[simp] theorem advance_host (n : Nat) : (advance n s).host = s.host := rfl
@[simp] theorem advance_hostData (n : Nat) : (advance n s).hostData = s.hostData := rfl
@[simp] theorem advance_walk (n : Nat) : (advance n s).walk = s.walk := rfl
@[simp] theorem advance_freeTick (n : Nat) : (advance n s).freeTick = s.freeTick := rfl

/-! ### setPlace -/

@[simp] theorem setPlace_argN0 (c : WalkCmd) (p : Place) : (setPlace c p s).argN0 = s.argN0 := rfl
@[simp] theorem setPlace_argN1 (c : WalkCmd) (p : Place) : (setPlace c p s).argN1 = s.argN1 := rfl
@[simp] theorem setPlace_argN2 (c : WalkCmd) (p : Place) : (setPlace c p s).argN2 = s.argN2 := rfl
@[simp] theorem setPlace_argX (c : WalkCmd) (p : Place) : (setPlace c p s).argX = s.argX := rfl
@[simp] theorem setPlace_argW (c : WalkCmd) (p : Place) : (setPlace c p s).argW = s.argW := rfl
@[simp] theorem setPlace_resN0 (c : WalkCmd) (p : Place) : (setPlace c p s).resN0 = s.resN0 := rfl
@[simp] theorem setPlace_resN1 (c : WalkCmd) (p : Place) : (setPlace c p s).resN1 = s.resN1 := rfl
@[simp] theorem setPlace_resN2 (c : WalkCmd) (p : Place) : (setPlace c p s).resN2 = s.resN2 := rfl
@[simp] theorem setPlace_resF (c : WalkCmd) (p : Place) : (setPlace c p s).resF = s.resF := rfl
@[simp] theorem setPlace_busy (c : WalkCmd) (p : Place) : (setPlace c p s).busy = s.busy := rfl
@[simp] theorem setPlace_pending (c : WalkCmd) (p : Place) : (setPlace c p s).pending = s.pending := rfl
@[simp] theorem setPlace_fault (c : WalkCmd) (p : Place) : (setPlace c p s).fault = s.fault := rfl
@[simp] theorem setPlace_errCode (c : WalkCmd) (p : Place) : (setPlace c p s).errCode = s.errCode := rfl
@[simp] theorem setPlace_errInfo (c : WalkCmd) (p : Place) : (setPlace c p s).errInfo = s.errInfo := rfl
@[simp] theorem setPlace_opened (c : WalkCmd) (p : Place) : (setPlace c p s).opened = s.opened := rfl
@[simp] theorem setPlace_eoi (c : WalkCmd) (p : Place) : (setPlace c p s).eoi = s.eoi := rfl
@[simp] theorem setPlace_limit (c : WalkCmd) (p : Place) : (setPlace c p s).limit = s.limit := rfl
@[simp] theorem setPlace_mapValid (c : WalkCmd) (p : Place) : (setPlace c p s).mapValid = s.mapValid := rfl
@[simp] theorem setPlace_fsm (c : WalkCmd) (p : Place) : (setPlace c p s).fsm = s.fsm := rfl
@[simp] theorem setPlace_cfgFold (c : WalkCmd) (p : Place) : (setPlace c p s).cfgFold = s.cfgFold := rfl
@[simp] theorem setPlace_cfgUseMapping (c : WalkCmd) (p : Place) : (setPlace c p s).cfgUseMapping = s.cfgUseMapping := rfl
@[simp] theorem setPlace_cfgTrailing (c : WalkCmd) (p : Place) : (setPlace c p s).cfgTrailing = s.cfgTrailing := rfl
@[simp] theorem setPlace_cfgMaxEvents (c : WalkCmd) (p : Place) : (setPlace c p s).cfgMaxEvents = s.cfgMaxEvents := rfl
@[simp] theorem setPlace_cfgInfoLayout (c : WalkCmd) (p : Place) : (setPlace c p s).cfgInfoLayout = s.cfgInfoLayout := rfl
@[simp] theorem setPlace_cfgSigmaCut (c : WalkCmd) (p : Place) : (setPlace c p s).cfgSigmaCut = s.cfgSigmaCut := rfl
@[simp] theorem setPlace_cmRowSize (c : WalkCmd) (p : Place) : (setPlace c p s).cmRowSize = s.cmRowSize := rfl
@[simp] theorem setPlace_cmRowDiv (c : WalkCmd) (p : Place) : (setPlace c p s).cmRowDiv = s.cmRowDiv := rfl
@[simp] theorem setPlace_cmColSize (c : WalkCmd) (p : Place) : (setPlace c p s).cmColSize = s.cmColSize := rfl
@[simp] theorem setPlace_cmColDiv (c : WalkCmd) (p : Place) : (setPlace c p s).cmColDiv = s.cmColDiv := rfl
@[simp] theorem setPlace_cmCut (c : WalkCmd) (p : Place) : (setPlace c p s).cmCut = s.cmCut := rfl
@[simp] theorem setPlace_segq (c : WalkCmd) (p : Place) : (setPlace c p s).segq = s.segq := rfl
@[simp] theorem setPlace_curSeg (c : WalkCmd) (p : Place) : (setPlace c p s).curSeg = s.curSeg := rfl
@[simp] theorem setPlace_off (c : WalkCmd) (p : Place) : (setPlace c p s).off = s.off := rfl
@[simp] theorem setPlace_hdr0 (c : WalkCmd) (p : Place) : (setPlace c p s).hdr0 = s.hdr0 := rfl
@[simp] theorem setPlace_hdr1 (c : WalkCmd) (p : Place) : (setPlace c p s).hdr1 = s.hdr1 := rfl
@[simp] theorem setPlace_info (c : WalkCmd) (p : Place) : (setPlace c p s).info = s.info := rfl
@[simp] theorem setPlace_dataBuf (c : WalkCmd) (p : Place) : (setPlace c p s).dataBuf = s.dataBuf := rfl
@[simp] theorem setPlace_runNumber (c : WalkCmd) (p : Place) : (setPlace c p s).runNumber = s.runNumber := rfl
@[simp] theorem setPlace_eventNumber (c : WalkCmd) (p : Place) : (setPlace c p s).eventNumber = s.eventNumber := rfl
@[simp] theorem setPlace_eventCount (c : WalkCmd) (p : Place) : (setPlace c p s).eventCount = s.eventCount := rfl
@[simp] theorem setPlace_tLatch (c : WalkCmd) (p : Place) : (setPlace c p s).tLatch = s.tLatch := rfl
@[simp] theorem setPlace_nmod (c : WalkCmd) (p : Place) : (setPlace c p s).nmod = s.nmod := rfl
@[simp] theorem setPlace_modmap (c : WalkCmd) (p : Place) : (setPlace c p s).modmap = s.modmap := rfl
@[simp] theorem setPlace_nslots (c : WalkCmd) (p : Place) : (setPlace c p s).nslots = s.nslots := rfl
@[simp] theorem setPlace_mats (c : WalkCmd) (p : Place) : (setPlace c p s).mats = s.mats := rfl
@[simp] theorem setPlace_accs (c : WalkCmd) (p : Place) : (setPlace c p s).accs = s.accs := rfl
@[simp] theorem setPlace_corrRow (c : WalkCmd) (p : Place) : (setPlace c p s).corrRow = s.corrRow := rfl
@[simp] theorem setPlace_corrCol (c : WalkCmd) (p : Place) : (setPlace c p s).corrCol = s.corrCol := rfl
@[simp] theorem setPlace_inMem (c : WalkCmd) (p : Place) : (setPlace c p s).inMem = s.inMem := rfl
@[simp] theorem setPlace_host (c : WalkCmd) (p : Place) : (setPlace c p s).host = s.host := rfl
@[simp] theorem setPlace_hostData (c : WalkCmd) (p : Place) : (setPlace c p s).hostData = s.hostData := rfl
@[simp] theorem setPlace_walk (c : WalkCmd) (p : Place) : (setPlace c p s).walk = some ⟨c, p⟩ := rfl
@[simp] theorem setPlace_freeTick (c : WalkCmd) (p : Place) : (setPlace c p s).freeTick = s.freeTick := rfl

/-! ### endWalk -/

@[simp] theorem endWalk_argN0 : (endWalk s).argN0 = s.argN0 := rfl
@[simp] theorem endWalk_argN1 : (endWalk s).argN1 = s.argN1 := rfl
@[simp] theorem endWalk_argN2 : (endWalk s).argN2 = s.argN2 := rfl
@[simp] theorem endWalk_argX : (endWalk s).argX = s.argX := rfl
@[simp] theorem endWalk_argW : (endWalk s).argW = s.argW := rfl
@[simp] theorem endWalk_resN0 : (endWalk s).resN0 = s.resN0 := rfl
@[simp] theorem endWalk_resN1 : (endWalk s).resN1 = s.resN1 := rfl
@[simp] theorem endWalk_resN2 : (endWalk s).resN2 = s.resN2 := rfl
@[simp] theorem endWalk_resF : (endWalk s).resF = s.resF := rfl
@[simp] theorem endWalk_busy : (endWalk s).busy = false := rfl
@[simp] theorem endWalk_pending : (endWalk s).pending = s.pending := rfl
@[simp] theorem endWalk_fault : (endWalk s).fault = s.fault := rfl
@[simp] theorem endWalk_errCode : (endWalk s).errCode = s.errCode := rfl
@[simp] theorem endWalk_errInfo : (endWalk s).errInfo = s.errInfo := rfl
@[simp] theorem endWalk_opened : (endWalk s).opened = s.opened := rfl
@[simp] theorem endWalk_eoi : (endWalk s).eoi = s.eoi := rfl
@[simp] theorem endWalk_limit : (endWalk s).limit = s.limit := rfl
@[simp] theorem endWalk_mapValid : (endWalk s).mapValid = s.mapValid := rfl
@[simp] theorem endWalk_fsm : (endWalk s).fsm = s.fsm := rfl
@[simp] theorem endWalk_cfgFold : (endWalk s).cfgFold = s.cfgFold := rfl
@[simp] theorem endWalk_cfgUseMapping : (endWalk s).cfgUseMapping = s.cfgUseMapping := rfl
@[simp] theorem endWalk_cfgTrailing : (endWalk s).cfgTrailing = s.cfgTrailing := rfl
@[simp] theorem endWalk_cfgMaxEvents : (endWalk s).cfgMaxEvents = s.cfgMaxEvents := rfl
@[simp] theorem endWalk_cfgInfoLayout : (endWalk s).cfgInfoLayout = s.cfgInfoLayout := rfl
@[simp] theorem endWalk_cfgSigmaCut : (endWalk s).cfgSigmaCut = s.cfgSigmaCut := rfl
@[simp] theorem endWalk_cmRowSize : (endWalk s).cmRowSize = s.cmRowSize := rfl
@[simp] theorem endWalk_cmRowDiv : (endWalk s).cmRowDiv = s.cmRowDiv := rfl
@[simp] theorem endWalk_cmColSize : (endWalk s).cmColSize = s.cmColSize := rfl
@[simp] theorem endWalk_cmColDiv : (endWalk s).cmColDiv = s.cmColDiv := rfl
@[simp] theorem endWalk_cmCut : (endWalk s).cmCut = s.cmCut := rfl
@[simp] theorem endWalk_segq : (endWalk s).segq = s.segq := rfl
@[simp] theorem endWalk_curSeg : (endWalk s).curSeg = s.curSeg := rfl
@[simp] theorem endWalk_off : (endWalk s).off = s.off := rfl
@[simp] theorem endWalk_hdr0 : (endWalk s).hdr0 = s.hdr0 := rfl
@[simp] theorem endWalk_hdr1 : (endWalk s).hdr1 = s.hdr1 := rfl
@[simp] theorem endWalk_info : (endWalk s).info = s.info := rfl
@[simp] theorem endWalk_dataBuf : (endWalk s).dataBuf = s.dataBuf := rfl
@[simp] theorem endWalk_runNumber : (endWalk s).runNumber = s.runNumber := rfl
@[simp] theorem endWalk_eventNumber : (endWalk s).eventNumber = s.eventNumber := rfl
@[simp] theorem endWalk_eventCount : (endWalk s).eventCount = s.eventCount := rfl
@[simp] theorem endWalk_tLatch : (endWalk s).tLatch = s.tLatch := rfl
@[simp] theorem endWalk_nmod : (endWalk s).nmod = s.nmod := rfl
@[simp] theorem endWalk_modmap : (endWalk s).modmap = s.modmap := rfl
@[simp] theorem endWalk_nslots : (endWalk s).nslots = s.nslots := rfl
@[simp] theorem endWalk_mats : (endWalk s).mats = s.mats := rfl
@[simp] theorem endWalk_accs : (endWalk s).accs = s.accs := rfl
@[simp] theorem endWalk_corrRow : (endWalk s).corrRow = s.corrRow := rfl
@[simp] theorem endWalk_corrCol : (endWalk s).corrCol = s.corrCol := rfl
@[simp] theorem endWalk_inMem : (endWalk s).inMem = s.inMem := rfl
@[simp] theorem endWalk_host : (endWalk s).host = s.host := rfl
@[simp] theorem endWalk_hostData : (endWalk s).hostData = s.hostData := rfl
@[simp] theorem endWalk_walk : (endWalk s).walk = none := rfl
@[simp] theorem endWalk_freeTick : (endWalk s).freeTick = s.freeTick := rfl

/-! ### addModule -/

@[simp] theorem addModule_argN0 (m : BitVec 4) : (addModule m s).argN0 = s.argN0 := rfl
@[simp] theorem addModule_argN1 (m : BitVec 4) : (addModule m s).argN1 = s.argN1 := rfl
@[simp] theorem addModule_argN2 (m : BitVec 4) : (addModule m s).argN2 = s.argN2 := rfl
@[simp] theorem addModule_argX (m : BitVec 4) : (addModule m s).argX = s.argX := rfl
@[simp] theorem addModule_argW (m : BitVec 4) : (addModule m s).argW = s.argW := rfl
@[simp] theorem addModule_resN0 (m : BitVec 4) : (addModule m s).resN0 = s.resN0 := rfl
@[simp] theorem addModule_resN1 (m : BitVec 4) : (addModule m s).resN1 = s.resN1 := rfl
@[simp] theorem addModule_resN2 (m : BitVec 4) : (addModule m s).resN2 = s.resN2 := rfl
@[simp] theorem addModule_resF (m : BitVec 4) : (addModule m s).resF = s.resF := rfl
@[simp] theorem addModule_busy (m : BitVec 4) : (addModule m s).busy = s.busy := rfl
@[simp] theorem addModule_pending (m : BitVec 4) : (addModule m s).pending = s.pending := rfl
@[simp] theorem addModule_fault (m : BitVec 4) : (addModule m s).fault = s.fault := rfl
@[simp] theorem addModule_errCode (m : BitVec 4) : (addModule m s).errCode = s.errCode := rfl
@[simp] theorem addModule_errInfo (m : BitVec 4) : (addModule m s).errInfo = s.errInfo := rfl
@[simp] theorem addModule_opened (m : BitVec 4) : (addModule m s).opened = s.opened := rfl
@[simp] theorem addModule_eoi (m : BitVec 4) : (addModule m s).eoi = s.eoi := rfl
@[simp] theorem addModule_limit (m : BitVec 4) : (addModule m s).limit = s.limit := rfl
@[simp] theorem addModule_mapValid (m : BitVec 4) : (addModule m s).mapValid = s.mapValid := rfl
@[simp] theorem addModule_fsm (m : BitVec 4) : (addModule m s).fsm = s.fsm := rfl
@[simp] theorem addModule_cfgFold (m : BitVec 4) : (addModule m s).cfgFold = s.cfgFold := rfl
@[simp] theorem addModule_cfgUseMapping (m : BitVec 4) : (addModule m s).cfgUseMapping = s.cfgUseMapping := rfl
@[simp] theorem addModule_cfgTrailing (m : BitVec 4) : (addModule m s).cfgTrailing = s.cfgTrailing := rfl
@[simp] theorem addModule_cfgMaxEvents (m : BitVec 4) : (addModule m s).cfgMaxEvents = s.cfgMaxEvents := rfl
@[simp] theorem addModule_cfgInfoLayout (m : BitVec 4) : (addModule m s).cfgInfoLayout = s.cfgInfoLayout := rfl
@[simp] theorem addModule_cfgSigmaCut (m : BitVec 4) : (addModule m s).cfgSigmaCut = s.cfgSigmaCut := rfl
@[simp] theorem addModule_cmRowSize (m : BitVec 4) : (addModule m s).cmRowSize = s.cmRowSize := rfl
@[simp] theorem addModule_cmRowDiv (m : BitVec 4) : (addModule m s).cmRowDiv = s.cmRowDiv := rfl
@[simp] theorem addModule_cmColSize (m : BitVec 4) : (addModule m s).cmColSize = s.cmColSize := rfl
@[simp] theorem addModule_cmColDiv (m : BitVec 4) : (addModule m s).cmColDiv = s.cmColDiv := rfl
@[simp] theorem addModule_cmCut (m : BitVec 4) : (addModule m s).cmCut = s.cmCut := rfl
@[simp] theorem addModule_segq (m : BitVec 4) : (addModule m s).segq = s.segq := rfl
@[simp] theorem addModule_curSeg (m : BitVec 4) : (addModule m s).curSeg = s.curSeg := rfl
@[simp] theorem addModule_off (m : BitVec 4) : (addModule m s).off = s.off := rfl
@[simp] theorem addModule_hdr0 (m : BitVec 4) : (addModule m s).hdr0 = s.hdr0 := rfl
@[simp] theorem addModule_hdr1 (m : BitVec 4) : (addModule m s).hdr1 = s.hdr1 := rfl
@[simp] theorem addModule_info (m : BitVec 4) : (addModule m s).info = s.info := rfl
@[simp] theorem addModule_dataBuf (m : BitVec 4) : (addModule m s).dataBuf = s.dataBuf := rfl
@[simp] theorem addModule_runNumber (m : BitVec 4) : (addModule m s).runNumber = s.runNumber := rfl
@[simp] theorem addModule_eventNumber (m : BitVec 4) : (addModule m s).eventNumber = s.eventNumber := rfl
@[simp] theorem addModule_eventCount (m : BitVec 4) : (addModule m s).eventCount = s.eventCount := rfl
@[simp] theorem addModule_tLatch (m : BitVec 4) : (addModule m s).tLatch = s.tLatch := rfl
@[simp] theorem addModule_nmod (m : BitVec 4) : (addModule m s).nmod = s.nmod + 1 := rfl
@[simp] theorem addModule_modmap (m : BitVec 4) : (addModule m s).modmap = s.modmap.setIfInBounds m.toNat (some (BitVec.ofNat 4 s.nmod)) := rfl
@[simp] theorem addModule_nslots (m : BitVec 4) : (addModule m s).nslots = s.nslots := rfl
@[simp] theorem addModule_mats (m : BitVec 4) : (addModule m s).mats = s.mats := rfl
@[simp] theorem addModule_accs (m : BitVec 4) : (addModule m s).accs = s.accs := rfl
@[simp] theorem addModule_corrRow (m : BitVec 4) : (addModule m s).corrRow = s.corrRow := rfl
@[simp] theorem addModule_corrCol (m : BitVec 4) : (addModule m s).corrCol = s.corrCol := rfl
@[simp] theorem addModule_inMem (m : BitVec 4) : (addModule m s).inMem = s.inMem := rfl
@[simp] theorem addModule_host (m : BitVec 4) : (addModule m s).host = s.host := rfl
@[simp] theorem addModule_hostData (m : BitVec 4) : (addModule m s).hostData = s.hostData := rfl
@[simp] theorem addModule_walk (m : BitVec 4) : (addModule m s).walk = s.walk := rfl
@[simp] theorem addModule_freeTick (m : BitVec 4) : (addModule m s).freeTick = s.freeTick := rfl

/-! ### tagSlot -/

@[simp] theorem tagSlot_argN0 (i f : Nat) (h : RecHdr) (g : BitVec 10) : (tagSlot i f h g s).argN0 = s.argN0 := rfl
@[simp] theorem tagSlot_argN1 (i f : Nat) (h : RecHdr) (g : BitVec 10) : (tagSlot i f h g s).argN1 = s.argN1 := rfl
@[simp] theorem tagSlot_argN2 (i f : Nat) (h : RecHdr) (g : BitVec 10) : (tagSlot i f h g s).argN2 = s.argN2 := rfl
@[simp] theorem tagSlot_argX (i f : Nat) (h : RecHdr) (g : BitVec 10) : (tagSlot i f h g s).argX = s.argX := rfl
@[simp] theorem tagSlot_argW (i f : Nat) (h : RecHdr) (g : BitVec 10) : (tagSlot i f h g s).argW = s.argW := rfl
@[simp] theorem tagSlot_resN0 (i f : Nat) (h : RecHdr) (g : BitVec 10) : (tagSlot i f h g s).resN0 = s.resN0 := rfl
@[simp] theorem tagSlot_resN1 (i f : Nat) (h : RecHdr) (g : BitVec 10) : (tagSlot i f h g s).resN1 = s.resN1 := rfl
@[simp] theorem tagSlot_resN2 (i f : Nat) (h : RecHdr) (g : BitVec 10) : (tagSlot i f h g s).resN2 = s.resN2 := rfl
@[simp] theorem tagSlot_resF (i f : Nat) (h : RecHdr) (g : BitVec 10) : (tagSlot i f h g s).resF = s.resF := rfl
@[simp] theorem tagSlot_busy (i f : Nat) (h : RecHdr) (g : BitVec 10) : (tagSlot i f h g s).busy = s.busy := rfl
@[simp] theorem tagSlot_pending (i f : Nat) (h : RecHdr) (g : BitVec 10) : (tagSlot i f h g s).pending = s.pending := rfl
@[simp] theorem tagSlot_fault (i f : Nat) (h : RecHdr) (g : BitVec 10) : (tagSlot i f h g s).fault = s.fault := rfl
@[simp] theorem tagSlot_errCode (i f : Nat) (h : RecHdr) (g : BitVec 10) : (tagSlot i f h g s).errCode = s.errCode := rfl
@[simp] theorem tagSlot_errInfo (i f : Nat) (h : RecHdr) (g : BitVec 10) : (tagSlot i f h g s).errInfo = s.errInfo := rfl
@[simp] theorem tagSlot_opened (i f : Nat) (h : RecHdr) (g : BitVec 10) : (tagSlot i f h g s).opened = s.opened := rfl
@[simp] theorem tagSlot_eoi (i f : Nat) (h : RecHdr) (g : BitVec 10) : (tagSlot i f h g s).eoi = s.eoi := rfl
@[simp] theorem tagSlot_limit (i f : Nat) (h : RecHdr) (g : BitVec 10) : (tagSlot i f h g s).limit = s.limit := rfl
@[simp] theorem tagSlot_mapValid (i f : Nat) (h : RecHdr) (g : BitVec 10) : (tagSlot i f h g s).mapValid = s.mapValid := rfl
@[simp] theorem tagSlot_fsm (i f : Nat) (h : RecHdr) (g : BitVec 10) : (tagSlot i f h g s).fsm = s.fsm := rfl
@[simp] theorem tagSlot_cfgFold (i f : Nat) (h : RecHdr) (g : BitVec 10) : (tagSlot i f h g s).cfgFold = s.cfgFold := rfl
@[simp] theorem tagSlot_cfgUseMapping (i f : Nat) (h : RecHdr) (g : BitVec 10) : (tagSlot i f h g s).cfgUseMapping = s.cfgUseMapping := rfl
@[simp] theorem tagSlot_cfgTrailing (i f : Nat) (h : RecHdr) (g : BitVec 10) : (tagSlot i f h g s).cfgTrailing = s.cfgTrailing := rfl
@[simp] theorem tagSlot_cfgMaxEvents (i f : Nat) (h : RecHdr) (g : BitVec 10) : (tagSlot i f h g s).cfgMaxEvents = s.cfgMaxEvents := rfl
@[simp] theorem tagSlot_cfgInfoLayout (i f : Nat) (h : RecHdr) (g : BitVec 10) : (tagSlot i f h g s).cfgInfoLayout = s.cfgInfoLayout := rfl
@[simp] theorem tagSlot_cfgSigmaCut (i f : Nat) (h : RecHdr) (g : BitVec 10) : (tagSlot i f h g s).cfgSigmaCut = s.cfgSigmaCut := rfl
@[simp] theorem tagSlot_cmRowSize (i f : Nat) (h : RecHdr) (g : BitVec 10) : (tagSlot i f h g s).cmRowSize = s.cmRowSize := rfl
@[simp] theorem tagSlot_cmRowDiv (i f : Nat) (h : RecHdr) (g : BitVec 10) : (tagSlot i f h g s).cmRowDiv = s.cmRowDiv := rfl
@[simp] theorem tagSlot_cmColSize (i f : Nat) (h : RecHdr) (g : BitVec 10) : (tagSlot i f h g s).cmColSize = s.cmColSize := rfl
@[simp] theorem tagSlot_cmColDiv (i f : Nat) (h : RecHdr) (g : BitVec 10) : (tagSlot i f h g s).cmColDiv = s.cmColDiv := rfl
@[simp] theorem tagSlot_cmCut (i f : Nat) (h : RecHdr) (g : BitVec 10) : (tagSlot i f h g s).cmCut = s.cmCut := rfl
@[simp] theorem tagSlot_segq (i f : Nat) (h : RecHdr) (g : BitVec 10) : (tagSlot i f h g s).segq = s.segq := rfl
@[simp] theorem tagSlot_curSeg (i f : Nat) (h : RecHdr) (g : BitVec 10) : (tagSlot i f h g s).curSeg = s.curSeg := rfl
@[simp] theorem tagSlot_off (i f : Nat) (h : RecHdr) (g : BitVec 10) : (tagSlot i f h g s).off = s.off := rfl
@[simp] theorem tagSlot_hdr0 (i f : Nat) (h : RecHdr) (g : BitVec 10) : (tagSlot i f h g s).hdr0 = s.hdr0 := rfl
@[simp] theorem tagSlot_hdr1 (i f : Nat) (h : RecHdr) (g : BitVec 10) : (tagSlot i f h g s).hdr1 = s.hdr1 := rfl
@[simp] theorem tagSlot_info (i f : Nat) (h : RecHdr) (g : BitVec 10) : (tagSlot i f h g s).info = s.info := rfl
@[simp] theorem tagSlot_dataBuf (i f : Nat) (h : RecHdr) (g : BitVec 10) : (tagSlot i f h g s).dataBuf = s.dataBuf := rfl
@[simp] theorem tagSlot_runNumber (i f : Nat) (h : RecHdr) (g : BitVec 10) : (tagSlot i f h g s).runNumber = s.runNumber := rfl
@[simp] theorem tagSlot_eventNumber (i f : Nat) (h : RecHdr) (g : BitVec 10) : (tagSlot i f h g s).eventNumber = s.eventNumber := rfl
@[simp] theorem tagSlot_eventCount (i f : Nat) (h : RecHdr) (g : BitVec 10) : (tagSlot i f h g s).eventCount = s.eventCount := rfl
@[simp] theorem tagSlot_tLatch (i f : Nat) (h : RecHdr) (g : BitVec 10) : (tagSlot i f h g s).tLatch = s.tLatch := rfl
@[simp] theorem tagSlot_nmod (i f : Nat) (h : RecHdr) (g : BitVec 10) : (tagSlot i f h g s).nmod = s.nmod := rfl
@[simp] theorem tagSlot_modmap (i f : Nat) (h : RecHdr) (g : BitVec 10) : (tagSlot i f h g s).modmap = s.modmap := rfl
@[simp] theorem tagSlot_nslots (i f : Nat) (h : RecHdr) (g : BitVec 10) : (tagSlot i f h g s).nslots = s.nslots := rfl
@[simp] theorem tagSlot_accs (i f : Nat) (h : RecHdr) (g : BitVec 10) : (tagSlot i f h g s).accs = s.accs := rfl
@[simp] theorem tagSlot_corrRow (i f : Nat) (h : RecHdr) (g : BitVec 10) : (tagSlot i f h g s).corrRow = s.corrRow := rfl
@[simp] theorem tagSlot_corrCol (i f : Nat) (h : RecHdr) (g : BitVec 10) : (tagSlot i f h g s).corrCol = s.corrCol := rfl
@[simp] theorem tagSlot_inMem (i f : Nat) (h : RecHdr) (g : BitVec 10) : (tagSlot i f h g s).inMem = s.inMem := rfl
@[simp] theorem tagSlot_host (i f : Nat) (h : RecHdr) (g : BitVec 10) : (tagSlot i f h g s).host = s.host := rfl
@[simp] theorem tagSlot_hostData (i f : Nat) (h : RecHdr) (g : BitVec 10) : (tagSlot i f h g s).hostData = s.hostData := rfl
@[simp] theorem tagSlot_walk (i f : Nat) (h : RecHdr) (g : BitVec 10) : (tagSlot i f h g s).walk = s.walk := rfl
@[simp] theorem tagSlot_freeTick (i f : Nat) (h : RecHdr) (g : BitVec 10) : (tagSlot i f h g s).freeTick = s.freeTick := rfl

/-! ### issue -/

@[simp] theorem issue_argN0 (w : Word) : (issue w s).argN0 = s.argN0 := rfl
@[simp] theorem issue_argN1 (w : Word) : (issue w s).argN1 = s.argN1 := rfl
@[simp] theorem issue_argN2 (w : Word) : (issue w s).argN2 = s.argN2 := rfl
@[simp] theorem issue_argX (w : Word) : (issue w s).argX = s.argX := rfl
@[simp] theorem issue_argW (w : Word) : (issue w s).argW = s.argW := rfl
@[simp] theorem issue_resN0 (w : Word) : (issue w s).resN0 = s.resN0 := rfl
@[simp] theorem issue_resN1 (w : Word) : (issue w s).resN1 = s.resN1 := rfl
@[simp] theorem issue_resN2 (w : Word) : (issue w s).resN2 = s.resN2 := rfl
@[simp] theorem issue_resF (w : Word) : (issue w s).resF = s.resF := rfl
@[simp] theorem issue_busy (w : Word) : (issue w s).busy = true := rfl
@[simp] theorem issue_pending (w : Word) : (issue w s).pending = w := rfl
@[simp] theorem issue_fault (w : Word) : (issue w s).fault = s.fault := rfl
@[simp] theorem issue_errCode (w : Word) : (issue w s).errCode = s.errCode := rfl
@[simp] theorem issue_errInfo (w : Word) : (issue w s).errInfo = s.errInfo := rfl
@[simp] theorem issue_opened (w : Word) : (issue w s).opened = s.opened := rfl
@[simp] theorem issue_eoi (w : Word) : (issue w s).eoi = s.eoi := rfl
@[simp] theorem issue_limit (w : Word) : (issue w s).limit = s.limit := rfl
@[simp] theorem issue_mapValid (w : Word) : (issue w s).mapValid = s.mapValid := rfl
@[simp] theorem issue_fsm (w : Word) : (issue w s).fsm = s.fsm := rfl
@[simp] theorem issue_cfgFold (w : Word) : (issue w s).cfgFold = s.cfgFold := rfl
@[simp] theorem issue_cfgUseMapping (w : Word) : (issue w s).cfgUseMapping = s.cfgUseMapping := rfl
@[simp] theorem issue_cfgTrailing (w : Word) : (issue w s).cfgTrailing = s.cfgTrailing := rfl
@[simp] theorem issue_cfgMaxEvents (w : Word) : (issue w s).cfgMaxEvents = s.cfgMaxEvents := rfl
@[simp] theorem issue_cfgInfoLayout (w : Word) : (issue w s).cfgInfoLayout = s.cfgInfoLayout := rfl
@[simp] theorem issue_cfgSigmaCut (w : Word) : (issue w s).cfgSigmaCut = s.cfgSigmaCut := rfl
@[simp] theorem issue_cmRowSize (w : Word) : (issue w s).cmRowSize = s.cmRowSize := rfl
@[simp] theorem issue_cmRowDiv (w : Word) : (issue w s).cmRowDiv = s.cmRowDiv := rfl
@[simp] theorem issue_cmColSize (w : Word) : (issue w s).cmColSize = s.cmColSize := rfl
@[simp] theorem issue_cmColDiv (w : Word) : (issue w s).cmColDiv = s.cmColDiv := rfl
@[simp] theorem issue_cmCut (w : Word) : (issue w s).cmCut = s.cmCut := rfl
@[simp] theorem issue_segq (w : Word) : (issue w s).segq = s.segq := rfl
@[simp] theorem issue_curSeg (w : Word) : (issue w s).curSeg = s.curSeg := rfl
@[simp] theorem issue_off (w : Word) : (issue w s).off = s.off := rfl
@[simp] theorem issue_hdr0 (w : Word) : (issue w s).hdr0 = s.hdr0 := rfl
@[simp] theorem issue_hdr1 (w : Word) : (issue w s).hdr1 = s.hdr1 := rfl
@[simp] theorem issue_info (w : Word) : (issue w s).info = s.info := rfl
@[simp] theorem issue_dataBuf (w : Word) : (issue w s).dataBuf = s.dataBuf := rfl
@[simp] theorem issue_runNumber (w : Word) : (issue w s).runNumber = s.runNumber := rfl
@[simp] theorem issue_eventNumber (w : Word) : (issue w s).eventNumber = s.eventNumber := rfl
@[simp] theorem issue_eventCount (w : Word) : (issue w s).eventCount = s.eventCount := rfl
@[simp] theorem issue_tLatch (w : Word) : (issue w s).tLatch = s.tLatch := rfl
@[simp] theorem issue_nmod (w : Word) : (issue w s).nmod = s.nmod := rfl
@[simp] theorem issue_modmap (w : Word) : (issue w s).modmap = s.modmap := rfl
@[simp] theorem issue_nslots (w : Word) : (issue w s).nslots = s.nslots := rfl
@[simp] theorem issue_mats (w : Word) : (issue w s).mats = s.mats := rfl
@[simp] theorem issue_accs (w : Word) : (issue w s).accs = s.accs := rfl
@[simp] theorem issue_corrRow (w : Word) : (issue w s).corrRow = s.corrRow := rfl
@[simp] theorem issue_corrCol (w : Word) : (issue w s).corrCol = s.corrCol := rfl
@[simp] theorem issue_inMem (w : Word) : (issue w s).inMem = s.inMem := rfl
@[simp] theorem issue_host (w : Word) : (issue w s).host = s.host := rfl
@[simp] theorem issue_hostData (w : Word) : (issue w s).hostData = s.hostData := rfl
@[simp] theorem issue_walk (w : Word) : (issue w s).walk = none := rfl
@[simp] theorem issue_freeTick (w : Word) : (issue w s).freeTick = s.freeTick := rfl

/-! ### forgetWalk -/

@[simp] theorem forgetWalk_argN0 (d : Bool) : (forgetWalk d s).argN0 = s.argN0 := rfl
@[simp] theorem forgetWalk_argN1 (d : Bool) : (forgetWalk d s).argN1 = s.argN1 := rfl
@[simp] theorem forgetWalk_argN2 (d : Bool) : (forgetWalk d s).argN2 = s.argN2 := rfl
@[simp] theorem forgetWalk_argX (d : Bool) : (forgetWalk d s).argX = s.argX := rfl
@[simp] theorem forgetWalk_argW (d : Bool) : (forgetWalk d s).argW = s.argW := rfl
@[simp] theorem forgetWalk_resN0 (d : Bool) : (forgetWalk d s).resN0 = s.resN0 := rfl
@[simp] theorem forgetWalk_resN1 (d : Bool) : (forgetWalk d s).resN1 = s.resN1 := rfl
@[simp] theorem forgetWalk_resN2 (d : Bool) : (forgetWalk d s).resN2 = s.resN2 := rfl
@[simp] theorem forgetWalk_resF (d : Bool) : (forgetWalk d s).resF = s.resF := rfl
@[simp] theorem forgetWalk_busy (d : Bool) : (forgetWalk d s).busy = s.busy := rfl
@[simp] theorem forgetWalk_pending (d : Bool) : (forgetWalk d s).pending = s.pending := rfl
@[simp] theorem forgetWalk_fault (d : Bool) : (forgetWalk d s).fault = s.fault := rfl
@[simp] theorem forgetWalk_errCode (d : Bool) : (forgetWalk d s).errCode = s.errCode := rfl
@[simp] theorem forgetWalk_errInfo (d : Bool) : (forgetWalk d s).errInfo = s.errInfo := rfl
@[simp] theorem forgetWalk_opened (d : Bool) : (forgetWalk d s).opened = s.opened := rfl
@[simp] theorem forgetWalk_limit (d : Bool) : (forgetWalk d s).limit = s.limit := rfl
@[simp] theorem forgetWalk_cfgFold (d : Bool) : (forgetWalk d s).cfgFold = s.cfgFold := rfl
@[simp] theorem forgetWalk_cfgUseMapping (d : Bool) : (forgetWalk d s).cfgUseMapping = s.cfgUseMapping := rfl
@[simp] theorem forgetWalk_cfgTrailing (d : Bool) : (forgetWalk d s).cfgTrailing = s.cfgTrailing := rfl
@[simp] theorem forgetWalk_cfgMaxEvents (d : Bool) : (forgetWalk d s).cfgMaxEvents = s.cfgMaxEvents := rfl
@[simp] theorem forgetWalk_cfgInfoLayout (d : Bool) : (forgetWalk d s).cfgInfoLayout = s.cfgInfoLayout := rfl
@[simp] theorem forgetWalk_cfgSigmaCut (d : Bool) : (forgetWalk d s).cfgSigmaCut = s.cfgSigmaCut := rfl
@[simp] theorem forgetWalk_cmRowSize (d : Bool) : (forgetWalk d s).cmRowSize = s.cmRowSize := rfl
@[simp] theorem forgetWalk_cmRowDiv (d : Bool) : (forgetWalk d s).cmRowDiv = s.cmRowDiv := rfl
@[simp] theorem forgetWalk_cmColSize (d : Bool) : (forgetWalk d s).cmColSize = s.cmColSize := rfl
@[simp] theorem forgetWalk_cmColDiv (d : Bool) : (forgetWalk d s).cmColDiv = s.cmColDiv := rfl
@[simp] theorem forgetWalk_cmCut (d : Bool) : (forgetWalk d s).cmCut = s.cmCut := rfl
@[simp] theorem forgetWalk_segq (d : Bool) : (forgetWalk d s).segq = s.segq := rfl
@[simp] theorem forgetWalk_eventCount (d : Bool) : (forgetWalk d s).eventCount = s.eventCount := rfl
@[simp] theorem forgetWalk_tLatch (d : Bool) : (forgetWalk d s).tLatch = s.tLatch := rfl
@[simp] theorem forgetWalk_accs (d : Bool) : (forgetWalk d s).accs = s.accs := rfl
@[simp] theorem forgetWalk_corrRow (d : Bool) : (forgetWalk d s).corrRow = s.corrRow := rfl
@[simp] theorem forgetWalk_corrCol (d : Bool) : (forgetWalk d s).corrCol = s.corrCol := rfl
@[simp] theorem forgetWalk_inMem (d : Bool) : (forgetWalk d s).inMem = s.inMem := rfl
@[simp] theorem forgetWalk_host (d : Bool) : (forgetWalk d s).host = s.host := rfl
@[simp] theorem forgetWalk_hostData (d : Bool) : (forgetWalk d s).hostData = s.hostData := rfl
@[simp] theorem forgetWalk_walk (d : Bool) : (forgetWalk d s).walk = s.walk := rfl
@[simp] theorem forgetWalk_freeTick (d : Bool) : (forgetWalk d s).freeTick = s.freeTick + 1 := rfl

/-! ### forgetCm -/

@[simp] theorem forgetCm_argN0 (i : Nat) : (forgetCm i s).argN0 = s.argN0 := rfl
@[simp] theorem forgetCm_argN1 (i : Nat) : (forgetCm i s).argN1 = s.argN1 := rfl
@[simp] theorem forgetCm_argN2 (i : Nat) : (forgetCm i s).argN2 = s.argN2 := rfl
@[simp] theorem forgetCm_argX (i : Nat) : (forgetCm i s).argX = s.argX := rfl
@[simp] theorem forgetCm_argW (i : Nat) : (forgetCm i s).argW = s.argW := rfl
@[simp] theorem forgetCm_resN0 (i : Nat) : (forgetCm i s).resN0 = s.resN0 := rfl
@[simp] theorem forgetCm_resN1 (i : Nat) : (forgetCm i s).resN1 = s.resN1 := rfl
@[simp] theorem forgetCm_resN2 (i : Nat) : (forgetCm i s).resN2 = s.resN2 := rfl
@[simp] theorem forgetCm_resF (i : Nat) : (forgetCm i s).resF = s.resF := rfl
@[simp] theorem forgetCm_busy (i : Nat) : (forgetCm i s).busy = s.busy := rfl
@[simp] theorem forgetCm_pending (i : Nat) : (forgetCm i s).pending = s.pending := rfl
@[simp] theorem forgetCm_fault (i : Nat) : (forgetCm i s).fault = s.fault := rfl
@[simp] theorem forgetCm_errCode (i : Nat) : (forgetCm i s).errCode = s.errCode := rfl
@[simp] theorem forgetCm_errInfo (i : Nat) : (forgetCm i s).errInfo = s.errInfo := rfl
@[simp] theorem forgetCm_opened (i : Nat) : (forgetCm i s).opened = s.opened := rfl
@[simp] theorem forgetCm_eoi (i : Nat) : (forgetCm i s).eoi = s.eoi := rfl
@[simp] theorem forgetCm_limit (i : Nat) : (forgetCm i s).limit = s.limit := rfl
@[simp] theorem forgetCm_mapValid (i : Nat) : (forgetCm i s).mapValid = s.mapValid := rfl
@[simp] theorem forgetCm_fsm (i : Nat) : (forgetCm i s).fsm = s.fsm := rfl
@[simp] theorem forgetCm_cfgFold (i : Nat) : (forgetCm i s).cfgFold = s.cfgFold := rfl
@[simp] theorem forgetCm_cfgUseMapping (i : Nat) : (forgetCm i s).cfgUseMapping = s.cfgUseMapping := rfl
@[simp] theorem forgetCm_cfgTrailing (i : Nat) : (forgetCm i s).cfgTrailing = s.cfgTrailing := rfl
@[simp] theorem forgetCm_cfgMaxEvents (i : Nat) : (forgetCm i s).cfgMaxEvents = s.cfgMaxEvents := rfl
@[simp] theorem forgetCm_cfgInfoLayout (i : Nat) : (forgetCm i s).cfgInfoLayout = s.cfgInfoLayout := rfl
@[simp] theorem forgetCm_cfgSigmaCut (i : Nat) : (forgetCm i s).cfgSigmaCut = s.cfgSigmaCut := rfl
@[simp] theorem forgetCm_cmRowSize (i : Nat) : (forgetCm i s).cmRowSize = s.cmRowSize := rfl
@[simp] theorem forgetCm_cmRowDiv (i : Nat) : (forgetCm i s).cmRowDiv = s.cmRowDiv := rfl
@[simp] theorem forgetCm_cmColSize (i : Nat) : (forgetCm i s).cmColSize = s.cmColSize := rfl
@[simp] theorem forgetCm_cmColDiv (i : Nat) : (forgetCm i s).cmColDiv = s.cmColDiv := rfl
@[simp] theorem forgetCm_cmCut (i : Nat) : (forgetCm i s).cmCut = s.cmCut := rfl
@[simp] theorem forgetCm_segq (i : Nat) : (forgetCm i s).segq = s.segq := rfl
@[simp] theorem forgetCm_curSeg (i : Nat) : (forgetCm i s).curSeg = s.curSeg := rfl
@[simp] theorem forgetCm_off (i : Nat) : (forgetCm i s).off = s.off := rfl
@[simp] theorem forgetCm_hdr0 (i : Nat) : (forgetCm i s).hdr0 = s.hdr0 := rfl
@[simp] theorem forgetCm_hdr1 (i : Nat) : (forgetCm i s).hdr1 = s.hdr1 := rfl
@[simp] theorem forgetCm_info (i : Nat) : (forgetCm i s).info = s.info := rfl
@[simp] theorem forgetCm_dataBuf (i : Nat) : (forgetCm i s).dataBuf = s.dataBuf := rfl
@[simp] theorem forgetCm_runNumber (i : Nat) : (forgetCm i s).runNumber = s.runNumber := rfl
@[simp] theorem forgetCm_eventNumber (i : Nat) : (forgetCm i s).eventNumber = s.eventNumber := rfl
@[simp] theorem forgetCm_eventCount (i : Nat) : (forgetCm i s).eventCount = s.eventCount := rfl
@[simp] theorem forgetCm_tLatch (i : Nat) : (forgetCm i s).tLatch = s.tLatch := rfl
@[simp] theorem forgetCm_nmod (i : Nat) : (forgetCm i s).nmod = s.nmod := rfl
@[simp] theorem forgetCm_modmap (i : Nat) : (forgetCm i s).modmap = s.modmap := rfl
@[simp] theorem forgetCm_nslots (i : Nat) : (forgetCm i s).nslots = s.nslots := rfl
@[simp] theorem forgetCm_accs (i : Nat) : (forgetCm i s).accs = s.accs := rfl
@[simp] theorem forgetCm_inMem (i : Nat) : (forgetCm i s).inMem = s.inMem := rfl
@[simp] theorem forgetCm_host (i : Nat) : (forgetCm i s).host = s.host := rfl
@[simp] theorem forgetCm_hostData (i : Nat) : (forgetCm i s).hostData = s.hostData := rfl
@[simp] theorem forgetCm_walk (i : Nat) : (forgetCm i s).walk = s.walk := rfl
@[simp] theorem forgetCm_freeTick (i : Nat) : (forgetCm i s).freeTick = s.freeTick + 1 := rfl

end Sys2Proof.Machine
end

