-- ==== Sys2Proof/Laws/Ops.lean ====
section
/-! SUPPORT. What the shared operations do: the end of a command, the register files, and what an
imprecise fault leaves. -/

namespace Sys2Proof.Machine

open Sys2Proof

/-! ### A command with precise faults -/

theorem command_fault {s : State} (h : s.fault = true) (body : Except Raise State) :
    command s body = .next (finish s) := by simp [command, h]

theorem command_ok {s s' : State} {body : Except Raise State} (h : s.fault = false)
    (hb : body = .ok s') : command s body = .next (finish s') := by simp [command, h, hb]

theorem command_error {s : State} {r : Raise} {body : Except Raise State} (h : s.fault = false)
    (hb : body = .error r) : command s body = .next (faultEntry r s) := by simp [command, h, hb]

/-- Everything a command with precise faults can do. -/
theorem command_cases {s t : State} {body : Except Raise State} (h : command s body = .next t) :
    (s.fault = true ∧ t = finish s)
      ∨ (s.fault = false ∧ ∃ s', body = .ok s' ∧ t = finish s')
      ∨ (s.fault = false ∧ ∃ r, body = .error r ∧ t = faultEntry r s) := by
  unfold command at h
  cases hf : s.fault
  · rw [hf] at h
    cases body with
    | ok s' => exact .inr (.inl ⟨rfl, s', rfl, by simpa using h.symm⟩)
    | error r => exact .inr (.inr ⟨rfl, r, rfl, by simpa using h.symm⟩)
  · rw [hf] at h
    exact .inl ⟨rfl, by simpa using h.symm⟩

/-- A command always answers a next state. -/
theorem command_next (s : State) (body : Except Raise State) : ∃ t, command s body = .next t := by
  cases hf : s.fault
  · cases body with
    | ok s' => exact ⟨_, command_ok hf rfl⟩
    | error r => exact ⟨_, command_error hf rfl⟩
  · exact ⟨_, command_fault hf body⟩

@[simp] theorem raise_eq {α : Type} (code : ErrCode) (info : Word) :
    (raise code info : Except Raise α) = .error ⟨code, info⟩ := rfl

/-! ### The matrix file -/

/-- The matrix file decides what a matrix register holds. -/
theorem readMat_congr {s t : State} (h : t.mats = s.mats) (id : Nat) : readMat t id = readMat s id := by
  simp only [readMat, h]

/-- A matrix register after one is written. -/
theorem readMat_writeMat (i j : Nat) (m : Mat) (s : State) (hi : i < 184) :
    readMat (writeMat i m s) j = if j = i then m else readMat s j := by
  by_cases hj : j = i
  · subst hj
    simp [readMat, writeMat, hi]
  · rw [if_neg hj]
    simp only [readMat, writeMat]
    by_cases h : j < 184
    · rw [Vector.getElem?_eq_getElem h, Vector.getElem?_eq_getElem h]
      simp [Ne.symm hj]
    · simp [h]

@[simp] theorem readMat_writeMat_same (i : Nat) (m : Mat) (s : State) (hi : i < 184) :
    readMat (writeMat i m s) i = m := by rw [readMat_writeMat i i m s hi, if_pos rfl]

theorem readMat_writeMat_ne (i j : Nat) (m : Mat) (s : State) (h : j ≠ i) :
    readMat (writeMat i m s) j = readMat s j := by
  by_cases hi : i < 184
  · rw [readMat_writeMat i j m s hi, if_neg h]
  · have : s.mats.setIfInBounds i m = s.mats := Vector.setIfInBounds_eq_of_size_le (by omega)
    simp only [readMat, writeMat, this]

/-- Writing back what a register holds changes nothing. -/
theorem writeMat_readMat (i : Nat) (s : State) (hi : i < 184) : writeMat i (readMat s i) s = s := by
  unfold writeMat
  have : s.mats.setIfInBounds i (readMat s i) = s.mats := by
    apply Vector.ext
    intro j hj
    by_cases hij : i = j
    · subst hij
      simp [readMat, hi]
    · simp [hij]
  rw [this]

/-! ### The accumulator file -/

theorem readAcc_congr {s t : State} (h : t.accs = s.accs) (m : Nat) : readAcc t m = readAcc s m := by
  simp only [readAcc, h]

/-- An accumulator after one is written. -/
theorem readAcc_writeAcc (i j : Nat) (a : Acc) (s : State) (hi : i < 16) :
    readAcc (writeAcc i a s) j = if j = i then a else readAcc s j := by
  by_cases hj : j = i
  · subst hj
    simp [readAcc, writeAcc, hi]
  · rw [if_neg hj]
    simp only [readAcc, writeAcc]
    by_cases h : j < 16
    · rw [Vector.getElem?_eq_getElem h, Vector.getElem?_eq_getElem h]
      simp [Ne.symm hj]
    · simp [h]

/-! ### Matrices -/

@[simp] theorem matResize_nX (nX nY : Nat) (m : Mat) : (matResize nX nY m).nX = nX := rfl
@[simp] theorem matResize_nY (nX nY : Nat) (m : Mat) : (matResize nX nY m).nY = nY := rfl
@[simp] theorem matResize_data_length (nX nY : Nat) (m : Mat) :
    (matResize nX nY m).data.length = nX * nY := by simp [matResize]
@[simp] theorem matFill_nX (nX nY : Nat) (d : List F64) (m : Mat) : (matFill nX nY d m).nX = nX := rfl
@[simp] theorem matFill_nY (nX nY : Nat) (d : List F64) (m : Mat) : (matFill nX nY d m).nY = nY := rfl
@[simp] theorem matFill_data (nX nY : Nat) (d : List F64) (m : Mat) : (matFill nX nY d m).data = d := rfl
@[simp] theorem matPut_nX (k : Nat) (v : F64) (m : Mat) : (matPut k v m).nX = m.nX := rfl
@[simp] theorem matPut_nY (k : Nat) (v : F64) (m : Mat) : (matPut k v m).nY = m.nY := rfl
@[simp] theorem matPut_data_length (k : Nat) (v : F64) (m : Mat) :
    (matPut k v m).data.length = m.data.length := by simp [matPut]

theorem matElem_matResize (nX nY : Nat) (m : Mat) (k : Nat) : matElem (matResize nX nY m) k = fZero := by
  simp only [matElem, matResize]
  by_cases h : k < nX * nY
  · rw [List.getD_eq_getElem _ _ (by simpa using h)]
    simp
  · rw [List.getD_eq_default _ _ (by simpa using h)]

theorem matElem_matPut (k : Nat) (v : F64) (m : Mat) (j : Nat) (h : k < m.data.length) :
    matElem (matPut k v m) j = if j = k then v else matElem m j := by
  by_cases hj : j = k
  · subst hj
    simp [matElem, matPut, h]
  · simp [matElem, matPut, hj, Ne.symm hj]

theorem sameDims_iff (a b : Mat) : sameDims a b = true ↔ a.nX = b.nX ∧ a.nY = b.nY := by
  simp [sameDims]

/-! ### The slot map -/

theorem readModmap_congr {s t : State} (h : t.modmap = s.modmap) (m : BitVec 4) :
    readModmap t m = readModmap s m := by simp only [readModmap, h]

/-- The slot map after a module is added. -/
theorem readModmap_addModule (m n : BitVec 4) (s : State) :
    readModmap (addModule m s) n
      = if n = m then some (BitVec.ofNat 4 s.nmod) else readModmap s n := by
  have hn : n.toNat < 16 := n.isLt
  have hm : m.toNat < 16 := m.isLt
  by_cases h : n = m
  · subst h
    simp [readModmap, addModule, hn]
  · have hne : ¬ m.toNat = n.toNat := fun e => h (BitVec.eq_of_toNat_eq e.symm)
    simp [readModmap, addModule, h, hn, hne]

/-- An emptied slot map knows no module. -/
@[simp] theorem readModmap_clearMap (s : State) (m : BitVec 4) : readModmap (clearMap s) m = none := by
  have hm : m.toNat < 16 := m.isLt
  simp [readModmap, clearMap, hm]

/-! ### What an imprecise fault leaves -/

theorem freeBelow_lt (t : Nat) (item : FaultItem) (i k bound : Nat) (h : 0 < bound) :
    freeBelow t item i k bound < bound := Nat.mod_lt _ h

/-- A free event slot is within the limits of a matrix register. -/
theorem freeSlot_limits (t i : Nat) :
    (freeSlot t i).data.length = (freeSlot t i).nX * (freeSlot t i).nY
      ∧ (freeSlot t i).nX ≤ Config.maxPixels ∧ (freeSlot t i).nY ≤ Config.maxPixels
      ∧ (freeSlot t i).nX * (freeSlot t i).nY ≤ Config.maxPixels := by
  have hx := freeBelow_lt t .slotX i 0 (Config.maxPixels + 1) (by omega)
  have hy := freeBelow_lt t .slotY i 0
    (Config.maxPixels / max (freeBelow t .slotX i 0 (Config.maxPixels + 1)) 1 + 1)
    (Nat.succ_pos _)
  refine ⟨by simp [freeSlot], ?_, ?_, ?_⟩
  · simp only [freeSlot, freeDims]; omega
  · simp only [freeSlot, freeDims]
    exact le_trans (Nat.lt_succ_iff.1 hy) (Nat.div_le_self _ _)
  · simp only [freeSlot, freeDims]
    calc _ ≤ max (freeBelow t .slotX i 0 (Config.maxPixels + 1)) 1
              * (Config.maxPixels / max (freeBelow t .slotX i 0 (Config.maxPixels + 1)) 1) :=
            Nat.mul_le_mul (le_max_left _ _) (Nat.lt_succ_iff.1 hy)
      _ ≤ Config.maxPixels := Nat.mul_div_le _ _

/-- The free cursor is inside the queue. -/
theorem freeCursor_limits (s : State) :
    (freeCursor s).1 ≤ s.segq.length
      ∧ (∀ g, s.segq[(freeCursor s).1]? = some g →
          (freeCursor s).2.toNat ≤ g.len.toNat ∧ (freeCursor s).2.toNat % 4 = 0)
      ∧ (s.segq[(freeCursor s).1]? = none → (freeCursor s).2 = 0) := by
  have hc := freeBelow_lt s.freeTick .curSeg 0 0 (s.segq.length + 1) (by omega)
  cases hg : s.segq[freeBelow s.freeTick .curSeg 0 0 (s.segq.length + 1)]? with
  | none =>
    simp only [freeCursor, hg]
    exact ⟨Nat.lt_succ_iff.1 hc, fun g h => (by cases h), fun _ => trivial⟩
  | some g =>
    have ho := freeBelow_lt s.freeTick .off 0 0 (g.len.toNat / 4 + 1) (by omega)
    have hl := g.len.isLt
    simp only [freeCursor, hg, BitVec.toNat_ofNat]
    rw [Nat.mod_eq_of_lt (by omega)]
    refine ⟨Nat.lt_succ_iff.1 hc, fun g' h => ?_, fun h => (by cases h)⟩
    cases h
    exact ⟨by omega, by omega⟩

/-- A matrix register after a walk's fault: the event slots are free where the walk decodes, every
other register is as it was. -/
theorem readMat_forgetWalk (d : Bool) (s : State) (id : Nat) :
    readMat (forgetWalk d s) id
      = if d = true ∧ id < 128 then freeSlot s.freeTick id else readMat s id := by
  cases d with
  | false => simp [readMat, forgetWalk]
  | true =>
    by_cases h : id < 184
    · by_cases h2 : id < 128 <;> simp [readMat, forgetWalk, h, h2]
    · have h2 : ¬ id < 128 := by omega
      simp [readMat, forgetWalk, h, h2]

/-- A matrix register after CM_APPLY's imprecise fault: only the destination's pixels are free. -/
theorem readMat_forgetCm (dst : Nat) (s : State) (id : Nat) (h : id ≠ dst) :
    readMat (forgetCm dst s) id = readMat s id := readMat_writeMat_ne dst id _ s h

theorem freeCorr_length (t : Nat) (len item : FaultItem) :
    (freeCorr t len item).length ≤ Config.maxPixels := by
  have := freeBelow_lt t len 0 0 (Config.maxPixels + 1) (by omega)
  simp only [freeCorr, List.length_map, List.length_range]
  omega

end Sys2Proof.Machine
end

