-- ==== Sys2Proof/Laws/Operands.lean ====
section
/-! SUPPORT. What each operand check lets through and what it raises; the bound of a view. -/

namespace Sys2Proof.Machine

open Sys2Proof

variable {α : Type}

/-! ### When a check goes on -/

theorem checkMat_of_lt {a : BitVec 8} (k : Nat → Except Raise α) (h : a.toNat < 184) :
    checkMat a k = k a.toNat := if_pos h

theorem checkWork_of_work {a : BitVec 8} (k : Nat → Except Raise α)
    (h : 0xB0 ≤ a.toNat ∧ a.toNat ≤ 0xB7) : checkWork a k = k a.toNat := if_pos h

theorem checkModule_of_le {a : BitVec 8} (k : Nat → Except Raise α) (h : a.toNat ≤ 15) :
    checkModule a k = k a.toNat := if_pos h

theorem checkMatOrNone_none (k : Option Nat → Except Raise α) :
    checkMatOrNone 0xFF k = k none := if_pos rfl

theorem checkMatOrNone_some {a : BitVec 8} (k : Option Nat → Except Raise α) (h : a.toNat < 184) :
    checkMatOrNone a k = k (some a.toNat) := by
  have : a ≠ 0xFF := by rintro rfl; exact absurd h (by decide)
  rw [checkMatOrNone, if_neg this, checkMat_of_lt _ h]

theorem checkExtents_of_le {s : State} (k : Nat → Nat → Except Raise α)
    (h : s.argN0.toNat ≤ Config.maxPixels ∧ s.argN1.toNat ≤ Config.maxPixels
      ∧ s.argN0.toNat * s.argN1.toNat ≤ Config.maxPixels) :
    checkExtents s k = k s.argN0.toNat s.argN1.toNat := if_neg (by omega)

/-! ### What a check raises -/

theorem checkMat_of_ge {a : BitVec 8} (k : Nat → Except Raise α) (h : 184 ≤ a.toNat) :
    checkMat a k = .error ⟨.illegalOperand, a.setWidth 32⟩ := if_neg (by omega)

theorem checkWork_of_not {a : BitVec 8} (k : Nat → Except Raise α)
    (h : ¬(0xB0 ≤ a.toNat ∧ a.toNat ≤ 0xB7)) :
    checkWork a k = .error ⟨.illegalOperand, a.setWidth 32⟩ := if_neg h

theorem checkModule_of_gt {a : BitVec 8} (k : Nat → Except Raise α) (h : 15 < a.toNat) :
    checkModule a k = .error ⟨.illegalOperand, a.setWidth 32⟩ := if_neg (by omega)

theorem checkMatOrNone_of_reserved {a : BitVec 8} (k : Option Nat → Except Raise α)
    (h : 184 ≤ a.toNat) (h' : a ≠ 0xFF) :
    checkMatOrNone a k = .error ⟨.illegalOperand, a.setWidth 32⟩ := by
  rw [checkMatOrNone, if_neg h', checkMat_of_ge _ h]

theorem checkExtents_of_gt {s : State} (k : Nat → Nat → Except Raise α)
    (h : Config.maxPixels < s.argN0.toNat ∨ Config.maxPixels < s.argN1.toNat
      ∨ Config.maxPixels < s.argN0.toNat * s.argN1.toNat) :
    checkExtents s k = .error ⟨.capacity, s.argN0⟩ := if_pos h

/-! ### What is known where a check has gone on -/

theorem checkMat_ok {a : BitVec 8} {k : Nat → Except Raise α} {x : α} (h : checkMat a k = .ok x) :
    a.toNat < 184 ∧ k a.toNat = .ok x := by
  unfold checkMat at h
  split at h
  · exact ⟨‹_›, h⟩
  · cases h

theorem checkWork_ok {a : BitVec 8} {k : Nat → Except Raise α} {x : α} (h : checkWork a k = .ok x) :
    0xB0 ≤ a.toNat ∧ a.toNat ≤ 0xB7 ∧ k a.toNat = .ok x := by
  unfold checkWork at h
  split at h
  · exact ⟨(‹_ ∧ _› : _).1, (‹_ ∧ _› : _).2, h⟩
  · cases h

theorem checkModule_ok {a : BitVec 8} {k : Nat → Except Raise α} {x : α}
    (h : checkModule a k = .ok x) : a.toNat < 16 ∧ k a.toNat = .ok x := by
  unfold checkModule at h
  split at h
  · exact ⟨by omega, h⟩
  · cases h

theorem checkMatOrNone_ok {a : BitVec 8} {k : Option Nat → Except Raise α} {x : α}
    (h : checkMatOrNone a k = .ok x) :
    (a = 0xFF ∧ k none = .ok x) ∨ (a.toNat < 184 ∧ k (some a.toNat) = .ok x) := by
  unfold checkMatOrNone at h
  split at h
  · exact .inl ⟨‹_›, h⟩
  · exact .inr (checkMat_ok h)

theorem checkExtents_ok {s : State} {k : Nat → Nat → Except Raise α} {x : α}
    (h : checkExtents s k = .ok x) :
    s.argN0.toNat ≤ Config.maxPixels ∧ s.argN1.toNat ≤ Config.maxPixels
      ∧ s.argN0.toNat * s.argN1.toNat ≤ Config.maxPixels
      ∧ k s.argN0.toNat s.argN1.toNat = .ok x := by
  unfold checkExtents at h
  split at h
  · cases h
  · exact ⟨by omega, by omega, by omega, h⟩

theorem checkElemType_ok {a : BitVec 8} {k : ElemType → Except Raise α} {x : α}
    (h : checkElemType a k = .ok x) : ∃ t, k t = .ok x := by
  unfold checkElemType at h
  split at h
  · exact ⟨_, h⟩
  · exact ⟨_, h⟩
  · exact ⟨_, h⟩
  · cases h

/-! ### Views -/

theorem elemSize_pos (t : ElemType) : 0 < elemSize t := by cases t <;> decide

theorem elemSize_le (t : ElemType) : elemSize t ≤ 4 := by cases t <;> decide

/-- A view that is granted lies inside the valid bytes. -/
theorem viewExtent_bound {t : ElemType} {len : Nat} {off : Word} {nX nY nX' nY' : Nat}
    (h : viewExtent t len off nX nY = .ok (nX', nY')) :
    off.toNat + nX' * nY' * elemSize t ≤ len := by
  have hp := elemSize_pos t
  unfold viewExtent at h
  split at h
  · cases h
  · rename_i hoff
    simp only at h
    split at h
    · split at h
      · cases h
      · cases h
        omega
    · split at h
      · cases h
        have := Nat.div_mul_le_self (len - off.toNat) (nX * elemSize t)
        rw [show nX * ((len - off.toNat) / (nX * elemSize t)) * elemSize t
            = (len - off.toNat) / (nX * elemSize t) * (nX * elemSize t) by ring]
        omega
      · split at h
        · cases h
          have := Nat.div_mul_le_self (len - off.toNat) (nY * elemSize t)
          rw [show (len - off.toNat) / (nY * elemSize t) * nY * elemSize t
              = (len - off.toNat) / (nY * elemSize t) * (nY * elemSize t) by ring]
          omega
        · cases h
          have := Nat.div_mul_le_self (len - off.toNat) (elemSize t)
          rw [Nat.mul_one]
          omega

/-- An element reads only the bytes of its own width. -/
theorem elemAt_congr (t : ElemType) {b b' : List Byte} {p p' : Nat}
    (h : ∀ i, i < elemSize t → bufByte b (p + i) = bufByte b' (p' + i)) :
    elemAt t b p = elemAt t b' p' := by
  have h0 := h 0 (elemSize_pos t)
  simp only [Nat.add_zero] at h0
  cases t with
  | int8 => simp only [elemAt, h0]
  | int16 => simp only [elemAt, h0, h 1 (by decide)]
  | uint32 => simp only [elemAt, h0, h 1 (by decide), h 2 (by decide), h 3 (by decide)]

end Sys2Proof.Machine
end

