-- ==== Sys2Proof/Laws/Convert.lean ====
section
/-! SUPPORT. The converters, whatever the open parameters: the remap is a bijection, and what a
conversion leaves. -/

namespace Sys2Proof.Machine

open Sys2Proof

/-! ### The parameters -/

theorem npix_eq_pow (t : ConvKind) : t.npix = 2 ^ t.pixLog := by cases t <;> decide

theorem npix_eq_dims (t : ConvKind) : t.npix = t.dims.1 * t.dims.2 := by cases t <;> decide

theorem npix_le (t : ConvKind) : t.npix ≤ Config.maxPixels := by cases t <;> decide

theorem npix_pos (t : ConvKind) : 0 < t.npix := by cases t <;> decide

theorem gates_mul_inner (t : ConvKind) : Config.gates t * Config.inner t = t.npix := by
  rw [npix_eq_pow, Config.gates, Config.inner, ← pow_add]
  congr 1
  omega

theorem gates_pos (t : ConvKind) : 0 < Config.gates t := Nat.two_pow_pos _

theorem inner_pos (t : ConvKind) : 0 < Config.inner t := Nat.two_pow_pos _

/-! ### The rotation -/

theorem scanCode_lt (t : ConvKind) (sg e : Nat) : scanCode t sg e < t.npix := by
  rw [← gates_mul_inner t]
  have h1 := Nat.mod_lt (sg + Config.gateOffset t + e / Config.inner t) (gates_pos t)
  have h2 := Nat.mod_lt e (inner_pos t)
  calc scanCode t sg e < ((sg + Config.gateOffset t + e / Config.inner t) % Config.gates t + 1)
          * Config.inner t := by rw [Nat.add_mul]; unfold scanCode; omega
    _ ≤ _ := Nat.mul_le_mul_right _ h1

theorem scanElement_lt (t : ConvKind) (sg p : Nat) : scanElement t sg p < t.npix := by
  rw [← gates_mul_inner t]
  have h1 := Nat.mod_lt (p / Config.inner t
    + (Config.gates t - (sg + Config.gateOffset t) % Config.gates t)) (gates_pos t)
  have h2 := Nat.mod_lt p (inner_pos t)
  calc scanElement t sg p < ((p / Config.inner t
          + (Config.gates t - (sg + Config.gateOffset t) % Config.gates t)) % Config.gates t + 1)
          * Config.inner t := by rw [Nat.add_mul]; unfold scanElement; omega
    _ ≤ _ := Nat.mul_le_mul_right _ h1

/-- Rotating a gate position back and forth. -/
theorem rotate_back {n a i : Nat} (hi : i < n) : ((a + i) % n + (n - a % n)) % n = i := by
  have ha := Nat.mod_lt a (show 0 < n by omega)
  have h1 : ((a + i) % n + (n - a % n)) ≡ (a + i + (n - a % n)) [MOD n] :=
    Nat.ModEq.add_right _ (Nat.mod_modEq _ _)
  have h2 : a + i + (n - a % n) = i + n * (a / n + 1) := by
    have := Nat.div_add_mod a n
    rw [Nat.mul_add]
    omega
  rw [h2] at h1
  rw [show ((a + i) % n + (n - a % n)) % n = (i + n * (a / n + 1)) % n from h1,
    Nat.add_mul_mod_self_left, Nat.mod_eq_of_lt hi]

theorem rotate_forth {n a i : Nat} (hi : i < n) : (a + (i + (n - a % n)) % n) % n = i := by
  have ha := Nat.mod_lt a (show 0 < n by omega)
  have h1 : (a + (i + (n - a % n)) % n) ≡ (a + (i + (n - a % n))) [MOD n] :=
    Nat.ModEq.add_left _ (Nat.mod_modEq _ _)
  have h2 : a + (i + (n - a % n)) = i + n * (a / n + 1) := by
    have := Nat.div_add_mod a n
    rw [Nat.mul_add]
    omega
  rw [h2] at h1
  rw [show (a + (i + (n - a % n)) % n) % n = (i + n * (a / n + 1)) % n from h1,
    Nat.add_mul_mod_self_left, Nat.mod_eq_of_lt hi]

theorem pair_div {q r n : Nat} (h : r < n) : (q * n + r) / n = q := by
  rw [Nat.mul_comm, Nat.mul_add_div (by omega), Nat.div_eq_of_lt h, Nat.add_zero]

theorem pair_mod {q r n : Nat} (h : r < n) : (q * n + r) % n = r := by
  rw [Nat.mul_comm, Nat.mul_add_mod, Nat.mod_eq_of_lt h]

theorem scanElement_scanCode (t : ConvKind) (sg : Nat) {e : Nat} (h : e < t.npix) :
    scanElement t sg (scanCode t sg e) = e := by
  have he : e / Config.inner t < Config.gates t := by
    rw [Nat.div_lt_iff_lt_mul (inner_pos t), gates_mul_inner]
    exact h
  have hr := Nat.mod_lt e (inner_pos t)
  unfold scanElement scanCode
  rw [pair_div hr, pair_mod hr, rotate_back he]
  exact Nat.div_add_mod' e _

theorem scanCode_scanElement (t : ConvKind) (sg : Nat) {p : Nat} (h : p < t.npix) :
    scanCode t sg (scanElement t sg p) = p := by
  have hp : p / Config.inner t < Config.gates t := by
    rw [Nat.div_lt_iff_lt_mul (inner_pos t), gates_mul_inner]
    exact h
  have hr := Nat.mod_lt p (inner_pos t)
  unfold scanElement scanCode
  rw [pair_div hr, pair_mod hr, rotate_forth hp]
  exact Nat.div_add_mod' p _

/-! ### The lookup table (42_convert.md R455) -/

theorem lut_lt (t : ConvKind) (um : Bool) (sg : Nat) (q : Fin t.npix) : lut t um sg q < t.npix := by
  unfold lut
  split
  · exact scanElement_lt ..
  · exact (Config.passthru t sg q).isLt

theorem lut_injective (t : ConvKind) (um : Bool) (sg : Nat) : Function.Injective (lut t um sg) := by
  intro p q h
  cases um with
  | false => exact (Config.passthru t sg).injective (Fin.ext (by simpa [lut] using h))
  | true =>
    simp only [lut, if_true] at h
    have hc := congrArg (scanCode t sg) h
    rw [scanCode_scanElement t sg (Fin.isLt _), scanCode_scanElement t sg (Fin.isLt _)] at hc
    exact (Config.place t).symm.injective (Fin.ext hc)

/-- Every element of the frame is used by some pixel. -/
theorem lut_surjective (t : ConvKind) (um : Bool) (sg : Nat) {e : Nat} (h : e < t.npix) :
    ∃ q, lut t um sg q = e := by
  have hinj : Function.Injective fun q => (⟨lut t um sg q, lut_lt t um sg q⟩ : Fin t.npix) :=
    fun p q hpq => lut_injective t um sg (Fin.mk.inj hpq)
  obtain ⟨q, hq⟩ := (Finite.injective_iff_surjective.1 hinj) ⟨e, h⟩
  exact ⟨q, Fin.mk.inj hq⟩

/-- The pixel that element `e` goes to under mapping (42_convert.md R454). -/
theorem lut_place (t : ConvKind) (sg : Nat) {e : Nat} (h : e < t.npix) :
    lut t true sg (Config.place t ⟨scanCode t sg e, scanCode_lt t sg e⟩) = e := by
  simp only [lut, if_true, Equiv.symm_apply_apply]
  exact scanElement_scanCode t sg h

/-! ### A conversion -/

@[simp] theorem convertData_length (t : ConvKind) (um : Bool) (off sg : Nat) (buf : List Byte) :
    (convertData t um off sg buf).length = t.npix := by simp [convertData]

theorem convertData_getD (t : ConvKind) (um : Bool) (off sg : Nat) (buf : List Byte)
    (q : Fin t.npix) :
    (convertData t um off sg buf).getD q.val fZero
      = fOfInt (elemAt (Config.elemType t) buf
          (off + lut t um sg q * elemSize (Config.elemType t))) := by
  simp [convertData]

@[simp] theorem convertMat_dims (t : ConvKind) (d : List F64) (m : Mat) :
    ((convertMat t d m).nX, (convertMat t d m).nY) = t.dims := by
  unfold convertMat
  split
  · assumption
  · rfl

@[simp] theorem convertMat_nX (t : ConvKind) (d : List F64) (m : Mat) :
    (convertMat t d m).nX = t.dims.1 := congrArg Prod.fst (convertMat_dims t d m)

@[simp] theorem convertMat_nY (t : ConvKind) (d : List F64) (m : Mat) :
    (convertMat t d m).nY = t.dims.2 := congrArg Prod.snd (convertMat_dims t d m)

@[simp] theorem convertMat_data (t : ConvKind) (d : List F64) (m : Mat) :
    (convertMat t d m).data = d := rfl

/-- A conversion leaves the tags of its destination. -/
theorem convertMat_eq (t : ConvKind) (d : List F64) (m : Mat) :
    convertMat t d m = { m with nX := t.dims.1, nY := t.dims.2, data := d } := by
  unfold convertMat
  split
  · rename_i h
    rw [← h]
  · rfl

/-- Everything a conversion that goes on has done. -/
theorem convert_ok {t : ConvKind} {um : Bool} {dst off sg : Nat} {s s' : State}
    (h : convert t um dst off sg s = .ok s') :
    off + consumed t ≤ s.dataBuf.length
      ∧ s' = writeMat dst { readMat s dst with
          nX := t.dims.1, nY := t.dims.2, data := convertData t um off sg s.dataBuf } s := by
  unfold convert at h
  split at h
  · cases h
  · refine ⟨by omega, ?_⟩
    rw [← convertMat_eq]
    exact (Except.ok.inj h).symm

theorem convert_eq {t : ConvKind} {um : Bool} {dst off sg : Nat} {s : State}
    (h : off + consumed t ≤ s.dataBuf.length) :
    convert t um dst off sg s = .ok (writeMat dst { readMat s dst with
      nX := t.dims.1, nY := t.dims.2, data := convertData t um off sg s.dataBuf } s) := by
  unfold convert
  rw [if_neg (by omega), convertMat_eq]

theorem convert_short {t : ConvKind} {um : Bool} {dst off sg : Nat} {s : State}
    (h : s.dataBuf.length < off + consumed t) :
    convert t um dst off sg s = .error ⟨.viewExtent, BitVec.ofNat 32 off⟩ := by
  unfold convert
  exact if_pos (by omega)

/-- A conversion reads only the bytes of its frame (42_convert.md R457 P2). -/
theorem convertData_congr {t : ConvKind} {um : Bool} {off off' sg : Nat} {b b' : List Byte}
    (h : ∀ i, i < consumed t → bufByte b (off + i) = bufByte b' (off' + i)) :
    convertData t um off sg b = convertData t um off' sg b' := by
  unfold convertData
  congr 1
  funext q
  congr 1
  refine elemAt_congr _ fun i hi => ?_
  rw [Nat.add_assoc, Nat.add_assoc]
  refine h _ ?_
  have hq := lut_lt t um sg q
  calc _ < (lut t um sg q + 1) * elemSize (Config.elemType t) := by rw [Nat.add_mul]; omega
    _ ≤ _ := Nat.mul_le_mul_right _ hq

end Sys2Proof.Machine
end

