-- ==== Sys2Proof/Laws/Stream.lean ====
section
/-! SUPPORT. What the stream routines do: the search of a header read, and the reads and skips
inside a record. -/

namespace Sys2Proof.Machine

open Sys2Proof

/-! ### The search of a header read -/

/-- The offset a header read tries in the `j`-th segment of its search: the cursor's own in the
first, 0 in every later one. -/
def tryOffset (off j : Nat) : Nat := if j = 0 then off else 0

theorem scanHeader_found {segs : List Seg} {cur off c o : Nat} {g : Seg}
    (h : scanHeader segs cur off = (c, o, some g)) :
    ∃ j, c = cur + j ∧ segs[j]? = some g ∧ o = tryOffset off j ∧ 8 ≤ g.len.toNat - o
      ∧ ∀ i, i < j → ∀ g', segs[i]? = some g' → g'.len.toNat - tryOffset off i < 8 := by
  induction segs generalizing cur off with
  | nil => simp [scanHeader] at h
  | cons g0 rest ih =>
    unfold scanHeader at h
    split at h
    · cases h
      exact ⟨0, by simp, by simp, rfl, by assumption, fun i hi => by omega⟩
    · obtain ⟨j, hc, hj, ho, h8, hall⟩ := ih h
      refine ⟨j + 1, by omega, by simpa using hj, ?_, h8, fun i hi g' hg' => ?_⟩
      · simp only [tryOffset] at ho ⊢
        split at ho <;> simp_all
      · cases i with
        | zero => simp only [List.getElem?_cons_zero, Option.some.injEq] at hg'
                  subst hg'; simp only [tryOffset]; simp; omega
        | succ i =>
          have := hall i (by omega) g' (by simpa using hg')
          simp only [tryOffset] at this ⊢
          split at this <;> simp_all

theorem scanHeader_end {segs : List Seg} {cur off c o : Nat}
    (h : scanHeader segs cur off = (c, o, none)) :
    c = cur + segs.length ∧ o = tryOffset off segs.length
      ∧ ∀ i g', segs[i]? = some g' → g'.len.toNat - tryOffset off i < 8 := by
  induction segs generalizing cur off with
  | nil => simp only [scanHeader] at h; cases h; simp [tryOffset]
  | cons g0 rest ih =>
    unfold scanHeader at h
    split at h
    · cases h
    · obtain ⟨hc, ho, hall⟩ := ih h
      refine ⟨by simp only [List.length_cons]; omega, ?_, fun i g' hg' => ?_⟩
      · simp only [tryOffset] at ho ⊢
        split at ho <;> simp_all
      · cases i with
        | zero => simp only [List.getElem?_cons_zero, Option.some.injEq] at hg'
                  subst hg'; simp only [tryOffset]; simp; omega
        | succ i =>
          have := hall i g' (by simpa using hg')
          simp only [tryOffset] at this ⊢
          split at this <;> simp_all

/-- The search stops at the first segment with 8 bytes left. -/
theorem scanHeader_eq {segs : List Seg} {cur off j : Nat} {g : Seg} (hj : segs[j]? = some g)
    (h8 : 8 ≤ g.len.toNat - tryOffset off j)
    (hall : ∀ i, i < j → ∀ g', segs[i]? = some g' → g'.len.toNat - tryOffset off i < 8) :
    scanHeader segs cur off = (cur + j, tryOffset off j, some g) := by
  induction j generalizing segs cur off with
  | zero =>
    cases segs with
    | nil => simp at hj
    | cons g0 rest =>
      simp only [List.getElem?_cons_zero, Option.some.injEq] at hj
      subst hj
      simp only [scanHeader]
      rw [if_pos (by simpa [tryOffset] using h8)]
      simp [tryOffset]
  | succ j ih =>
    cases segs with
    | nil => simp at hj
    | cons g0 rest =>
      have h0 := hall 0 (by omega) g0 (by simp)
      simp only [tryOffset, if_true] at h0
      simp only [scanHeader]
      rw [if_neg (by omega), ih (segs := rest) (off := 0) (cur := cur + 1) (by simpa using hj)]
      · simp [tryOffset]; omega
      · simpa [tryOffset] using h8
      · intro i hi g' hg'
        have := hall (i + 1) (by omega) g' (by simpa using hg')
        simpa [tryOffset] using this

/-- The search ends past the last segment where none has 8 bytes left. -/
theorem scanHeader_eq_end {segs : List Seg} {cur off : Nat}
    (hall : ∀ i g', segs[i]? = some g' → g'.len.toNat - tryOffset off i < 8) :
    scanHeader segs cur off = (cur + segs.length, tryOffset off segs.length, none) := by
  induction segs generalizing cur off with
  | nil => simp [scanHeader, tryOffset]
  | cons g0 rest ih =>
    have h0 := hall 0 g0 (by simp)
    simp only [tryOffset, if_true] at h0
    simp only [scanHeader]
    rw [if_neg (by omega), ih (off := 0)]
    · simp [tryOffset]; omega
    · intro i g' hg'
      have := hall (i + 1) g' (by simpa using hg')
      simpa [tryOffset] using this

/-! ### The routines -/

/-- Everything a header read can do: it reads 8 bytes of a segment at or after the cursor, or finds
the end of the input. -/
theorem readHeader_cases {s t : State} {b : Bool} (h : readHeader s = (t, b)) :
    (b = true ∧ ∃ j g, s.segq[s.curSeg + j]? = some g
        ∧ tryOffset s.off.toNat j + 8 ≤ g.len.toNat
        ∧ (∀ i, i < j → ∀ g', s.segq[s.curSeg + i]? = some g' →
            g'.len.toNat - tryOffset s.off.toNat i < 8)
        ∧ t = { s with
            curSeg := s.curSeg + j
            off := BitVec.ofNat 32 (tryOffset s.off.toNat j + 8)
            hdr0 := memWord s.inMem (g.base.toNat + tryOffset s.off.toNat j)
            hdr1 := memWord s.inMem (g.base.toNat + tryOffset s.off.toNat j + 4)
            eoi := false })
      ∨ (b = false
        ∧ (∀ i g', s.segq[s.curSeg + i]? = some g' → g'.len.toNat - tryOffset s.off.toNat i < 8)
        ∧ t = { s with
            curSeg := s.curSeg + (s.segq.length - s.curSeg)
            off := BitVec.ofNat 32 (tryOffset s.off.toNat (s.segq.length - s.curSeg))
            eoi := true }) := by
  unfold readHeader at h
  split at h
  · rename_i cur off hs
    obtain ⟨hc, ho, hall⟩ := scanHeader_end hs
    simp only [List.getElem?_drop, List.length_drop] at hall hc ho
    refine .inr ⟨(Prod.mk.inj h).2.symm, hall, ?_⟩
    rw [← (Prod.mk.inj h).1, hc, ho]
  · rename_i cur off g hs
    obtain ⟨j, hc, hj, ho, h8, hall⟩ := scanHeader_found hs
    simp only [List.getElem?_drop] at hj hall
    refine .inl ⟨(Prod.mk.inj h).2.symm, j, g, hj, by omega, hall, ?_⟩
    rw [← (Prod.mk.inj h).1, hc, ho]

/-- A header read at the first segment with 8 bytes left. -/
theorem readHeader_eq {s : State} {j : Nat} {g : Seg} (hj : s.segq[s.curSeg + j]? = some g)
    (h8 : tryOffset s.off.toNat j + 8 ≤ g.len.toNat)
    (hall : ∀ i, i < j → ∀ g', s.segq[s.curSeg + i]? = some g' →
      g'.len.toNat - tryOffset s.off.toNat i < 8) :
    readHeader s = ({ s with
        curSeg := s.curSeg + j
        off := BitVec.ofNat 32 (tryOffset s.off.toNat j + 8)
        hdr0 := memWord s.inMem (g.base.toNat + tryOffset s.off.toNat j)
        hdr1 := memWord s.inMem (g.base.toNat + tryOffset s.off.toNat j + 4)
        eoi := false }, true) := by
  unfold readHeader
  rw [scanHeader_eq (j := j) (g := g) (by simpa using hj) (by omega)
    (fun i hi g' hg' => hall i hi g' (by simpa using hg'))]

/-- A header read where no segment has 8 bytes left. -/
theorem readHeader_eq_end {s : State}
    (hall : ∀ i g', s.segq[s.curSeg + i]? = some g' →
      g'.len.toNat - tryOffset s.off.toNat i < 8) :
    readHeader s = ({ s with
        curSeg := s.curSeg + (s.segq.length - s.curSeg)
        off := BitVec.ofNat 32 (tryOffset s.off.toNat (s.segq.length - s.curSeg))
        eoi := true }, false) := by
  unfold readHeader
  rw [scanHeader_eq_end (fun i g' hg' => hall i g' (by simpa using hg'))]
  simp

/-- A read inside a record that goes on had its bytes in the current segment. -/
theorem inSegment_ok {s t : State} {need : Nat} {k : Nat → Except Raise State}
    (h : inSegment s need k = .ok t) :
    ∃ g, s.segq[s.curSeg]? = some g ∧ need ≤ g.len.toNat - s.off.toNat
      ∧ k (g.base.toNat + s.off.toNat) = .ok t := by
  unfold inSegment at h
  split at h
  · cases h
  · rename_i g hg
    split at h
    · cases h
    · exact ⟨g, hg, by omega, h⟩

theorem inSegment_of_left {s : State} {need : Nat} {k : Nat → Except Raise State} {g : Seg}
    (hg : s.segq[s.curSeg]? = some g) (h : need ≤ g.len.toNat - s.off.toNat) :
    inSegment s need k = k (g.base.toNat + s.off.toNat) := by
  simp only [inSegment, hg]
  exact if_neg (by omega)

/-- A read inside a record that is short raises TRUNCATED_RECORD. -/
theorem inSegment_of_short {s : State} {need : Nat} {k : Nat → Except Raise State}
    (h : ∀ g, s.segq[s.curSeg]? = some g → g.len.toNat - s.off.toNat < need) :
    inSegment s need k = .error ⟨.truncatedRecord, s.off⟩ := by
  unfold inSegment
  cases hg : s.segq[s.curSeg]? with
  | none => rfl
  | some g => exact if_pos (h g hg)

/-- Everything a data read that goes on has done. -/
theorem readData_ok {s t : State} {n : Nat} (h : readData n s = .ok t) :
    4 * n ≤ Config.dataBufBytes ∧ ∃ g, s.segq[s.curSeg]? = some g
      ∧ 4 * (1 + n) ≤ g.len.toNat - s.off.toNat
      ∧ t = { s with
          info := memWord s.inMem (g.base.toNat + s.off.toNat)
          dataBuf := memReadN s.inMem (g.base.toNat + s.off.toNat + 4) (4 * n)
          off := BitVec.ofNat 32 (s.off.toNat + 4 * (1 + n)) } := by
  unfold readData at h
  split at h
  · cases h
  · obtain ⟨g, hg, hl, hk⟩ := inSegment_ok h
    exact ⟨by omega, g, hg, hl, (Except.ok.inj hk).symm⟩

theorem readData_eq {s : State} {n : Nat} {g : Seg} (hn : 4 * n ≤ Config.dataBufBytes)
    (hg : s.segq[s.curSeg]? = some g) (h : 4 * (1 + n) ≤ g.len.toNat - s.off.toNat) :
    readData n s = .ok { s with
      info := memWord s.inMem (g.base.toNat + s.off.toNat)
      dataBuf := memReadN s.inMem (g.base.toNat + s.off.toNat + 4) (4 * n)
      off := BitVec.ofNat 32 (s.off.toNat + 4 * (1 + n)) } := by
  rw [readData, if_neg (by omega), inSegment_of_left hg h]
  rfl

/-- Everything a data skip that goes on has done. -/
theorem skipData_ok {s t : State} {n : Nat} (h : skipData n s = .ok t) :
    ∃ g, s.segq[s.curSeg]? = some g ∧ 4 * (1 + n) ≤ g.len.toNat - s.off.toNat
      ∧ t = { s with off := BitVec.ofNat 32 (s.off.toNat + 4 * (1 + n)) } := by
  obtain ⟨g, hg, hl, hk⟩ := inSegment_ok h
  exact ⟨g, hg, hl, (Except.ok.inj hk).symm⟩

theorem skipData_eq {s : State} {n : Nat} {g : Seg} (hg : s.segq[s.curSeg]? = some g)
    (h : 4 * (1 + n) ≤ g.len.toNat - s.off.toNat) :
    skipData n s = .ok { s with off := BitVec.ofNat 32 (s.off.toNat + 4 * (1 + n)) } := by
  rw [skipData, inSegment_of_left hg h]
  rfl

/-- Everything a body skip that goes on has done. -/
theorem skipWords_ok {s t : State} {k : Nat} (h : skipWords k s = .ok t) :
    (k = 0 ∧ t = s) ∨ (0 < k ∧ ∃ g, s.segq[s.curSeg]? = some g ∧ 4 * k ≤ g.len.toNat - s.off.toNat
      ∧ t = { s with off := BitVec.ofNat 32 (s.off.toNat + 4 * k) }) := by
  unfold skipWords at h
  split at h
  · exact .inl ⟨‹_›, (Except.ok.inj h).symm⟩
  · obtain ⟨g, hg, hl, hk⟩ := inSegment_ok h
    exact .inr ⟨by omega, g, hg, hl, (Except.ok.inj hk).symm⟩

theorem skipWords_eq {s : State} {k : Nat} {g : Seg} (hg : s.segq[s.curSeg]? = some g)
    (h : 4 * k ≤ g.len.toNat - s.off.toNat) :
    skipWords k s = .ok { s with off := BitVec.ofNat 32 (s.off.toNat + 4 * k) } := by
  unfold skipWords
  split
  · rename_i hk
    subst hk
    simp
  · rw [inSegment_of_left hg h]
    rfl

theorem needOpen_ok {s t : State} {k : Except Raise State} (h : needOpen s k = .ok t) :
    s.opened = true ∧ k = .ok t := by
  unfold needOpen at h
  split at h
  · exact ⟨‹_›, h⟩
  · cases h

/-! ### The bytes left, which every read lowers -/

/-- The bytes from a place in a queue to its end. -/
def segBytes (segs : List Seg) (cur off : Nat) : Nat :=
  match segs.drop cur with
  | [] => 0
  | g :: rest => (g.len.toNat - off) + (rest.map fun g => g.len.toNat).sum

/-- The bytes from the cursor to the end of the queue. -/
def bytesLeft (s : State) : Nat := segBytes s.segq s.curSeg s.off.toNat

theorem sum_drop_le (segs : List Seg) (n : Nat) :
    ((segs.drop n).map fun g => g.len.toNat).sum ≤ (segs.map fun g => g.len.toNat).sum := by
  conv_rhs => rw [← List.take_append_drop n segs]
  rw [List.map_append, List.sum_append]
  omega

theorem bytesLeft_le (s : State) : bytesLeft s ≤ (s.segq.map fun g => g.len.toNat).sum := by
  have := sum_drop_le s.segq s.curSeg
  unfold bytesLeft segBytes
  split
  · omega
  · rename_i g rest h
    rw [h] at this
    simp only [List.map_cons, List.sum_cons] at this
    omega

theorem segBytes_of_getElem {segs : List Seg} {cur off : Nat} {g : Seg} (h : segs[cur]? = some g) :
    segBytes segs cur off
      = (g.len.toNat - off) + ((segs.drop (cur + 1)).map fun g => g.len.toNat).sum := by
  obtain ⟨hlt, hg⟩ := List.getElem?_eq_some_iff.1 h
  rw [segBytes, List.drop_eq_getElem_cons hlt, hg]

/-- A header read consumes 8 bytes of those left. -/
theorem readHeader_bytesLeft {s t : State} (h : readHeader s = (t, true)) :
    bytesLeft t + 8 ≤ bytesLeft s := by
  rcases readHeader_cases h with ⟨-, j, g, hg, h8, -, rfl⟩ | ⟨hb, -, -⟩
  · have hl := g.len.isLt
    have hlt := (List.getElem?_eq_some_iff.1 hg).1
    have hsum := sum_drop_le (s.segq.drop (s.curSeg + 1)) (j - 1 + 1)
    simp only [bytesLeft]
    rw [segBytes_of_getElem hg, BitVec.toNat_ofNat, Nat.mod_eq_of_lt (by omega)]
    cases j with
    | zero =>
      simp only [tryOffset, if_true, Nat.add_zero] at *
      rw [segBytes_of_getElem hg]
      omega
    | succ j =>
      simp only [tryOffset, Nat.succ_ne_zero, if_false, Nat.add_one_sub_one] at *
      obtain ⟨g0, hg0⟩ : ∃ g0, s.segq[s.curSeg]? = some g0 :=
        ⟨_, List.getElem?_eq_getElem (by omega)⟩
      rw [segBytes_of_getElem hg0]
      have hcons : s.segq.drop (s.curSeg + (j + 1)) = g :: s.segq.drop (s.curSeg + (j + 1) + 1) := by
        obtain ⟨hlt', hg'⟩ := List.getElem?_eq_some_iff.1 hg
        rw [List.drop_eq_getElem_cons hlt', hg']
      have hle := sum_drop_le (s.segq.drop (s.curSeg + 1)) j
      rw [List.drop_drop, show s.curSeg + 1 + j = s.curSeg + (j + 1) by omega, hcons] at hle
      simp only [List.map_cons, List.sum_cons] at hle
      omega
  · cases hb

/-- The cursor moved forward inside its segment leaves no more bytes. -/
theorem bytesLeft_advance {s : State} {need : Nat} {g : Seg} (hg : s.segq[s.curSeg]? = some g)
    (h : need ≤ g.len.toNat - s.off.toNat) (h0 : s.off.toNat ≤ g.len.toNat ∨ 0 < need) {t : State}
    (hq : t.segq = s.segq) (hc : t.curSeg = s.curSeg)
    (ho : t.off = BitVec.ofNat 32 (s.off.toNat + need)) :
    bytesLeft t ≤ bytesLeft s := by
  have hl := g.len.isLt
  unfold bytesLeft
  rw [hq, hc, ho, segBytes_of_getElem hg, segBytes_of_getElem hg, BitVec.toNat_ofNat,
    Nat.mod_eq_of_lt (by omega)]
  omega

end Sys2Proof.Machine
end

