-- ==== Sys2Proof/Laws/Assembler.lean ====
section
/-! SUPPORT. What the record walk does: the frames it decodes, each record kind, and the bound on
its steps. -/

namespace Sys2Proof.Machine

open Sys2Proof

/-! ### Decoding a blob -/

/-- Decoding frames changes nothing but the matrix file. -/
theorem decodeFrames_frame {t : ConvKind} {um : Bool} {h : RecHdr} {gate : BitVec 10}
    {base left f off : Nat} {s s' : State}
    (hd : decodeFrames t um h gate base left f off s = .ok s') : s' = { s with mats := s'.mats } := by
  induction left generalizing f off s with
  | zero => cases hd; rfl
  | succ left ih =>
    unfold decodeFrames at hd
    split at hd
    · cases hd
    · rename_i u hu
      obtain ⟨-, rfl⟩ := convert_ok hu
      rw [ih hd]
      rfl

/-- Decoding frames writes only the slots of its module. -/
theorem decodeFrames_other {t : ConvKind} {um : Bool} {h : RecHdr} {gate : BitVec 10}
    {base left f off : Nat} {s s' : State}
    (hd : decodeFrames t um h gate base left f off s = .ok s') (id : Nat)
    (hid : ∀ i, i < left → id ≠ base + (f + i)) : readMat s' id = readMat s id := by
  induction left generalizing f off s with
  | zero => cases hd; rfl
  | succ left ih =>
    unfold decodeFrames at hd
    split at hd
    · cases hd
    · rename_i u hu
      obtain ⟨-, rfl⟩ := convert_ok hu
      have h0 : id ≠ base + f := by simpa using hid 0 (by omega)
      rw [ih hd fun i hi => by have := hid (i + 1) (by omega); omega]
      unfold tagSlot
      rw [readMat_writeMat_ne _ _ _ _ h0, readMat_writeMat_ne _ _ _ _ h0]

/-- What a decoded frame holds (43_assembler.md R507). -/
def frameMat (t : ConvKind) (um : Bool) (h : RecHdr) (gate : BitVec 10) (f off : Nat)
    (buf : List Byte) : Mat :=
  { nX := t.dims.1, nY := t.dims.2, data := convertData t um off gate.toNat buf
    moduleNr := h.moduleNo, triggerNr := h.trigger, startGate := gate
    frameNr := BitVec.ofNat 3 f }

/-- Decoding frames that fit: each slot of the module holds its frame, packed back to back. -/
theorem decodeFrames_fit {t : ConvKind} {um : Bool} {h : RecHdr} {gate : BitVec 10}
    {base left f off : Nat} {s : State} (hfit : off + left * consumed t ≤ s.dataBuf.length)
    (hslots : base + (f + left) ≤ 184) :
    ∃ s', decodeFrames t um h gate base left f off s = .ok s'
      ∧ ∀ i, i < left → readMat s' (base + (f + i))
          = frameMat t um h gate (f + i) (off + i * consumed t) s.dataBuf := by
  induction left generalizing f off s with
  | zero => exact ⟨s, rfl, fun i hi => by omega⟩
  | succ left ih =>
    rw [Nat.add_mul, Nat.one_mul] at hfit
    simp only [decodeFrames, convert_eq (um := um) (dst := base + f) (sg := gate.toNat)
      (show off + consumed t ≤ s.dataBuf.length by omega)]
    obtain ⟨s', hs', hall⟩ := ih (f := f + 1) (off := off + consumed t)
      (s := tagSlot (base + f) f h gate (writeMat (base + f) { readMat s (base + f) with
        nX := t.dims.1, nY := t.dims.2, data := convertData t um off gate.toNat s.dataBuf } s))
      (by simpa using (by omega : off + consumed t + left * consumed t ≤ s.dataBuf.length))
      (by omega)
    refine ⟨s', hs', fun i hi => ?_⟩
    cases i with
    | zero =>
      rw [decodeFrames_other hs' _ fun i hi => by omega]
      simp only [Nat.add_zero, Nat.zero_mul]
      unfold tagSlot
      rw [readMat_writeMat_same _ _ _ (by omega), readMat_writeMat_same _ _ _ (by omega)]
      rfl
    | succ i =>
      have := hall i (by omega)
      rw [show base + (f + (i + 1)) = base + (f + 1 + i) by omega, this]
      simp only [frameMat, tagSlot_dataBuf, writeMat_dataBuf]
      rw [show off + consumed t + i * consumed t = off + (i + 1) * consumed t by ring,
        show f + 1 + i = f + (i + 1) by omega]

/-- A blob that is decoded is decoded frame by frame with its kind's converter. -/
theorem decodeBlob_ok {k : RecKind} {h : RecHdr} {ord : BitVec 4} {s s' : State}
    (hd : decodeBlob k h ord s = .ok s') :
    ∃ t um, decodeFrames t um h (decodeInfo s.info s.cfgInfoLayout).startGate
      (ord.toNat * (1 + s.tLatch.toNat)) (1 + s.tLatch.toNat) 0 0 s = .ok s' := by
  unfold decodeBlob at hd
  simp only at hd
  by_cases hz : (decodeInfo s.info s.cfgInfoLayout).zerosupp = 1
  · rw [if_pos hz] at hd
    cases hd
  · rw [if_neg hz] at hd
    cases hc : dispatchConv k s with
    | error r => rw [hc] at hd; cases hd
    | ok c => rw [hc] at hd; exact ⟨c.1, c.2, hd⟩

/-- Decoding a blob changes nothing but the matrix file. -/
theorem decodeBlob_frame {k : RecKind} {h : RecHdr} {ord : BitVec 4} {s s' : State}
    (hd : decodeBlob k h ord s = .ok s') : s' = { s with mats := s'.mats } := by
  obtain ⟨t, um, hd⟩ := decodeBlob_ok hd
  exact decodeFrames_frame hd

/-- Decoding a blob writes event slots only. -/
theorem decodeBlob_other {k : RecKind} {h : RecHdr} {ord : BitVec 4} {s s' : State}
    (hd : decodeBlob k h ord s = .ok s') (id : Nat) (hid : 128 ≤ id) :
    readMat s' id = readMat s id := by
  obtain ⟨t, um, hd⟩ := decodeBlob_ok hd
  have ho := ord.isLt
  have ht := s.tLatch.isLt
  have : ord.toNat * (1 + s.tLatch.toNat) ≤ 15 * (1 + s.tLatch.toNat) :=
    Nat.mul_le_mul_right _ (by omega)
  exact decodeFrames_other hd id fun i hi => by omega

/-! ### What each record kind does -/

/-- What a taken record leaves as it was: everything but the cursor, the run and event numbers,
INFO, DATA_BUF, the event slots, the slot map's entries, FSM and the walk's place. -/
structure WalkFrame (s t : State) : Prop where
  rest : t = { s with
    off := t.off, hdr0 := t.hdr0, hdr1 := t.hdr1, eoi := t.eoi, curSeg := t.curSeg
    info := t.info, dataBuf := t.dataBuf
    runNumber := t.runNumber, eventNumber := t.eventNumber, eventCount := t.eventCount
    nmod := t.nmod, modmap := t.modmap
    mapValid := t.mapValid, nslots := t.nslots, fsm := t.fsm
    resN0 := t.resN0, resN1 := t.resN1, resN2 := t.resN2, busy := t.busy
    mats := t.mats, walk := t.walk }
  mats : ∀ id, 128 ≤ id → readMat t id = readMat s id

theorem WalkFrame.refl (s : State) : WalkFrame s s := ⟨rfl, fun _ _ => rfl⟩

theorem WalkFrame.trans {s t u : State} (h1 : WalkFrame s t) (h2 : WalkFrame t u) :
    WalkFrame s u :=
  ⟨by rw [h2.rest, h1.rest], fun id hid => (h2.mats id hid).trans (h1.mats id hid)⟩

/-- The data of a record, read and decoded or skipped: fewer bytes are left, the slot map and the
walk stay. -/
theorem takeData_ok {k : RecKind} {h : RecHdr} {d : Bool} {s t : State}
    (ht : takeData k h d s = .ok t) :
    WalkFrame s t ∧ bytesLeft t ≤ bytesLeft s ∧ t.walk = s.walk ∧ t.modmap = s.modmap
      ∧ t.nmod = s.nmod ∧ t.mapValid = s.mapValid ∧ t.nslots = s.nslots := by
  unfold takeData at ht
  split at ht
  · split at ht
    · rename_i u hu
      obtain ⟨-, g, hg, hl, rfl⟩ := readData_ok hu
      have hf := decodeBlob_frame ht
      have hb : bytesLeft t ≤ bytesLeft s := by
        refine bytesLeft_advance hg hl (.inr (by omega)) ?_ ?_ ?_ <;> rw [hf]
      refine ⟨⟨?_, fun id hid => (decodeBlob_other ht id hid).trans ?_⟩, hb, ?_, ?_, ?_, ?_, ?_⟩
      · rw [hf]
      · rfl
      all_goals rw [hf]
    · cases ht
  · obtain ⟨g, hg, hl, rfl⟩ := skipData_ok ht
    exact ⟨⟨rfl, fun _ _ => rfl⟩, bytesLeft_advance hg hl (.inr (by omega)) rfl rfl rfl,
      rfl, rfl, rfl, rfl, rfl⟩

/-- A skipped body: fewer bytes are left, everything but the cursor stays. -/
theorem skipWords_frame {k : Nat} {s t : State} (h : skipWords k s = .ok t) :
    t = { s with off := t.off } ∧ bytesLeft t ≤ bytesLeft s := by
  rcases skipWords_ok h with ⟨-, rfl⟩ | ⟨hk, g, hg, hl, rfl⟩
  · exact ⟨rfl, le_refl _⟩
  · exact ⟨rfl, bytesLeft_advance hg hl (.inr (by omega)) rfl rfl rfl⟩

/-- What a record inside a group does to the slot map and to the modules seen: nothing, or one new
module is seen, and added to the map exactly while the map is being established. -/
def MapStep (est : Bool) (seen seen' : List (BitVec 4)) (s t : State) : Prop :=
  (seen' = seen ∧ t.modmap = s.modmap ∧ t.nmod = s.nmod)
    ∨ ∃ m, m ∉ seen ∧ seen' = m :: seen
        ∧ (if est then t.modmap = (addModule m s).modmap ∧ t.nmod = s.nmod + 1
          else (readModmap s m).isSome ∧ t.modmap = s.modmap ∧ t.nmod = s.nmod)

/-- What a record does besides its frame, at each place of the walk. -/
def RecordOutcome (h : RecHdr) (w : Walk) (s t : State) : Prop :=
  match w.place with
  | .top => t.modmap = s.modmap ∧ t.nmod = s.nmod
      ∧ (t.walk = s.walk
        ∨ t.walk = some ⟨w.cmd, .group (h.eventSize.toNat - 2) [] (!s.mapValid)⟩)
  | .group remaining seen est =>
      h.eventSize.toNat ≤ remaining
        ∧ ∃ seen', MapStep est seen seen' s t
          ∧ t.walk = some ⟨w.cmd, .group (remaining - h.eventSize.toNat) seen' est⟩

/-- What a record outside a group does: the frame, and nothing to the slot map. -/
def TopOutcome (h : RecHdr) (c : WalkCmd) (s t : State) : Prop :=
  WalkFrame s t ∧ bytesLeft t ≤ bytesLeft s ∧ t.mapValid = s.mapValid ∧ t.nslots = s.nslots
    ∧ t.modmap = s.modmap ∧ t.nmod = s.nmod
    ∧ (t.walk = s.walk ∨ t.walk = some ⟨c, .group (h.eventSize.toNat - 2) [] (!s.mapValid)⟩)

/-- What a record inside a group does, before its words are counted off. -/
def NestedOutcome (est : Bool) (seen seen' : List (BitVec 4)) (s t : State) : Prop :=
  WalkFrame s t ∧ bytesLeft t ≤ bytesLeft s ∧ t.mapValid = s.mapValid ∧ t.nslots = s.nslots
    ∧ MapStep est seen seen' s t

theorem unexpectedTop_not_ok {c : WalkCmd} {s t : State} (h : unexpectedTop c s = .ok t) : False := by
  simp [unexpectedTop] at h

theorem unexpectedNested_not_ok {c : WalkCmd} {seen : List (BitVec 4)} {est : Bool} {s : State}
    {r : State × List (BitVec 4)} (h : unexpectedNested c seen est s = .ok r) : False := by
  simp [unexpectedNested] at h

theorem skipTop_ok {h : RecHdr} {c : WalkCmd} {s t : State} (hs : skipTop h c s = .ok t) :
    TopOutcome h c s t := by
  obtain ⟨hf, hl⟩ := skipWords_frame hs
  refine ⟨⟨?_, fun id _ => ?_⟩, hl, ?_, ?_, ?_, ?_, .inl ?_⟩
  · rw [hf]
  · rw [hf]; rfl
  all_goals rw [hf]

theorem infoTop_ok {h : RecHdr} {c : WalkCmd} {s t : State} (hs : infoTop h c s = .ok t) :
    TopOutcome h c s t := by
  obtain ⟨h1, h2, h3, h4, h5, h6, h7⟩ := skipTop_ok (h := h) (c := c) hs
  exact ⟨WalkFrame.trans (t := { s with runNumber := h.trigger }) ⟨rfl, fun _ _ => rfl⟩ h1,
    h2, h3, h4, h5, h6, h7⟩

theorem enterGroup_ok {h : RecHdr} {c : WalkCmd} {s t : State} (hs : enterGroup h c s = .ok t) :
    TopOutcome h c s t := by
  cases hs
  exact ⟨⟨rfl, fun _ _ => rfl⟩, le_refl _, rfl, rfl, rfl, rfl, .inr rfl⟩

theorem skipNested_ok {h : RecHdr} {c : WalkCmd} {seen : List (BitVec 4)} {est : Bool} {s : State}
    {r : State × List (BitVec 4)} (hs : skipNested h c seen est s = .ok r) :
    NestedOutcome est seen r.2 s r.1 := by
  unfold skipNested at hs
  split at hs
  · rename_i v hv
    cases hs
    obtain ⟨hf, hl⟩ := skipWords_frame hv
    refine ⟨⟨?_, fun id _ => ?_⟩, hl, ?_, ?_, .inl ⟨rfl, ?_, ?_⟩⟩
    · simp only; rw [hf]
    · simp only; rw [hf]; rfl
    all_goals (simp only; rw [hf])
  · cases hs

theorem infoNested_ok {h : RecHdr} {c : WalkCmd} {seen : List (BitVec 4)} {est : Bool} {s : State}
    {r : State × List (BitVec 4)} (hs : infoNested h c seen est s = .ok r) :
    NestedOutcome est seen r.2 s r.1 := by
  obtain ⟨h1, h2, h3, h4, h5⟩ := skipNested_ok hs
  refine ⟨WalkFrame.trans (t := { s with runNumber := h.trigger }) ⟨rfl, fun _ _ => rfl⟩ h1,
    h2, h3, h4, ?_⟩
  rcases h5 with h | ⟨m, hm, hr, he⟩
  · exact .inl h
  · exact .inr ⟨m, hm, hr, by cases est <;> exact he⟩

theorem dataNested_ok {k : RecKind} {h : RecHdr} {c : WalkCmd} {seen : List (BitVec 4)} {est : Bool}
    {s : State} {r : State × List (BitVec 4)} (hs : dataNested k h c seen est s = .ok r) :
    NestedOutcome est seen r.2 s r.1 := by
  unfold dataNested at hs
  split at hs
  · cases hs
  split at hs
  · cases hs
  rename_i hseen
  split at hs
  · cases hs
  rename_i hknown
  split at hs
  · rename_i v hv
    cases hs
    obtain ⟨hf, hl, -, hmm, hnm, hm, hn⟩ := takeData_ok hv
    cases est with
    | true =>
      simp only [if_true] at hf hl hmm hnm hm hn
      have hadd : WalkFrame s (addModule h.moduleNo s) := ⟨rfl, fun _ _ => rfl⟩
      exact ⟨hadd.trans hf, hl, hm, hn, .inr ⟨h.moduleNo, hseen, rfl, by simpa using ⟨hmm, hnm⟩⟩⟩
    | false =>
      simp only [Bool.false_eq_true, if_false] at hf hl hmm hnm hm hn
      refine ⟨hf, hl, hm, hn, .inr ⟨h.moduleNo, hseen, rfl, ?_⟩⟩
      simp only [Bool.false_eq_true, if_false]
      refine ⟨?_, hmm, hnm⟩
      cases hk : readModmap s h.moduleNo with
      | none => simp [hk] at hknown
      | some o => rfl
  · cases hs

/-- A taken record passed its size check and did what its kind does at the walk's place. -/
theorem takeRecord_ok {h : RecHdr} {w : Walk} {s t : State}
    {top : WalkCmd → State → Except Raise State}
    {nested : WalkCmd → List (BitVec 4) → Bool → State → Except Raise (State × List (BitVec 4))}
    (ht : takeRecord h top nested w s = .ok t) :
    2 ≤ h.eventSize.toNat
      ∧ ((w.place = .top ∧ top w.cmd s = .ok t)
        ∨ ∃ remaining seen est r, w.place = .group remaining seen est
          ∧ h.eventSize.toNat ≤ remaining ∧ nested w.cmd seen est s = .ok r
          ∧ t = setPlace w.cmd (.group (remaining - h.eventSize.toNat) r.2 est) r.1) := by
  unfold takeRecord at ht
  by_cases h2 : h.eventSize.toNat < 2
  · rw [if_pos h2] at ht
    cases ht
  rw [if_neg h2] at ht
  refine ⟨by omega, ?_⟩
  cases hp : w.place with
  | top => rw [hp] at ht; exact .inl ⟨rfl, ht⟩
  | group remaining seen est =>
    simp only [hp] at ht
    by_cases hr : remaining < h.eventSize.toNat
    · rw [if_pos hr] at ht
      cases ht
    rw [if_neg hr] at ht
    cases hn : nested w.cmd seen est s with
    | error r => rw [hn] at ht; cases ht
    | ok r =>
      rw [hn] at ht
      exact .inr ⟨remaining, seen, est, r, rfl, by omega, hn, (Except.ok.inj ht).symm⟩

theorem takeRecord_outcome {h : RecHdr} {w : Walk} {s t : State}
    {top : WalkCmd → State → Except Raise State}
    {nested : WalkCmd → List (BitVec 4) → Bool → State → Except Raise (State × List (BitVec 4))}
    (htop : ∀ {t}, top w.cmd s = .ok t → TopOutcome h w.cmd s t)
    (hnest : ∀ {seen est r}, nested w.cmd seen est s = .ok r → NestedOutcome est seen r.2 s r.1)
    (ht : takeRecord h top nested w s = .ok t) :
    2 ≤ h.eventSize.toNat ∧ WalkFrame s t ∧ bytesLeft t ≤ bytesLeft s
      ∧ t.mapValid = s.mapValid ∧ t.nslots = s.nslots ∧ RecordOutcome h w s t := by
  obtain ⟨h2, ⟨hp, hb⟩ | ⟨remaining, seen, est, r, hp, hr, hb, rfl⟩⟩ := takeRecord_ok ht
  · obtain ⟨a, b, c, d, e, f, g⟩ := htop hb
    refine ⟨h2, a, b, c, d, ?_⟩
    rw [RecordOutcome, hp]
    exact ⟨e, f, g⟩
  · obtain ⟨a, b, c, d, e⟩ := hnest hb
    refine ⟨h2, a.trans ⟨rfl, fun _ _ => rfl⟩, b, c, d, ?_⟩
    rw [RecordOutcome, hp]
    exact ⟨hr, r.2, by cases est <;> exact e, rfl⟩

/-- Everything taking a record can do when it raises nothing. -/
theorem recordBody_ok {k : RecKind} {h : RecHdr} {w : Walk} {s t : State}
    (hb : recordBody k h w s = .ok t) :
    2 ≤ h.eventSize.toNat ∧ WalkFrame s t ∧ bytesLeft t ≤ bytesLeft s
      ∧ t.mapValid = s.mapValid ∧ t.nslots = s.nslots ∧ RecordOutcome h w s t := by
  have badTop : ∀ {t}, unexpectedTop w.cmd s = .ok t → TopOutcome h w.cmd s t := fun hu =>
    (unexpectedTop_not_ok hu).elim
  have badNested : ∀ {seen est r}, unexpectedNested w.cmd seen est s = .ok r →
      NestedOutcome est seen r.2 s r.1 := fun hu => (unexpectedNested_not_ok hu).elim
  cases k with
  | groupRunBegin => exact takeRecord_outcome skipTop_ok badNested hb
  | groupRunEnd => exact takeRecord_outcome skipTop_ok badNested hb
  | groupData => exact takeRecord_outcome enterGroup_ok badNested hb
  | depfet => exact takeRecord_outcome badTop dataNested_ok hb
  | depfet128 => exact takeRecord_outcome badTop dataNested_ok hb
  | depfetDcd => exact takeRecord_outcome badTop dataNested_ok hb
  | bat => exact takeRecord_outcome badTop skipNested_ok hb
  | tpll => exact takeRecord_outcome badTop skipNested_ok hb
  | unknown => exact takeRecord_outcome badTop skipNested_ok hb
  | tlu => exact takeRecord_outcome badTop skipNested_ok hb
  | info => exact takeRecord_outcome infoTop_ok infoNested_ok hb
  | other => exact takeRecord_outcome badTop skipNested_ok hb

/-! ### The walk -/

/-- What a group's close that raises nothing has done. -/
theorem closeGroup_ok {c : WalkCmd} {seen : List (BitVec 4)} {est : Bool} {s t : State}
    (h : closeGroup c seen est s = .ok t) :
    t = eventDone c
      (if est then { s with mapValid := true, nslots := s.nmod * (1 + s.tLatch.toNat) } else s) := by
  unfold closeGroup at h
  cases est with
  | true => simpa using h.symm
  | false =>
    simp only [Bool.false_eq_true, if_false] at h
    split at h
    · cases h
    · simpa using h.symm

/-- Where an event's delivery leaves the walk: ended, or at the top level with one more skipped. -/
theorem eventDone_walk (c : WalkCmd) (s : State) :
    (eventDone c s).walk = none
      ∨ ∃ n k, c = .skip n k ∧ k + 1 < n ∧ (eventDone c s).walk = some ⟨.skip n (k + 1), .top⟩ := by
  cases c with
  | next => exact .inl rfl
  | skip n k =>
    by_cases h : k + 1 < n
    · exact .inr ⟨n, k, rfl, h, by simp [eventDone, h]⟩
    · exact .inl (by simp [eventDone, h])

theorem eventDone_frame (c : WalkCmd) (s : State) :
    eventDone c s = { s with
      fsm := (eventDone c s).fsm, eventCount := (eventDone c s).eventCount
      resN0 := (eventDone c s).resN0, resN1 := (eventDone c s).resN1
      resN2 := (eventDone c s).resN2, busy := (eventDone c s).busy
      walk := (eventDone c s).walk } := by
  cases c with
  | next => rfl
  | skip n k =>
    simp only [eventDone]
    split <;> rfl

/-- Everything one action of the walk can do when it raises nothing. -/
theorem walkStep_cases {w : Walk} {s t : State} (h : walkStep w s = .ok t) :
    (∃ seen est, w.place = .group 0 seen est ∧ closeGroup w.cmd seen est s = .ok t)
      ∨ (w.place = .top ∧ ∃ u, readHeader s = (u, false) ∧ t = walkEnd w.cmd u)
      ∨ ∃ u k hd, readHeader s = (u, true) ∧ decodeRecord u.hdr0 u.hdr1 = .ok (k, hd)
          ∧ recordBody k hd w u = .ok t := by
  -- the fetch of a record
  have fetch : ∀ {f : Fetched}, fetchRecord w s = f → walkStep w s = (match f with
      | .moved s' => .ok s'
      | .faulted r => .error r
      | .record k h s' => recordBody k h w s') := by
    rintro f rfl
    rfl
  have read : ∀ p, w.place = p → (∀ seen est, p ≠ .group 0 seen est) →
      (∀ seen est, p ≠ .group 1 seen est) →
      (w.place = .top ∧ ∃ u, readHeader s = (u, false) ∧ t = walkEnd w.cmd u)
      ∨ ∃ u k hd, readHeader s = (u, true) ∧ decodeRecord u.hdr0 u.hdr1 = .ok (k, hd)
          ∧ recordBody k hd w u = .ok t := by
    intro p hp h0 h1
    rw [fetch rfl, fetchRecord] at h
    rcases hr : readHeader s with ⟨u, b⟩
    cases b with
    | true =>
      refine .inr ⟨u, ?_⟩
      cases hd : decodeRecord u.hdr0 u.hdr1 with
      | error e =>
        cases p with
        | top => simp [hp, hr, hd] at h
        | group remaining seen est =>
          match remaining, h0 seen est, h1 seen est with
          | n + 2, _, _ => simp [hp, hr, hd] at h
          | 0, h0, _ => exact absurd rfl h0
          | 1, _, h1 => exact absurd rfl h1
      | ok kh =>
        obtain ⟨k, hdr⟩ := kh
        refine ⟨k, hdr, rfl, rfl, ?_⟩
        cases p with
        | top => simpa [hp, hr, hd] using h
        | group remaining seen est =>
          match remaining, h0 seen est, h1 seen est with
          | n + 2, _, _ => simpa [hp, hr, hd] using h
          | 0, h0, _ => exact absurd rfl h0
          | 1, _, h1 => exact absurd rfl h1
    | false =>
      cases p with
      | top => exact .inl ⟨hp, u, rfl, by simpa [hp, hr] using h.symm⟩
      | group remaining seen est =>
        match remaining, h0 seen est, h1 seen est with
        | n + 2, _, _ => simp [hp, hr] at h
        | 0, h0, _ => exact absurd rfl h0
        | 1, _, h1 => exact absurd rfl h1
  cases hp : w.place with
  | top =>
    rcases read _ hp (by simp) (by simp) with h | h
    · exact .inr (.inl ⟨rfl, h.2⟩)
    · exact .inr (.inr h)
  | group remaining seen est =>
    match remaining with
    | 0 =>
      refine .inl ⟨seen, est, rfl, ?_⟩
      rw [fetch rfl, fetchRecord] at h
      simp only [hp] at h
      cases hc : closeGroup w.cmd seen est s with
      | error r => simp [hc] at h
      | ok u => simp only [hc] at h; rw [Except.ok.inj h]
    | 1 => rw [fetch rfl, fetchRecord] at h; simp [hp] at h
    | n + 2 =>
      rcases read _ hp (by simp) (by simp) with h | h
      · rw [hp] at h; cases h.1
      · exact .inr (.inr h)

/-- What a walk has still to do, in actions: bytes to read, and a group to close. -/
def walkMeasure (s : State) : Nat :=
  bytesLeft s + (match s.walk with
    | some ⟨_, .group _ _ _⟩ => 1
    | _ => 0)

/-- A header read leaves everything but the cursor, HDR0, HDR1 and EOI. -/
theorem readHeader_frame {s t : State} {b : Bool} (h : readHeader s = (t, b)) :
    t = { s with curSeg := t.curSeg, off := t.off, hdr0 := t.hdr0, hdr1 := t.hdr1, eoi := t.eoi } := by
  rcases readHeader_cases h with ⟨-, j, g, -, -, -, rfl⟩ | ⟨-, -, rfl⟩ <;> rfl

/-- A fetched record is one whose header was read. -/
theorem fetchRecord_record {w : Walk} {s t : State} {k : RecKind} {h : RecHdr}
    (hf : fetchRecord w s = .record k h t) : readHeader s = (t, true) := by
  unfold fetchRecord at hf
  split at hf
  · split at hf <;> cases hf
  · cases hf
  · split at hf
    · split at hf <;> cases hf
    · split at hf
      · cases hf; assumption
      · cases hf

/-- A fault after a header read leaves what one before it leaves: the items the read writes are among
those that are forgotten. -/
theorem walkFault_readHeader {s t : State} {b : Bool} (h : readHeader s = (t, b)) (c : WalkCmd)
    (r : Raise) : walkFault c r t = walkFault c r s := by
  rw [readHeader_frame h]
  rfl

/-- An action of the walk that does not end it brings it nearer to its end. -/
theorem walkStep_progress {w : Walk} {s t : State} (hw : s.walk = some w)
    (h : walkStep w s = .ok t) : t.walk = none ∨ walkMeasure t < walkMeasure s := by
  rcases walkStep_cases h with ⟨seen, est, hp, hc⟩ | ⟨hp, u, hu, rfl⟩ | ⟨u, k, hd, hu, -, hb⟩
  · have ht := closeGroup_ok hc
    obtain ⟨c, p⟩ := w
    simp only at hp ht
    subst hp
    rcases eventDone_walk c (if est then
      { s with mapValid := true, nslots := s.nmod * (1 + s.tLatch.toNat) } else s) with h | ⟨n, k, -, -, h⟩
    · exact .inl (by rw [ht]; exact h)
    · refine .inr ?_
      have hb : bytesLeft t = bytesLeft s := by
        rw [ht]
        unfold bytesLeft
        rw [eventDone_frame]
        cases est <;> rfl
      have : t.walk = some ⟨.skip n (k + 1), .top⟩ := by rw [ht]; exact h
      simp only [walkMeasure, hb, this, hw]
      omega
  · refine .inl ?_
    cases w.cmd <;> rfl
  · have h8 := readHeader_bytesLeft hu
    have hf := readHeader_frame hu
    obtain ⟨h2, -, hl, -, -, ho⟩ := recordBody_ok hb
    have key : ∀ n m, n ≤ 1 → bytesLeft t + n < bytesLeft s + m := fun n m hn => by omega
    refine .inr ?_
    simp only [walkMeasure]
    apply key
    split <;> omega

/-- A walk given more steps than it has still to do does not run out of them. -/
theorem walkRun_bound (fuel : Nat) (s : State) (h : walkMeasure s + 1 < fuel) :
    walkRun fuel s ≠ none := by
  induction fuel generalizing s with
  | zero => omega
  | succ fuel ih =>
    unfold walkRun
    cases hw : s.walk with
    | none => simp
    | some w =>
      simp only
      cases hs : walkStep w s with
      | error r => simp
      | ok t =>
        simp only
        rcases walkStep_progress hw hs with hn | hm
        · cases fuel with
          | zero => omega
          | succ fuel => simp [walkRun, hn]
        · exact ih t (by omega)

/-- The walk of a command runs to its end: it is done or raises a fault (70_reset_and_hazards.md
R841). -/
theorem runWalk_next (c : WalkCmd) (s : State) : ∃ t, runWalk c s = .next t := by
  have hb := walkRun_bound (walkBound s) (setPlace c .top { s with fsm := .waitGroup }) (by
    have := bytesLeft_le s
    have h0 : bytesLeft (setPlace c .top { s with fsm := .waitGroup }) = bytesLeft s := rfl
    simp only [walkMeasure, walkBound, h0, setPlace_walk]
    omega)
  unfold runWalk
  cases hr : walkRun (walkBound s) (setPlace c .top { s with fsm := .waitGroup }) with
  | some t => exact ⟨t, rfl⟩
  | none => exact absurd hr hb

/-- How a walk ends: its command is done, or a fault struck. A property that every action of the walk
keeps holds there. -/
theorem walkRun_induct (P : State → Prop) (fuel : Nat) (s t : State)
    (step : ∀ w u v, P u → u.walk = some w → walkStep w u = .ok v → P v) (h0 : P s)
    (h : walkRun fuel s = some t) :
    (P t ∧ t.walk = none)
      ∨ ∃ u w r, P u ∧ u.walk = some w ∧ walkStep w u = .error r ∧ t = walkFault w.cmd r u := by
  induction fuel generalizing s with
  | zero => cases h
  | succ fuel ih =>
    unfold walkRun at h
    cases hw : s.walk with
    | none => rw [hw] at h; cases h; exact .inl ⟨h0, hw⟩
    | some w =>
      rw [hw] at h
      simp only at h
      cases hs : walkStep w s with
      | error r => rw [hs] at h; cases h; exact .inr ⟨s, w, r, h0, hw, hs, rfl⟩
      | ok u => rw [hs] at h; exact ih u (step w s u h0 hw hs) h

/-- A command that walks answers the end of its walk. -/
theorem runWalk_eq {c : WalkCmd} {s t : State} (h : runWalk c s = .next t) :
    walkRun (walkBound s) (setPlace c .top { s with fsm := .waitGroup }) = some t := by
  unfold runWalk at h
  split at h
  · rename_i u hu
    rw [hu, Host.Outcome.next.inj h]
  · cases h

/-- One action of a walk that has steps left. -/
theorem walkRun_step {fuel : Nat} {s t : State} {w : Walk} (hw : s.walk = some w)
    (h : walkStep w s = .ok t) : walkRun (fuel + 1) s = walkRun fuel t := by
  simp [walkRun, hw, h]

/-- A walk whose command has ended. -/
theorem walkRun_done {fuel : Nat} {s : State} (hw : s.walk = none) :
    walkRun (fuel + 1) s = some s := by
  simp [walkRun, hw]

/-- A walk in which a fault strikes. -/
theorem walkRun_fault {fuel : Nat} {s : State} {w : Walk} {r : Raise} (hw : s.walk = some w)
    (h : walkStep w s = .error r) : walkRun (fuel + 1) s = some (walkFault w.cmd r s) := by
  simp [walkRun, hw, h]

/-- A walk at the top level takes the record whose header it reads. -/
theorem walkStep_top {w : Walk} {s u : State} {k : RecKind} {h : RecHdr} (hp : w.place = .top)
    (hr : readHeader s = (u, true)) (hd : decodeRecord u.hdr0 u.hdr1 = .ok (k, h)) :
    walkStep w s = recordBody k h w u := by
  simp [walkStep, fetchRecord, hp, hr, hd]

/-- A walk at the top level at the end of the input. -/
theorem walkStep_top_end {w : Walk} {s u : State} (hp : w.place = .top)
    (hr : readHeader s = (u, false)) : walkStep w s = .ok (walkEnd w.cmd u) := by
  simp [walkStep, fetchRecord, hp, hr]

/-- A walk inside a group with words left takes the record whose header it reads. -/
theorem walkStep_group {w : Walk} {s u : State} {k : RecKind} {h : RecHdr} {remaining : Nat}
    {seen : List (BitVec 4)} {est : Bool} (hp : w.place = .group (remaining + 2) seen est)
    (hr : readHeader s = (u, true)) (hd : decodeRecord u.hdr0 u.hdr1 = .ok (k, h)) :
    walkStep w s = recordBody k h w u := by
  simp [walkStep, fetchRecord, hp, hr, hd]

/-- A walk inside a group with no words left closes it. -/
theorem walkStep_close {w : Walk} {s : State} {seen : List (BitVec 4)} {est : Bool}
    (hp : w.place = .group 0 seen est) : walkStep w s = closeGroup w.cmd seen est s := by
  simp only [walkStep, fetchRecord, hp]
  cases closeGroup w.cmd seen est s <;> rfl

/-- A header read does not see the fields it neither reads nor writes. -/
theorem readHeader_congr {s s' u : State} {b : Bool} (h : readHeader s = (u, b))
    (hq : s'.segq = s.segq) (hc : s'.curSeg = s.curSeg) (ho : s'.off = s.off)
    (hm : s'.inMem = s.inMem) (h0 : s'.hdr0 = s.hdr0) (h1 : s'.hdr1 = s.hdr1) :
    readHeader s' = ({ s' with
      curSeg := u.curSeg, off := u.off, hdr0 := u.hdr0, hdr1 := u.hdr1, eoi := u.eoi }, b) := by
  unfold readHeader at h ⊢
  rw [hq, hc, ho]
  rcases hs : scanHeader (s.segq.drop s.curSeg) s.curSeg s.off.toNat with ⟨cur, off, g⟩
  rw [hs] at h
  cases g with
  | none => cases h; rw [← h0, ← h1]
  | some g => cases h; rw [hm]

/-- A record always answers a next state. -/
theorem runRecord_next (body : Walk → State → Except Raise State) (s : State) :
    ∃ t, runRecord body s = .next t := by
  unfold runRecord
  split
  · exact ⟨_, rfl⟩
  · split <;> exact ⟨_, rfl⟩

end Sys2Proof.Machine
end

