-- ==== Sys2Proof/Laws/CommonMode.lean ====
section
/-! SUPPORT. What the common-mode correction does: the blocks partition the matrix, a block changes
its own pixels only, masked pixels stay 0, the correction is a selected value. -/

namespace Sys2Proof.Machine

open Sys2Proof

/-! ### The partition (46_commonmode.md R651) -/

/-- The block a pixel lies in. -/
def cmBlockOf (s : State) (g : CmStage) (nX nY k : Nat) : Nat :=
  let u := match g with | .row => k % nY | .col => k / nY
  let v := match g with | .row => k / nY | .col => k % nY
  u / cmSize s g * cmDiv s g + v / ((cmExtents g nX nY).2 / cmDiv s g)

theorem div_eq_iff_range {u n b : Nat} (hn : 0 < n) : u / n = b ↔ b * n ≤ u ∧ u < (b + 1) * n := by
  constructor
  · rintro rfl
    refine ⟨Nat.div_mul_le_self u n, ?_⟩
    rw [Nat.add_mul, Nat.one_mul]
    have := Nat.div_add_mod' u n
    have := Nat.mod_lt u hn
    omega
  · rintro ⟨h1, h2⟩
    exact Nat.div_eq_of_lt_le h1 h2

theorem cmLegal_iff (s : State) (g : CmStage) (nX nY : Nat) :
    cmLegal s g nX nY = true ↔ 1 ≤ cmDiv s g ∧ (cmExtents g nX nY).1 % cmSize s g = 0
      ∧ (cmExtents g nX nY).2 % cmDiv s g = 0 := by
  simp [cmLegal, and_assoc]

theorem cmEnabled_iff (s : State) (g : CmStage) : cmEnabled s g = true ↔ 0 < cmSize s g := by
  simp [cmEnabled, Nat.pos_iff_ne_zero]

/-- A pixel lies in the block `cmBlockOf` gives and in no other. -/
theorem cmInBlock_iff {s : State} {g : CmStage} {nX nY j k : Nat} (he : cmEnabled s g = true)
    (hl : cmLegal s g nX nY = true) (hk : k < nX * nY) :
    cmInBlock s g nX nY j k = true ↔ j = cmBlockOf s g nX nY k := by
  obtain ⟨hd, -, hdiv⟩ := (cmLegal_iff s g nX nY).1 hl
  have hs := (cmEnabled_iff s g).1 he
  have hY : 0 < nY := Nat.pos_of_ne_zero fun h => by simp [h] at hk
  have hx : k / nY < nX := (Nat.div_lt_iff_lt_mul hY).2 hk
  have hy : k % nY < nY := Nat.mod_lt _ hY
  -- the coordinate the ranges divide, and the width of a range
  have hv : ∀ v, v < (cmExtents g nX nY).2 →
      0 < (cmExtents g nX nY).2 / cmDiv s g
        ∧ v / ((cmExtents g nX nY).2 / cmDiv s g) < cmDiv s g := by
    intro v hv
    have hdvd := Nat.div_mul_cancel (Nat.dvd_of_mod_eq_zero hdiv)
    have hpos : 0 < (cmExtents g nX nY).2 / cmDiv s g := Nat.pos_of_ne_zero fun h0 => by
      rw [h0] at hdvd; omega
    refine ⟨hpos, (Nat.div_lt_iff_lt_mul hpos).2 ?_⟩
    rw [Nat.mul_comm, hdvd]
    exact hv
  have key : ∀ u v, v < (cmExtents g nX nY).2 →
      ((j / cmDiv s g * cmSize s g ≤ u ∧ u < (j / cmDiv s g + 1) * cmSize s g)
        ∧ (j % cmDiv s g * ((cmExtents g nX nY).2 / cmDiv s g) ≤ v
          ∧ v < (j % cmDiv s g + 1) * ((cmExtents g nX nY).2 / cmDiv s g))
        ↔ j = u / cmSize s g * cmDiv s g + v / ((cmExtents g nX nY).2 / cmDiv s g)) := by
    intro u v hvlt
    obtain ⟨hw, hr⟩ := hv v hvlt
    rw [← div_eq_iff_range hs, ← div_eq_iff_range hw]
    constructor
    · rintro ⟨h1, h2⟩
      rw [h1, h2]
      exact (Nat.div_add_mod' j _).symm
    · intro h
      have e1 : j / cmDiv s g = u / cmSize s g := by
        rw [h, Nat.mul_comm, Nat.mul_add_div (by omega), Nat.div_eq_of_lt hr, Nat.add_zero]
      have e2 : j % cmDiv s g = v / ((cmExtents g nX nY).2 / cmDiv s g) := by
        rw [h, Nat.mul_comm, Nat.mul_add_mod, Nat.mod_eq_of_lt hr]
      exact ⟨e1.symm, e2.symm⟩
  cases g with
  | row => simpa [cmInBlock, cmBlockOf, and_assoc] using key (k % nY) (k / nY) hx
  | col => simpa [cmInBlock, cmBlockOf, and_assoc] using key (k / nY) (k % nY) hy

/-- Every pixel's block is one of the stage's blocks. -/
theorem cmBlockOf_lt {s : State} {g : CmStage} {nX nY k : Nat} (he : cmEnabled s g = true)
    (hl : cmLegal s g nX nY = true) (hk : k < nX * nY) :
    cmBlockOf s g nX nY k < cmBlockCount s g nX nY := by
  obtain ⟨hd, hmod, hdiv⟩ := (cmLegal_iff s g nX nY).1 hl
  have hs := (cmEnabled_iff s g).1 he
  have hY : 0 < nY := Nat.pos_of_ne_zero fun h => by simp [h] at hk
  have hx : k / nY < nX := (Nat.div_lt_iff_lt_mul hY).2 hk
  have hy : k % nY < nY := Nat.mod_lt _ hY
  have key : ∀ u v, u < (cmExtents g nX nY).1 → v < (cmExtents g nX nY).2 →
      u / cmSize s g * cmDiv s g + v / ((cmExtents g nX nY).2 / cmDiv s g)
        < (cmExtents g nX nY).1 / cmSize s g * cmDiv s g := by
    intro u v hu hv
    have hdvd := Nat.div_mul_cancel (Nat.dvd_of_mod_eq_zero hdiv)
    have hpos : 0 < (cmExtents g nX nY).2 / cmDiv s g := Nat.pos_of_ne_zero fun h0 => by
      rw [h0] at hdvd; omega
    have hr : v / ((cmExtents g nX nY).2 / cmDiv s g) < cmDiv s g := by
      rw [Nat.div_lt_iff_lt_mul hpos, Nat.mul_comm, hdvd]
      exact hv
    have hb : u / cmSize s g < (cmExtents g nX nY).1 / cmSize s g := by
      rw [Nat.div_lt_iff_lt_mul hs, Nat.div_mul_cancel (Nat.dvd_of_mod_eq_zero hmod)]
      exact hu
    calc _ < (u / cmSize s g + 1) * cmDiv s g := by rw [Nat.add_mul]; omega
      _ ≤ _ := Nat.mul_le_mul_right _ hb
  cases g with
  | row => exact key (k % nY) (k / nY) hy hx
  | col => exact key (k / nY) (k % nY) hx hy

/-! ### One block -/

@[simp] theorem cmCorrect_length (s : State) (g : CmStage) (nX nY j : Nat) (mask : Option Mat)
    (corr : F64) (data : List F64) :
    (cmCorrect s g nX nY j mask corr data).length = data.length := by simp [cmCorrect]

/-- A pixel after one block is corrected. -/
theorem cmCorrect_getD (s : State) (g : CmStage) (nX nY j : Nat) (mask : Option Mat) (corr : F64)
    (data : List F64) {k : Nat} (hk : k < data.length) :
    (cmCorrect s g nX nY j mask corr data).getD k fZero
      = if cmInBlock s g nX nY j k then
          if maskedAt mask k then fZero
          else fSub (nanAt s (2 + cmNumber g) k) (data.getD k fZero) corr
        else data.getD k fZero := by
  simp [cmCorrect, hk]

/-- The selection of a block, by flat index. -/
theorem cmSelection_eq (s : State) (g : CmStage) (nX nY j : Nat) (mask noise : Option Mat)
    (data : List F64) :
    cmSelection s g nX nY j mask noise data
      = ((List.range data.length).filter fun k =>
          cmInBlock s g nX nY j k && !maskedAt mask k
            && !cmExcluded s g noise k (data.getD k fZero)).map fun k => data.getD k fZero := by
  have hz : data.zipIdx = (List.range data.length).map fun k => (data.getD k fZero, k) := by
    apply List.ext_getElem
    · simp
    · intro i h1 h2
      simp at h1
      simp [h1]
  unfold cmSelection
  rw [hz, List.filter_map, List.map_map]
  rfl

/-- A block's selection depends on the block's own pixels only. -/
theorem cmSelection_congr {s : State} {g : CmStage} {nX nY j : Nat} {mask noise : Option Mat}
    {data data' : List F64} (hl : data.length = data'.length)
    (h : ∀ k, k < data.length → cmInBlock s g nX nY j k = true →
      data.getD k fZero = data'.getD k fZero) :
    cmSelection s g nX nY j mask noise data = cmSelection s g nX nY j mask noise data' := by
  rw [cmSelection_eq, cmSelection_eq, ← hl]
  have hf : (List.range data.length).filter (fun k =>
        cmInBlock s g nX nY j k && !maskedAt mask k
          && !cmExcluded s g noise k (data.getD k fZero))
      = (List.range data.length).filter fun k =>
        cmInBlock s g nX nY j k && !maskedAt mask k
          && !cmExcluded s g noise k (data'.getD k fZero) := by
    apply List.filter_congr
    intro k hk
    cases hb : cmInBlock s g nX nY j k with
    | false => simp
    | true => rw [h k (List.mem_range.1 hk) hb]
  rw [hf]
  apply List.map_congr_left
  intro k hk
  simp only [List.mem_filter, List.mem_range, Bool.and_eq_true] at hk
  exact h k hk.1 hk.2.1.1

/-- The sorted selection has the elements of the selection. -/
theorem sortAsc_perm (l : List F64) : (sortAsc l).Perm l := List.perm_insertionSort _ l

/-- The sorted selection rises. -/
theorem sortAsc_sorted (l : List F64) : (sortAsc l).Pairwise fun a b => fKey a ≤ fKey b :=
  List.pairwise_insertionSort _ l

/-- The correction of a selection that is not empty is one of the selected values. -/
theorem cmMedian_mem {sel : List F64} (h : sel ≠ []) : cmMedian sel ∈ sel := by
  have hl : sel.length / 2 < (sortAsc sel).length := by
    rw [(sortAsc_perm sel).length_eq]
    have := List.length_pos_iff.2 h
    omega
  unfold cmMedian
  rw [if_neg (by simpa using h), List.getD_eq_getElem _ _ hl]
  exact (sortAsc_perm sel).mem_iff.1 (List.getElem_mem hl)

/-! ### A stage -/

/-- What the blocks of a stage leave: as many pixels, one correction for each block. -/
theorem cmBlocks_length {s : State} {g : CmStage} {nX nY : Nat} {mask noise : Option Mat}
    {left j : Nat} {data data' corrs : List F64}
    (h : cmBlocks s g nX nY mask noise left j data = .ok (data', corrs)) :
    data'.length = data.length ∧ corrs.length = left := by
  induction left generalizing j data corrs with
  | zero => cases h; exact ⟨rfl, rfl⟩
  | succ left ih =>
    unfold cmBlocks at h
    simp only at h
    split at h
    · cases h
    · split at h
      · rename_i d c hc
        cases h
        obtain ⟨h1, h2⟩ := ih hc
        exact ⟨by simpa using h1, by simp [h2]⟩
      · cases h

/-- Masked pixels that hold 0 before the blocks of a stage hold 0 after them. -/
theorem cmBlocks_masked {s : State} {g : CmStage} {nX nY : Nat} {mask noise : Option Mat}
    {left j : Nat} {data data' corrs : List F64}
    (h : cmBlocks s g nX nY mask noise left j data = .ok (data', corrs)) {k : Nat}
    (hm : maskedAt mask k = true) (h0 : data.getD k fZero = fZero) : data'.getD k fZero = fZero := by
  induction left generalizing j data corrs with
  | zero => cases h; exact h0
  | succ left ih =>
    unfold cmBlocks at h
    simp only at h
    split at h
    · cases h
    · split at h
      · rename_i d c hc
        cases h
        refine ih hc ?_
        by_cases hk : k < data.length
        · rw [cmCorrect_getD _ _ _ _ _ _ _ _ hk, if_pos hm, h0, ite_self]
        · rw [List.getD_eq_default _ _ (by simpa using hk)]
      · cases h

/-- A pixel in none of the blocks keeps its value. -/
theorem cmBlocks_outside {s : State} {g : CmStage} {nX nY : Nat} {mask noise : Option Mat}
    {left j : Nat} {data data' corrs : List F64}
    (h : cmBlocks s g nX nY mask noise left j data = .ok (data', corrs)) {k : Nat}
    (hk : k < data.length)
    (hout : ∀ i, j ≤ i → i < j + left → cmInBlock s g nX nY i k = false) :
    data'.getD k fZero = data.getD k fZero := by
  induction left generalizing j data corrs with
  | zero => cases h; rfl
  | succ left ih =>
    unfold cmBlocks at h
    simp only at h
    split at h
    · cases h
    · split at h
      · rename_i d c hc
        cases h
        rw [ih hc (by simpa using hk) fun i h1 h2 => hout i (by omega) (by omega),
          cmCorrect_getD _ _ _ _ _ _ _ _ hk, hout j (le_refl _) (by omega)]
        simp
      · cases h

/-- The blocks of a stage, where each pixel lies in one block: every block's correction is the
median of its selection in the data before the stage, and is subtracted from the block's pixels. -/
theorem cmBlocks_spec {s : State} {g : CmStage} {nX nY : Nat} {mask noise : Option Mat}
    (he : cmEnabled s g = true) (hl : cmLegal s g nX nY = true) {left j : Nat}
    {data data' corrs : List F64} (hd : data.length = nX * nY)
    (h : cmBlocks s g nX nY mask noise left j data = .ok (data', corrs)) :
    (∀ i, i < left → corrs.getD i fZero = cmMedian (cmSelection s g nX nY (j + i) mask noise data))
      ∧ (∀ i, i < left → (cmSelection s g nX nY (j + i) mask noise data).any fIsNaN = false)
      ∧ ∀ k, k < nX * nY → j ≤ cmBlockOf s g nX nY k → cmBlockOf s g nX nY k < j + left →
          data'.getD k fZero
            = if maskedAt mask k then fZero
              else fSub (nanAt s (2 + cmNumber g) k) (data.getD k fZero)
                (cmMedian (cmSelection s g nX nY (cmBlockOf s g nX nY k) mask noise data)) := by
  induction left generalizing j data corrs with
  | zero => exact ⟨fun i hi => by omega, fun i hi => by omega, fun k _ h1 h2 => by omega⟩
  | succ left ih =>
    unfold cmBlocks at h
    simp only at h
    split at h
    · cases h
    rename_i hnan
    split at h
    · rename_i d c hc
      cases h
      -- a later block's selection does not see this block's correction
      have hsame : ∀ i, j < i → cmSelection s g nX nY i mask noise
            (cmCorrect s g nX nY j mask (cmMedian (cmSelection s g nX nY j mask noise data)) data)
          = cmSelection s g nX nY i mask noise data := by
        intro i hi
        refine cmSelection_congr (by simp) fun k hk hb => ?_
        rw [cmCorrect_length] at hk
        rw [cmCorrect_getD _ _ _ _ _ _ _ _ hk]
        have : cmInBlock s g nX nY j k ≠ true := fun hj => by
          have e1 := (cmInBlock_iff he hl (hd ▸ hk)).1 hb
          have e2 := (cmInBlock_iff he hl (hd ▸ hk)).1 hj
          omega
        rw [if_neg this]
      obtain ⟨h1, h2, h3⟩ := ih (by simpa using hd) hc
      refine ⟨fun i hi => ?_, fun i hi => ?_, fun k hk hlo hhi => ?_⟩
      · cases i with
        | zero => simp
        | succ i =>
          have := h1 i (by omega)
          rw [hsame _ (by omega)] at this
          simpa [Nat.add_assoc, Nat.add_comm 1 i] using this
      · cases i with
        | zero => simpa using hnan
        | succ i =>
          have := h2 i (by omega)
          rw [hsame _ (by omega)] at this
          simpa [Nat.add_assoc, Nat.add_comm 1 i] using this
      · by_cases hj : cmBlockOf s g nX nY k = j
        · have hin : cmInBlock s g nX nY j k = true := (cmInBlock_iff he hl hk).2 hj.symm
          rw [cmBlocks_outside hc (by simpa [hd] using hk) fun i h4 h5 => by
            rw [Bool.eq_false_iff]
            intro hb
            have := (cmInBlock_iff he hl hk).1 hb
            omega, cmCorrect_getD _ _ _ _ _ _ _ _ (by omega), if_pos hin, hj]
        · rw [h3 k hk (by omega) (by omega), hsame _ (by omega),
            cmCorrect_getD _ _ _ _ _ _ _ _ (by omega), if_neg (c := cmInBlock s g nX nY j k = true)]
          intro hb
          have := (cmInBlock_iff he hl hk).1 hb
          omega
    · cases h

/-- The blocks of a stage go on where no selection holds a NaN. -/
theorem cmBlocks_ok {s : State} {g : CmStage} {nX nY : Nat} {mask noise : Option Mat}
    (he : cmEnabled s g = true) (hl : cmLegal s g nX nY = true) {left j : Nat} {data : List F64}
    (hd : data.length = nX * nY)
    (h : ∀ i, i < left → (cmSelection s g nX nY (j + i) mask noise data).any fIsNaN = false) :
    ∃ r, cmBlocks s g nX nY mask noise left j data = .ok r := by
  induction left generalizing j data with
  | zero => exact ⟨_, rfl⟩
  | succ left ih =>
    unfold cmBlocks
    simp only
    have h0 : (cmSelection s g nX nY j mask noise data).any fIsNaN = false := by
      simpa using h 0 (by omega)
    rw [if_neg (by rw [h0]; decide)]
    obtain ⟨r, hr⟩ := ih (j := j + 1)
      (data := cmCorrect s g nX nY j mask (cmMedian (cmSelection s g nX nY j mask noise data)) data)
      (by simpa using hd) (fun i hi => by
        have := h (i + 1) (by omega)
        rw [show j + 1 + i = j + (i + 1) by omega]
        rw [← this]
        congr 1
        refine cmSelection_congr (by simp) fun k hk hb => ?_
        rw [cmCorrect_length] at hk
        rw [cmCorrect_getD _ _ _ _ _ _ _ _ hk, if_neg]
        intro hj
        have e1 := (cmInBlock_iff he hl (hd ▸ hk)).1 hb
        have e2 := (cmInBlock_iff he hl (hd ▸ hk)).1 hj
        omega)
    rw [hr]
    exact ⟨_, rfl⟩

theorem cmRunStage_length {s : State} {g : CmStage} {nX nY : Nat} {mask noise : Option Mat}
    {data data' corrs : List F64}
    (h : cmRunStage s g nX nY mask noise data = .ok (data', corrs)) :
    data'.length = data.length := by
  unfold cmRunStage at h
  split at h
  · exact (cmBlocks_length h).1
  · cases h; rfl

theorem cmRunStage_masked {s : State} {g : CmStage} {nX nY : Nat} {mask noise : Option Mat}
    {data data' corrs : List F64}
    (h : cmRunStage s g nX nY mask noise data = .ok (data', corrs)) {k : Nat}
    (hm : maskedAt mask k = true) (h0 : data.getD k fZero = fZero) : data'.getD k fZero = fZero := by
  unfold cmRunStage at h
  split at h
  · exact cmBlocks_masked h hm h0
  · cases h; exact h0

/-! ### The command -/

@[simp] theorem cmZeroMasked_length (mask : Option Mat) (data : List F64) :
    (cmZeroMasked mask data).length = data.length := by simp [cmZeroMasked]

theorem cmZeroMasked_getD (mask : Option Mat) (data : List F64) (k : Nat) :
    (cmZeroMasked mask data).getD k fZero
      = if maskedAt mask k then fZero else data.getD k fZero := by
  by_cases hk : k < data.length
  · simp [cmZeroMasked, hk]
  · rw [List.getD_eq_default _ _ (by simpa using hk), List.getD_eq_default _ _ (by omega)]
    split <;> rfl

theorem cmRun_length {s : State} {nX nY : Nat} {mask noise : Option Mat}
    {data d rows cols : List F64} (h : cmRun s nX nY mask noise data = .ok (d, rows, cols)) :
    d.length = data.length := by
  unfold cmRun at h
  split at h
  · cases h
  · rename_i d1 r1 h1
    split at h
    · cases h
    · rename_i d2 r2 h2
      cases h
      rw [cmRunStage_length h2, cmRunStage_length h1, cmZeroMasked_length]

/-- Masked pixels hold +0.0 after the two stages (46_commonmode.md R663). -/
theorem cmRun_masked {s : State} {nX nY : Nat} {mask noise : Option Mat}
    {data d rows cols : List F64} (h : cmRun s nX nY mask noise data = .ok (d, rows, cols)) {k : Nat}
    (hm : maskedAt mask k = true) : d.getD k fZero = fZero := by
  unfold cmRun at h
  split at h
  · cases h
  · rename_i d1 r1 h1
    split at h
    · cases h
    · rename_i d2 r2 h2
      cases h
      refine cmRunStage_masked h2 hm (cmRunStage_masked h1 hm ?_)
      rw [cmZeroMasked_getD, if_pos hm]

/-! ### The recorded corrections (R657, 10_state.md R170, log 14) -/

/-- A legal stage on a matrix with a pixel has at most as many blocks as pixels. -/
theorem cmBlockCount_le {s : State} {g : CmStage} {nX nY : Nat}
    (hl : cmLegal s g nX nY = true) (hn : 0 < nX * nY) : cmBlockCount s g nX nY ≤ nX * nY := by
  obtain ⟨-, -, hdiv⟩ := (cmLegal_iff s g nX nY).1 hl
  have hX : 0 < nX := Nat.pos_of_mul_pos_right hn
  have hY : 0 < nY := Nat.pos_of_mul_pos_left hn
  have he : 0 < (cmExtents g nX nY).2 := by cases g <;> assumption
  calc cmBlockCount s g nX nY ≤ (cmExtents g nX nY).1 * (cmExtents g nX nY).2 :=
        Nat.mul_le_mul (Nat.div_le_self _ _) (Nat.le_of_dvd he (Nat.dvd_of_mod_eq_zero hdiv))
    _ = nX * nY := by cases g <;> simp [cmExtents, Nat.mul_comm]

/-- Every correction of a matrix without pixels is +0.0 (R654). -/
theorem cmRunStage_empty {s : State} {g : CmStage} {nX nY : Nat} {mask noise : Option Mat}
    {data' corrs : List F64} (h : cmRunStage s g nX nY mask noise [] = .ok (data', corrs)) :
    data' = [] ∧ ∀ v ∈ corrs, v = fZero := by
  have key : ∀ left j data' corrs,
      cmBlocks s g nX nY mask noise left j [] = .ok (data', corrs) →
        data' = [] ∧ ∀ v ∈ corrs, v = fZero := by
    intro left
    induction left with
    | zero => rintro j _ _ ⟨⟩; simp
    | succ left ih =>
      intro j data' corrs h
      unfold cmBlocks at h
      simp only [cmSelection, cmCorrect, List.zipIdx_nil, List.filter_nil, List.map_nil,
        List.any_nil, Bool.false_eq_true, if_false, List.mapIdx_nil] at h
      split at h
      · rename_i hc
        cases h
        obtain ⟨h1, h2⟩ := ih _ _ _ hc
        exact ⟨h1, by simpa [cmMedian] using h2⟩
      · cases h
  unfold cmRunStage at h
  split at h
  · exact key _ _ _ _ h
  · cases h; simp

/-- What is known of CM_APPLY's operands once its checks have gone on. -/
theorem cmOperands_ok {a b c : BitVec 8} {s : State} {i : Nat} {mask noise : Option Mat}
    (h : cmOperands a b c s = .ok (i, mask, noise)) :
    i = a.toNat ∧ 0xB0 ≤ i ∧ i ≤ 0xB7
      ∧ (mask = if b = 0xFF then none else some (readMat s b.toNat))
      ∧ (noise = if c = 0xFF then none else some (readMat s c.toNat))
      ∧ (∀ m, mask = some m → sameDims m (readMat s i) = true)
      ∧ (∀ m, noise = some m → sameDims m (readMat s i) = true)
      ∧ ∀ g, cmEnabled s g = true → cmLegal s g (readMat s i).nX (readMat s i).nY = true := by
  unfold cmOperands at h
  obtain ⟨h1, h2, h⟩ := checkWork_ok h
  have fin : ∀ (j z : Option Nat),
      (if ¬((j.map (readMat s)).all fun q => sameDims q (readMat s a.toNat)) then
        raise .dimMismatch (pairInfo b a)
      else if ¬((z.map (readMat s)).all fun q => sameDims q (readMat s a.toNat)) then
        raise .dimMismatch (pairInfo c a)
      else if cmEnabled s .row && !cmLegal s .row (readMat s a.toNat).nX (readMat s a.toNat).nY then
        raise .config 0
      else if cmEnabled s .col && !cmLegal s .col (readMat s a.toNat).nX (readMat s a.toNat).nY then
        raise .config 1
      else (.ok (a.toNat, j.map (readMat s), z.map (readMat s)) :
        Except Raise (Nat × Option Mat × Option Mat))) = .ok (i, mask, noise) →
      i = a.toNat ∧ mask = j.map (readMat s) ∧ noise = z.map (readMat s)
        ∧ (∀ m, mask = some m → sameDims m (readMat s i) = true)
        ∧ (∀ m, noise = some m → sameDims m (readMat s i) = true)
        ∧ ∀ g, cmEnabled s g = true → cmLegal s g (readMat s i).nX (readMat s i).nY = true := by
    intro j z hf
    by_cases c1 : (j.map (readMat s)).all fun q => sameDims q (readMat s a.toNat)
    swap
    · simp [c1] at hf
    by_cases c2 : (z.map (readMat s)).all fun q => sameDims q (readMat s a.toNat)
    swap
    · simp [c1, c2] at hf
    rw [if_neg (by simpa using c1), if_neg (by simpa using c2)] at hf
    split at hf
    · cases hf
    rename_i c3
    split at hf
    · cases hf
    rename_i c4
    cases hf
    refine ⟨rfl, rfl, rfl, fun m hm => ?_, fun m hm => ?_, fun g hg => ?_⟩
    · rw [hm] at c1; simpa using c1
    · rw [hm] at c2; simpa using c2
    · cases g with
      | row => simpa [hg] using c3
      | col => simpa [hg] using c4
  rcases checkMatOrNone_ok h with ⟨hb, h⟩ | ⟨hb, h⟩ <;>
    rcases checkMatOrNone_ok h with ⟨hc, h⟩ | ⟨hc, h⟩ <;>
    obtain ⟨rfl, hm, hn, hm', hn', hg⟩ := fin _ _ h
  all_goals
    refine ⟨rfl, h1, h2, ?_, ?_, hm', hn', hg⟩
    · first
        | rw [hm, if_pos hb]; rfl
        | (rw [hm, if_neg (by rintro rfl; exact absurd hb (by decide))]; rfl)
    · first
        | rw [hn, if_pos hc]; rfl
        | (rw [hn, if_neg (by rintro rfl; exact absurd hc (by decide))]; rfl)

/-- Everything CM_APPLY can do. -/
theorem execCmApply_cases {a b c : BitVec 8} {s t : State} (h : execCmApply a b c s = .next t) :
    (s.fault = true ∧ t = finish s)
      ∨ (s.fault = false ∧ ∃ r, cmOperands a b c s = .error r ∧ t = faultEntry r s)
      ∨ (s.fault = false ∧ ∃ i mask noise r, cmOperands a b c s = .ok (i, mask, noise)
          ∧ cmRun s (readMat s i).nX (readMat s i).nY mask noise (readMat s i).data = .error r
          ∧ t = faultEntry r (forgetCm i s))
      ∨ (s.fault = false ∧ ∃ i mask noise d rows cols, cmOperands a b c s = .ok (i, mask, noise)
          ∧ cmRun s (readMat s i).nX (readMat s i).nY mask noise (readMat s i).data
              = .ok (d, rows, cols)
          ∧ t = finish (draw { writeMat i { readMat s i with data := d } s with
              corrRow := rows, corrCol := cols })) := by
  unfold execCmApply at h
  cases hf : s.fault with
  | true => rw [hf] at h; exact .inl ⟨rfl, (Host.Outcome.next.inj h).symm⟩
  | false =>
    rw [hf] at h
    simp only [Bool.false_eq_true, if_false] at h
    cases ho : cmOperands a b c s with
    | error r => rw [ho] at h; exact .inr (.inl ⟨rfl, r, rfl, (Host.Outcome.next.inj h).symm⟩)
    | ok o =>
      obtain ⟨i, mask, noise⟩ := o
      rw [ho] at h
      simp only at h
      cases hr : cmRun s (readMat s i).nX (readMat s i).nY mask noise (readMat s i).data with
      | error r =>
        rw [hr] at h
        exact .inr (.inr (.inl ⟨rfl, i, mask, noise, r, rfl, hr, (Host.Outcome.next.inj h).symm⟩))
      | ok o =>
        obtain ⟨d, rows, cols⟩ := o
        rw [hr] at h
        exact .inr (.inr (.inr ⟨rfl, i, mask, noise, d, rows, cols, rfl, hr,
          (Host.Outcome.next.inj h).symm⟩))

end Sys2Proof.Machine
end

