-- ==== Sys2Proof/Laws/Memory.lean ====
section
/-! SUPPORT. The laws of the input memory: a read after a write, and the canonical form kept. -/

namespace Sys2Proof.Machine

open Sys2Proof

@[simp] theorem memRead_nil (a : Nat) : memRead [] a = inDefault := rfl

theorem memRead_cons (a' : Nat) (b : Byte) (m : Memory) (a : Nat) :
    memRead ((a', b) :: m) a = if a' = a then b else memRead m a := rfl

/-- An address below every listed one reads as an unlisted address. -/
theorem memRead_below (m : Memory) (a : Nat) (h : ∀ p ∈ m, a < p.1) : memRead m a = inDefault := by
  induction m with
  | nil => rfl
  | cons p m ih =>
    have hp : a < p.1 := h p (List.mem_cons_self ..)
    rw [show (p :: m) = (p.1, p.2) :: m from rfl, memRead_cons, if_neg (by omega)]
    exact ih fun q hq => h q (List.mem_cons_of_mem _ hq)

/-- The canonical form as a proposition: addresses rising and below 2^32, no default entry. -/
theorem wf_iff (m : Memory) :
    m.wf = true ↔ m.Pairwise (fun p q => p.1 < q.1) ∧ ∀ p ∈ m, p.1 < 2 ^ 32 ∧ p.2 ≠ inDefault := by
  simp [Memory.wf]

theorem wf_tail {p : Host.Cell} {m : Memory} (h : Memory.wf (p :: m) = true) : m.wf = true := by
  rw [wf_iff] at h ⊢
  exact ⟨(List.pairwise_cons.1 h.1).2, fun q hq => h.2 q (List.mem_cons_of_mem _ hq)⟩

/-- A read after a write: the byte written at its address, every other byte as before. The memory
need not be canonical below the address written; it must be rising. -/
theorem memRead_memWrite (m : Memory) (h : m.Pairwise fun p q => p.1 < q.1) (a : Nat) (b : Byte)
    (x : Nat) : memRead (memWrite m a b) x = if x = a then b else memRead m x := by
  induction m with
  | nil =>
    unfold memWrite
    split_ifs with hb hx hx
    · simp [hb]
    · rfl
    · simp [memRead_cons, hx]
    · simp [memRead_cons, Ne.symm hx]
  | cons p m ih =>
    obtain ⟨a', b'⟩ := p
    obtain ⟨hp, hm⟩ := List.pairwise_cons.1 h
    have below : ∀ y, y ≤ a' → memRead m y = inDefault := fun y hy =>
      memRead_below m y fun q hq => lt_of_le_of_lt hy (hp q hq)
    simp only [memWrite]
    rcases Nat.lt_trichotomy a a' with h1 | rfl | h1
    · rw [if_pos h1]
      by_cases hb : b = inDefault
      · rw [if_pos hb]
        by_cases hx : x = a
        · rw [if_pos hx, memRead_cons, if_neg (by omega), below x (by omega), hb]
        · rw [if_neg hx]
      · rw [if_neg hb, memRead_cons]
        by_cases hx : x = a
        · rw [if_pos hx.symm, if_pos hx]
        · rw [if_neg (Ne.symm hx), if_neg hx]
    · rw [if_neg (lt_irrefl a), if_pos rfl, memRead_cons]
      by_cases hb : b = inDefault
      · rw [if_pos hb]
        by_cases hx : x = a
        · rw [if_pos hx, below x (by omega), hb]
        · rw [if_neg hx, if_neg (Ne.symm hx)]
      · rw [if_neg hb, memRead_cons]
        by_cases hx : x = a
        · rw [if_pos hx.symm, if_pos hx]
        · rw [if_neg (Ne.symm hx), if_neg hx, if_neg (Ne.symm hx)]
    · rw [if_neg (by omega), if_neg (by omega), memRead_cons, memRead_cons, ih hm]
      by_cases hx : a' = x
      · rw [if_pos hx, if_neg (by omega), if_pos hx]
      · rw [if_neg hx, if_neg hx]

/-- The addresses a write leaves listed are those listed before it and its own. -/
theorem mem_memWrite {m : Memory} {a : Nat} {b : Byte} {p : Host.Cell} (h : p ∈ memWrite m a b) :
    p ∈ m ∨ (p = (a, b) ∧ b ≠ inDefault) := by
  induction m with
  | nil =>
    unfold memWrite at h
    split_ifs at h with hb
    · cases h
    · exact .inr ⟨List.mem_singleton.1 h, hb⟩
  | cons q m ih =>
    obtain ⟨a', b'⟩ := q
    simp only [memWrite] at h
    split_ifs at h with h1 h2 h3 h4
    · exact .inl h
    · rcases List.mem_cons.1 h with rfl | h
      · exact .inr ⟨rfl, h2⟩
      · exact .inl h
    · exact .inl (List.mem_cons_of_mem _ h)
    · rcases List.mem_cons.1 h with rfl | h
      · exact .inr ⟨rfl, h4⟩
      · exact .inl (List.mem_cons_of_mem _ h)
    · rcases List.mem_cons.1 h with rfl | h
      · exact .inl (List.mem_cons_self ..)
      · exact (ih h).imp_left (List.mem_cons_of_mem _)

/-- A write keeps the canonical form. -/
theorem memWrite_wf (m : Memory) (a : Nat) (b : Byte) (h : m.wf = true) (ha : a < 2 ^ 32) :
    (memWrite m a b).wf = true := by
  rw [wf_iff] at h ⊢
  refine ⟨?_, fun p hp => ?_⟩
  · induction m with
    | nil => unfold memWrite; split_ifs <;> simp
    | cons q m ih =>
      obtain ⟨a', b'⟩ := q
      obtain ⟨hq, hm⟩ := List.pairwise_cons.1 h.1
      have hrest := ih ⟨hm, fun p hp => h.2 p (List.mem_cons_of_mem _ hp)⟩
      simp only [memWrite]
      split_ifs with h1 h2 h3 h4
      · exact h.1
      · exact List.pairwise_cons.2 ⟨fun p hp => by
          rcases List.mem_cons.1 hp with rfl | hp
          · exact h1
          · exact lt_trans h1 (hq p hp), h.1⟩
      · exact hm
      · exact List.pairwise_cons.2 ⟨fun p hp => by rw [h3]; exact hq p hp, hm⟩
      · refine List.pairwise_cons.2 ⟨fun p hp => ?_, hrest⟩
        rcases mem_memWrite hp with hp | ⟨rfl, -⟩
        · exact hq p hp
        · show a' < a; omega
  · rcases mem_memWrite hp with hp | ⟨rfl, hb⟩
    · exact h.2 p hp
    · exact ⟨ha, hb⟩

/-- A write of several bytes keeps the canonical form. -/
theorem memWriteBytes_wf (bs : List Byte) (m : Memory) (a : Nat) (h : m.wf = true)
    (ha : a + bs.length ≤ 2 ^ 32) : (memWriteBytes m a bs).wf = true := by
  induction bs generalizing m a with
  | nil => exact h
  | cons b bs ih =>
    simp only [List.length_cons] at ha
    exact ih _ _ (memWrite_wf m a b h (by omega)) (by omega)

/-- A read after a write of several bytes. -/
theorem memRead_memWriteBytes (bs : List Byte) (m : Memory) (a : Nat) (h : m.wf = true)
    (ha : a + bs.length ≤ 2 ^ 32) (x : Nat) :
    memRead (memWriteBytes m a bs) x =
      if a ≤ x ∧ x < a + bs.length then bs.getD (x - a) inDefault else memRead m x := by
  induction bs generalizing m a with
  | nil => simp [memWriteBytes]
  | cons b bs ih =>
    simp only [List.length_cons] at ha
    have hw := memWrite_wf m a b h (by omega)
    rw [memWriteBytes, ih _ _ hw (by omega), memRead_memWrite m ((wf_iff m).1 h).1]
    by_cases hx : x = a
    · subst hx
      rw [if_neg (by omega), if_pos rfl, if_pos (by simp)]
      simp
    · by_cases hin : a + 1 ≤ x ∧ x < a + 1 + bs.length
      · rw [if_pos hin, if_pos (by simp only [List.length_cons]; omega)]
        obtain ⟨n, rfl⟩ : ∃ n, x = a + 1 + n := ⟨x - (a + 1), by omega⟩
        rw [show a + 1 + n - (a + 1) = n by omega, show a + 1 + n - a = n + 1 by omega]
        simp
      · rw [if_neg hin, if_neg hx, if_neg (by simp only [List.length_cons]; omega)]

@[simp] theorem memReadN_length (m : Memory) (a n : Nat) : (memReadN m a n).length = n := by
  simp [memReadN]

theorem memReadN_getD (m : Memory) (a n i : Nat) (h : i < n) :
    (memReadN m a n).getD i 0 = memRead m (a + i) := by
  simp [memReadN, h]

/-- Equal bytes give equal words. -/
theorem memWord_congr {m m' : Memory} {a : Nat} (h : ∀ i, i < 4 → memRead m (a + i) = memRead m' (a + i)) :
    memWord m a = memWord m' a := by
  have h0 := h 0 (by omega)
  simp only [Nat.add_zero] at h0
  simp only [memWord, h0, h 1 (by omega), h 2 (by omega), h 3 (by omega)]

/-- The empty memory is canonical: State.reset lists nothing. -/
theorem reset_memory_wf : State.reset.inMem.wf = true := by decide

end Sys2Proof.Machine
end

