-- ==== Sys2Proof/Laws/PerInstr.lean ====
section
/-! SUPPORT. What is said of every instruction as syntax, one lemma for each constructor: its encoding
carries the fixed bits of its row of spec/opcode_table.json. -/

namespace Sys2Proof.Laws.EncodingMatchesTable

open Sys2Proof

/-- The mask and the match of an instruction's row of spec/opcode_table.json. -/
def tableRow : Instr → Word × Word
  | .nop => (0x000000FF, 0x00000000)
  | .reset => (0x000000FF, 0x00000001)
  | .abort => (0x000000FF, 0x00000002)
  | .segPush => (0x000000FF, 0x00000010)
  | .segClear => (0x000000FF, 0x00000011)
  | .openStream => (0x000000FF, 0x00000012)
  | .openNext => (0x000000FF, 0x00000013)
  | .readHeader => (0x000000FF, 0x00000014)
  | .readData => (0x000000FF, 0x00000015)
  | .skipData => (0x000000FF, 0x00000016)
  | .viewRead _ => (0x000000FF, 0x00000017)
  | .convS3A _ => (0x000000FF, 0x00000020)
  | .convS3B2 _ => (0x000000FF, 0x00000021)
  | .convS3B4 _ => (0x000000FF, 0x00000022)
  | .convDCD2 _ => (0x000000FF, 0x00000023)
  | .convDCD4 _ => (0x000000FF, 0x00000024)
  | .next => (0x000000FF, 0x00000030)
  | .skip => (0x000000FF, 0x00000031)
  | .mresize _ => (0x000000FF, 0x00000040)
  | .mget _ => (0x000000FF, 0x00000041)
  | .mput _ => (0x000000FF, 0x00000042)
  | .mgetf _ => (0x000000FF, 0x00000043)
  | .mputf _ => (0x000000FF, 0x00000044)
  | .madd _ _ => (0x000000FF, 0x00000045)
  | .msub _ _ => (0x000000FF, 0x00000046)
  | .mset _ _ => (0x000000FF, 0x00000047)
  | .minfo _ => (0x000000FF, 0x00000048)
  | .mtrig _ => (0x000000FF, 0x00000049)
  | .accClear _ => (0x000000FF, 0x00000050)
  | .accAdd _ => (0x000000FF, 0x00000051)
  | .accAddm _ _ _ => (0x000000FF, 0x00000052)
  | .accRead _ _ => (0x000000FF, 0x00000053)
  | .calCommit _ => (0x000000FF, 0x00000054)
  | .calInit _ => (0x000000FF, 0x00000055)
  | .calLoad _ => (0x000000FF, 0x00000056)
  | .cmApply _ _ _ => (0x000000FF, 0x00000060)
  | .cmCorr _ => (0x000000FF, 0x00000061)
  | .groupRunBegin _ => (0xF0C00000, 0x00000000)
  | .groupRunEnd _ => (0xF0C00000, 0x00400000)
  | .groupData _ => (0xF0C00000, 0x00800000)
  | .depfet _ => (0xF0000000, 0x20000000)
  | .depfet128 _ => (0xF0000000, 0x30000000)
  | .depfetDcd _ => (0xF0000000, 0x40000000)
  | .bat _ => (0xF0000000, 0x50000000)
  | .tpll _ => (0xF0000000, 0xA0000000)
  | .unknown _ => (0xF0000000, 0xB0000000)
  | .tlu _ => (0xF0000000, 0xD0000000)
  | .info _ => (0xF0000000, 0xE0000000)
  | .other _ => (0xF0000000, 0xF0000000)

/-- The first word of a well-formed instruction's encoding has its row's fixed bits. -/
def Statement (i : Instr) : Prop :=
  i.wellFormed = true →
    ∃ w rest, encode i = w :: rest ∧ w &&& (tableRow i).1 = (tableRow i).2

/-- The fixed bits of a command word: its OP. -/
theorem commandWord_op (op a b c : BitVec 8) :
    commandWord op a b c &&& 0x000000FF = op.setWidth 32 := by
  apply BitVec.eq_of_getLsbD_eq
  intro i hi
  simp only [commandWord, BitVec.getLsbD_and, BitVec.getLsbD_append, BitVec.getLsbD_setWidth,
    show (0x000000FF : Word) = (0xFF : BitVec 8).setWidth 32 from rfl, hi, decide_true,
    Bool.true_and]
  by_cases h : i < 8
  · simp only [h, if_true]
    have : (0xFF : BitVec 8).getLsbD i = true := by
      rw [show (0xFF : BitVec 8) = BitVec.allOnes 8 from rfl, BitVec.getLsbD_allOnes]
      simpa using h
    rw [this, Bool.and_true]
  · rw [BitVec.getLsbD_of_ge op i (by omega), BitVec.getLsbD_of_ge (0xFF : BitVec 8) i (by omega),
      Bool.and_false]

/-- The fixed bits of a header word: its device type. -/
theorem headerWord_device (k : RecKind) (h : RecHdr) :
    headerWord k h &&& 0xF0000000 = k.deviceType ++ (0 : BitVec 28) := by
  apply BitVec.eq_of_getLsbD_eq
  intro i hi
  have hmask : (0xF0000000 : Word) = (0xF : BitVec 4) ++ (0 : BitVec 28) := rfl
  rw [hmask]
  simp only [headerWord, BitVec.getLsbD_and, BitVec.getLsbD_append]
  by_cases h28 : i < 28
  · simp [h28]
  · have : (0xF : BitVec 4).getLsbD (i - 28) = true := by
      rw [show (0xF : BitVec 4) = BitVec.allOnes 4 from rfl, BitVec.getLsbD_allOnes]
      simp only [decide_eq_true_eq]
      omega
    simp only [h28, if_false, this, Bool.and_true]
    simp only [show ¬ i < 20 by omega, if_false, show ¬ i - 20 < 1 by omega,
      show ¬ i - 20 - 1 < 1 by omega, show ¬ i - 20 - 1 - 1 < 2 by omega,
      show ¬ i - 20 - 1 - 1 - 2 < 4 by omega]
    congr 1

/-- The fixed bits of a GROUP header word: its device type and its event type. -/
theorem headerWord_group (k : RecKind) (h : RecHdr) :
    headerWord k h &&& 0xF0C00000
      = k.deviceType ++ (0 : BitVec 4) ++ h.eventType ++ (0 : BitVec 22) := by
  apply BitVec.eq_of_getLsbD_eq
  intro i hi
  have hmask : (0xF0C00000 : Word)
      = (0xF : BitVec 4) ++ (0 : BitVec 4) ++ (3 : BitVec 2) ++ (0 : BitVec 22) := rfl
  rw [hmask]
  simp only [headerWord, BitVec.getLsbD_and, BitVec.getLsbD_append]
  by_cases h22 : i < 22
  · simp [h22]
  · simp only [h22, if_false, show ¬ i < 20 by omega, show ¬ i - 20 < 1 by omega,
      show ¬ i - 20 - 1 < 1 by omega]
    by_cases h24 : i < 24
    · have : (3 : BitVec 2).getLsbD (i - 22) = true := by
        rw [show (3 : BitVec 2) = BitVec.allOnes 2 from rfl, BitVec.getLsbD_allOnes]
        simp only [decide_eq_true_eq]
        omega
      simp only [show i - 22 < 2 by omega, show i - 20 - 1 - 1 < 2 by omega, if_true, this,
        Bool.and_true]
      congr 1
    · simp only [show ¬ i - 22 < 2 by omega, show ¬ i - 20 - 1 - 1 < 2 by omega, if_false]
      by_cases h28 : i < 28
      · simp [show i - 22 - 2 < 4 by omega]
      · have : (0xF : BitVec 4).getLsbD (i - 22 - 2 - 4) = true := by
          rw [show (0xF : BitVec 4) = BitVec.allOnes 4 from rfl, BitVec.getLsbD_allOnes]
          simp only [decide_eq_true_eq]
          omega
        simp only [show ¬ i - 22 - 2 < 4 by omega, show ¬ i - 20 - 1 - 1 - 2 < 4 by omega, if_false,
          this, Bool.and_true]
        congr 1

theorem nop : Statement .nop := fun _ => ⟨_, _, rfl, commandWord_op ..⟩

theorem reset : Statement .reset := fun _ => ⟨_, _, rfl, commandWord_op ..⟩

theorem abort : Statement .abort := fun _ => ⟨_, _, rfl, commandWord_op ..⟩

theorem segPush : Statement .segPush := fun _ => ⟨_, _, rfl, commandWord_op ..⟩

theorem segClear : Statement .segClear := fun _ => ⟨_, _, rfl, commandWord_op ..⟩

theorem openStream : Statement .openStream := fun _ => ⟨_, _, rfl, commandWord_op ..⟩

theorem openNext : Statement .openNext := fun _ => ⟨_, _, rfl, commandWord_op ..⟩

theorem readHeader : Statement .readHeader := fun _ => ⟨_, _, rfl, commandWord_op ..⟩

theorem readData : Statement .readData := fun _ => ⟨_, _, rfl, commandWord_op ..⟩

theorem skipData : Statement .skipData := fun _ => ⟨_, _, rfl, commandWord_op ..⟩

theorem viewRead (a : BitVec 8) : Statement (.viewRead a) := fun _ => ⟨_, _, rfl, commandWord_op ..⟩

theorem convS3A (a : BitVec 8) : Statement (.convS3A a) := fun _ => ⟨_, _, rfl, commandWord_op ..⟩

theorem convS3B2 (a : BitVec 8) : Statement (.convS3B2 a) := fun _ => ⟨_, _, rfl, commandWord_op ..⟩

theorem convS3B4 (a : BitVec 8) : Statement (.convS3B4 a) := fun _ => ⟨_, _, rfl, commandWord_op ..⟩

theorem convDCD2 (a : BitVec 8) : Statement (.convDCD2 a) := fun _ => ⟨_, _, rfl, commandWord_op ..⟩

theorem convDCD4 (a : BitVec 8) : Statement (.convDCD4 a) := fun _ => ⟨_, _, rfl, commandWord_op ..⟩

theorem next : Statement .next := fun _ => ⟨_, _, rfl, commandWord_op ..⟩

theorem skip : Statement .skip := fun _ => ⟨_, _, rfl, commandWord_op ..⟩

theorem mresize (a : BitVec 8) : Statement (.mresize a) := fun _ => ⟨_, _, rfl, commandWord_op ..⟩

theorem mget (a : BitVec 8) : Statement (.mget a) := fun _ => ⟨_, _, rfl, commandWord_op ..⟩

theorem mput (a : BitVec 8) : Statement (.mput a) := fun _ => ⟨_, _, rfl, commandWord_op ..⟩

theorem mgetf (a : BitVec 8) : Statement (.mgetf a) := fun _ => ⟨_, _, rfl, commandWord_op ..⟩

theorem mputf (a : BitVec 8) : Statement (.mputf a) := fun _ => ⟨_, _, rfl, commandWord_op ..⟩

theorem madd (a b : BitVec 8) : Statement (.madd a b) := fun _ => ⟨_, _, rfl, commandWord_op ..⟩

theorem msub (a b : BitVec 8) : Statement (.msub a b) := fun _ => ⟨_, _, rfl, commandWord_op ..⟩

theorem mset (a b : BitVec 8) : Statement (.mset a b) := fun _ => ⟨_, _, rfl, commandWord_op ..⟩

theorem minfo (a : BitVec 8) : Statement (.minfo a) := fun _ => ⟨_, _, rfl, commandWord_op ..⟩

theorem mtrig (a : BitVec 8) : Statement (.mtrig a) := fun _ => ⟨_, _, rfl, commandWord_op ..⟩

theorem accClear (a : BitVec 8) : Statement (.accClear a) := fun _ => ⟨_, _, rfl, commandWord_op ..⟩

theorem accAdd (a : BitVec 8) : Statement (.accAdd a) := fun _ => ⟨_, _, rfl, commandWord_op ..⟩

theorem accAddm (a b c : BitVec 8) : Statement (.accAddm a b c) := fun _ => ⟨_, _, rfl, commandWord_op ..⟩

theorem accRead (a b : BitVec 8) : Statement (.accRead a b) := fun _ => ⟨_, _, rfl, commandWord_op ..⟩

theorem calCommit (a : BitVec 8) : Statement (.calCommit a) := fun _ => ⟨_, _, rfl, commandWord_op ..⟩

theorem calInit (a : BitVec 8) : Statement (.calInit a) := fun _ => ⟨_, _, rfl, commandWord_op ..⟩

theorem calLoad (a : BitVec 8) : Statement (.calLoad a) := fun _ => ⟨_, _, rfl, commandWord_op ..⟩

theorem cmApply (a b c : BitVec 8) : Statement (.cmApply a b c) := fun _ => ⟨_, _, rfl, commandWord_op ..⟩

theorem cmCorr (a : BitVec 8) : Statement (.cmCorr a) := fun _ => ⟨_, _, rfl, commandWord_op ..⟩

theorem groupRunBegin (h : RecHdr) : Statement (.groupRunBegin h) := by
  intro hw
  have he : h.eventType = 0 := by
    simpa [Instr.wellFormed, Instr.record?, RecKind.wellFormed, RecKind.fixedEventType] using hw
  exact ⟨_, _, rfl, (headerWord_group ..).trans (by rw [he]; rfl)⟩

theorem groupRunEnd (h : RecHdr) : Statement (.groupRunEnd h) := by
  intro hw
  have he : h.eventType = 1 := by
    simpa [Instr.wellFormed, Instr.record?, RecKind.wellFormed, RecKind.fixedEventType] using hw
  exact ⟨_, _, rfl, (headerWord_group ..).trans (by rw [he]; rfl)⟩

theorem groupData (h : RecHdr) : Statement (.groupData h) := by
  intro hw
  have he : h.eventType = 2 := by
    simpa [Instr.wellFormed, Instr.record?, RecKind.wellFormed, RecKind.fixedEventType] using hw
  exact ⟨_, _, rfl, (headerWord_group ..).trans (by rw [he]; rfl)⟩

theorem depfet (h : RecHdr) : Statement (.depfet h) := fun _ => ⟨_, _, rfl, headerWord_device ..⟩

theorem depfet128 (h : RecHdr) : Statement (.depfet128 h) := fun _ => ⟨_, _, rfl, headerWord_device ..⟩

theorem depfetDcd (h : RecHdr) : Statement (.depfetDcd h) := fun _ => ⟨_, _, rfl, headerWord_device ..⟩

theorem bat (h : RecHdr) : Statement (.bat h) := fun _ => ⟨_, _, rfl, headerWord_device ..⟩

theorem tpll (h : RecHdr) : Statement (.tpll h) := fun _ => ⟨_, _, rfl, headerWord_device ..⟩

theorem unknown (h : RecHdr) : Statement (.unknown h) := fun _ => ⟨_, _, rfl, headerWord_device ..⟩

theorem tlu (h : RecHdr) : Statement (.tlu h) := fun _ => ⟨_, _, rfl, headerWord_device ..⟩

theorem info (h : RecHdr) : Statement (.info h) := fun _ => ⟨_, _, rfl, headerWord_device ..⟩

theorem other (h : RecHdr) : Statement (.other h) := fun _ => ⟨_, _, rfl, headerWord_device ..⟩

end Sys2Proof.Laws.EncodingMatchesTable
end

