-- ==== Sys2Proof/Tests/Slice0.lean ====
section
/-! SUPPORT. The model's own tests: the well-formedness smoke, every constructor decoded from a word
written out from the spec, one step of each instruction on a small state, and for each statement of
Certificates/Slice0/Obligations.lean with hypotheses a state that meets them. Expected results are
those of 95_test_vectors.md (the vector is named at each test) or worked by hand from the rule named. -/

namespace Sys2Proof.Tests

-- the many kernel checks below run one after another: in parallel their threads exhaust the memory
set_option Elab.async false

open Sys2Proof Sys2Proof.Machine

/-! ### Well-formedness (30_encoding.md R304, R311) -/

/-- A header with a given size and event type. -/
def hdrOf (size : BitVec 20) (ev : BitVec 2) : RecHdr := ⟨size, 0, 0, ev, 0, 0⟩

theorem test_wf_run_begin : (Instr.groupRunBegin (hdrOf 2 1)).wellFormed = false := by decide
theorem test_wf_run_end : (Instr.groupRunEnd (hdrOf 2 2)).wellFormed = false := by decide
theorem test_wf_group_data : (Instr.groupData (hdrOf 2 0)).wellFormed = false := by decide
theorem test_wf_group_data_reserved : (Instr.groupData (hdrOf 2 3)).wellFormed = false := by decide
theorem test_wf_reserved_event : (Instr.tlu (hdrOf 2 3)).wellFormed = false := by decide
theorem test_wf_good : (Instr.groupData (hdrOf 2 2)).wellFormed = true
    ∧ (Instr.tlu (hdrOf 2 1)).wellFormed = true ∧ (Instr.mget 0xFF).wellFormed = true := by decide

/-! ### Decoding (30_encoding.md R301 to R304, R311, R330 to R333) -/

/-- 40_system.md; NOP with all operand bits set is V-ENC-33. -/
theorem test_decode_system : decodeCommand 0xFFFFFF00 = .ok .nop
    ∧ decodeCommand 0x00000001 = .ok .reset ∧ decodeCommand 0x00000002 = .ok .abort := by decide

/-- 41_stream.md. -/
theorem test_decode_stream : decodeCommand 0x00000010 = .ok .segPush
    ∧ decodeCommand 0x00000011 = .ok .segClear ∧ decodeCommand 0x00000012 = .ok .openStream
    ∧ decodeCommand 0x00000013 = .ok .openNext ∧ decodeCommand 0x00000014 = .ok .readHeader
    ∧ decodeCommand 0x00000015 = .ok .readData ∧ decodeCommand 0x00000016 = .ok .skipData
    ∧ decodeCommand 0x00000117 = .ok (.viewRead 1) := by decide

/-- 42_convert.md; V-ENC-26. -/
theorem test_decode_convert : decodeCommand 0x0000B020 = .ok (.convS3A 0xB0)
    ∧ decodeCommand 0x0000B121 = .ok (.convS3B2 0xB1)
    ∧ decodeCommand 0x0000B222 = .ok (.convS3B4 0xB2)
    ∧ decodeCommand 0x0000B323 = .ok (.convDCD2 0xB3)
    ∧ decodeCommand 0x0000B424 = .ok (.convDCD4 0xB4) := by decide

/-- 43_assembler.md. -/
theorem test_decode_assembler : decodeCommand 0x00000030 = .ok .next
    ∧ decodeCommand 0x00000031 = .ok .skip := by decide

/-- 44_matrix.md; V-ENC-20, V-ENC-25, V-ENC-29, V-ENC-31, P2, P3. -/
theorem test_decode_matrix : decodeCommand 0x0000B040 = .ok (.mresize 0xB0)
    ∧ decodeCommand 0x0000B841 = .ok (.mget 0xB8) ∧ decodeCommand 0x00000042 = .ok (.mput 0)
    ∧ decodeCommand 0x00008043 = .ok (.mgetf 0x80) ∧ decodeCommand 0x0000B044 = .ok (.mputf 0xB0)
    ∧ decodeCommand 0x00B1B045 = .ok (.madd 0xB0 0xB1)
    ∧ decodeCommand 0x0083B046 = .ok (.msub 0xB0 0x83)
    ∧ decodeCommand 0x00B0B047 = .ok (.mset 0xB0 0xB0)
    ∧ decodeCommand 0x00000048 = .ok (.minfo 0) ∧ decodeCommand 0x00000049 = .ok (.mtrig 0) := by
  decide

/-- 45_calibration.md; V-ENC-23, V-ENC-24, V-ENC-34, P2, P4. -/
theorem test_decode_calibration : decodeCommand 0x00001050 = .ok (.accClear 16)
    ∧ decodeCommand 0x00000051 = .ok (.accAdd 0)
    ∧ decodeCommand 0xFFB00152 = .ok (.accAddm 1 0xB0 0xFF)
    ∧ decodeCommand 0x00030053 = .ok (.accRead 0 3) ∧ decodeCommand 0x00000054 = .ok (.calCommit 0)
    ∧ decodeCommand 0x00000355 = .ok (.calInit 3) ∧ decodeCommand 0x00000356 = .ok (.calLoad 3) := by
  decide

/-- 46_commonmode.md; V-ENC-22, V-CM-13. -/
theorem test_decode_commonmode : decodeCommand 0x93A3B060 = .ok (.cmApply 0xB0 0xA3 0x93)
    ∧ decodeCommand 0x00000261 = .ok (.cmCorr 2) := by decide

/-- Reserved opcodes; V-ENC-27, V-ENC-28. -/
theorem test_decode_illegal : decodeCommand 0x00000003 = .error .illegalCommand
    ∧ decodeCommand 0x12345662 = .error .illegalCommand := by decide

/-- The GROUP kinds; V-ENC-2, V-ENC-4, V-ENC-5, V-ENC-6. -/
theorem test_decode_groups :
    decodeRecordBytes [0x02, 0x00, 0x00, 0x00, 0x2A, 0x00, 0x00, 0x00, 0xEE]
        = .ok (.groupRunBegin ⟨2, 0, 0, 0, 0, 42⟩, [0xEE])
    ∧ decodeRecord 0x00400002 1 = .ok (.groupRunEnd, ⟨2, 0, 0, 1, 0, 1⟩)
    ∧ decodeRecord 0x00802005 7 = .ok (.groupData, ⟨8197, 0, 0, 2, 0, 7⟩)
    ∧ decodeRecord 0x00B00002 7 = .ok (.groupData, ⟨2, 1, 1, 2, 0, 7⟩) := by decide

/-- The data-bearing kinds; V-ENC-3. -/
theorem test_decode_data_records :
    decodeRecord 0x23802003 7 = .ok (.depfet, ⟨8195, 0, 0, 2, 3, 7⟩)
    ∧ decodeRecord 0x33000003 1 = .ok (.depfet128, ⟨3, 0, 0, 0, 3, 1⟩)
    ∧ decodeRecord 0x4F500003 1 = .ok (.depfetDcd, ⟨3, 1, 0, 1, 15, 1⟩) := by decide

/-- The other kinds; V-ENC-1, V-ASM-12, V-ASM-20. -/
theorem test_decode_other_records :
    decodeRecord 0x50000002 0 = .ok (.bat, ⟨2, 0, 0, 0, 0, 0⟩)
    ∧ decodeRecord 0xA0000003 0 = .ok (.tpll, ⟨3, 0, 0, 0, 0, 0⟩)
    ∧ decodeRecord 0xB1200003 9 = .ok (.unknown, ⟨3, 0, 1, 0, 1, 9⟩)
    ∧ decodeRecord 0xD0000003 0 = .ok (.tlu, ⟨3, 0, 0, 0, 0, 0⟩)
    ∧ decodeRecord 0xE0000002 42 = .ok (.info, ⟨2, 0, 0, 0, 0, 42⟩)
    ∧ decodeRecord 0xFFBFFFFF 5 = .ok (.other, ⟨1048575, 1, 1, 2, 15, 5⟩) := by decide

/-- Reserved codes, the device type first; V-ENC-7, V-ENC-8. -/
theorem test_decode_reserved : decodeRecord 0xFFFFFFFF 0 = .error .reservedEvType
    ∧ decodeRecord 0x10C00000 0 = .error .reservedDevType := by decide

/-- Info words; V-ENC-10, V-ENC-11, V-ENC-11b. -/
theorem test_decode_info : decodeInfo 0x19210005 0 = ⟨5, 64, 0, 0, 1, 100⟩
    ∧ decodeInfo 0x000E0400 0 = ⟨0, 1, 7, 0, 0, 0⟩
    ∧ decodeInfo 0x000E0400 1 = ⟨0, 897, 0, 0, 0, 0⟩ := by decide

/-- The host's numbering: a command of 8 and of 32 bits, a record of 64. -/
theorem test_table_word : decodeTableWord 8 0x45 = some (.madd 0 0)
    ∧ decodeTableWord 32 0x0083B046 = some (.msub 0xB0 0x83)
    ∧ decodeTableWord 32 0x20000000 = some (.depfet ⟨0, 0, 0, 0, 0, 0⟩) := by decide

/-! ### Small states -/

/-- One field of the next state. -/
def field {α : Type} (f : State → α) : Result → Option α
  | .next s => some (f s)
  | _ => none

/-- The recorded fault of the next state. -/
def faultOf : Result → Option (Bool × ErrCode × Word) :=
  field fun s => (s.fault, s.errCode, s.errInfo)

/-- The refusal of a step. -/
def refusalOf : Result → Option Refusal
  | .refused r => some r
  | _ => none

/-- The data of a matrix register of the next state. -/
def dataOf (id : Nat) : Result → Option (List F64) := field fun s => (readMat s id).data

/-- A matrix without tags. -/
def mat (nX nY : Nat) (d : List F64) : Mat := { Mat.empty with nX := nX, nY := nY, data := d }

/-- The reset state with operands. -/
def withArgs (n0 n1 n2 : Word) (x w : F64) : State :=
  { State.reset with argN0 := n0, argN1 := n1, argN2 := n2, argX := x, argW := w }

/-- An open stream of one segment that holds the given words, at address 0. -/
def stream (ws : List Word) : State :=
  { State.reset with
    opened := true, segq := [⟨0, BitVec.ofNat 32 (4 * ws.length)⟩]
    inMem := memWriteBytes [] 0 (ws.map bytesOf).flatten }

/-- Binary64 constants (IEEE 754). -/
def f1 : F64 := 0x3FF0000000000000
def f2 : F64 := 0x4000000000000000
def f3 : F64 := 0x4008000000000000
def f4 : F64 := 0x4010000000000000
def f5 : F64 := 0x4014000000000000
def f6 : F64 := 0x4018000000000000
def f7 : F64 := 0x401C000000000000
def f8 : F64 := 0x4020000000000000
def f9 : F64 := 0x4022000000000000
def f10 : F64 := 0x4024000000000000
def f11 : F64 := 0x4026000000000000
def f12 : F64 := 0x4028000000000000
def f20 : F64 := 0x4034000000000000
def f38 : F64 := 0x4043000000000000
def f39 : F64 := 0x4043800000000000
def f50 : F64 := 0x4049000000000000
def fHalf : F64 := 0x3FE0000000000000
def fInf : F64 := 0x7FF0000000000000
def fQNaN : F64 := 0x7FF8000000000000

/-! ### Arithmetic (00_scope.md R15) -/

/-- A tie goes to even, and the largest finite value plus half a unit in the last place overflows. -/
theorem test_round_tie : fAdd 0 0x4340000000000000 f1 = 0x4340000000000000
    ∧ fAdd 0 0x4340000000000001 f1 = 0x4340000000000002
    ∧ fAdd 0 0x7FEFFFFFFFFFFFFF 0x7C90000000000000 = fInf := by decide +kernel

/-- A subnormal quotient; the smallest value halved rounds to zero, 1.5 times it to 2 units. -/
theorem test_subnormal : fDiv 0 0x0010000000000000 f2 = 0x0008000000000000
    ∧ fMul 0 0x0000000000000001 fHalf = 0 ∧ fMul 0 0x0000000000000003 fHalf = 2 := by decide +kernel

/-- sqrt(2) (G7), and the signs of zero. -/
theorem test_sqrt_two : fSqrt 0 f2 = 0x3FF6A09E667F3BCD ∧ fSqrt 0 0x8000000000000000 = 0x8000000000000000
    ∧ fSub 0 f7 f7 = 0 := by decide +kernel

/-- V-VIEW-1, V-VIEW-4: exact conversions. -/
theorem test_of_int : fOfInt (-32767) = 0xC0DFFFC000000000
    ∧ fOfInt 4278222849 = 0x41EFE01000200000 := by decide +kernel

/-! ### System commands -/

/-- V-SYS-2. -/
theorem test_nop : exec .nop State.reset = .next State.reset := rfl

/-- V-SYS-7. -/
theorem test_reset :
    field (fun s => (regRead s 1, s.argN0))
      (exec .reset { withArgs 4 2 0 0 0 with fault := true, errCode := .illegalCommand })
      = some (0, 0) := by decide +kernel

/-- V-SYS-6: FAULT is left, the arguments are kept. -/
theorem test_abort :
    field (fun s => (s.fault, s.errCode, s.errInfo, s.argN0, regRead s 1))
      (exec .abort { withArgs 4 2 0 0 0 with fault := true, errCode := .illegalCommand, errInfo := 3 })
      = some (false, .none, 0, 4, 0) := by decide +kernel

/-- V-SYS-3, V-EXC-1: a step with an illegal word pending. -/
theorem test_illegal_command :
    faultOf (step { State.reset with busy := true, pending := 0x00FFB83F })
      = some (true, .illegalCommand, 0x00FFB83F) := by decide +kernel

/-- V-SYS-10, V-SYS-11. -/
theorem test_overrun :
    let s := { State.reset with busy := true }
    ((regWrite 5 9 s).errCode, (regWrite 5 9 s).errInfo, (regWrite 5 9 s).argN0,
      (regWrite 5 9 s).busy, (regWrite 4 0x01 s).fault, (regWrite 4 0x01 s).busy)
      = (.overrun, 0x014, 0, false, false, true) := by decide +kernel

/-! ### Stream commands -/

/-- V-STR-1, V-STR-3. -/
theorem test_seg_push :
    field (fun s => (s.segq, s.resN0)) (exec .segPush (withArgs 0x1000 40 0 0 0))
      = some ([⟨0x1000, 40⟩], 1)
    ∧ faultOf (exec .segPush (withArgs 0xFFFFFFF0 0x20 0 0 0))
      = some (true, .illegalOperand, 0xFFFFFFF0) := by decide +kernel

/-- R403: the queue emptied and the stream closed. -/
theorem test_seg_clear :
    field (fun s => (s.segq, s.curSeg, s.off, s.opened)) (exec .segClear { stream [1, 2] with off := 8 })
      = some ([], 0, 0, false) := by decide +kernel

/-- R404: the cursor rewound, T_LATCH taken from CFG_TRAILING, RES_N0 = 1 with a segment queued. -/
theorem test_open :
    field (fun s => (s.off, s.tLatch, s.resN0, s.runNumber))
      (exec .openStream { stream [1, 2] with off := 8, cfgTrailing := 5, runNumber := 3 })
      = some (0, 5, 1, 0) := by decide +kernel

/-- R405: past the last segment RES_N0 = 0. -/
theorem test_open_next :
    field (fun s => (s.curSeg, s.off, s.resN0)) (exec .openNext { stream [1, 2] with off := 4 })
      = some (1, 0, 0) := by decide +kernel

/-- R410, R411: a segment with 4 bytes left is passed over. -/
theorem test_read_header :
    field (fun s => (s.curSeg, s.off, s.resN0, s.resN1, s.resN2))
      (exec .readHeader { stream [1, 2, 3, 4] with segq := [⟨0, 4⟩, ⟨4, 12⟩] })
      = some (1, 8, 1, 2, 3) := by decide +kernel

/-- V-EXC-3: NOT_OPEN before any other check; and a read of an info word and one payload word. -/
theorem test_read_data :
    faultOf (exec .readData { withArgs 0xFFFFFFFF 0 0 0 0 with pending := 0x15 })
      = some (true, .notOpen, 0x15)
    ∧ field (fun s => (s.info, s.dataBuf, s.off, s.resN0, s.resN1))
      (exec .readData { stream [0x400, 0xFF008001] with argN0 := 1 })
      = some (0x400, [0x01, 0x80, 0x00, 0xFF], 8, 0x400, 4) := by decide +kernel

/-- R425: SKIP_DATA passes the info word and the payload, or raises TRUNCATED_RECORD. -/
theorem test_skip_data :
    field (fun s => (s.off, s.resN0)) (exec .skipData { stream [1, 2, 3] with argN0 := 2 })
      = some (12, 12)
    ∧ faultOf (exec .skipData { stream [1, 2, 3] with argN0 := 3 })
      = some (true, .truncatedRecord, 0) := by decide +kernel

/-- The data buffer of the V-VIEW vectors. -/
def viewState (n0 n1 n2 : Word) : State :=
  { withArgs n0 n1 n2 0 0 with dataBuf := [0x01, 0x80, 0x00, 0xFF] }

/-- V-VIEW-1, V-VIEW-5. -/
theorem test_view_read :
    field (fun s => (s.resN0, s.resF, s.resN1, s.resN2)) (exec (.viewRead 1) (viewState 0 0 0))
      = some (0xFFFF8001, 0xC0DFFFC000000000, 2, 1)
    ∧ field (fun s => (s.resN0, s.resF, s.resN1, s.resN2))
        (exec (.viewRead 0) (viewState 0 0x00000002 0x00010001))
      = some (0xFFFFFFFF, 0xBFF0000000000000, 2, 2) := by decide +kernel

/-- V-VIEW-6, V-VIEW-9, V-VIEW-10, V-VIEW-11. -/
theorem test_view_read_faults :
    faultOf (exec (.viewRead 1) (viewState 0 0x00010003 0)) = some (true, .viewExtent, 0)
    ∧ faultOf (exec (.viewRead 0) (viewState 4 0 0)) = some (true, .outOfBounds, 0)
    ∧ faultOf (exec (.viewRead 1) (viewState 0 0 2)) = some (true, .outOfBounds, 2)
    ∧ faultOf (exec (.viewRead 3) (viewState 0 0 0)) = some (true, .illegalOperand, 3) := by
  decide +kernel

/-! ### Converters: what does not rest on an OPEN parameter -/

/-- V-CONV-8, V-CONV-6, V-CONV-7. -/
theorem test_conv :
    faultOf (exec (.convS3A 0) State.reset) = some (true, .illegalOperand, 0)
    ∧ faultOf (exec (.convDCD2 0xB0) { withArgs 17 0 0 0 0 with dataBuf := List.replicate 16 0 })
      = some (true, .viewExtent, 17)
    ∧ faultOf (exec (.convS3B2 0xB0) (withArgs 0 128 0 0 0)) = some (true, .illegalOperand, 128)
    ∧ faultOf (exec (.convS3B4 0xB8) State.reset) = some (true, .illegalOperand, 0xB8)
    ∧ faultOf (exec (.convDCD4 0xB7) { withArgs 1 1023 0 0 0 with cfgInfoLayout := 1 })
      = some (true, .viewExtent, 1) := by decide +kernel

/-! ### The assembler -/

/-- V-ASM-1, first NEXT. -/
theorem test_next_empty_group :
    field (fun s => (regRead s 1, s.resN0, s.resN1, s.resN2, s.nslots))
      (exec .next (stream [0x00800002, 5]))
      = some (0x000000A4, 1, 5, 0, 0) := by decide +kernel

/-- V-ASM-3: INFO inside a group. -/
theorem test_next_info :
    field (fun s => (s.resN0, s.resN1, s.resN2))
      (exec .next (stream [0xE0000002, 41, 0x00800006, 9, 0xE0000002, 77, 0xE0000002, 78]))
      = some (1, 9, 78) := by decide +kernel

/-- V-ASM-4: three events skipped, then the end of the input. -/
theorem test_skip_to_end :
    field (fun s => (s.resN0, s.eventNumber, regRead s 0x47, regRead s 0x53, regRead s 1))
      (exec .skip { stream [0x00800005, 1, 0x23000003, 1, 0, 0x00800005, 2, 0x23000003, 1, 0,
        0x00800005, 3, 0x23000003, 1, 0] with argN0 := 5 })
      = some (3, 3, 0x00000101, 0x80000000, 0x0000002C) := by decide +kernel

/-- V-ASM-24: two modules, two trailing frames. -/
theorem test_skip_trailing :
    field (fun s => (regRead s 0x47, regRead s 0x53, regRead s 0x54))
      (exec .skip { stream [0x00800008, 1, 0x23000003, 1, 0, 0x24000003, 1, 0] with
        argN0 := 1, tLatch := 2 })
      = some (0x00020206, 0x80000000, 0x80000301) := by decide +kernel

/-- V-ASM-12, V-ASM-13, V-ASM-18, V-ASM-19. -/
theorem test_next_truncated :
    faultOf (exec .next (stream [0x00800004, 1, 0xD0000003, 0, 0])) = some (true, .size, 0xD0000003)
    ∧ faultOf (exec .next (stream [0x00800005, 1, 0xD0000002, 0, 0])) = some (true, .size, 1)
    ∧ faultOf (exec .next (stream [0x00800005, 1])) = some (true, .truncatedEvent, 3)
    ∧ faultOf (exec .next (stream [0x00800006, 1, 0xD0000004, 0]))
      = some (true, .truncatedRecord, 16) := by decide +kernel

/-- V-ASM-15, V-ASM-16, V-ASM-17. -/
theorem test_skip_map_faults :
    faultOf (exec .skip { stream [0x00800008, 1, 0x23000003, 1, 0, 0x23000003, 1, 0] with argN0 := 1 })
      = some (true, .duplicateModule, 3)
    ∧ faultOf (exec .skip { stream [0x00800005, 1, 0x23000003, 1, 0, 0x00800005, 2, 0x25000003, 1, 0]
        with argN0 := 2 })
      = some (true, .unknownModule, 5)
    ∧ faultOf (exec .skip { stream [0x00800008, 1, 0x23000003, 1, 0, 0x24000003, 1, 0,
        0x00800005, 2, 0x23000003, 1, 0] with argN0 := 2 })
      = some (true, .truncatedEvent, 1) := by decide +kernel

/-- R501: on a fault FSM keeps its value, WAIT_GROUP outside a group, READING_MODULES inside one. -/
theorem test_fault_keeps_fsm :
    field (fun s => (s.fault, s.fsm)) (exec .next (stream [0x00800002, 1, 0xD0000002, 0]))
      = some (false, .eventReady)
    ∧ field (fun s => (s.fault, s.fsm))
      (exec .next { stream [0xD0000002, 0] with fsm := .eventReady }) = some (true, .waitGroup)
    ∧ field (fun s => (s.fault, s.fsm)) (exec .next (stream [0x00800005, 1]))
      = some (true, .readingModules) := by decide +kernel

/-- A walk of SKIP inside a group of 20 words that establishes the map, its header at offset 8. -/
def inGroup (c : WalkCmd) (ws : List Word) : State :=
  { stream ws with off := 8, walk := some ⟨c, .group 20 [] true⟩ }

/-- A walk at the top level, the first header read. -/
def atTop (ws : List Word) : State := { stream ws with off := 8, walk := some ⟨.next, .top⟩ }

/-- R516: a run-bracket marker's body is passed over; R503: a DATA group sets the event number. -/
theorem test_groups :
    field (fun s => (s.off, s.runNumber)) (exec (.groupRunBegin ⟨3, 0, 0, 0, 0, 42⟩) (atTop [0, 42, 7]))
      = some (12, 0)
    ∧ field (fun s => (s.off, s.runNumber)) (exec (.groupRunEnd ⟨2, 0, 0, 1, 0, 42⟩) (atTop [0, 42]))
      = some (8, 0)
    ∧ field (fun s => (s.eventNumber, s.fsm, s.walk)) (exec (.groupData ⟨9, 0, 0, 2, 0, 5⟩) (atTop [0, 5]))
      = some (5, .readingModules, some ⟨.next, .group 7 [] true⟩) := by decide +kernel

/-- V-ASM-8: a GROUP inside a group. -/
theorem test_nested_group :
    faultOf (exec (.groupData ⟨2, 0, 0, 2, 0, 2⟩) { inGroup .next [0, 0] with hdr0 := 0x00800002 })
      = some (true, .unexpectedRecord, 0x00800002) := by decide +kernel

/-- R504: the ignored kinds pass over their bodies and count off their words. -/
theorem test_ignored_records :
    let p := some (12, some (Walk.mk .next (.group 17 [] true)))
    let f : State → Word × Option Walk := fun s => (s.off, s.walk)
    field f (exec (.bat (hdrOf 3 0)) (inGroup .next [0, 0, 7])) = p
    ∧ field f (exec (.tpll (hdrOf 3 0)) (inGroup .next [0, 0, 7])) = p
    ∧ field f (exec (.unknown (hdrOf 3 1)) (inGroup .next [0, 0, 7])) = p
    ∧ field f (exec (.tlu (hdrOf 3 2)) (inGroup .next [0, 0, 7])) = p
    ∧ field f (exec (.other (hdrOf 3 0)) (inGroup .next [0, 0, 7])) = p := by decide +kernel

/-- R515: INFO sets the run number at both places. -/
theorem test_info_record :
    field (fun s => s.runNumber) (exec (.info ⟨2, 0, 0, 0, 0, 42⟩) (atTop [0, 42])) = some 42
    ∧ field (fun s => (s.runNumber, s.walk)) (exec (.info ⟨2, 0, 0, 0, 0, 43⟩) (inGroup .next [0, 43]))
      = some (43, some ⟨.next, .group 18 [] true⟩) := by decide +kernel

/-- Under SKIP a data-bearing record takes its module's ordinal and is passed over (R505, R521). -/
theorem test_data_records_skipped :
    let p := some (12, 1, some (0 : BitVec 4))
    let f : State → Word × Nat × Option (BitVec 4) := fun s => (s.off, s.nmod, readModmap s 3)
    field f (exec (.depfet ⟨3, 0, 0, 0, 3, 1⟩) (inGroup (.skip 1 0) [0, 0, 7])) = p
    ∧ field f (exec (.depfet128 ⟨3, 0, 0, 0, 3, 1⟩) (inGroup (.skip 1 0) [0, 0, 7])) = p
    ∧ field f (exec (.depfetDcd ⟨3, 0, 0, 0, 3, 1⟩) (inGroup (.skip 1 0) [0, 0, 7])) = p := by
  decide +kernel

/-- V-ASM-22, V-ASM-23, V-ASM-14: UNSUPPORTED, CONFIG, SIZE. -/
theorem test_data_records_faults :
    faultOf (exec (.depfet ⟨3, 0, 0, 0, 3, 1⟩) (inGroup .next [0, 0, 0x00100000]))
      = some (true, .unsupported, 0x00100000)
    ∧ faultOf (exec (.depfet128 ⟨3, 0, 0, 0, 3, 1⟩) { inGroup .next [0, 0, 0] with cfgFold := 3 })
      = some (true, .config, 3)
    ∧ faultOf (exec (.depfetDcd ⟨2, 0, 0, 0, 3, 1⟩) { inGroup .next [0, 0, 0] with hdr0 := 0x43000002 })
      = some (true, .size, 0x43000002) := by decide +kernel

/-! ### Matrix commands -/

/-- V-MAT-1, V-MAT-2. -/
theorem test_mresize :
    field (fun s => readMat s 0xB0) (exec (.mresize 0xB0) (withArgs 4 2 0 0 0))
      = some (mat 4 2 (List.replicate 8 0))
    ∧ faultOf (exec (.mresize 0xB0) (withArgs 16385 1 0 0 0)) = some (true, .capacity, 16385) := by
  decide +kernel

/-- W0 4×2 holding CM-1's data, with operands. -/
def base42 (n0 n1 : Word) (x : F64) : State :=
  writeMat 0xB0 (mat 4 2 [f10, f3, f12, f5, f11, f4, f50, f4]) (withArgs n0 n1 0 x 0)

/-- P3's read of pixel (3, 0), and V-MAT-7. -/
theorem test_mget :
    field (fun s => s.resF) (exec (.mget 0xB0) (base42 3 0 0)) = some f50
    ∧ faultOf (exec (.mget 0xB0) (base42 0 2 0)) = some (true, .outOfBounds, 0x00020000) := by
  decide +kernel

/-- V-MAT-5: x = 2, y = 0 is flat index 4. -/
theorem test_mput : dataOf 0xB0 (exec (.mput 0xB0) (base42 2 0 f7))
    = some [f10, f3, f12, f5, f7, f4, f50, f4] := by decide +kernel

/-- The flat read of V-MAT-5, and V-MAT-4. -/
theorem test_mgetf :
    field (fun s => s.resF) (exec (.mgetf 0xB0) (base42 4 0 0)) = some f11
    ∧ faultOf (exec (.mgetf 0xB1) (base42 0 0 0)) = some (true, .outOfBounds, 0) := by decide +kernel

/-- R564, and V-MAT-8. -/
theorem test_mputf :
    dataOf 0xB0 (exec (.mputf 0xB0) (base42 7 0 f7)) = some [f10, f3, f12, f5, f11, f4, f50, f7]
    ∧ faultOf (exec (.mputf 0xB0) (base42 8 0 f7)) = some (true, .outOfBounds, 8) := by decide +kernel

/-- Two 1×2 matrices and ARG_X. -/
def pair (x : F64) (a b : List F64) (idb : Nat) : State :=
  writeMat idb (mat 1 2 b) (writeMat 0xB0 (mat 1 2 a) (withArgs 0 0 0 x 0))

/-- V-MAT-9. -/
theorem test_madd : dataOf 0xB0 (exec (.madd 0xB0 0xB1) (pair fHalf [f1, f2] [f10, f20] 0xB1))
    = some [f6, f12] := by decide +kernel

/-- V-MAT-10. -/
theorem test_msub : dataOf 0xB0 (exec (.msub 0xB0 0x83) (pair f1 [f12, f5] [f10, f6] 0x83))
    = some [f2, 0xBFF0000000000000] := by decide +kernel

/-- V-MAT-12: 0.0 times −5.0 is −0.0; V-MAT-14: an overflow is an infinity. -/
theorem test_mset_overflow :
    dataOf 0xB0 (exec (.mset 0xB0 0xB0) (pair 0 [] [0xC014000000000000, f1] 0xB0))
      = some [0x8000000000000000, 0]
    ∧ dataOf 0xB0 (exec (.madd 0xB0 0xB0) (pair f1 [] [0x7FE1CCF385EBC8A0, f1] 0xB0))
      = some [fInf, f2] := by decide +kernel

/-- V-MAT-17: the tags of E0 after P1. -/
theorem test_minfo_mtrig :
    let s := writeMat 0 ⟨64, 128, [], 3, 7, 1, 0⟩ State.reset
    field (fun s => (s.resN0, s.resN1, s.resN2)) (exec (.minfo 0) s) = some (64, 128, 0x00010003)
    ∧ field (fun s => s.resN0) (exec (.mtrig 0) s) = some 7 := by decide +kernel

/-! ### Calibration commands -/

/-- R610, V-ENC-34. -/
theorem test_acc_clear :
    field (fun s => readAcc s 0) (exec (.accClear 0) (withArgs 1 1 0 0 0)) = some ⟨1, 1, [⟨0, 0, 0⟩]⟩
    ∧ faultOf (exec (.accClear 16) (withArgs 1 1 0 0 0)) = some (true, .illegalOperand, 16) := by
  decide +kernel

/-- ACC[0] 1×1 holding a triple, with a sample. -/
def accState (e m v x w cut : F64) : State :=
  { writeAcc 0 ⟨1, 1, [⟨e, m, v⟩]⟩ (withArgs 0 0 0 x w) with cfgSigmaCut := cut }

/-- V-CAL-1's second sample; V-CAL-2: the outlier is rejected. -/
theorem test_acc_add :
    field (fun s => (readAcc s 0, s.resN0)) (exec (.accAdd 0) (accState f1 0 0 f4 f1 0))
      = some (⟨1, 1, [⟨f2, f2, f8⟩]⟩, 1)
    ∧ field (fun s => (readAcc s 0, s.resN0)) (exec (.accAdd 0) (accState f2 f2 f8 f7 f1 f1))
      = some (⟨1, 1, [⟨f2, f2, f8⟩]⟩, 0) := by decide +kernel

/-- V-CAL-7, V-CAL-8, V-CAL-10. -/
theorem test_acc_add_faults :
    faultOf (exec (.accAdd 0) (accState f1 0 0 f4 0 0)) = some (true, .badOperand, 1)
    ∧ faultOf (exec (.accAdd 0) (accState f1 0 0 fInf 0 0)) = some (true, .badOperand, 0)
    ∧ faultOf (exec (.accAdd 0) (accState f1 0 0 f4 f1 0xBFF0000000000000))
      = some (true, .config, 0x098) := by decide +kernel

/-- ACC[1] 1×3 cleared, W0 1×3 = [1, 2, NaN], W1 1×3 = [0, 0, 1]. -/
def addmState (cut : F64) : State :=
  { writeMat 0xB1 (mat 1 3 [0, 0, f1]) (writeMat 0xB0 (mat 1 3 [f1, f2, fQNaN])
      (writeAcc 1 ⟨1, 3, List.replicate 3 ⟨0, 0, 0⟩⟩ State.reset)) with cfgSigmaCut := cut }

/-- V-CAL-15: the NaN pixel is masked. -/
theorem test_acc_addm :
    field (fun s => (readAcc s 1, s.resN0, s.resN1)) (exec (.accAddm 1 0xB0 0xB1) (addmState 0))
      = some (⟨1, 3, [⟨f1, f1, 0⟩, ⟨f1, f2, 0⟩, ⟨0, 0, 0⟩]⟩, 2, 0) := by decide +kernel

/-- V-CAL-16, V-EXC-5. -/
theorem test_acc_addm_faults :
    faultOf (exec (.accAddm 1 0xB0 0xFF) (addmState 0)) = some (true, .badOperand, 2)
    ∧ faultOf (exec (.accAddm 1 0xB0 0xFF) (addmState 0xBFF0000000000000))
      = some (true, .config, 0x098) := by decide +kernel

/-- V-CAL-3: sigma is sqrt(2); V-CAL-13. -/
theorem test_acc_read :
    field (fun s => (s.resF, s.resN0, s.resN1)) (exec (.accRead 0 3) (accState f4 f2 f8 0 0 0))
      = some (0x3FF6A09E667F3BCD, 1, 1)
    ∧ faultOf (exec (.accRead 0 4) (accState f4 f2 f8 0 0 0)) = some (true, .illegalOperand, 4) := by
  decide +kernel

/-- V-CAL-18. -/
theorem test_cal_commit :
    field (fun s => (readMat s 0x80, readMat s 0x90, readMat s 0xA0, readAcc s 0))
      (exec (.calCommit 0) (accState f2 f2 f8 0 0 0))
      = some (mat 1 1 [f2], mat 1 1 [f2], Mat.empty, ⟨1, 1, [⟨f2, f2, f8⟩]⟩) := by decide +kernel

/-- R621 on 2×1: the three snapshots of module 3. -/
theorem test_cal_init :
    field (fun s => (readMat s 0x83, readMat s 0x93, readMat s 0xA3, readMat s 0x84))
      (exec (.calInit 3) (withArgs 2 1 0 0 0))
      = some (mat 2 1 [0, 0], mat 2 1 [0, 0], mat 2 1 [0, 0], Mat.empty) := by decide +kernel

/-- Module 3's snapshots, 2×3 of zeros. -/
def calState (n0 n1 n2 : Word) (x w : F64) : State :=
  let z := mat 2 3 (List.replicate 6 0)
  writeMat 0x83 z (writeMat 0x93 z (writeMat 0xA3 z (withArgs n0 n1 n2 x w)))

/-- V-CAL-21's rule on 2×3: col 1, row 2 is flat index 5; V-CAL-22's on col 2. -/
theorem test_cal_load :
    field (fun s => ((readMat s 0x83).data, (readMat s 0x93).data, (readMat s 0xA3).data))
      (exec (.calLoad 3) (calState 1 2 1 f7 f9))
      = some ([0, 0, 0, 0, 0, f7], [0, 0, 0, 0, 0, f9], [0, 0, 0, 0, 0, f1])
    ∧ faultOf (exec (.calLoad 3) (calState 2 0 1 f7 f9)) = some (true, .outOfBounds, 2) := by
  decide +kernel

/-! ### Common-mode commands -/

/-- CM-1's state, both stages on, W1 a mask of pixel 6 and W2 a noise map of ones. -/
def cmState (cut : F64) (col : BitVec 16) : State :=
  { writeMat 0xB2 (mat 4 2 (List.replicate 8 f1))
      (writeMat 0xB1 (mat 4 2 [0, 0, 0, 0, 0, 0, f1, 0]) (base42 0 0 0)) with
    cmRowSize := 1, cmColSize := col, cmCut := cut }

/-- CM-1: both stages in order. -/
theorem test_cm_apply_stages :
    field (fun s => ((readMat s 0xB0).data, s.corrRow, s.corrCol))
      (exec (.cmApply 0xB0 0xFF 0xFF) (cmState 0 1))
      = some ([0xBFF0000000000000, 0, 0xBFF0000000000000, 0, 0xBFF0000000000000, 0, 0,
          0xC043000000000000], [f12, f4], [0xBFF0000000000000, f1, 0, f38]) := by decide +kernel

/-- CM-2 with a mask, CM-3 with a noise map. -/
theorem test_cm_apply_mask_noise :
    field (fun s => ((readMat s 0xB0).data, s.corrRow)) (exec (.cmApply 0xB0 0xB1 0xFF) (cmState 0 1))
      = some (List.replicate 8 0, [f11, f4])
    ∧ field (fun s => ((readMat s 0xB0).data, s.corrRow)) (exec (.cmApply 0xB0 0xFF 0xB2) (cmState f20 1))
      = some ([0, 0, 0, 0, 0, 0, f39, 0], [f11, f4]) := by decide +kernel

/-- V-CM-3: NUMERIC names the stage and the block. -/
theorem test_cm_apply_numeric :
    faultOf (exec (.cmApply 0xB0 0xFF 0xFF)
      { writeMat 0xB0 (mat 2 1 [fQNaN, f1]) State.reset with cmColSize := 1 })
      = some (true, .numeric, 0x00010000) := by decide +kernel

/-- R660: an empty matrix gives zero-pixel blocks, each with correction +0.0. -/
theorem test_cm_apply_empty :
    field (fun s => (s.corrRow, s.fault)) (exec (.cmApply 0xB0 0xFF 0xFF)
      { writeMat 0xB0 (mat 0 2 []) State.reset with cmRowSize := 1, cmRowDiv := 3 })
      = some (List.replicate 6 0, false) := by decide +kernel

/-- CM-1's CM_CORR 1, V-CM-13. -/
theorem test_cm_corr :
    field (fun s => (s.resF, s.resN0))
      (exec (.cmCorr 1) { withArgs 3 0 0 0 0 with corrCol := [0xBFF0000000000000, f1, 0, f38] })
      = some (f38, 4)
    ∧ faultOf (exec (.cmCorr 2) State.reset) = some (true, .illegalOperand, 2) := by decide +kernel

/-! ### The HOST and the fetch -/

/-- V-SYS-1. -/
theorem test_reset_reads : [regRead State.reset 0, regRead State.reset 1, regRead State.reset 2,
    regRead State.reset 0x20, regRead State.reset 0x21, regRead State.reset 0x29,
    regRead State.reset 0x2B, regRead State.reset 0x50] = [0x44455046, 0, 0, 2, 1, 1, 1, 0] := by
  decide +kernel

/-- A HOST issues NOP by writing CMD, then the ENGINE runs it. -/
theorem test_host_issue :
    field (fun s => (s.busy, s.pending, s.host)) (step { State.reset with host := [.write 4 0xFFFFFF00] })
      = some (true, 0xFFFFFF00, []) := by decide +kernel

/-- A poke into a queued segment is refused, beside it the byte is written. -/
theorem test_poke :
    refusalOf (step { stream [1] with host := [.poke 3 9] }) = some .queuedInput
    ∧ field (fun s => s.inMem) (step { stream [] with host := [.poke 4 9] }) = some [(4, 9)] := by
  decide +kernel

/-- The word placed is the word run: a command, and a record under a walk. -/
theorem test_fetch_word :
    field (fun s => s.segq) (step (State.reset.withFetchWord 8 0x10)) = some [⟨0, 0⟩]
    ∧ field (fun s => (s.off, s.eventNumber, s.walk)) (step (State.reset.withFetchWord 32 0x00803A00))
      = some (8, 0, some ⟨.next, .group 0x39FE [] true⟩) := by decide +kernel

/-! ### Witnesses: a state and operands that meet the hypotheses of each statement, clause by clause

Each is named after the statement. A hypothesis `s.fault = false` holds at every state below that
does not set it. -/

/-- A state in the fault state. -/
def faulted : State := { State.reset with fault := true, errCode := .overrun, errInfo := 0x10 }

theorem witness_NopAndAbortComplete : State.reset.fault = false
    ∧ { State.reset with busy := true }.busy = true ∧ { State.reset with busy := true }.fault = false
    ∧ opField 0x00000002 = 0x02 ∧ opField 0xFFFFFF00 = 0x00 := by decide

theorem witness_ResetRestoresEveryItem : (∃ t, exec .reset faulted = .next t)
    ∧ { State.reset with busy := true }.busy = true ∧ opField 0x00000001 = 0x01 :=
  ⟨⟨_, rfl⟩, rfl, by decide⟩

theorem witness_FaultStateIgnoresCommands : (Instr.nop).space = .command ∧ Instr.nop ≠ .reset
    ∧ Instr.nop ≠ .abort ∧ faulted.fault = true
    ∧ (let s := { faulted with busy := true, pending := 0x03 };
      s.walk = none ∧ s.host = [] ∧ s.busy = true ∧ s.fault = true
        ∧ decodeCommand s.pending = .error .illegalCommand) := by decide

theorem witness_FirstFaultIsKept : ∃ t, step { faulted with busy := true, pending := 0x10 } = .next t
    ∧ faulted.walk = none ∧ faulted.fault = true := ⟨_, rfl, rfl, rfl⟩

theorem witness_FaultsArePrecise :
    (∃ t, exec (.mget 0xB8) State.reset = .next t ∧ t.fault = true)
    ∧ (∃ t, exec .next State.reset = .next t ∧ t.fault = true ∧ t.errCode = .notOpen)
    ∧ State.reset.walk = none :=
  ⟨⟨_, rfl, rfl⟩, ⟨_, rfl, rfl, rfl⟩, rfl⟩

/-- 63 segments queued and a segment that ends at 2^32; 64 queued; one byte past 2^32. -/
theorem witness_SegPushAppends :
    (let s := { withArgs 0xFFFFFFF0 0x10 0 0 0 with segq := List.replicate 63 ⟨0, 8⟩ };
      s.fault = false ∧ s.segq.length ≠ 64 ∧ s.argN0.toNat + s.argN1.toNat = 2 ^ 32)
    ∧ { State.reset with segq := List.replicate 64 ⟨0, 8⟩ }.segq.length = 64
    ∧ (let s := withArgs 0xFFFFFFF0 0x11 0 0 0;
      s.segq.length ≠ 64 ∧ 2 ^ 32 < s.argN0.toNat + s.argN1.toNat) := by decide +kernel

theorem witness_CursorCommands : (stream [1]).fault = false ∧ (stream [1]).opened = true
    ∧ (stream [1]).curSeg < (stream [1]).segq.length
    ∧ { stream [1] with curSeg := 1 }.segq.length ≤ 1 ∧ State.reset.opened = false := by
  decide +kernel

theorem witness_StreamCommandsNeedOpen :
    Instr.next ∈ [Instr.openNext, .readHeader, .readData, .skipData, .next, .skip]
    ∧ State.reset.fault = false ∧ State.reset.opened = false := by decide

/-- Two segments, 7 bytes left in the first and exactly 8 in the second; then none with 8. -/
theorem witness_ReadHeaderSplices : State.reset.opened = false ∧
    (let s := { stream [1, 2, 3, 4] with segq := [⟨0, 8⟩, ⟨8, 8⟩], off := 1 };
      s.fault = false ∧ s.opened = true ∧ s.segq[s.curSeg + 1]? = some ⟨8, 8⟩
        ∧ 0 + 8 ≤ (8 : Word).toNat
        ∧ ∀ i, i < 1 → ∀ g' ∈ s.segq[s.curSeg + i]?,
          g'.len.toNat < (if i = 0 then s.off.toNat else 0) + 8)
    ∧ (let s := { stream [1] with segq := [⟨0, 7⟩] };
      ∀ i g', s.segq[s.curSeg + i]? = some g' →
        g'.len.toNat < (if i = 0 then s.off.toNat else 0) + 8) := by
  refine ⟨rfl, by decide +kernel, fun i g' h => ?_⟩
  match i, h with
  | 0, h => cases h; decide
  | n + 1, h => simp at h

/-- The largest READ_DATA, a segment that ends with it; one word more; one byte short. -/
theorem witness_DataReadsAndSkips :
    (let s := { stream [] with segq := [⟨0, 4194292⟩], argN0 := 1048572 };
      s.fault = false ∧ s.opened = true ∧ s.segq[s.curSeg]? = some ⟨0, 4194292⟩
        ∧ 4 * s.argN0.toNat = 4194288
        ∧ s.off.toNat + 4 * (1 + s.argN0.toNat) = (4194292 : Word).toNat)
    ∧ (stream []).opened = true ∧ { stream [] with curSeg := 1 }.segq[1]? = none
    ∧ State.reset.opened = false ∧ 4194288 < 4 * (1048573 : Word).toNat
    ∧ (4194291 : Word).toNat < 0 + 4 * (1 + (1048572 : Word).toNat) := by decide +kernel

/-- The last element of a view with both extents given, with each inferred and with none given; one
past it in x and in y; an illegal type; an offset past the buffer; one element too many. -/
theorem witness_ViewReadsOneElement :
    2 < (3 : BitVec 8).toNat ∧ (((1 : BitVec 8), 2) ∈ [((0 : BitVec 8), 1), (1, 2), (2, 4)])
    ∧ (viewState 0 0 0).argN0.toNat ≤ (viewState 0 0 0).dataBuf.length
    ∧ (let s := viewState 0 0x00020001 0x00010000;
      (s.argN1.extractLsb' 0 16).toNat = 1 ∧ (s.argN1.extractLsb' 16 16).toNat = 2
        ∧ 1 * 2 * 2 ≤ s.dataBuf.length - s.argN0.toNat ∧ (s.argN2.extractLsb' 0 16).toNat = 0
        ∧ (s.argN2.extractLsb' 16 16).toNat = 1
        ∧ ∀ i, i < 2 → s.dataBuf[s.argN0.toNat + (0 * 2 + 1) * 2 + i]?
          = some (if i = 0 then 0x00 else 0xFF)
      ∧ (1 : BitVec 8) = 1 ∧ (0xFF00 : BitVec 16).toInt = -256)
    ∧ 4 / (1 * 2) = 2 ∧ 4 / 2 = 2
    ∧ (viewState 5 0 0).dataBuf.length < (5 : Word).toNat
    ∧ (viewState 0 0 0).dataBuf.length - (0 : Word).toNat < 3 * 1 * 2 := by decide +kernel

/-- A frame that just fits, and one byte short; the largest legal start gate and the next one. -/
theorem witness_ConversionCompletes (k : ConvKind) :
    (let s := { withArgs 0 127 0 0 0 with
        dataBuf := List.replicate (k.npix * elemSize (Config.elemType k)) 0 };
      s.fault = false ∧ isWork 0xB7
        ∧ s.argN1.toNat < (if s.cfgInfoLayout = 0 then 2 ^ 7 else 2 ^ 10)
        ∧ s.argN0.toNat + k.npix * elemSize (Config.elemType k) ≤ s.dataBuf.length)
    ∧ ¬ isWork 0xB8
    ∧ (if (withArgs 0 128 0 0 0).cfgInfoLayout = 0 then 2 ^ 7 else 2 ^ 10) ≤ (128 : Word).toNat
    ∧ (List.replicate (k.npix * elemSize (Config.elemType k) - 1) (0 : Byte)).length
        < (0 : Word).toNat + k.npix * elemSize (Config.elemType k) := by
  have h1 := npix_pos k
  have h2 := elemSize_pos (Config.elemType k)
  have : 0 < k.npix * elemSize (Config.elemType k) := Nat.mul_pos h1 h2
  have h3 : (127 : Word).toNat < 2 ^ 7 := by decide
  refine ⟨⟨rfl, by unfold isWork; decide, h3, by simp [withArgs, State.reset]⟩,
    by unfold isWork; decide, by decide, ?_⟩
  simp only [List.length_replicate]
  simp
  omega

/-- The last element of every kind. -/
theorem witness_ConversionPlacesElements : ∀ k : ConvKind, k.npix - 1 < k.npix := by
  intro k; cases k <;> decide

/-- A conversion that completes (P1), a buffer equal to itself (P2), and for P5 a buffer of equal
bytes, its own rotation. -/
theorem witness_ConverterProperties (k : ConvKind) :
    (∃ t, convert k true 0xB0 0 0 { State.reset with
        dataBuf := List.replicate (k.npix * elemSize (Config.elemType k)) 0 } = .ok t)
    ∧ k.npix - 1 < k.npix
    ∧ ∀ (off e i : Nat), bufByte [] (off + e * elemSize (Config.elemType k) + i)
        = bufByte [] (off + ((e / Config.inner k + (Config.gates k - 1)) % Config.gates k
            * Config.inner k + e % Config.inner k) * elemSize (Config.elemType k) + i) := by
  refine ⟨⟨_, convert_eq ?_⟩, witness_ConversionPlacesElements k, fun _ _ _ => rfl⟩
  simp [consumed]

theorem witness_ElementConversionIsExact : (2 ^ 53 - 1 : Int).natAbs < 2 ^ 53
    ∧ (-(2 ^ 53 - 1) : Int).natAbs < 2 ^ 53 := by decide

/-- 128×128, the most pixels; one extent too many. -/
theorem witness_MresizeClears : State.reset.fault = false ∧ isWork 0xB0 ∧ ¬ isWork 0xB8
    ∧ (128 : Word).toNat * (128 : Word).toNat = 16384 ∧ 16384 < (16385 : Word).toNat := by
  unfold isWork; decide

theorem mget_next (a : BitVec 8) (s : State) : ∃ t, exec (.mget a) s = .next t := command_next _ _

theorem mgetf_next (a : BitVec 8) (s : State) : ∃ t, exec (.mgetf a) s = .next t := command_next _ _

theorem mput_next (a : BitVec 8) (s : State) : ∃ t, exec (.mput a) s = .next t := command_next _ _

/-- The last element of W0 4×2 by both indices, and one past it. -/
theorem witness_MatrixReads : (base42 3 1 0).fault = false ∧ 184 ≤ (0xB8 : BitVec 8).toNat
    ∧ (0xB0 : BitVec 8).toNat < 184
    ∧ (base42 3 1 0).argN0.toNat < (readMat (base42 3 1 0) 0xB0).nX
    ∧ (base42 3 1 0).argN1.toNat < (readMat (base42 3 1 0) 0xB0).nY
    ∧ (readMat (base42 3 1 0) 0xB0).nX * (readMat (base42 3 1 0) 0xB0).nY ≤ 16384
    ∧ (∃ t, exec (.mget 0xB0) (base42 3 1 0) = .next t)
    ∧ (∃ t, exec (.mgetf 0xB0) { base42 3 1 0 with argN0 := BitVec.ofNat 32 7 } = .next t)
    ∧ (base42 7 0 0).argN0.toNat < 4 * 2 ∧ 4 ≤ (base42 4 0 0).argN0.toNat
    ∧ 4 * 2 ≤ (base42 8 0 0).argN0.toNat := by
  refine ⟨?_, ?_, ?_, ?_, ?_, ?_, mget_next _ _, mgetf_next _ _, ?_, ?_, ?_⟩ <;> decide +kernel

theorem witness_ElementWrites : (base42 3 1 0).fault = false ∧ isWork 0xB0 ∧ ¬ isWork 0xAF
    ∧ (readMat (base42 3 1 0) 0xB0).wf
    ∧ (base42 3 1 0).argN0.toNat < (readMat (base42 3 1 0) 0xB0).nX
    ∧ (base42 3 1 0).argN1.toNat < (readMat (base42 3 1 0) 0xB0).nY
    ∧ (base42 7 0 0).argN0.toNat < (readMat (base42 3 1 0) 0xB0).nX * (readMat (base42 3 1 0) 0xB0).nY
    ∧ (readMat (base42 3 1 0) 0xB0).nX ≤ (base42 4 0 0).argN0.toNat
    ∧ (readMat (base42 3 1 0) 0xB0).nX * (readMat (base42 3 1 0) 0xB0).nY
      ≤ (base42 8 0 0).argN0.toNat := by
  unfold isWork Mat.wf; decide +kernel

theorem witness_ElementwiseAlgebra : (pair f1 [f1, f2] [f10, f20] 0xB1).fault = false
    ∧ isWork 0xB0 ∧ (0xB1 : BitVec 8).toNat < 184
    ∧ (readMat (pair f1 [f1, f2] [f10, f20] 0xB1) 0xB0).wf
    ∧ (readMat (pair f1 [f1, f2] [f10, f20] 0xB1) 0xB1).wf
    ∧ (readMat (pair f1 [f1, f2] [f10, f20] 0xB1) 0xB0).nX
      = (readMat (pair f1 [f1, f2] [f10, f20] 0xB1) 0xB1).nX
    ∧ (readMat (pair f1 [f1, f2] [f10, f20] 0xB1) 0xB0).nY
      = (readMat (pair f1 [f1, f2] [f10, f20] 0xB1) 0xB1).nY
    ∧ (readMat (pair f1 [f1, f2] [f10, f20] 0xB1) 0xB0).data[1]? = some f2
    ∧ (readMat (pair f1 [f1, f2] [f10, f20] 0xB1) 0xB1).data[1]? = some f20 := by
  unfold isWork Mat.wf; decide +kernel

/-- The first illegal value of each field, W0 against an empty PED3, ACC[1] and W0 against an empty
mask. -/
theorem witness_IllegalOperandsAreRaised : (base42 0 0 0).fault = false
    ∧ 184 ≤ (0xB8 : BitVec 8).toNat ∧ ¬ isWork 0xAF ∧ ¬ isWork 0xB8 ∧ 15 < (16 : BitVec 8).toNat
    ∧ isWork 0xB0 ∧ (0x83 : BitVec 8).toNat < 184 ∧ (0xFE : BitVec 8) ≠ 0xFF
    ∧ 184 ≤ (0xFF : BitVec 8).toNat
    ∧ ¬ ((readMat (base42 0 0 0) 0x83).nX = (readMat (base42 0 0 0) 0xB0).nX
        ∧ (readMat (base42 0 0 0) 0x83).nY = (readMat (base42 0 0 0) 0xB0).nY)
    ∧ ¬ ((readMat (base42 0 0 0) 0xB0).nX = (readMat (base42 0 0 0) 0x83).nX
        ∧ (readMat (base42 0 0 0) 0xB0).nY = (readMat (base42 0 0 0) 0x83).nY)
    ∧ (15 : BitVec 8).toNat ≤ 15
    ∧ ¬ ((readAcc (base42 0 0 0) 15).nX = (readMat (base42 0 0 0) 0xB0).nX
        ∧ (readAcc (base42 0 0 0) 15).nY = (readMat (base42 0 0 0) 0xB0).nY)
    ∧ (readAcc (addmState 0) 1).nX = (readMat (addmState 0) 0xB0).nX
    ∧ (readAcc (addmState 0) 1).nY = (readMat (addmState 0) 0xB0).nY
    ∧ ¬ ((readMat (addmState 0) 0xB2).nX = (readMat (addmState 0) 0xB0).nX
        ∧ (readMat (addmState 0) 0xB2).nY = (readMat (addmState 0) 0xB0).nY) := by
  unfold isWork; decide +kernel

theorem witness_MatrixRegistersHaveFixedWriters :
    (∃ t, exec (.mput 0xB0) (base42 0 0 f1) = .next t) ∧ ¬ mayWrite (.mput 0xB0) 0xB1
    ∧ ¬ mayWrite (.calCommit 15) 0xAF :=
  ⟨mput_next _ _, by simp [mayWrite], by simp [mayWrite, pedId, noiseId]⟩

theorem witness_AccClearZeroes : State.reset.fault = false ∧ (15 : BitVec 8).toNat ≤ 15
    ∧ 15 < (16 : BitVec 8).toNat
    ∧ (16384 : Word).toNat * (1 : Word).toNat = 16384 ∧ 16384 < (129 : Word).toNat * (128 : Word).toNat := by
  decide

/-- The second sample of V-CAL-1, an infinite sample, a zero weight, a negative cut. -/
theorem witness_AccAddUpdatesOrRejects : (accState f1 0 0 f4 f1 0).fault = false
    ∧ (accState f1 0 0 f4 f1 0).argN0.toNat
      < (readAcc (accState f1 0 0 f4 f1 0) 0).nX * (readAcc (accState f1 0 0 f4 f1 0) 0).nY
    ∧ (readAcc (accState f1 0 0 f4 f1 0) 0).nX * (readAcc (accState f1 0 0 f4 f1 0) 0).nY
      ≤ (1 : Word).toNat
    ∧ 15 < (16 : BitVec 8).toNat ∧ (0 : BitVec 8).toNat ≤ 15
    ∧ (readAcc (accState f1 0 0 f4 f1 0) 0).cells[0]? = some ⟨f1, 0, 0⟩
    ∧ fFinite f4 = true ∧ fFinite f1 = true ∧ fLt 0 f1 = true
    ∧ ¬ (fIsNaN 0 = true ∨ fLt 0 0 = true)
    ∧ ¬ fFinite fInf = true ∧ ¬ (fFinite 0 = true ∧ fLt 0 0 = true)
    ∧ (fIsNaN 0xBFF0000000000000 = true ∨ fLt 0xBFF0000000000000 0 = true) := by decide +kernel

theorem witness_FirstSampleIsAccepted :
    (∃ t, exec (.accAdd 0) (accState 0 0 0 f4 f1 fHalf) = .next t ∧ t.fault = false)
    ∧ (readAcc (accState 0 0 0 f4 f1 fHalf) 0).cells[0]? = some ⟨0, 0, 0⟩
    ∧ (accState 0 0 0 f4 f1 fHalf).argN0.toNat < (readAcc (accState 0 0 0 f4 f1 fHalf) 0).nX
      * (readAcc (accState 0 0 0 f4 f1 fHalf) 0).nY := by
  refine ⟨⟨_, rfl, ?_⟩, ?_, ?_⟩ <;> decide +kernel

/-- V-CAL-15's state under a mask that hides the NaN; with NONE the added matrix is W1, without NaN;
a negative cut; and with NONE the NaN pixel 2 of W0, the pixels before it finite. -/
theorem witness_AccAddmAddsEveryUnmaskedPixel : (addmState 0).fault = false
    ∧ (readAcc (addmState 0) 1).wf ∧ (readMat (addmState 0) 0xB0).wf
    ∧ (readMat (addmState 0) 0xB1).nX = (readMat (addmState 0) 0xB0).nX
    ∧ (readMat (addmState 0) 0xB1).nY = (readMat (addmState 0) 0xB0).nY
    ∧ (readAcc (addmState 0) 1).nX = (readMat (addmState 0) 0xB0).nX
    ∧ (readAcc (addmState 0) 1).nY = (readMat (addmState 0) 0xB0).nY
    ∧ ¬ (fIsNaN (addmState 0).cfgSigmaCut = true ∨ fLt (addmState 0).cfgSigmaCut 0 = true)
    ∧ (let s := addmState 0xBFF0000000000000;
      fIsNaN s.cfgSigmaCut = true ∨ fLt s.cfgSigmaCut 0 = true)
    ∧ (readMat (addmState 0) 0xB0).data = [f1, f2, fQNaN] ∧ maskedAt none 2 = false
    ∧ ¬ fFinite fQNaN = true ∧ fFinite f1 = true ∧ fFinite f2 = true := by
  unfold Mat.wf Acc.wf; decide +kernel

/-- The sample hypothesis of the same statement, with the mask W1 and with NONE. -/
theorem witness_AccAddm_samples :
    (∀ (k : Nat) (v : F64), (readMat (addmState 0) 0xB0).data[k]? = some v →
      maskedAt (some (readMat (addmState 0) 0xB1)) k = false → fFinite v = true)
    ∧ ∀ (k : Nat) (v : F64), (readMat (addmState 0) 0xB1).data[k]? = some v →
      maskedAt none k = false → fFinite v = true := by
  have h0 : (readMat (addmState 0) 0xB0).data = [f1, f2, fQNaN] := by decide +kernel
  have h1 : (readMat (addmState 0) 0xB1).data = [0, 0, f1] := by decide +kernel
  have h2 : maskedAt (some (readMat (addmState 0) 0xB1)) 2 = true := by decide +kernel
  rw [h0, h1]
  refine ⟨fun k v hv hm => ?_, fun k v hv _ => ?_⟩
  · generalize some (readMat (addmState 0) 0xB1) = m at h2 hm
    rcases k with _ | _ | _ | n
    · cases hv; decide
    · cases hv; decide
    · exact absurd (h2.symm.trans hm) (by decide)
    · cases hv
  · rcases k with _ | _ | _ | n
    · cases hv; decide
    · cases hv; decide
    · cases hv; decide
    · cases hv

theorem witness_AccReadAnswers : (accState f4 f2 f8 0 0 0).fault = false
    ∧ 15 < (16 : BitVec 8).toNat ∧ (0 : BitVec 8).toNat ≤ 15
    ∧ 3 < (4 : BitVec 8).toNat ∧ (3 : BitVec 8).toNat ≤ 3
    ∧ (readAcc (accState f4 f2 f8 0 0 0) 0).nX * (readAcc (accState f4 f2 f8 0 0 0) 0).nY
      ≤ (1 : Word).toNat
    ∧ (0 : Word).toNat < (readAcc (accState f4 f2 f8 0 0 0) 0).nX
      * (readAcc (accState f4 f2 f8 0 0 0) 0).nY
    ∧ (readAcc (accState f4 f2 f8 0 0 0) 0).cells[0]? = some ⟨f4, f2, f8⟩ := by decide +kernel

theorem witness_CalCommitReplacesSnapshots : (accState f2 f2 f8 0 0 0).fault = false
    ∧ 15 < (16 : BitVec 8).toNat
    ∧ (0 : BitVec 8).toNat ≤ 15 ∧ (readAcc (accState f2 f2 f8 0 0 0) 0).wf
    ∧ (readAcc (accState f2 f2 f8 0 0 0) 0).cells[0]? = some ⟨f2, f2, f8⟩ := by
  unfold Acc.wf; decide +kernel

/-- The largest CAL_INIT, one past it; the last pixel of 2×3 snapshots, and one past it in x; and the
same pixel where the mask is 1×5 and holds one pixel less. -/
theorem witness_CalInitAndLoad : (calState 1 2 1 f7 f9).fault = false ∧ (3 : BitVec 8).toNat ≤ 15
    ∧ 15 < (16 : BitVec 8).toNat
    ∧ (1 : Word).toNat * (16384 : Word).toNat = 16384 ∧ 16384 < (16385 : Word).toNat
    ∧ (readMat (calState 1 2 1 f7 f9) 0x83).nX ≤ (2 : Word).toNat
    ∧ (calState 1 2 1 f7 f9).argN0.toNat < (readMat (calState 1 2 1 f7 f9) 0x83).nX
    ∧ (calState 1 2 1 f7 f9).argN1.toNat < (readMat (calState 1 2 1 f7 f9) 0x83).nY
    ∧ 5 = (calState 1 2 1 f7 f9).argN0.toNat * (readMat (calState 1 2 1 f7 f9) 0x83).nY
      + (calState 1 2 1 f7 f9).argN1.toNat
    ∧ (∀ id ∈ [0x93, 0xA3], 5 < (readMat (calState 1 2 1 f7 f9) id).nX
      * (readMat (calState 1 2 1 f7 f9) id).nY)
    ∧ (let s := writeMat 0xA3 (mat 1 5 (List.replicate 5 0)) (calState 1 2 1 f7 f9);
      ∃ id ∈ [0x93, 0xA3], (readMat s id).nX * (readMat s id).nY ≤ 5) := by
  decide +kernel

/-- The last pixel of CM-1's matrix, in the last block of each stage. -/
theorem witness_BlocksPartitionTheMatrix : cmEnabled (cmState 0 1) .row = true
    ∧ cmLegal (cmState 0 1) .row 4 2 = true ∧ cmEnabled (cmState 0 1) .col = true
    ∧ cmLegal (cmState 0 1) .col 4 2 = true ∧ 7 < 4 * 2
    ∧ cmInBlock (cmState 0 1) .row 4 2 1 7 = true ∧ cmInBlock (cmState 0 1) .col 4 2 3 7 = true := by
  decide +kernel

/-- CM-1's state with both stages, a mask and a noise map; a row division count of 0; a column size
that does not divide; and the state of V-CM-3 with the row stage, whose block 0 holds a NaN. -/
theorem witness_RowStageCorrectsEveryBlock :
    (let s := cmState f20 1;
      s.fault = false ∧ (∀ o ∈ [(0xB1 : BitVec 8), 0xB2], o = 0xFF ∨ o.toNat < 184
          ∧ (readMat s o.toNat).nX = (readMat s 0xB0).nX ∧ (readMat s o.toNat).nY = (readMat s 0xB0).nY)
        ∧ s.cmRowDiv ≠ 0 ∧ (readMat s 0xB0).nY % s.cmRowSize.toNat = 0
        ∧ (readMat s 0xB0).nX % s.cmRowDiv.toNat = 0
        ∧ s.cmColDiv ≠ 0 ∧ (readMat s 0xB0).nX % s.cmColSize.toNat = 0
        ∧ (readMat s 0xB0).nY % s.cmColDiv.toNat = 0
        ∧ (readMat s 0xB0).data.all fFinite = true)
    ∧ (readMat (cmState f20 1) 0xB0).wf ∧ isWork 0xB0
    ∧ (let s := { cmState 0 0 with cmRowDiv := 0 }; s.cmRowSize ≠ 0 ∧ s.cmRowDiv = 0)
    ∧ (let s := cmState 0 3; s.cmColSize ≠ 0 ∧ (readMat s 0xB0).nX % s.cmColSize.toNat ≠ 0)
    ∧ (let s := { writeMat 0xB0 (mat 2 1 [fQNaN, f1]) State.reset with cmRowSize := 1 };
      cmEnabled s .row = true ∧ 0 < cmBlockCount s .row 2 1
        ∧ (cmSelection s .row 2 1 0 none none [fQNaN, f1]).any fIsNaN = true) := by
  refine ⟨by decide +kernel, by unfold Mat.wf; decide +kernel, by unfold isWork; decide,
    by decide +kernel, by decide +kernel, by decide +kernel⟩

theorem witness_MaskedPixelsAreZeroAfterApply :
    (∃ t, exec (.cmApply 0xB0 0xB1 0xFF) (cmState 0 1) = .next t ∧ t.fault = false)
    ∧ (0xB1 : BitVec 8) ≠ 0xFF ∧ maskedAt (some (readMat (cmState 0 1) 0xB1)) 6 = true
    ∧ 6 < (readMat (cmState 0 1) 0xB0).data.length := by
  have h : field (fun s => s.fault) (exec (.cmApply 0xB0 0xB1 0xFF) (cmState 0 1)) = some false := by
    decide +kernel
  refine ⟨?_, by decide, by decide +kernel, by decide +kernel⟩
  revert h
  cases exec (.cmApply 0xB0 0xB1 0xFF) (cmState 0 1) with
  | next t => exact fun h => ⟨t, rfl, by simpa [field] using h⟩
  | fault r => exact fun h => nomatch h
  | refused r => exact fun h => nomatch h

theorem witness_CorrectionIsAMedian : [f1] ≠ [] := by decide

/-- The last recorded correction, and one past it. -/
theorem witness_CmCorrAnswers : 1 < (2 : BitVec 8).toNat
    ∧ (((1 : BitVec 8), [f1, f2]) ∈ [((0 : BitVec 8), ([] : List F64)), (1, [f1, f2])])
    ∧ [f1, f2][(1 : Word).toNat]? = some f2 ∧ [f1, f2].length ≤ (2 : Word).toNat := by decide

/-- A header at the end of its segment, of the least size 2 and of size 3 with its body word. -/
theorem witness_RecordsAtTopLevel :
    (let s := atTop [0, 42, 7];
      s.walk = some ⟨.next, .top⟩ ∧ s.segq[s.curSeg]? = some ⟨0, 12⟩ ∧ s.off.toNat ≤ (12 : Word).toNat
        ∧ 2 ≤ (hdrOf 3 0).eventSize.toNat
        ∧ s.off.toNat + 4 * ((hdrOf 3 0).eventSize.toNat - 2) = (12 : Word).toNat) := by
  decide +kernel

/-- Under NEXT and under SKIP, with the map being established and with it valid. -/
theorem witness_RecordsPassedInGroup :
    (let s := inGroup (.skip 1 0) [0, 0, 7];
      s.walk = some ⟨.skip 1 0, .group 20 [] true⟩ ∧ s.segq[s.curSeg]? = some ⟨0, 12⟩
        ∧ 3 ≤ (hdrOf 3 0).eventSize.toNat ∧ (hdrOf 3 0).eventSize.toNat ≤ 20
        ∧ s.off.toNat + 4 * ((hdrOf 3 0).eventSize.toNat - 2) = (12 : Word).toNat
        ∧ (hdrOf 3 0).moduleNo ∉ ([] : List (BitVec 4)))
    ∧ (let s := { inGroup (.skip 1 0) [0, 0, 7] with
          walk := some ⟨.skip 1 0, .group 3 [] false⟩, mapValid := true
          modmap := (Vector.replicate 16 none).set 0 (some 0) };
      readModmap s (hdrOf 3 0).moduleNo ≠ none ∧ (hdrOf 3 0).eventSize.toNat = 3) := by
  decide +kernel

/-- A walk inside a group whose next record has the given number of payload words, all zero. -/
def blob (n : BitVec 20) (fold : BitVec 3) (est : Bool) : State :=
  { State.reset with
    opened := true, segq := [⟨0, BitVec.ofNat 32 (8 + 4 * (1 + n.toNat))⟩], off := 8, cfgFold := fold
    walk := some ⟨.next, .group (3 + n.toNat) [] est⟩, mapValid := !est
    modmap := (Vector.replicate 16 none).set 0 (if est then none else some 15) }

/-- The payload of the three kinds: large enough for one frame whatever the element type. -/
theorem witness_DataRecordDecodesEveryFrame (t : ConvKind) (n : BitVec 20) (est : Bool)
    (fold : BitVec 3) (ht : n.toNat = t.npix) :
    let s := blob n fold est
    let h : RecHdr := ⟨n + 3, 0, 0, 0, 0, 1⟩
    let payload := memReadN s.inMem (0 + s.off.toNat + 4) (4 * (h.eventSize.toNat - 3))
    s.walk = some ⟨.next, .group (3 + n.toNat) [] est⟩
      ∧ s.segq[s.curSeg]? = some ⟨0, BitVec.ofNat 32 (8 + 4 * (1 + n.toNat))⟩
      ∧ 3 ≤ h.eventSize.toNat ∧ h.eventSize.toNat ≤ 3 + n.toNat
      ∧ h.moduleNo ∉ ([] : List (BitVec 4))
      ∧ s.off.toNat + 4 * (h.eventSize.toNat - 2)
          ≤ (BitVec.ofNat 32 (8 + 4 * (1 + n.toNat)) : Word).toNat
      ∧ (est = true ∧ 0 = s.nmod ∧ s.nmod < 16
          ∨ est = false ∧ readModmap s h.moduleNo = some (BitVec.ofNat 4 15) ∧ 15 < 16)
      ∧ (memWord s.inMem (0 + s.off.toNat)).getLsbD 20 = false
      ∧ (1 + s.tLatch.toNat) * (t.npix * elemSize (Config.elemType t)) ≤ payload.length := by
  have hn : t.npix ≤ 16384 := npix_le t
  have he := elemSize_le (Config.elemType t)
  have hs : (n + 3 : BitVec 20).toNat = n.toNat + 3 := by
    rw [BitVec.toNat_add]
    have : (3 : BitVec 20).toNat = 3 := rfl
    omega
  simp only [hs]
  refine ⟨rfl, rfl, by omega, by omega, by simp, ?_, ?_, ?_, ?_⟩
  · simp only [BitVec.toNat_ofNat, blob]
    have : (8 : Word).toNat = 8 := rfl
    omega
  · cases est
    · exact .inr ⟨rfl, rfl, Nat.lt_succ_self 15⟩
    · exact .inl ⟨rfl, rfl, Nat.succ_pos 15⟩
  · have : memWord (blob n fold est).inMem (0 + (blob n fold est).off.toNat) = 0 := by
      show le32 inDefault inDefault inDefault inDefault = 0
      decide
    rw [this]
    decide
  · have h0 : (blob n fold est).tLatch.toNat = 0 := rfl
    have := Nat.mul_le_mul_left t.npix he
    simp only [h0, memReadN, List.length_map, List.length_range]
    omega

/-- Which converter the five dispatches of the statement take: the sizes above are met by them. -/
theorem witness_DataRecordDecodesEveryFrame_sizes :
    (8192 : BitVec 20).toNat = ConvKind.s3a.npix ∧ (16384 : BitVec 20).toNat = ConvKind.s3b2.npix
    ∧ (16384 : BitVec 20).toNat = ConvKind.s3b4.npix ∧ (2048 : BitVec 20).toNat = ConvKind.dcd2.npix
    ∧ (2048 : BitVec 20).toNat = ConvKind.dcd4.npix ∧ (blob 2048 2 true).cfgFold = 2
    ∧ (blob 2048 4 false).cfgFold = 4 := by decide

/-- One header for each clause on the record, each at the boundary of its check. -/
theorem witness_MisplacedRecordsFault :
    (atTop [0, 0]).walk = some ⟨.next, .top⟩ ∧ (hdrOf 1 0).eventSize.toNat < 2
    ∧ 2 ≤ (hdrOf 2 0).eventSize.toNat
    ∧ RecKind.tlu ∉ [RecKind.groupRunBegin, .groupRunEnd, .groupData, .info]
    ∧ (inGroup .next [0, 0]).walk = some ⟨.next, .group 20 [] true⟩
    ∧ 20 < (hdrOf 21 0).eventSize.toNat ∧ (hdrOf 20 0).eventSize.toNat ≤ 20
    ∧ RecKind.groupData ∈ [RecKind.groupRunBegin, .groupRunEnd, .groupData]
    ∧ RecKind.depfet ∈ [RecKind.depfet, .depfet128, .depfetDcd]
    ∧ (hdrOf 2 0).eventSize.toNat = 2 ∧ 3 ≤ (hdrOf 3 0).eventSize.toNat
    ∧ (hdrOf 3 0).moduleNo ∈ [(0 : BitVec 4)] ∧ (hdrOf 3 0).moduleNo ∉ [(1 : BitVec 4)]
    ∧ readModmap { State.reset with walk := some ⟨.next, .group 3 [1] false⟩ } (hdrOf 3 0).moduleNo
      = none := by decide +kernel

/-- The clauses of the same statement on the fetch: one word left, a module missing, no header left, a
reserved device type, and a reserved event type under a device type that is none. -/
theorem witness_MisplacedRecordsFault_fetch :
    ([3] : List (BitVec 4)).length < { State.reset with nmod := 2 }.nmod
    ∧ (∀ i g, (stream [1]).segq[(stream [1]).curSeg + i]? = some g →
        g.len.toNat < (if i = 0 then (stream [1]).off.toNat else 0) + 8)
    ∧ (let u := (readHeader (stream [0x10C00000, 1])).1;
      readHeader (stream [0x10C00000, 1]) = (u, true)
        ∧ (u.hdr0.extractLsb' 28 4).toNat ∈ [0x1, 0x6, 0x7, 0x8, 0x9, 0xC])
    ∧ (let u := (readHeader (stream [0xFFFFFFFF, 1])).1;
      readHeader (stream [0xFFFFFFFF, 1]) = (u, true)
        ∧ (u.hdr0.extractLsb' 28 4).toNat ∉ [0x1, 0x6, 0x7, 0x8, 0x9, 0xC]
        ∧ u.hdr0.extractLsb' 22 2 = 3) := by
  refine ⟨by decide, fun i g h => ?_, ⟨Prod.ext rfl (by decide +kernel), by decide +kernel⟩,
    ⟨Prod.ext rfl (by decide +kernel), by decide +kernel, by decide +kernel⟩⟩
  match i, h with
  | 0, h => cases h; decide
  | n + 1, h => simp [stream] at h

/-- The clauses of the same statement on the data: a body one word too long, a zero-suppressed blob, a
fold of 3, and a payload of no bytes. -/
theorem witness_MisplacedRecordsFault_data (t : ConvKind) :
    (let s := inGroup .next [0, 0, 0x00100000];
      s.segq[s.curSeg]? = some ⟨0, 12⟩ ∧ 2 < (hdrOf 4 0).eventSize.toNat
        ∧ (hdrOf 4 0).eventSize.toNat ≤ 20
        ∧ (12 : Word).toNat - s.off.toNat < 4 * ((hdrOf 4 0).eventSize.toNat - 2)
        ∧ s.off.toNat + 4 * ((hdrOf 3 0).eventSize.toNat - 2) ≤ (12 : Word).toNat
        ∧ (memWord s.inMem (0 + s.off.toNat)).getLsbD 20 = true
        ∧ (hdrOf 3 0).moduleNo ∉ ([] : List (BitVec 4)))
    ∧ (let s := { inGroup .next [0, 0, 0] with cfgFold := 3 };
      (memWord s.inMem (0 + s.off.toNat)).getLsbD 20 = false ∧ s.cfgFold ≠ 2 ∧ s.cfgFold ≠ 4)
    ∧ 0 * (t.npix * elemSize (Config.elemType t)) ≤ 4 * ((hdrOf 3 0).eventSize.toNat - 3)
    ∧ 4 * ((hdrOf 3 0).eventSize.toNat - 3) < (0 + 1) * (t.npix * elemSize (Config.elemType t)) := by
  have h : 4 * ((hdrOf 3 0).eventSize.toNat - 3) = 0 := by decide
  have := Nat.mul_pos (npix_pos t) (elemSize_pos (Config.elemType t))
  exact ⟨by decide +kernel, by decide +kernel, by omega, by omega⟩

/-- An action that ends the walk, one in which a fault strikes, and a state from which NEXT and SKIP
walk. -/
theorem witness_WalkActionsAreEngineSteps :
    (∃ t, walkStep ⟨.next, .top⟩ { stream [] with walk := some ⟨.next, .top⟩ } = .ok t)
    ∧ (∃ r, walkStep ⟨.next, .group 1 [] true⟩
        { stream [] with walk := some ⟨.next, .group 1 [] true⟩ } = .error r)
    ∧ (let s := { stream [] with argN0 := 1, cfgMaxEvents := 4, eventCount := 3 };
      s.fault = false ∧ s.opened = true ∧ s.walk = none
        ∧ s.eventCount.toNat < s.cfgMaxEvents.toNat ∧ s.argN0 ≠ 0
        ∧ (∃ t, exec .next s = .next t) ∧ ∃ t, exec .skip s = .next t) :=
  ⟨⟨_, rfl⟩, ⟨_, rfl⟩, rfl, rfl, rfl, by decide, by decide, ⟨_, rfl⟩, ⟨_, rfl⟩⟩

/-- The limit reached exactly; no limit and no segment; a segment of 7 bytes. -/
theorem witness_NextStopsAtLimitAndEnd :
    (let s := { stream [] with cfgMaxEvents := 3, eventCount := 3 };
      s.fault = false ∧ s.opened = true ∧ s.walk = none ∧ s.cfgMaxEvents ≠ 0
        ∧ s.cfgMaxEvents.toNat ≤ s.eventCount.toNat)
    ∧ (stream []).cfgMaxEvents = 0
    ∧ (∀ i, ∀ g ∈ [Seg.mk 0 7][i]?, g.len.toNat < (if i = 0 then 0 else 0) + 8)
    ∧ (3 : Word).toNat < (4 : Word).toNat := by
  refine ⟨by decide +kernel, rfl, fun i g h => ?_, by decide⟩
  match i, h with
  | 0, h => cases h; decide
  | n + 1, h => simp at h

/-- P1's input without its INFO record: the group header in one segment, its DEPFET record in the
next. -/
def p1 : State :=
  { State.reset with
    opened := true, segq := [⟨0, 8⟩, ⟨0x1000, 32780⟩]
    inMem := memWriteBytes (memWriteBytes [] 0x1000 ([0x23802003, 7, 0x400].map bytesOf).flatten) 0
      ([0x00802005, 7].map bytesOf).flatten }

theorem witness_NextDeliversOneModuleEvent :
    let hg : RecHdr := ⟨8197, 0, 0, 2, 0, 7⟩
    let hd : RecHdr := ⟨8195, 0, 0, 2, 3, 7⟩
    let u1 := (readHeader p1).1
    let u2 := (readHeader u1).1
    p1.fault = false ∧ p1.opened = true ∧ p1.walk = none ∧ p1.mapValid = false ∧ p1.nmod = 0
      ∧ p1.tLatch = 0 ∧ p1.cfgMaxEvents = 0 ∧ readHeader p1 = (u1, true)
      ∧ decodeRecord u1.hdr0 u1.hdr1 = .ok (.groupData, hg) ∧ readHeader u1 = (u2, true)
      ∧ decodeRecord u2.hdr0 u2.hdr1 = .ok (.depfet, hd)
      ∧ hg.eventSize.toNat = 2 + hd.eventSize.toNat ∧ 3 ≤ hd.eventSize.toNat
      ∧ u2.segq[u2.curSeg]? = some ⟨0x1000, 32780⟩
      ∧ u2.off.toNat + 4 * (hd.eventSize.toNat - 2) ≤ (32780 : Word).toNat
      ∧ (memWord p1.inMem (0x1000 + u2.off.toNat)).getLsbD 20 = false
      ∧ 8192 * elemSize (Config.elemType .s3a)
        ≤ (memReadN p1.inMem (0x1000 + u2.off.toNat + 4) (4 * (hd.eventSize.toNat - 3))).length := by
  refine ⟨rfl, rfl, rfl, rfl, rfl, rfl, rfl, ?_, by decide +kernel, ?_, by decide +kernel,
    by decide, by decide, by decide +kernel, by decide +kernel, by decide +kernel, ?_⟩
  · exact Prod.ext rfl (by decide +kernel)
  · exact Prod.ext rfl (by decide +kernel)
  · have := elemSize_le (Config.elemType .s3a)
    simp only [memReadN, List.length_map, List.length_range]
    show 8192 * elemSize (Config.elemType .s3a) ≤ 4 * (8195 - 3)
    omega

/-- No event; an empty queue; an empty first group. -/
theorem witness_SkipCountsEvents :
    (stream []).fault = false ∧ (stream []).opened = true ∧ (stream []).walk = none
    ∧ (stream []).argN0 = 0 ∧ { stream [] with argN0 := 1 }.argN0 ≠ 0
    ∧ (∀ i, ∀ g ∈ [Seg.mk 0 0][i]?, g.len.toNat < (if i = 0 then 0 else 0) + 8)
    ∧ (let s := { stream [0x00800002, 5] with argN0 := 1 };
      s.mapValid = false ∧ s.nmod = 0 ∧ readHeader s = ((readHeader s).1, true)
        ∧ decodeRecord (readHeader s).1.hdr0 (readHeader s).1.hdr1 = .ok (.groupData, ⟨2, 0, 0, 2, 0, 5⟩)) := by
  refine ⟨rfl, rfl, rfl, rfl, by decide, fun i g h => ?_, rfl, rfl,
    Prod.ext rfl (by decide +kernel), by decide +kernel⟩
  match i, h with
  | 0, h => cases h; decide
  | n + 1, h => simp at h

/-- SKIP of 2, in the statement's two parts: over two empty groups; over one; and with a fault in the
first or in the second event. -/
theorem witness_SkipCountsEvents_parts :
    2 ≤ (2 : Word).toNat
    ∧ field (fun t => (t.fault, t.resN0, field (fun u => (u.fault, u.resN0))
        (exec .skip { t with argN0 := (2 : Word) - 1 })))
        (exec .skip { stream [0x00800002, 5, 0x00800002, 6] with argN0 := 1 })
      = some (false, 1, some (false, 1))
    ∧ field (fun t => (t.fault, t.resN0)) (exec .skip { stream [] with argN0 := 1 })
      = some (false, 0)
    ∧ field (fun t => t.fault) (exec .skip { stream [0x10000002, 5] with argN0 := 1 }) = some true
    ∧ field (fun t => (t.fault, t.resN0, field (fun u => u.fault)
        (exec .skip { t with argN0 := (2 : Word) - 1 })))
        (exec .skip { stream [0x00800002, 5, 0x10000002, 6] with argN0 := 1 })
      = some (false, 1, some true) := by decide +kernel

theorem witness_SkipLeavesEventData : ∃ t, exec .skip (stream []) = .next t := ⟨_, rfl⟩

theorem witness_SlotMapIsImmutable :
    let s := { State.reset with mapValid := true, nmod := 1, nslots := 1 }
    (Instr.segClear).space = .command ∧ s.mapValid = true
      ∧ ∃ t, exec .segClear s = .next t ∧ t.fault = false := ⟨rfl, rfl, _, rfl, rfl⟩

theorem witness_StepRunsThePendingCommand :
    let s := { State.reset with busy := true, pending := 0x0000B040 }
    s.walk = none ∧ s.busy = true ∧ s.host = [] ∧ decodeCommand s.pending = .ok (.mresize 0xB0)
      ∧ ∃ rest, { s with host := [.wait] }.host = .wait :: rest :=
  ⟨rfl, rfl, rfl, by decide, [], rfl⟩

theorem witness_StepRunsTheRecordAtTheCursor :
    let s := { stream [0x50000002, 0] with walk := some ⟨.next, .group 2 [] true⟩ }
    s.segq[s.curSeg]? = some ⟨0, 8⟩ ∧ s.off.toNat + 8 ≤ (8 : Word).toNat
      ∧ decodeRecordBytes (memReadN s.inMem (0 + s.off.toNat) 8) = .ok (.bat ⟨2, 0, 0, 0, 0, 0⟩, [])
      ∧ { s with walk := some ⟨.next, .top⟩ }.walk = some ⟨.next, .top⟩ := by decide +kernel

/-- The least and the greatest reserved opcode. -/
theorem witness_ReservedOpcodesAreIllegal :
    let s := { State.reset with busy := true, pending := 0xFF }
    s.walk = none ∧ s.host = [] ∧ s.busy = true ∧ s.fault = false
      ∧ decodeCommand s.pending = .error .illegalCommand
      ∧ decodeCommand 0x03 = .error .illegalCommand := by decide

theorem witness_WritesWhileBusyOverrun :
    { State.reset with busy := true }.busy = true ∧ 4 * (4 : BitVec 10).toNat = 0x010
    ∧ opField 0x00000002 ≠ 0x01 ∧ 4 * (0x2D : BitVec 10).toNat = 0x0B4 ∧ State.reset.walk = none
    ∧ { faulted with busy := true }.fault = true := by decide

/-- An RO register and an unmapped offset; the first and the last RW register with fields. -/
theorem witness_RegisterWritesReadBack : State.reset.busy = false ∧ State.reset.walk = none
    ∧ 4 * (0x0C : BitVec 10).toNat ∉ [0x010, 0x014, 0x018, 0x01C, 0x020, 0x024, 0x028, 0x02C, 0x080,
      0x084, 0x088, 0x08C, 0x090, 0x098, 0x09C, 0x0A0, 0x0A4, 0x0A8, 0x0AC, 0x0B0, 0x0B4]
    ∧ 4 * (0x3FF : BitVec 10).toNat = 0xFFC
    ∧ 4 * (0x20 : BitVec 10).toNat = 0x080 ∧ 4 * (0x2D : BitVec 10).toNat = 0x0B4
    ∧ (0x21 : BitVec 10) ≠ 0x20 := by decide

/-- The largest counts, the last MODMAP register with an entry, and one without. -/
theorem witness_ResetValuesRead :
    let s := { State.reset with
      nmod := 16, nslots := 128, modmap := (Vector.replicate 16 none).set 15 (some 15) }
    s.nmod ≤ 16 ∧ s.nslots ≤ 128 ∧ 4 * (0x5F : BitVec 10).toNat = 0x140 + 4 * (15 : BitVec 4).toNat
      ∧ readModmap s 15 = some 15 ∧ readModmap s 14 = none
      ∧ (s.errCode, regRead s 2) ∈ [(ErrCode.none, 0x00)] := by decide +kernel

/-- The last byte of a queued segment, and the byte after it. -/
theorem witness_InputMemoryIsTheHosts : (∃ t, exec .nop State.reset = .next t)
    ∧ (let s := { stream [1] with host := [.poke 3 9] };
      s.inMem.wf = true ∧ s.walk = none ∧ ∃ g ∈ s.segq, g.base.toNat ≤ (3 : Word).toNat
        ∧ (3 : Word).toNat < g.base.toNat + g.len.toNat)
    ∧ (∀ g ∈ (stream [1]).segq, (4 : Word).toNat < g.base.toNat
        ∨ g.base.toNat + g.len.toNat ≤ (4 : Word).toNat) :=
  ⟨⟨_, rfl⟩, by decide +kernel, by decide +kernel⟩

theorem witness_DecodeEncodeAgree : (Instr.msub 0xB0 0x83).wellFormed = true
    ∧ (Instr.groupData ⟨8197, 1, 0, 2, 15, 7⟩).wellFormed = true := by decide

theorem witness_HeaderWordsHaveOneMeaning :
    decodeRecord 0xFFBFFFFF 5 = .ok (.other, ⟨1048575, 1, 1, 2, 15, 5⟩) := by decide

/-- A queued segment half read, with a byte of IN written. -/
theorem witness_StreamInvariantKept : StreamOk { stream [1, 2] with off := 4 }
    ∧ ∃ t, step { stream [1, 2] with off := 4 } = .next t := by
  refine ⟨⟨by decide, ?_, by decide, ?_, ?_⟩, _, rfl⟩
  · intro g hg
    have : g = ⟨0, 8⟩ := by simpa [stream] using hg
    subst this
    decide
  · intro g hg
    have : g = ⟨0, 8⟩ := (Option.some.inj hg).symm
    subst this
    decide
  · intro h
    cases h

theorem witness_MemoryAndFaultInvariantsKept : MemoryOk (stream [1, 2])
    ∧ FaultOk faulted ∧ (∃ t, step (stream [1, 2]) = .next t) ∧ ∃ t, step faulted = .next t :=
  ⟨by unfold MemoryOk; decide +kernel, ⟨nofun, fun _ => by decide⟩, ⟨_, rfl⟩, ⟨_, rfl⟩⟩

/-- CM-1's matrix and its noise map among the work matrices. -/
theorem witness_FilesInvariantKept : FilesOk (cmState 0 1) ∧ ∃ t, step (cmState 0 1) = .next t := by
  refine ⟨⟨?_, ?_, ?_, ?_, by decide +kernel, by decide +kernel⟩, _, rfl⟩
  · unfold Mat.wf; decide +kernel
  · unfold Mat.untagged; decide +kernel
  · decide +kernel
  · unfold Acc.wf; decide +kernel

/-- Inside a group that establishes the map, one module seen; and outside a walk, a map of two modules
with one trailing frame each. -/
theorem witness_MapInvariantKept :
    let s := { stream [0x50000002, 0] with
      walk := some ⟨.next, .group 2 [3] true⟩, nmod := 1
      modmap := (Vector.replicate 16 none).set 3 (some 0) }
    let u := { State.reset with
      mapValid := true, nmod := 2, nslots := 4, tLatch := 1
      modmap := ((Vector.replicate 16 none).set 3 (some 0)).set 15 (some 1) }
    MapOk s ∧ MapOk u ∧ (∃ t, step s = .next t) ∧ ∃ t, step u = .next t := by
  refine ⟨⟨by decide, by decide, (fun h => nomatch h), fun w hw => ?_⟩,
    ⟨by decide, by decide, fun _ _ => ⟨⟨[3, 15], ?_⟩, rfl⟩, (fun w hw => nomatch hw)⟩,
    ⟨_, rfl⟩, _, rfl⟩
  · cases hw
    refine ⟨rfl, rfl, ?_⟩
    unfold MapHolds
    decide +kernel
  · unfold MapHolds
    decide +kernel

end Sys2Proof.Tests
end

section
/-! Integers below 2^53 in binary64 (00_scope.md R15, 42_convert.md R452). A significand of 53 bits
with its top bit set is one that rounding leaves alone and that a value's bits hold in full; an
integer below 2^53 is such a significand, moved down to the place of its own top bit. -/

namespace Sys2Proof.Machine

open Sys2Proof

/-! ### A value made from a sign and magnitude bits -/

@[simp] theorem fMag_fMake (neg : Bool) {mag : Nat} (h : mag < 2 ^ 63) :
    fMag (fMake neg mag) = mag := by
  cases neg <;> simp [fMag, fMake] <;> omega

@[simp] theorem fSign_fMake (neg : Bool) {mag : Nat} (h : mag < 2 ^ 63) :
    fSign (fMake neg mag) = neg := by
  have hlast : fSign (fMake neg mag) = decide (2 ^ 63 ≤ (fMake neg mag).toNat) :=
    BitVec.getLsbD_last _
  rw [hlast]
  cases neg <;> simp [fMake] <;> omega

/-! ### Normal values: 53 bits of significand `q` and an exponent `e` -/

theorem normalMag_lt_fInfMag {e q : Nat} (he : e ≤ 2045) (hq : q < 2 ^ 53) :
    (e <<< 52) + q < fInfMag := by
  simp only [Nat.shiftLeft_eq, fInfMag]
  omega

theorem fFinite_of_normal {a : F64} {e q : Nat} (ha : fMag a = (e <<< 52) + q) (he : e ≤ 2045)
    (hq : q < 2 ^ 53) : fFinite a = true := by
  simpa [fFinite, ha] using normalMag_lt_fInfMag he hq

theorem fUnits_of_normal {a : F64} {e q : Nat} (ha : fMag a = (e <<< 52) + q) (hlo : 2 ^ 52 ≤ q)
    (hhi : q < 2 ^ 53) : fUnits a = q <<< e := by
  rw [Nat.shiftLeft_eq] at ha
  have hmant : fMant a = q := by
    rw [fMant, ha, if_neg (by omega)]
    omega
  have hexp : fExp a = e := by
    rw [fExp, ha]
    omega
  rw [fUnits, hmant, hexp]

theorem log2_normal_shiftLeft {q : Nat} (hlo : 2 ^ 52 ≤ q) (hhi : q < 2 ^ 53) (k : Nat) :
    Nat.log2 (q <<< k) = 52 + k := by
  have hpos : 0 < 2 ^ k := Nat.two_pow_pos k
  rw [Nat.shiftLeft_eq, Nat.log2_eq_iff (Nat.mul_ne_zero (by omega) hpos.ne')]
  constructor
  · rw [pow_add]
    exact Nat.mul_le_mul_right _ hlo
  · rw [show 52 + k + 1 = 53 + k by omega, pow_add]
    exact Nat.mul_lt_mul_of_pos_right hhi hpos

/-- Nothing is rounded off a 53-bit significand: the bits below it, in eighths, are all 0. -/
theorem fRoundMag_normal {e q : Nat} (he : e ≤ 2045) (hlo : 2 ^ 52 ≤ q) (hhi : q < 2 ^ 53) :
    fRoundMag (q <<< (e + 3)) = (e <<< 52) + q := by
  have hcut : max (Nat.log2 (q <<< (e + 3)) - 52) 3 = e + 3 := by
    rw [log2_normal_shiftLeft hlo hhi]
    omega
  have hrest : q <<< (e + 3) % 1 <<< (e + 3) = 0 := by simp [Nat.shiftLeft_eq]
  have hdown : ¬(1 <<< (e + 3 - 1) < 0 ∨ (0 = 1 <<< (e + 3 - 1) ∧ q % 2 = 1)) := by
    rintro (hlt | ⟨hzero, -⟩)
    · exact Nat.not_lt_zero _ hlt
    · exact (Nat.two_pow_pos _).ne (hzero.trans (Nat.one_shiftLeft _))
  simp only [fRoundMag, hcut, hrest, Nat.shiftLeft_shiftRight, if_neg hdown, Nat.add_sub_cancel]
  exact Nat.min_eq_left (normalMag_lt_fInfMag he hhi).le

/-! ### The conversion of an integer -/

/-- A nonzero integer below 2^53 is a 53-bit significand shifted down by `d` places. -/
theorem exists_normal_significand {n : Nat} (h0 : n ≠ 0) (hn : n < 2 ^ 53) :
    ∃ d ≤ 52, 2 ^ 52 ≤ n <<< d ∧ n <<< d < 2 ^ 53 := by
  have hlog : n.log2 < 53 := (Nat.log2_lt h0).2 hn
  refine ⟨52 - n.log2, Nat.sub_le _ _, ?_, ?_⟩
  · calc 2 ^ 52 = 2 ^ n.log2 * 2 ^ (52 - n.log2) := by rw [← pow_add]; congr 1; omega
      _ ≤ n <<< (52 - n.log2) := by
        rw [Nat.shiftLeft_eq]
        exact Nat.mul_le_mul_right _ (Nat.log2_self_le h0)
  · calc n <<< (52 - n.log2) < 2 ^ (n.log2 + 1) * 2 ^ (52 - n.log2) := by
          rw [Nat.shiftLeft_eq]
          exact Nat.mul_lt_mul_of_pos_right Nat.lt_log2_self (Nat.two_pow_pos _)
      _ = 2 ^ 53 := by rw [← pow_add]; congr 1; omega

/-- The magnitude bits of a converted integer: its 53-bit significand at exponent `1074 - d`. -/
theorem fRoundMag_of_lt {n d : Nat} (hd : d ≤ 52) (hlo : 2 ^ 52 ≤ n <<< d)
    (hhi : n <<< d < 2 ^ 53) :
    fRoundMag (n <<< 1077) = ((1074 - d) <<< 52) + n <<< d := by
  have hsplit : n <<< 1077 = (n <<< d) <<< (1074 - d + 3) := by
    rw [← Nat.shiftLeft_add]
    congr 1
    omega
  rw [hsplit, fRoundMag_normal (by omega) hlo hhi]

theorem fOfInt_of_ne_zero {z : Int} (hz : z ≠ 0) :
    fOfInt z = fMake (decide (z < 0)) (fRoundMag (z.natAbs <<< 1077)) := if_neg hz

theorem fInt_eq_of_sign_of_units {a : F64} {z : Int} {k : Nat} (hsign : fSign a = decide (z < 0))
    (hunits : fUnits a = z.natAbs <<< k) : fInt a = z * 2 ^ k := by
  rw [fInt, hsign, hunits, Nat.shiftLeft_eq]
  push_cast
  rcases lt_or_ge z 0 with hneg | hnonneg
  · rw [if_pos (by simpa using hneg), abs_of_neg hneg]
    ring
  · rw [if_neg (by simpa using hnonneg), abs_of_nonneg hnonneg]

/-- Settles O16: zero is +0.0; any other integer is its 53-bit significand at an exponent, which
rounding leaves alone and the bits of the value hold in full. -/
theorem elementConversionIsExact : Obligations.ElementConversionIsExact := by
  unfold Obligations.ElementConversionIsExact
  intro z hz
  by_cases h0 : z = 0
  · have hfinite : fFinite (fOfInt 0) = true := by decide
    have hexact : fInt (fOfInt 0) = 0 := by decide
    rw [h0, hexact, Int.zero_mul]
    exact ⟨hfinite, rfl⟩
  · obtain ⟨d, hd, hlo, hhi⟩ := exists_normal_significand (Int.natAbs_ne_zero.2 h0) hz
    have hlt : ((1074 - d) <<< 52) + z.natAbs <<< d < 2 ^ 63 :=
      (normalMag_lt_fInfMag (by omega) hhi).trans (by decide)
    have hmake : fOfInt z = fMake (decide (z < 0)) (((1074 - d) <<< 52) + z.natAbs <<< d) := by
      rw [fOfInt_of_ne_zero h0, fRoundMag_of_lt hd hlo hhi]
    have hmag : fMag (fOfInt z) = ((1074 - d) <<< 52) + z.natAbs <<< d := by
      rw [hmake, fMag_fMake _ hlt]
    have hunits : fUnits (fOfInt z) = z.natAbs <<< 1074 := by
      rw [fUnits_of_normal hmag hlo hhi, ← Nat.shiftLeft_add]
      congr 1
      omega
    exact ⟨fFinite_of_normal hmag (by omega) hhi,
      fInt_eq_of_sign_of_units (by rw [hmake, fSign_fMake _ hlt]) hunits⟩

end Sys2Proof.Machine
end

section
/-! What a body answers: a state with some property, or a fault that is one of the codes of
60_exceptions.md R700. One rule for each check and routine; every command's and record's body is
then read once, along its own checks. -/

namespace Sys2Proof.Machine

open Sys2Proof

/-- The body either answers a value with property `Q`, or raises a fault with a code. -/
inductive Answers {α : Type} (Q : α → Prop) : Except Raise α → Prop
  | ok {x : α} (h : Q x) : Answers Q (.ok x)
  | raise {code : ErrCode} {info : Word} (h : code ≠ .none) : Answers Q (.error ⟨code, info⟩)

namespace Answers

variable {α β : Type} {Q : α → Prop}

theorem of_ok {x : α} (h : Answers Q (.ok x)) : Q x := by
  cases h
  assumption

theorem of_error {r : Raise} (h : Answers Q (.error r)) : r.code ≠ .none := by
  cases h
  assumption

theorem error {r : Raise} (h : r.code ≠ .none) : Answers Q (.error r) := .raise h

/-- A body that raises only coded faults has any property its answers are known to have. -/
theorem strengthen {P : α → Prop} {e : Except Raise α} (h : Answers P e)
    (hQ : ∀ x, e = .ok x → P x → Q x) : Answers Q e := by
  cases h with
  | ok hx => exact .ok (hQ _ rfl hx)
  | raise hc => exact .raise hc

/-- A check that raises where a condition holds. -/
theorem guarded {c : Prop} [Decidable c] {code : ErrCode} {info : Word} {e : Except Raise α}
    (hc : code ≠ .none) (h : ¬ c → Answers Q e) :
    Answers Q (if c then Machine.raise code info else e) := by
  split
  · exact .raise hc
  · exact h ‹_›

end Answers

/-! ### The checks of the operands -/

section
variable {α : Type} {Q : α → Prop}

theorem illegalOperand_answers {a : BitVec 8} : Answers Q (illegalOperand a) := .raise nofun

theorem checkMat_answers {a : BitVec 8} {k : Nat → Except Raise α}
    (h : a.toNat < 184 → Answers Q (k a.toNat)) : Answers Q (checkMat a k) := by
  unfold checkMat
  split
  · exact h ‹_›
  · exact illegalOperand_answers

theorem checkWork_answers {a : BitVec 8} {k : Nat → Except Raise α}
    (h : isWork a → Answers Q (k a.toNat)) : Answers Q (checkWork a k) := by
  unfold checkWork
  split
  · exact h ‹_›
  · exact illegalOperand_answers

theorem checkMatOrNone_answers {a : BitVec 8} {k : Option Nat → Except Raise α}
    (h : ∀ j, Answers Q (k j)) : Answers Q (checkMatOrNone a k) := by
  unfold checkMatOrNone
  split
  · exact h _
  · exact checkMat_answers fun _ => h _

theorem checkModule_answers {a : BitVec 8} {k : Nat → Except Raise α}
    (h : a.toNat ≤ 15 → Answers Q (k a.toNat)) : Answers Q (checkModule a k) := by
  unfold checkModule
  split
  · exact h ‹_›
  · exact illegalOperand_answers

theorem checkElemType_answers {a : BitVec 8} {k : ElemType → Except Raise α}
    (h : ∀ t, Answers Q (k t)) : Answers Q (checkElemType a k) := by
  unfold checkElemType
  split
  · exact h _
  · exact h _
  · exact h _
  · exact illegalOperand_answers

/-- Extents that a matrix or an accumulator may have (10_state.md R150). -/
def ExtentsOk (nX nY : Nat) : Prop :=
  nX ≤ Config.maxPixels ∧ nY ≤ Config.maxPixels ∧ nX * nY ≤ Config.maxPixels

theorem checkExtents_answers {s : State} {k : Nat → Nat → Except Raise α}
    (h : ExtentsOk s.argN0.toNat s.argN1.toNat → Answers Q (k s.argN0.toNat s.argN1.toNat)) :
    Answers Q (checkExtents s k) :=
  .guarded nofun fun hc => h ⟨by omega, by omega, by omega⟩

end

section
variable {Q : State → Prop}

theorem checkXY_answers {s : State} {m : Mat} {k : Nat → Except Raise State}
    (h : ∀ j, Answers Q (k j)) : Answers Q (checkXY s m k) := .guarded nofun fun _ => h _

theorem checkFlat_answers {s : State} {n : Nat} {k : Nat → Except Raise State}
    (h : ∀ j, Answers Q (k j)) : Answers Q (checkFlat s n k) := .guarded nofun fun _ => h _

theorem checkCut_answers {c : F64} {k : Except Raise State} (h : Answers Q k) :
    Answers Q (checkCut c k) := .guarded nofun fun _ => h

theorem checkSample_answers {x w c : F64} {k : Except Raise State} (h : Answers Q k) :
    Answers Q (checkSample x w c k) :=
  .guarded nofun fun _ => .guarded nofun fun _ => checkCut_answers h

theorem needOpen_answers {s : State} {k : Except Raise State} (h : Answers Q k) :
    Answers Q (needOpen s k) := by
  unfold needOpen
  split
  · exact h
  · exact .raise nofun

theorem viewExtent_answers {t : ElemType} {len : Nat} {off : Word} {nX nY : Nat} :
    Answers (fun _ => True) (viewExtent t len off nX nY) := by
  refine .guarded nofun fun _ => ?_
  split
  · exact .guarded nofun fun _ => .ok trivial
  · split
    · exact .ok trivial
    · split <;> exact .ok trivial

/-! ### The routines of the stream -/

theorem inSegment_answers {s : State} {need : Nat} {k : Nat → Except Raise State}
    (h : ∀ a, Answers Q (k a)) : Answers Q (inSegment s need k) := by
  unfold inSegment
  split
  · exact .raise nofun
  · exact .guarded nofun fun _ => h _

theorem readData_answers {n : Nat} {s : State} : Answers (fun _ => True) (readData n s) :=
  .guarded nofun fun _ => inSegment_answers fun _ => .ok trivial

theorem skipData_answers {n : Nat} {s : State} : Answers (fun _ => True) (skipData n s) :=
  inSegment_answers fun _ => .ok trivial

theorem skipWords_answers {n : Nat} {s : State} : Answers (fun _ => True) (skipWords n s) := by
  unfold skipWords
  split
  · exact .ok trivial
  · exact inSegment_answers fun _ => .ok trivial

/-! ### The converters and the blob of a record -/

theorem convert_answers {t : ConvKind} {um : Bool} {dst off sg : Nat} {s : State} :
    Answers (fun _ => True) (convert t um dst off sg s) := .guarded nofun fun _ => .ok trivial

theorem decodeFrames_answers {t : ConvKind} {um : Bool} {h : RecHdr} {gate : BitVec 10}
    {base left f off : Nat} {s : State} :
    Answers (fun _ => True) (decodeFrames t um h gate base left f off s) := by
  induction left generalizing f off s with
  | zero => exact .ok trivial
  | succ left ih =>
    unfold decodeFrames
    have hc : Answers (fun _ => True) (convert t um (base + f) off gate.toNat s) := convert_answers
    cases hu : convert t um (base + f) off gate.toNat s with
    | error r => exact .error (hu ▸ hc).of_error
    | ok u => exact ih

theorem dispatchConv_answers {k : RecKind} {s : State} :
    Answers (fun _ => True) (dispatchConv k s) := by
  unfold dispatchConv
  split
  · split
    · exact .ok trivial
    · split
      · exact .ok trivial
      · exact .raise nofun
  · split
    · exact .ok trivial
    · split
      · exact .ok trivial
      · exact .raise nofun
  · exact .ok trivial

theorem decodeBlob_answers {k : RecKind} {h : RecHdr} {ord : BitVec 4} {s : State} :
    Answers (fun _ => True) (decodeBlob k h ord s) := by
  refine .guarded nofun fun _ => ?_
  have hc : Answers (fun _ => True) (dispatchConv k s) := dispatchConv_answers
  cases hu : dispatchConv k s with
  | error r => exact .error (hu ▸ hc).of_error
  | ok u => exact decodeFrames_answers

theorem takeData_answers {k : RecKind} {h : RecHdr} {d : Bool} {s : State} :
    Answers (fun _ => True) (takeData k h d s) := by
  unfold takeData
  split
  · have hc : Answers (fun _ => True) (readData (h.eventSize.toNat - 3) s) := readData_answers
    cases hu : readData (h.eventSize.toNat - 3) s with
    | error r => exact .error (hu ▸ hc).of_error
    | ok u => exact decodeBlob_answers
  · exact skipData_answers

end

end Sys2Proof.Machine
end

section
/-! What a command can do, said once: it is ignored, it faults, or it completes in one of a few ways
(40_system.md R393, 60_exceptions.md R711). The invariants and the frames follow from this alone. -/

namespace Sys2Proof.Machine

open Sys2Proof

/-- What a command with precise faults leaves when it completes, BUSY aside. The constructors are
the ways in which commands differ: which part of the state they write. -/
inductive Completes (s : State) : Instr → State → Prop
  /-- Only result registers, and free values drawn. -/
  | results {i : Instr} (n0 n1 n2 : Word) (f : F64) (tick : Nat) :
      Completes s i { s with resN0 := n0, resN1 := n1, resN2 := n2, resF := f, freeTick := tick }
  /-- NEXT at the event limit, or SKIP of no event. -/
  | noEvent {i : Instr} (limit : Bool) :
      Completes s i { s with fsm := .waitGroup, limit := limit, resN0 := 0 }
  | segPush (g : Seg) (n0 : Word) (depth : s.segq.length ≠ Config.segqDepth)
      (inside : g.base.toNat + g.len.toNat ≤ 2 ^ 32) :
      Completes s .segPush { s with segq := s.segq ++ [g], resN0 := n0 }
  | segClear :
      Completes s .segClear
        { s with segq := [], curSeg := 0, off := 0, opened := false, eoi := false }
  | openStream (n0 : Word) :
      Completes s .openStream { clearMap (clearFlags s) with
        opened := true, curSeg := 0, off := 0, tLatch := s.cfgTrailing
        runNumber := 0, eventNumber := 0, eventCount := 0, resN0 := n0 }
  | openNext (n0 : Word) :
      Completes s .openNext { s with
        curSeg := if s.curSeg < s.segq.length then s.curSeg + 1 else s.curSeg
        off := if s.curSeg < s.segq.length then 0 else s.off
        resN0 := n0 }
  | readHeader {u : State} {b : Bool} (n0 n1 n2 : Word) (read : readHeader s = (u, b)) :
      Completes s .readHeader { u with resN0 := n0, resN1 := n1, resN2 := n2 }
  | readData {u : State} {n : Nat} (n0 n1 : Word) (read : readData n s = .ok u) :
      Completes s .readData { u with resN0 := n0, resN1 := n1 }
  | skipData {u : State} {n : Nat} (n0 : Word) (skip : skipData n s = .ok u) :
      Completes s .skipData { u with resN0 := n0 }
  /-- A work matrix filled; its tags stay. -/
  | work {i : Instr} {a : BitVec 8} (nX nY : Nat) (d : List F64) (n0 : Word) (tick : Nat)
      (work : isWork a) (may : mayWrite i a.toNat)
      (limits : (readMat s a.toNat).wf → (matFill nX nY d (readMat s a.toNat)).wf) :
      Completes s i { writeMat a.toNat (matFill nX nY d (readMat s a.toNat)) s with
        resN0 := n0, freeTick := tick }
  /-- An accumulator written. -/
  | accumulator {i : Instr} {a : BitVec 8} (acc : Acc) (n0 n1 : Word) (tick : Nat)
      (number : a.toNat ≤ 15) (limits : (readAcc s a.toNat).wf → acc.wf) :
      Completes s i { writeAcc a.toNat acc s with resN0 := n0, resN1 := n1, freeTick := tick }
  | calCommit {a : BitVec 8} (noise : List F64) (number : a.toNat ≤ 15)
      (pixels : noise.length = (readAcc s a.toNat).cells.length) :
      Completes s (.calCommit a) (draw
        (writeMat (noiseId a.toNat)
          (matFill (readAcc s a.toNat).nX (readAcc s a.toNat).nY noise
            (readMat s (noiseId a.toNat)))
          (writeMat (pedId a.toNat)
            (matFill (readAcc s a.toNat).nX (readAcc s a.toNat).nY
              ((readAcc s a.toNat).cells.map AccCell.mean) (readMat s (pedId a.toNat))) s)))
  | calInit {a : BitVec 8} (nX nY : Nat) (number : a.toNat ≤ 15) (extents : ExtentsOk nX nY) :
      Completes s (.calInit a)
        (writeMat (maskId a.toNat) (matResize nX nY (readMat s (maskId a.toNat)))
          (writeMat (noiseId a.toNat) (matResize nX nY (readMat s (noiseId a.toNat)))
            (writeMat (pedId a.toNat) (matResize nX nY (readMat s (pedId a.toNat))) s)))
  | calLoad {a : BitVec 8} (k : Nat) (ped noise mask : F64) (number : a.toNat ≤ 15) :
      Completes s (.calLoad a)
        (writeMat (noiseId a.toNat) (matPut k noise (readMat s (noiseId a.toNat)))
          (writeMat (pedId a.toNat) (matPut k ped (readMat s (pedId a.toNat)))
            (writeMat (maskId a.toNat) (matPut k mask (readMat s (maskId a.toNat))) s)))
  | cmApply {a b c : BitVec 8} {mask noise : Option Mat} {d rows cols : List F64}
      (operands : cmOperands a b c s = .ok (a.toNat, mask, noise)) (work : isWork a)
      (run : cmRun s (readMat s a.toNat).nX (readMat s a.toNat).nY mask noise
        (readMat s a.toNat).data = .ok (d, rows, cols)) :
      Completes s (.cmApply a b c) (draw
        { writeMat a.toNat { readMat s a.toNat with data := d } s with
          corrRow := rows, corrCol := cols })

/-- The walk a command runs, if it is one that walks. -/
def walkOf (s : State) : Instr → Option WalkCmd
  | .next => some .next
  | .skip => some (.skip s.argN0.toNat 0)
  | _ => none

/-- Everything a command can do. -/
inductive Outcome (s : State) (i : Instr) : State → Prop
  /-- With FAULT = 1 it is ignored. -/
  | ignored (fault : s.fault = true) : Outcome s i (finish s)
  /-- A precise fault. -/
  | faulted {r : Raise} (noFault : s.fault = false) (coded : r.code ≠ .none) :
      Outcome s i (faultEntry r s)
  | completed {t : State} (noFault : s.fault = false) (h : Completes s i t) : Outcome s i (finish t)
  /-- NUMERIC in CM_APPLY. -/
  | numeric {a b c : BitVec 8} {r : Raise} (noFault : s.fault = false) (cm : i = .cmApply a b c)
      (coded : r.code ≠ .none) (work : isWork a) : Outcome s i (faultEntry r (forgetCm a.toNat s))
  | reset (h : i = .reset) : Outcome s i (resetState s)
  | abort (h : i = .abort) : Outcome s i (finish (abortState s))
  | walked {c : WalkCmd} {fuel : Nat} {t : State} (noFault : s.fault = false)
      (hc : walkOf s i = some c)
      (run : walkRun fuel (setPlace c .top { s with fsm := .waitGroup }) = some t) : Outcome s i t

/-- A command whose body is known is known. -/
theorem outcome_of_answers {i : Instr} {s t : State} {body : Except Raise State}
    (hb : Answers (Completes s i) body) (h : command s body = .next t) : Outcome s i t := by
  rcases command_cases h with ⟨hf, rfl⟩ | ⟨hf, u, rfl, rfl⟩ | ⟨hf, r, rfl, rfl⟩
  · exact .ignored hf
  · exact .completed hf hb.of_ok
  · exact .faulted hf hb.of_error

/-! ### Stream commands -/

theorem segPush_outcome {s t : State} (h : execSegPush s = .next t) : Outcome s .segPush t := by
  refine outcome_of_answers ?_ h
  exact .guarded nofun fun hfull => .guarded nofun fun hend =>
    .ok (.segPush ⟨s.argN0, s.argN1⟩ _ hfull (not_lt.1 hend))

theorem openNext_outcome {s t : State} (h : execOpenNext s = .next t) : Outcome s .openNext t :=
  outcome_of_answers (needOpen_answers (.ok (.openNext _))) h

theorem readHeader_outcome {s t : State} (h : execReadHeader s = .next t) :
    Outcome s .readHeader t := by
  refine outcome_of_answers (needOpen_answers ?_) h
  rcases hu : readHeader s with ⟨u, b⟩
  cases b with
  | true => exact .ok (.readHeader 1 u.hdr0 u.hdr1 hu)
  | false => exact .ok (.readHeader 0 u.resN1 u.resN2 hu)

theorem readData_outcome {s t : State} (h : execReadData s = .next t) : Outcome s .readData t := by
  refine outcome_of_answers (needOpen_answers ?_) h
  have hc : Answers (fun _ => True) (readData s.argN0.toNat s) := readData_answers
  cases hu : readData s.argN0.toNat s with
  | error r => exact .error (hu ▸ hc).of_error
  | ok u => exact .ok (.readData u.info (BitVec.ofNat 32 u.dataBuf.length) hu)

theorem skipData_outcome {s t : State} (h : execSkipData s = .next t) : Outcome s .skipData t := by
  refine outcome_of_answers (needOpen_answers ?_) h
  have hc : Answers (fun _ => True) (skipData s.argN0.toNat s) := skipData_answers
  cases hu : skipData s.argN0.toNat s with
  | error r => exact .error (hu ▸ hc).of_error
  | ok u => exact .ok (.skipData u.off hu)

theorem viewRead_outcome {a : BitVec 8} {s t : State} (h : execViewRead a s = .next t) :
    Outcome s (.viewRead a) t := by
  refine outcome_of_answers (checkElemType_answers fun ty => ?_) h
  have hc : Answers (fun _ => True) (viewExtent ty s.dataBuf.length s.argN0
    (s.argN1.extractLsb' 0 16).toNat (s.argN1.extractLsb' 16 16).toNat) := viewExtent_answers
  cases hu : viewExtent ty s.dataBuf.length s.argN0
      (s.argN1.extractLsb' 0 16).toNat (s.argN1.extractLsb' 16 16).toNat with
  | error r => exact .error (hu ▸ hc).of_error
  | ok e => exact .guarded nofun fun _ => .ok (.results _ _ _ _ s.freeTick)

/-! ### Converters and matrix commands -/

/-- A destination filled with as many pixels as its dimensions say is within its limits. -/
theorem matFill_wf {nX nY : Nat} {d : List F64} (m : Mat) (hd : d.length = nX * nY)
    (he : ExtentsOk nX nY) : (matFill nX nY d m).wf := ⟨hd, he⟩

/-- A matrix whose pixels alone are replaced stays within its limits. -/
theorem wf_of_pixels {m : Mat} {d : List F64} (hd : d.length = m.data.length) (h : m.wf) :
    (matFill m.nX m.nY d m).wf := matFill_wf m (hd.trans h.1) h.2

/-- A converter's output is as large as its dimensions say (42_convert.md R451). -/
theorem dims_npix (t : ConvKind) : t.npix = t.dims.1 * t.dims.2 := by cases t <;> rfl

/-- Those dimensions are within MAX_PIXELS. -/
theorem dims_extentsOk (t : ConvKind) : ExtentsOk t.dims.1 t.dims.2 := by
  cases t <;> exact ⟨by decide, by decide, by decide⟩

theorem converted_wf (t : ConvKind) (um : Bool) (off sg : Nat) (buf : List Byte) (m : Mat) :
    (matFill t.dims.1 t.dims.2 (convertData t um off sg buf) m).wf :=
  matFill_wf m ((convertData_length t um off sg buf).trans (dims_npix t)) (dims_extentsOk t)

theorem conv_outcome {t : ConvKind} {um : Bool} {i : Instr} {a : BitVec 8} {s u : State}
    (may : isWork a → mayWrite i a.toNat) (h : convCommand t um a s = .next u) : Outcome s i u := by
  refine outcome_of_answers (checkWork_answers fun hw => ?_) h
  refine .guarded nofun fun _ => ?_
  have hc : Answers (fun _ => True) (convert t um a.toNat s.argN0.toNat s.argN1.toNat s) :=
    convert_answers
  cases hu : convert t um a.toNat s.argN0.toNat s.argN1.toNat s with
  | error r => exact .error (hu ▸ hc).of_error
  | ok v =>
    obtain ⟨-, rfl⟩ := convert_ok hu
    exact .ok (.work _ _ _ _ s.freeTick hw (may hw) fun _ => converted_wf ..)

/-- The conversion command of every kind. -/
theorem convInstr_outcome {t : ConvKind} {a : BitVec 8} {s u : State}
    (h : exec (convInstr t a) s = .next u) : Outcome s (convInstr t a) u := by
  cases t <;> exact conv_outcome (fun hw => ⟨hw, rfl⟩) h

theorem mresize_outcome {a : BitVec 8} {s t : State} (h : execMresize a s = .next t) :
    Outcome s (.mresize a) t := by
  refine outcome_of_answers (checkWork_answers fun hw => checkExtents_answers fun he => ?_) h
  exact .ok (.work _ _ _ s.resN0 s.freeTick hw ⟨hw, rfl⟩ fun _ =>
    matFill_wf _ (List.length_replicate ..) he)

theorem mget_outcome {a : BitVec 8} {s t : State} (h : execMget a s = .next t) :
    Outcome s (.mget a) t :=
  outcome_of_answers (checkMat_answers fun _ => checkXY_answers fun _ =>
    .ok (.results s.resN0 s.resN1 s.resN2 _ s.freeTick)) h

theorem mgetf_outcome {a : BitVec 8} {s t : State} (h : execMgetf a s = .next t) :
    Outcome s (.mgetf a) t :=
  outcome_of_answers (checkMat_answers fun _ => checkFlat_answers fun _ =>
    .ok (.results s.resN0 s.resN1 s.resN2 _ s.freeTick)) h

theorem minfo_outcome {a : BitVec 8} {s t : State} (h : execMinfo a s = .next t) :
    Outcome s (.minfo a) t :=
  outcome_of_answers (checkMat_answers fun _ => .ok (.results _ _ _ s.resF s.freeTick)) h

theorem mtrig_outcome {a : BitVec 8} {s t : State} (h : execMtrig a s = .next t) :
    Outcome s (.mtrig a) t :=
  outcome_of_answers (checkMat_answers fun _ =>
    .ok (.results _ s.resN1 s.resN2 s.resF s.freeTick)) h

/-- A work matrix with one pixel replaced. -/
theorem put_completes {i : Instr} {a : BitVec 8} {s : State} (k : Nat) (v : F64) (hw : isWork a)
    (may : mayWrite i a.toNat) :
    Completes s i (writeMat a.toNat (matPut k v (readMat s a.toNat)) s) :=
  .work _ _ _ s.resN0 s.freeTick hw may (wf_of_pixels (List.length_set ..))

theorem mput_outcome {a : BitVec 8} {s t : State} (h : execMput a s = .next t) :
    Outcome s (.mput a) t :=
  have may : isWork a → mayWrite (.mput a) a.toNat := fun hw => ⟨hw, rfl⟩
  outcome_of_answers (checkWork_answers fun hw => checkXY_answers fun _ =>
    .ok (put_completes _ _ hw (may hw))) h

theorem mputf_outcome {a : BitVec 8} {s t : State} (h : execMputf a s = .next t) :
    Outcome s (.mputf a) t :=
  have may : isWork a → mayWrite (.mputf a) a.toNat := fun hw => ⟨hw, rfl⟩
  outcome_of_answers (checkWork_answers fun hw => checkFlat_answers fun _ =>
    .ok (put_completes _ _ hw (may hw))) h

theorem elementwise_outcome {i : Instr} {a b : BitVec 8} {f : Nat → F64 → F64 → F64} {s t : State}
    (may : isWork a → mayWrite i a.toNat) (h : elementwise a b f s = .next t) : Outcome s i t := by
  refine outcome_of_answers (checkWork_answers fun hw => checkMat_answers fun _ => ?_) h
  split
  · exact .ok (.work _ _ _ s.resN0 _ hw (may hw) (wf_of_pixels List.length_mapIdx))
  · exact .raise nofun

theorem madd_outcome {a b : BitVec 8} {s t : State} (h : execMadd a b s = .next t) :
    Outcome s (.madd a b) t := elementwise_outcome (fun hw => ⟨hw, rfl⟩) h

theorem msub_outcome {a b : BitVec 8} {s t : State} (h : execMsub a b s = .next t) :
    Outcome s (.msub a b) t := elementwise_outcome (fun hw => ⟨hw, rfl⟩) h

theorem mset_outcome {a b : BitVec 8} {s t : State} (h : execMset a b s = .next t) :
    Outcome s (.mset a b) t := elementwise_outcome (fun hw => ⟨hw, rfl⟩) h

/-! ### Calibration commands -/

theorem accClear_outcome {a : BitVec 8} {s t : State} (h : execAccClear a s = .next t) :
    Outcome s (.accClear a) t := by
  refine outcome_of_answers (checkModule_answers fun hm => checkExtents_answers fun he => ?_) h
  exact .ok (.accumulator _ s.resN0 s.resN1 s.freeTick hm fun _ => ⟨List.length_replicate .., he⟩)

theorem accAdd_outcome {a : BitVec 8} {s t : State} (h : execAccAdd a s = .next t) :
    Outcome s (.accAdd a) t := by
  refine outcome_of_answers (checkModule_answers fun hm => checkFlat_answers fun k =>
    checkSample_answers ?_) h
  exact .ok (.accumulator _ _ s.resN1 _ hm fun hwf => ⟨(List.length_set ..).trans hwf.1, hwf.2⟩)

theorem accAddm_outcome {a b c : BitVec 8} {s t : State} (h : execAccAddm a b c s = .next t) :
    Outcome s (.accAddm a b c) t := by
  refine outcome_of_answers (checkModule_answers fun hm => checkMat_answers fun _ =>
    checkMatOrNone_answers fun j => ?_) h
  refine .guarded nofun fun _ => .guarded nofun fun _ => checkCut_answers ?_
  split
  · exact .raise nofun
  · refine .ok (.accumulator _ _ _ _ hm fun hwf => ⟨?_, hwf.2⟩)
    simpa [addMatrix] using hwf.1

theorem accRead_outcome {a b : BitVec 8} {s t : State} (h : execAccRead a b s = .next t) :
    Outcome s (.accRead a b) t := by
  refine outcome_of_answers (checkModule_answers fun _ => ?_) h
  split
  · exact illegalOperand_answers
  · exact checkFlat_answers fun _ => .ok (.results _ _ s.resN2 _ _)

theorem calCommit_outcome {a : BitVec 8} {s t : State} (h : execCalCommit a s = .next t) :
    Outcome s (.calCommit a) t :=
  outcome_of_answers (checkModule_answers fun hm => .ok (.calCommit _ hm List.length_mapIdx)) h

theorem calInit_outcome {a : BitVec 8} {s t : State} (h : execCalInit a s = .next t) :
    Outcome s (.calInit a) t :=
  outcome_of_answers (checkModule_answers fun hm => checkExtents_answers fun he =>
    .ok (.calInit _ _ hm he)) h

theorem calLoad_outcome {a : BitVec 8} {s t : State} (h : execCalLoad a s = .next t) :
    Outcome s (.calLoad a) t := by
  refine outcome_of_answers (checkModule_answers fun hm => checkXY_answers fun k => ?_) h
  exact .guarded nofun fun _ => .ok (.calLoad _ _ _ _ hm)

/-! ### Common-mode commands -/

theorem cmOperands_answers {a b c : BitVec 8} {s : State} :
    Answers (fun _ => True) (cmOperands a b c s) :=
  checkWork_answers fun _ => checkMatOrNone_answers fun _ => checkMatOrNone_answers fun _ =>
    .guarded nofun fun _ => .guarded nofun fun _ => .guarded nofun fun _ => .guarded nofun fun _ =>
    .ok trivial

theorem cmBlocks_answers {s : State} {g : CmStage} {nX nY : Nat} {mask noise : Option Mat}
    {left j : Nat} {d : List F64} :
    Answers (fun _ => True) (cmBlocks s g nX nY mask noise left j d) := by
  induction left generalizing j d with
  | zero => exact .ok trivial
  | succ left ih =>
    refine .guarded nofun fun _ => ?_
    have hc := ih (j := j + 1) (d := cmCorrect s g nX nY j mask
      (cmMedian (cmSelection s g nX nY j mask noise d)) d)
    cases hu : cmBlocks s g nX nY mask noise left (j + 1) (cmCorrect s g nX nY j mask
      (cmMedian (cmSelection s g nX nY j mask noise d)) d) with
    | error r => exact .error (hu ▸ hc).of_error
    | ok u => exact .ok trivial

theorem cmRunStage_answers {s : State} {g : CmStage} {nX nY : Nat} {mask noise : Option Mat}
    {d : List F64} : Answers (fun _ => True) (cmRunStage s g nX nY mask noise d) := by
  unfold cmRunStage
  split
  · exact cmBlocks_answers
  · exact .ok trivial

theorem cmRun_answers {s : State} {nX nY : Nat} {mask noise : Option Mat} {d : List F64} :
    Answers (fun _ => True) (cmRun s nX nY mask noise d) := by
  unfold cmRun
  have hr : Answers (fun _ => True) (cmRunStage s .row nX nY mask noise (cmZeroMasked mask d)) :=
    cmRunStage_answers
  cases hu : cmRunStage s .row nX nY mask noise (cmZeroMasked mask d) with
  | error r => exact .error (hu ▸ hr).of_error
  | ok u =>
    have hc : Answers (fun _ => True) (cmRunStage s .col nX nY mask noise u.1) :=
      cmRunStage_answers
    cases hv : cmRunStage s .col nX nY mask noise u.1 with
    | error r => simp only [hv]; exact .error (hv ▸ hc).of_error
    | ok v => simp only [hv]; exact .ok trivial

theorem cmApply_outcome {a b c : BitVec 8} {s t : State} (h : execCmApply a b c s = .next t) :
    Outcome s (.cmApply a b c) t := by
  rcases execCmApply_cases h with ⟨hf, rfl⟩ | ⟨hf, r, ho, rfl⟩
    | ⟨hf, i, mask, noise, r, ho, hr, rfl⟩ | ⟨hf, i, mask, noise, d, rows, cols, ho, hr, rfl⟩
  · exact .ignored hf
  · exact .faulted hf (ho ▸ cmOperands_answers).of_error
  · obtain ⟨rfl, hlo, hhi, -⟩ := cmOperands_ok ho
    exact .numeric hf rfl (hr ▸ cmRun_answers).of_error ⟨hlo, hhi⟩
  · obtain ⟨rfl, hlo, hhi, -⟩ := cmOperands_ok ho
    exact .completed hf (.cmApply ho ⟨hlo, hhi⟩ hr)

theorem cmCorr_outcome {a : BitVec 8} {s t : State} (h : execCmCorr a s = .next t) :
    Outcome s (.cmCorr a) t := by
  refine outcome_of_answers ?_ h
  split
  · exact illegalOperand_answers
  · exact .guarded nofun fun _ => .ok (.results _ s.resN1 s.resN2 _ s.freeTick)

/-! ### The commands that walk -/

theorem runWalk_outcome {i : Instr} {c : WalkCmd} {s t : State} (hf : s.fault = false)
    (hc : walkOf s i = some c) (h : runWalk c s = .next t) : Outcome s i t :=
  .walked hf hc (runWalk_eq h)

theorem next_outcome {s t : State} (h : execNext s = .next t) : Outcome s .next t := by
  unfold execNext at h
  split at h
  · cases h
    exact .ignored ‹_›
  · have hf : s.fault = false := Bool.eq_false_iff.2 ‹_›
    split at h
    · cases h
      exact .faulted hf nofun
    · split at h
      · cases h
        exact .completed hf (.noEvent true)
      · exact runWalk_outcome hf rfl h

theorem skip_outcome {s t : State} (h : execSkip s = .next t) : Outcome s .skip t := by
  unfold execSkip at h
  split at h
  · cases h
    exact .ignored ‹_›
  · have hf : s.fault = false := Bool.eq_false_iff.2 ‹_›
    split at h
    · cases h
      exact .faulted hf nofun
    · split at h
      · cases h
        exact .completed hf (.noEvent s.limit)
      · exact runWalk_outcome hf rfl h

/-! ### Every command -/

theorem exec_outcome {i : Instr} {s t : State} (hi : i.space = .command) (h : exec i s = .next t) :
    Outcome s i t := by
  cases i with
  | nop =>
    exact outcome_of_answers (.ok (.results s.resN0 s.resN1 s.resN2 s.resF s.freeTick)) h
  | reset => cases h; exact .reset rfl
  | abort => cases h; exact .abort rfl
  | segPush => exact segPush_outcome h
  | segClear => exact outcome_of_answers (.ok .segClear) h
  | openStream => exact outcome_of_answers (.ok (.openStream _)) h
  | openNext => exact openNext_outcome h
  | readHeader => exact readHeader_outcome h
  | readData => exact readData_outcome h
  | skipData => exact skipData_outcome h
  | viewRead a => exact viewRead_outcome h
  | convS3A a => exact convInstr_outcome (t := .s3a) h
  | convS3B2 a => exact convInstr_outcome (t := .s3b2) h
  | convS3B4 a => exact convInstr_outcome (t := .s3b4) h
  | convDCD2 a => exact convInstr_outcome (t := .dcd2) h
  | convDCD4 a => exact convInstr_outcome (t := .dcd4) h
  | next => exact next_outcome h
  | skip => exact skip_outcome h
  | mresize a => exact mresize_outcome h
  | mget a => exact mget_outcome h
  | mput a => exact mput_outcome h
  | mgetf a => exact mgetf_outcome h
  | mputf a => exact mputf_outcome h
  | madd a b => exact madd_outcome h
  | msub a b => exact msub_outcome h
  | mset a b => exact mset_outcome h
  | minfo a => exact minfo_outcome h
  | mtrig a => exact mtrig_outcome h
  | accClear a => exact accClear_outcome h
  | accAdd a => exact accAdd_outcome h
  | accAddm a b c => exact accAddm_outcome h
  | accRead a b => exact accRead_outcome h
  | calCommit a => exact calCommit_outcome h
  | calInit a => exact calInit_outcome h
  | calLoad a => exact calLoad_outcome h
  | cmApply a b c => exact cmApply_outcome h
  | cmCorr a => exact cmCorr_outcome h
  | groupRunBegin h | groupRunEnd h | groupData h | depfet h | depfet128 h | depfetDcd h
  | bat h | tpll h | unknown h | tlu h | info h | other h => cases hi

end Sys2Proof.Machine
end

section
/-! What a step can do, said once (00_scope.md R18): an action of the walk in execution, a command,
or a move of the HOST. An invariant of the machine is a property that each of these keeps. -/

namespace Sys2Proof.Machine

open Sys2Proof

/-! ### An action of the walk -/

/-- The fields the walk writes besides the cursor, the data and the matrices: the locals of the
walk, the slot map, the numbers, FSM, the results and BUSY. -/
def Bookkeeping (s t : State) : Prop :=
  t = { s with
    walk := t.walk, nmod := t.nmod, modmap := t.modmap, mapValid := t.mapValid, nslots := t.nslots
    runNumber := t.runNumber, eventNumber := t.eventNumber, eventCount := t.eventCount
    fsm := t.fsm, resN0 := t.resN0, resN1 := t.resN1, resN2 := t.resN2, busy := t.busy }

/-- A property that the parts of the walk keep: a header read, a body skipped, a data record taken
(decoded or not), and what it keeps book of. -/
structure WalkKeeps (decode : Bool) (P : State → Prop) : Prop where
  book : ∀ {s t}, Bookkeeping s t → P s → P t
  header : ∀ {s t b}, readHeader s = (t, b) → P s → P t
  skip : ∀ {n s t}, skipWords n s = .ok t → P s → P t
  take : ∀ {k h s t}, takeData k h decode s = .ok t → P s → P t

section
variable {P : State → Prop}

theorem skipWords_keeps {d : Bool} (hk : WalkKeeps d P) {n : Nat} {s : State} (h : P s) :
    Answers P (skipWords n s) := skipWords_answers.strengthen fun _ ht _ => hk.skip ht h

theorem skipNested_keeps {d : Bool} (hk : WalkKeeps d P) {h : RecHdr} {c : WalkCmd}
    {seen : List (BitVec 4)} {est : Bool} {s : State} (hs : P s) :
    Answers (fun r => P r.1) (skipNested h c seen est s) := by
  have hc := skipWords_keeps hk (n := bodyWords h) hs
  unfold skipNested
  cases hu : skipWords (bodyWords h) s with
  | error r => exact .error (hu ▸ hc).of_error
  | ok u => exact .ok (hu ▸ hc).of_ok

theorem dataNested_keeps {c : WalkCmd} (hk : WalkKeeps (decodes c) P) {k : RecKind} {h : RecHdr}
    {seen : List (BitVec 4)} {est : Bool} {s : State} (hs : P s) :
    Answers (fun r => P r.1) (dataNested k h c seen est s) := by
  refine .guarded nofun fun _ => .guarded nofun fun _ => .guarded nofun fun _ => ?_
  have hadd : P (if est then addModule h.moduleNo s else s) := by
    split
    · exact hk.book rfl hs
    · exact hs
  generalize (if est then addModule h.moduleNo s else s) = v at hadd
  have hc : Answers P (takeData k h (decodes c) v) :=
    takeData_answers.strengthen fun _ ht _ => hk.take ht hadd
  cases hu : takeData k h (decodes c) v with
  | error r => exact .error (hu ▸ hc).of_error
  | ok u => exact .ok (hu ▸ hc).of_ok

theorem takeRecord_keeps {d : Bool} (hk : WalkKeeps d P) {h : RecHdr} {w : Walk} {s : State}
    {top : WalkCmd → State → Except Raise State}
    {nested : WalkCmd → List (BitVec 4) → Bool → State → Except Raise (State × List (BitVec 4))}
    (htop : Answers P (top w.cmd s))
    (hnest : ∀ seen est, Answers (fun r => P r.1) (nested w.cmd seen est s)) :
    Answers P (takeRecord h top nested w s) := by
  refine .guarded nofun fun _ => ?_
  cases hp : w.place with
  | top => exact htop
  | group remaining seen est =>
    refine .guarded nofun fun _ => ?_
    have hc := hnest seen est
    cases hu : nested w.cmd seen est s with
    | error r => exact .error (hu ▸ hc).of_error
    | ok u => exact .ok (hk.book rfl (hu ▸ hc).of_ok)

theorem unexpectedTop_answers {c : WalkCmd} {s : State} : Answers P (unexpectedTop c s) :=
  .raise nofun

theorem unexpectedNested_answers {Q : State × List (BitVec 4) → Prop} {c : WalkCmd}
    {seen : List (BitVec 4)} {est : Bool} {s : State} :
    Answers Q (unexpectedNested c seen est s) := .raise nofun

/-- A record taken keeps what the parts of the walk keep. -/
theorem recordBody_keeps {w : Walk} (hk : WalkKeeps (decodes w.cmd) P) {k : RecKind} {h : RecHdr}
    {s : State} (hs : P s) : Answers P (recordBody k h w s) := by
  have info : P { s with runNumber := h.trigger } := hk.book rfl hs
  have data : ∀ k seen est, Answers (fun r => P r.1) (dataNested k h w.cmd seen est s) :=
    fun _ _ _ => dataNested_keeps hk hs
  have skip : ∀ seen est, Answers (fun r => P r.1) (skipNested h w.cmd seen est s) :=
    fun _ _ => skipNested_keeps hk hs
  cases k with
  | groupRunBegin | groupRunEnd =>
    exact takeRecord_keeps hk (skipWords_keeps hk hs) fun _ _ => unexpectedNested_answers
  | groupData =>
    have entered : Answers P (enterGroup h w.cmd s) := .ok (hk.book (s := s) rfl hs)
    exact takeRecord_keeps hk entered fun _ _ => unexpectedNested_answers
  | depfet => exact takeRecord_keeps hk unexpectedTop_answers (data _)
  | depfet128 => exact takeRecord_keeps hk unexpectedTop_answers (data _)
  | depfetDcd => exact takeRecord_keeps hk unexpectedTop_answers (data _)
  | bat | tpll | unknown | tlu | other => exact takeRecord_keeps hk unexpectedTop_answers skip
  | info => exact takeRecord_keeps hk (skipWords_keeps hk info) fun _ _ => skipNested_keeps hk info

theorem eventDone_bookkeeping (c : WalkCmd) (s : State) : Bookkeeping s (eventDone c s) := by
  cases c with
  | next => rfl
  | skip n k =>
    simp only [Bookkeeping, eventDone]
    split <;> rfl

theorem walkEnd_bookkeeping (c : WalkCmd) (s : State) : Bookkeeping s (walkEnd c s) := by
  cases c <;> rfl

theorem closeGroup_keeps {d : Bool} (hk : WalkKeeps d P) {c : WalkCmd} {seen : List (BitVec 4)}
    {est : Bool} {s : State} (hs : P s) : Answers P (closeGroup c seen est s) := by
  unfold closeGroup
  split
  · exact .ok (hk.book (eventDone_bookkeeping _ _) (hk.book rfl hs))
  · exact .guarded nofun fun _ => .ok (hk.book (eventDone_bookkeeping _ _) hs)

theorem headerFault_coded (e : DecodeError) (s : State) : (headerFault e s).code ≠ .none := by
  cases e <;> exact nofun

/-- One action of the walk keeps what its parts keep, or raises a fault with a code. -/
theorem walkStep_keeps {w : Walk} (hk : WalkKeeps (decodes w.cmd) P) {s : State} (hs : P s) :
    Answers P (walkStep w s) := by
  rcases hr : readHeader s with ⟨u, b⟩
  have hu : P u := hk.header hr hs
  cases hp : w.place with
  | top =>
    cases b with
    | false =>
      rw [walkStep_top_end hp hr]
      exact .ok (hk.book (walkEnd_bookkeeping _ _) hu)
    | true =>
      cases hd : decodeRecord u.hdr0 u.hdr1 with
      | ok kh =>
        rw [walkStep_top hp hr hd]
        exact recordBody_keeps hk hu
      | error e =>
        simp only [walkStep, fetchRecord, hp, hr, hd]
        exact .error (headerFault_coded e u)
  | group remaining seen est =>
    match remaining with
    | 0 =>
      rw [walkStep_close hp]
      exact closeGroup_keeps hk hs
    | 1 =>
      simp only [walkStep, fetchRecord, hp]
      exact .raise nofun
    | n + 2 =>
      cases b with
      | false =>
        simp only [walkStep, fetchRecord, hp, hr]
        exact .raise nofun
      | true =>
        cases hd : decodeRecord u.hdr0 u.hdr1 with
        | ok kh =>
          rw [walkStep_group hp hr hd]
          exact recordBody_keeps hk hu
        | error e =>
          simp only [walkStep, fetchRecord, hp, hr, hd]
          exact .error (headerFault_coded e u)

/-- A walk raises only faults with a code. -/
theorem walkStep_coded {w : Walk} {s : State} {r : Raise} (h : walkStep w s = .error r) :
    r.code ≠ .none := by
  have trivially : WalkKeeps (decodes w.cmd) fun _ => True :=
    ⟨fun _ _ => trivial, fun _ _ => trivial, fun _ _ => trivial, fun _ _ => trivial⟩
  exact (h ▸ walkStep_keeps trivially trivial).of_error

end

/-- An action of the walk leaves everything as it was but what the walk is for. -/
theorem walkStep_frame {w : Walk} {s t : State} (h : walkStep w s = .ok t) : WalkFrame s t := by
  have keeps : WalkKeeps (decodes w.cmd) (WalkFrame s) :=
    { book := fun {u v} hb hu => hu.trans ⟨by rw [hb], fun id _ => by rw [hb]; rfl⟩
      header := fun hr hu => hu.trans
        ⟨by rw [readHeader_frame hr], fun id _ => by rw [readHeader_frame hr]; rfl⟩
      skip := fun ht hu => hu.trans
        ⟨by rw [(skipWords_frame ht).1], fun id _ => by rw [(skipWords_frame ht).1]; rfl⟩
      take := fun ht hu => hu.trans (takeData_ok ht).1 }
  exact (h ▸ walkStep_keeps keeps (.refl s)).of_ok

/-! ### A move of the HOST -/

/-- A write or read of a register that is no CMD write and raises no OVERRUN changes operand and
configuration registers and what the HOST holds, and nothing else. -/
def RegisterMove (s t : State) : Prop :=
  t = { s with
    argN0 := t.argN0, argN1 := t.argN1, argN2 := t.argN2, argX := t.argX, argW := t.argW
    cfgFold := t.cfgFold, cfgUseMapping := t.cfgUseMapping, cfgTrailing := t.cfgTrailing
    cfgMaxEvents := t.cfgMaxEvents, cfgInfoLayout := t.cfgInfoLayout, cfgSigmaCut := t.cfgSigmaCut
    cmRowSize := t.cmRowSize, cmRowDiv := t.cmRowDiv, cmColSize := t.cmColSize
    cmColDiv := t.cmColDiv, cmCut := t.cmCut, host := t.host, hostData := t.hostData }

theorem storeOffset_registerMove (o : Nat) (v : Word) (s : State) :
    RegisterMove s (storeOffset o v s) := by
  unfold RegisterMove storeOffset
  split <;> rfl

/-- Everything a move of the HOST can do, besides moving on to its next move. -/
inductive Moved (s : State) : State → Prop
  | registers {t : State} (h : RegisterMove s t) : Moved s t
  | poke (a : Word) (b : Byte) : Moved s { s with inMem := memWrite s.inMem a.toNat b }
  | issued (v : Word) : Moved s (issue v s)
  | overrun (o : Nat) : Moved s (overrun o s)

theorem writeOffset_moved (o : Nat) (v : Word) (s : State) : Moved s (writeOffset o v s) := by
  unfold writeOffset
  split
  · split
    · exact .overrun o
    · exact .issued v
  · split
    · exact .overrun o
    · exact .registers (storeOffset_registerMove o v s)

theorem hostMove_moved {mv : HostMove} {s t : State} (h : hostMove mv s = .next t) : Moved s t := by
  cases mv with
  | write reg v => cases h; exact writeOffset_moved _ _ _
  | read reg => cases h; exact .registers rfl
  | poke a b =>
    simp only [hostMove] at h
    split at h
    · cases h
    · cases h; exact .poke a b
  | wait => cases h; exact .registers rfl

/-! ### A step -/

/-- Everything a step can do. -/
inductive Stepped (s : State) : State → Prop
  /-- BUSY = 0 and the HOST has no move. -/
  | idle : Stepped s s
  | walked {w : Walk} {t : State} (hw : s.walk = some w) (h : walkStep w s = .ok t) : Stepped s t
  | walkFaulted {w : Walk} {r : Raise} (hw : s.walk = some w) (h : walkStep w s = .error r) :
      Stepped s (walkFault w.cmd r s)
  | command {i : Instr} {t : State} (hn : s.walk = none) (h : Outcome s i t) : Stepped s t
  | moved {rest : List HostMove} {t : State} (hn : s.walk = none)
      (h : Moved { s with host := rest } t) : Stepped s t

/-- A record of the stream, as an instruction, is what the walk does with it. -/
theorem exec_ofRecord (k : RecKind) (h : RecHdr) (s : State) :
    exec (Instr.ofRecord k h) s = runRecord (recordBody k h) s := by
  cases k <;> rfl

/-- A step of the ENGINE inside a walk is one action of the walk. -/
theorem engineStep_walk {w : Walk} {s t : State} (hw : s.walk = some w)
    (h : engineStep s = .next t) : Stepped s t := by
  unfold engineStep at h
  rw [hw] at h
  cases hf : fetchRecord w s with
  | moved u =>
    simp only [hf] at h
    cases h
    exact .walked hw (by simp only [walkStep, hf])
  | faulted r =>
    simp only [hf] at h
    cases h
    exact .walkFaulted hw (by simp only [walkStep, hf])
  | record k hd u =>
    have hr := fetchRecord_record hf
    have huw : u.walk = some w := by rw [readHeader_frame hr]; exact hw
    have hs : walkStep w s = recordBody k hd w u := by simp only [walkStep, hf]
    simp only [hf, exec_ofRecord, runRecord, huw] at h
    cases hb : recordBody k hd w u with
    | ok v =>
      simp only [hb] at h
      cases h
      exact .walked hw (hs.trans hb)
    | error r =>
      simp only [hb] at h
      cases h
      rw [walkFault_readHeader hr]
      exact .walkFaulted hw (hs.trans hb)

/-- A command word decodes to a command. -/
theorem decodeCommand_space {w : Word} {i : Instr} (h : decodeCommand w = .ok i) :
    i.space = .command := by
  unfold decodeCommand at h
  simp only at h
  split at h <;> cases h <;> rfl

/-- A step of the ENGINE outside a walk runs the pending command. -/
theorem engineStep_command {s t : State} (hn : s.walk = none) (h : engineStep s = .next t) :
    Stepped s t := by
  unfold engineStep at h
  rw [hn] at h
  simp only at h
  split at h
  · cases hd : decodeCommand s.pending with
    | ok i =>
      rw [hd] at h
      exact .command hn (exec_outcome (decodeCommand_space hd) h)
    | error e =>
      -- an illegal word is ignored or faults, as any command may
      rw [hd] at h
      change illegalCommand s = .next t at h
      refine .command (i := .nop) hn (outcome_of_answers ?_ h)
      exact .raise nofun
  · cases h
    exact .idle

theorem step_stepped {s t : State} (h : step s = .next t) : Stepped s t := by
  unfold step at h
  cases hw : s.walk with
  | some w =>
    rw [if_pos (by simp [hw])] at h
    exact engineStep_walk hw h
  | none =>
    rw [if_neg (by simp [hw])] at h
    split at h
    · exact engineStep_command hw h
    · split at h
      · exact engineStep_command hw h
      · cases h
        exact .moved hw (.registers rfl)
    · exact .moved hw (hostMove_moved h)

/-! ### An invariant -/

/-- A property that everything a step can do keeps. -/
structure Invariant (P : State → Prop) : Prop where
  walked : ∀ {w s t}, s.walk = some w → walkStep w s = .ok t → P s → P t
  walkFaulted : ∀ {c r s}, r.code ≠ .none → P s → P (walkFault c r s)
  started : ∀ {c s}, s.walk = none → s.fault = false → P s →
    P (setPlace c .top { s with fsm := .waitGroup })
  completed : ∀ {i s t}, s.walk = none → Completes s i t → P s → P t
  finished : ∀ {s}, P s → P (finish s)
  faulted : ∀ {r s}, r.code ≠ .none → P s → P (faultEntry r s)
  numeric : ∀ {a : BitVec 8} {s}, isWork a → P s → P (forgetCm a.toNat s)
  reset : ∀ {s}, P s → P (resetState s)
  abort : ∀ {s}, s.walk = none → P s → P (abortState s)
  registers : ∀ {s t}, RegisterMove s t → P s → P t
  poke : ∀ {s} (a : Word) (b : Byte), P s → P { s with inMem := memWrite s.inMem a.toNat b }
  issued : ∀ {s} (v : Word), s.walk = none → P s → P (issue v s)

namespace Invariant

variable {P : State → Prop}

/-- An invariant holds where a walk ends. -/
theorem walkRun (hP : Invariant P) {fuel : Nat} {s t : State} (hs : P s)
    (h : Machine.walkRun fuel s = some t) : P t := by
  rcases walkRun_induct P fuel s t (fun _ _ _ hu hw hv => hP.walked hw hv hu) hs h with
    ⟨ht, -⟩ | ⟨u, w, r, hu, hw, he, rfl⟩
  · exact ht
  · exact hP.walkFaulted (walkStep_coded he) hu

theorem outcome (hP : Invariant P) {i : Instr} {s t : State} (hn : s.walk = none) (hs : P s)
    (h : Outcome s i t) : P t := by
  cases h with
  | ignored => exact hP.finished hs
  | faulted _ hc => exact hP.faulted hc hs
  | completed _ h => exact hP.finished (hP.completed hn h hs)
  | numeric _ _ hc hw => exact hP.faulted hc (hP.numeric hw hs)
  | reset _ => exact hP.reset hs
  | abort _ => exact hP.finished (hP.abort hn hs)
  | walked hf _ h => exact hP.walkRun (hP.started hn hf hs) h

theorem moved (hP : Invariant P) {s t : State} (hn : s.walk = none) (hs : P s) (h : Moved s t) :
    P t := by
  cases h with
  | registers h => exact hP.registers h hs
  | poke a b => exact hP.poke a b hs
  | issued v => exact hP.issued v hn hs
  | overrun o =>
    unfold Machine.overrun
    split
    · rw [← hn]
      exact hP.finished hs
    · exact hP.faulted nofun hs

/-- An invariant is kept by every step. -/
theorem step (hP : Invariant P) {s t : State} (hs : P s) (h : Machine.step s = .next t) : P t := by
  cases step_stepped h with
  | idle => exact hs
  | walked hw h => exact hP.walked hw h hs
  | walkFaulted _ he => exact hP.walkFaulted (walkStep_coded he) hs
  | command hn h => exact hP.outcome hn hs h
  | moved hn h =>
    refine hP.moved ?_ ?_ h
    · exact hn
    · exact hP.registers (s := s) rfl hs

end Invariant

end Sys2Proof.Machine
end

section
/-! The input memory and the fault record (20_memory.md R205, 10_state.md R102, 60_exceptions.md
R714): the ENGINE never writes IN, and a fault is recorded with a code or not at all. -/

namespace Sys2Proof.Machine

open Sys2Proof

/-- What no command that completes writes: IN, the fault record and the walk. -/
structure CommandFrame (s t : State) : Prop where
  inMem : t.inMem = s.inMem
  fault : t.fault = s.fault
  errCode : t.errCode = s.errCode
  errInfo : t.errInfo = s.errInfo
  walk : t.walk = s.walk

/-- The routines of the stream write the cursor, the record registers and the data buffer alone. -/
theorem readHeader_commandFrame {s u : State} {b : Bool} (h : readHeader s = (u, b)) :
    CommandFrame s u := by
  rw [readHeader_frame h]
  exact ⟨rfl, rfl, rfl, rfl, rfl⟩

theorem readData_commandFrame {s u : State} {n : Nat} (h : readData n s = .ok u) :
    CommandFrame s u := by
  obtain ⟨-, g, -, -, rfl⟩ := readData_ok h
  exact ⟨rfl, rfl, rfl, rfl, rfl⟩

theorem skipData_commandFrame {s u : State} {n : Nat} (h : skipData n s = .ok u) :
    CommandFrame s u := by
  obtain ⟨g, -, -, rfl⟩ := skipData_ok h
  exact ⟨rfl, rfl, rfl, rfl, rfl⟩

theorem CommandFrame.of_results {s u : State} (h : CommandFrame s u) (n0 n1 n2 : Word) :
    CommandFrame s { u with resN0 := n0, resN1 := n1, resN2 := n2 } :=
  ⟨h.inMem, h.fault, h.errCode, h.errInfo, h.walk⟩

theorem CommandFrame.refl (s : State) : CommandFrame s s := ⟨rfl, rfl, rfl, rfl, rfl⟩

theorem CommandFrame.writeMat {s u : State} (h : CommandFrame s u) (id : Nat) (m : Mat) :
    CommandFrame s (writeMat id m u) := ⟨h.inMem, h.fault, h.errCode, h.errInfo, h.walk⟩

theorem CommandFrame.draw {s u : State} (h : CommandFrame s u) : CommandFrame s (draw u) :=
  ⟨h.inMem, h.fault, h.errCode, h.errInfo, h.walk⟩

theorem Completes.frame {s t : State} {i : Instr} (h : Completes s i t) : CommandFrame s t := by
  cases h with
  | readHeader n0 n1 n2 hr => exact (readHeader_commandFrame hr).of_results _ _ _
  | readData n0 n1 hr => exact (readData_commandFrame hr).of_results _ _ _
  | skipData n0 hr => exact (skipData_commandFrame hr).of_results _ _ _
  | calCommit => exact (((CommandFrame.refl s).writeMat ..).writeMat ..).draw
  | calInit | calLoad => exact (((CommandFrame.refl s).writeMat ..).writeMat ..).writeMat ..
  | _ => exact ⟨rfl, rfl, rfl, rfl, rfl⟩

/-! ### The input memory -/

theorem MemoryOk.congr {s t : State} (h : t.inMem = s.inMem) (hs : MemoryOk s) : MemoryOk t := by
  rw [MemoryOk, h]
  exact hs

theorem memoryOk_invariant : Invariant MemoryOk where
  walked _ h := .congr (by rw [(walkStep_frame h).rest])
  walkFaulted _ := .congr rfl
  started _ _ := .congr rfl
  completed _ h := .congr h.frame.inMem
  finished := .congr rfl
  faulted _ := .congr rfl
  numeric _ := .congr rfl
  reset := .congr rfl
  abort _ := .congr rfl
  registers h := .congr (by rw [h])
  poke a b hs := memWrite_wf _ _ b hs a.isLt
  issued _ _ := .congr rfl

/-! ### The fault record -/

theorem FaultOk.congr {s t : State} (hf : t.fault = s.fault) (hc : t.errCode = s.errCode)
    (hi : t.errInfo = s.errInfo) (hs : FaultOk s) : FaultOk t := by
  constructor
  · rw [hf, hc, hi]; exact hs.clear
  · rw [hf, hc]; exact hs.recorded

theorem faultOk_faultEntry {r : Raise} {s : State} (h : r.code ≠ .none) :
    FaultOk (faultEntry r s) := ⟨nofun, fun _ => h⟩

theorem faultOk_faultExit (s : State) : FaultOk (faultExit s) := ⟨fun _ => ⟨rfl, rfl⟩, nofun⟩

theorem faultOk_invariant : Invariant FaultOk where
  walked _ h := by
    have hf := (walkStep_frame h).rest
    exact .congr (by rw [hf]) (by rw [hf]) (by rw [hf])
  walkFaulted h _ := faultOk_faultEntry h
  started _ _ := .congr rfl rfl rfl
  completed _ h := .congr h.frame.fault h.frame.errCode h.frame.errInfo
  finished := .congr rfl rfl rfl
  faulted h _ := faultOk_faultEntry h
  numeric _ := .congr rfl rfl rfl
  reset _ := ⟨fun _ => ⟨rfl, rfl⟩, nofun⟩
  abort {s} _ _ := .congr (s := faultExit s) rfl rfl rfl (faultOk_faultExit s)
  registers h := .congr (by rw [h]) (by rw [h]) (by rw [h])
  poke _ _ := .congr rfl rfl rfl
  issued _ _ := .congr rfl rfl rfl

/-- Settles O56: the memory's form and the fault record are invariants. -/
theorem memoryAndFaultInvariantsKept : Obligations.MemoryAndFaultInvariantsKept :=
  fun _ _ h => ⟨fun hs => memoryOk_invariant.step hs h, fun hs => faultOk_invariant.step hs h⟩

end Sys2Proof.Machine
end

section
/-! The stream cursor (10_state.md R120, R121, 20_memory.md R205, R209): it moves by whole words
inside its segment, or to the start of a later segment, or past the last one. -/

namespace Sys2Proof.Machine

open Sys2Proof

namespace StreamOk

/-- Only the queue and the cursor count. -/
theorem congr {s t : State} (hs : StreamOk s) (hq : t.segq = s.segq) (hc : t.curSeg = s.curSeg)
    (ho : t.off = s.off) : StreamOk t := by
  constructor
  · rw [hq]; exact hs.depth
  · rw [hq]; exact hs.ends
  · rw [hq, hc]; exact hs.cursor
  · rw [hq, hc, ho]; exact hs.offset
  · rw [hq, hc, ho]; exact hs.exhausted

/-- The cursor put inside a segment, at a multiple of 4. -/
theorem of_inside {s t : State} (hs : StreamOk s) (hq : t.segq = s.segq) {g : Seg} {n : Nat}
    (hg : s.segq[t.curSeg]? = some g) (ho : t.off = BitVec.ofNat 32 n) (hn : n ≤ g.len.toNat)
    (h4 : n % 4 = 0) : StreamOk t := by
  have hlen := g.len.isLt
  have hoff : t.off.toNat = n := by rw [ho, BitVec.toNat_ofNat, Nat.mod_eq_of_lt (by omega)]
  constructor
  · rw [hq]; exact hs.depth
  · rw [hq]; exact hs.ends
  · rw [hq]; exact (List.getElem?_eq_some_iff.1 hg).1.le
  · intro g' hg'
    rw [hq, hg] at hg'
    cases hg'
    rw [hoff]
    exact ⟨hn, h4⟩
  · intro hnone
    rw [hq, hg] at hnone
    cases hnone

/-- The cursor put at the start of a segment, or past the last one. -/
theorem of_start {s t : State} (hs : StreamOk s) (hq : t.segq = s.segq)
    (hc : t.curSeg ≤ s.segq.length) (ho : t.off = 0) : StreamOk t := by
  constructor
  · rw [hq]; exact hs.depth
  · rw [hq]; exact hs.ends
  · rw [hq]; exact hc
  · intro g _
    rw [ho]
    exact ⟨Nat.zero_le _, rfl⟩
  · exact fun _ => ho

/-- The cursor moved over whole words that its segment has left. -/
theorem advance {s t : State} (hs : StreamOk s) (hq : t.segq = s.segq) (hc : t.curSeg = s.curSeg)
    {g : Seg} {k : Nat} (hg : s.segq[s.curSeg]? = some g) (hk : 4 * k ≤ g.len.toNat - s.off.toNat)
    (ho : t.off = BitVec.ofNat 32 (s.off.toNat + 4 * k)) : StreamOk t := by
  obtain ⟨hle, h4⟩ := hs.offset g hg
  exact hs.of_inside hq (hc ▸ hg) ho (by omega) (by omega)

theorem readHeader {s t : State} {b : Bool} (hr : Machine.readHeader s = (t, b)) (hs : StreamOk s) :
    StreamOk t := by
  rcases readHeader_cases hr with ⟨-, j, g, hg, h8, -, rfl⟩ | ⟨-, -, rfl⟩
  · refine hs.of_inside rfl hg rfl h8 ?_
    unfold tryOffset
    split
    · rename_i hj
      subst hj
      have := (hs.offset g hg).2
      omega
    · rfl
  · have hc := hs.cursor
    refine hs.of_start rfl ?_ ?_
    · show s.curSeg + (s.segq.length - s.curSeg) ≤ s.segq.length
      omega
    · show BitVec.ofNat 32 (tryOffset s.off.toNat (s.segq.length - s.curSeg)) = 0
      unfold tryOffset
      split
      · rw [hs.exhausted (List.getElem?_eq_none (by omega))]
        rfl
      · rfl

theorem readData {s t : State} {n : Nat} (hr : Machine.readData n s = .ok t) (hs : StreamOk s) :
    StreamOk t := by
  obtain ⟨-, g, hg, hl, rfl⟩ := readData_ok hr
  exact hs.advance rfl rfl hg hl rfl

theorem skipData {s t : State} {n : Nat} (hr : Machine.skipData n s = .ok t) (hs : StreamOk s) :
    StreamOk t := by
  obtain ⟨g, hg, hl, rfl⟩ := skipData_ok hr
  exact hs.advance rfl rfl hg hl rfl

theorem skipWords {s t : State} {n : Nat} (hr : Machine.skipWords n s = .ok t) (hs : StreamOk s) :
    StreamOk t := by
  rcases skipWords_ok hr with ⟨-, rfl⟩ | ⟨-, g, hg, hl, rfl⟩
  · exact hs
  · exact hs.advance rfl rfl hg hl rfl

theorem takeData {k : RecKind} {h : RecHdr} {d : Bool} {s t : State}
    (ht : Machine.takeData k h d s = .ok t) (hs : StreamOk s) : StreamOk t := by
  unfold Machine.takeData at ht
  split at ht
  · split at ht
    · rename_i u hu
      have hf := decodeBlob_frame ht
      exact (hs.readData hu).congr (by rw [hf]) (by rw [hf]) (by rw [hf])
    · cases ht
  · exact hs.skipData ht

theorem walkKeeps (d : Bool) : WalkKeeps d StreamOk where
  book hb hs := hs.congr (by rw [hb]) (by rw [hb]) (by rw [hb])
  header := readHeader
  skip := skipWords
  take := takeData

/-- A segment put at the end of the queue. -/
theorem push {s t : State} {g : Seg} (hs : StreamOk s) (hq : t.segq = s.segq ++ [g])
    (hc : t.curSeg = s.curSeg) (ho : t.off = s.off) (hlen : s.segq.length ≠ Config.segqDepth)
    (hend : g.base.toNat + g.len.toNat ≤ 2 ^ 32) : StreamOk t := by
  have hdepth := hs.depth
  have hcur := hs.cursor
  constructor
  · rw [hq, List.length_append, List.length_singleton]
    omega
  · intro g' hg'
    rw [hq] at hg'
    rcases List.mem_append.1 hg' with hg' | hg'
    · exact hs.ends g' hg'
    · rwa [List.mem_singleton.1 hg']
  · rw [hq, hc, List.length_append]
    omega
  · intro g' hg'
    rw [hq, hc] at hg'
    rw [ho]
    by_cases hlt : s.curSeg < s.segq.length
    · rw [List.getElem?_append_left hlt] at hg'
      exact hs.offset g' hg'
    · rw [hs.exhausted (List.getElem?_eq_none (by omega))]
      exact ⟨Nat.zero_le _, rfl⟩
  · intro hnone
    rw [hq, hc, List.getElem?_eq_none_iff, List.length_append, List.length_singleton] at hnone
    omega

/-- The empty queue. -/
theorem of_empty {t : State} (hq : t.segq = []) (hc : t.curSeg = 0) (ho : t.off = 0) :
    StreamOk t := by
  constructor <;> simp [hq, hc, ho]

theorem openNext {s t : State} (hs : StreamOk s) (hq : t.segq = s.segq)
    (hc : t.curSeg = if s.curSeg < s.segq.length then s.curSeg + 1 else s.curSeg)
    (ho : t.off = if s.curSeg < s.segq.length then 0 else s.off) : StreamOk t := by
  by_cases hlt : s.curSeg < s.segq.length
  · rw [if_pos hlt] at hc ho
    exact hs.of_start hq (by omega) ho
  · rw [if_neg hlt] at hc ho
    exact hs.congr hq hc ho

theorem completed {i : Instr} {s t : State} (h : Completes s i t) (hs : StreamOk s) :
    StreamOk t := by
  cases h with
  | segPush g _ hlen hend => exact hs.push rfl rfl rfl hlen hend
  | segClear => exact of_empty rfl rfl rfl
  | openStream => exact hs.of_start rfl (Nat.zero_le _) rfl
  | openNext => exact hs.openNext rfl rfl rfl
  | readHeader _ _ _ hr => exact (hs.readHeader hr).congr rfl rfl rfl
  | readData _ _ hr => exact (hs.readData hr).congr rfl rfl rfl
  | skipData _ hr => exact (hs.skipData hr).congr rfl rfl rfl
  | results | noEvent | work | accumulator | calCommit | calInit | calLoad | cmApply =>
    exact hs.congr (by simp) (by simp) (by simp)

/-- After a fault of the walk the cursor is free, but inside the queue (log 4). -/
theorem walkFault {c : WalkCmd} {r : Raise} {s : State} (hs : StreamOk s) :
    StreamOk (Machine.walkFault c r s) := by
  obtain ⟨hc, hin, hout⟩ := freeCursor_limits s
  exact ⟨hs.depth, hs.ends, hc, hin, hout⟩

theorem invariant : Invariant StreamOk where
  walked _ h hs := (h ▸ walkStep_keeps (walkKeeps _) hs).of_ok
  walkFaulted _ := walkFault
  started _ _ hs := hs.congr rfl rfl rfl
  completed _ := completed
  finished hs := hs.congr rfl rfl rfl
  faulted _ hs := hs.congr rfl rfl rfl
  numeric _ hs := hs.congr rfl rfl rfl
  reset _ := of_empty rfl rfl rfl
  abort _ hs := hs.of_start rfl (Nat.zero_le _) rfl
  registers h hs := hs.congr (by rw [h]) (by rw [h]) (by rw [h])
  poke _ _ hs := hs.congr rfl rfl rfl
  issued _ _ hs := hs.congr rfl rfl rfl

end StreamOk

/-- Settles O57: the cursor's place in the queue is an invariant. -/
theorem streamInvariantKept : Obligations.StreamInvariantKept :=
  fun _ _ hs h => StreamOk.invariant.step hs h

end Sys2Proof.Machine
end

section
/-! The matrices, accumulators, data buffer and corrections (10_state.md R130, R150, R151, R160,
R170): every write of a file puts there what is within its limits. -/

namespace Sys2Proof.Machine

open Sys2Proof

/-! ### PED, NOISE and MASK of a module -/

/-- The three calibration matrices of module `m` written. -/
def writeModule (m : Nat) (ped noise mask : Mat) (s : State) : State :=
  writeMat (maskId m) mask (writeMat (noiseId m) noise (writeMat (pedId m) ped s))

/-- Writes of different registers commute. -/
theorem writeMat_comm {i j : Nat} (h : i ≠ j) (m m' : Mat) (s : State) :
    writeMat i m (writeMat j m' s) = writeMat j m' (writeMat i m s) := by
  simp only [writeMat]
  rw [Vector.setIfInBound_comm _ _ h.symm]

section
variable {m : Nat} (hm : m < 16) (ped noise mask : Mat) (s : State)
include hm

theorem readMat_writeModule_ped : readMat (writeModule m ped noise mask s) (pedId m) = ped := by
  rw [writeModule, readMat_writeMat_ne _ _ _ _ (by unfold pedId maskId; omega),
    readMat_writeMat_ne _ _ _ _ (by unfold pedId noiseId; omega),
    readMat_writeMat_same _ _ _ (by unfold pedId; omega)]

theorem readMat_writeModule_noise :
    readMat (writeModule m ped noise mask s) (noiseId m) = noise := by
  rw [writeModule, readMat_writeMat_ne _ _ _ _ (by unfold noiseId maskId; omega),
    readMat_writeMat_same _ _ _ (by unfold noiseId; omega)]

theorem readMat_writeModule_mask : readMat (writeModule m ped noise mask s) (maskId m) = mask := by
  rw [writeModule, readMat_writeMat_same _ _ _ (by unfold maskId; omega)]

end

theorem readMat_writeModule_ne {m id : Nat} (ped noise mask : Mat) (s : State) (hp : id ≠ pedId m)
    (hn : id ≠ noiseId m) (hk : id ≠ maskId m) :
    readMat (writeModule m ped noise mask s) id = readMat s id := by
  rw [writeModule, readMat_writeMat_ne _ _ _ _ hk, readMat_writeMat_ne _ _ _ _ hn,
    readMat_writeMat_ne _ _ _ _ hp]

section
variable (m : Nat) (ped noise mask : Mat) (s : State)

@[simp] theorem writeModule_accs : (writeModule m ped noise mask s).accs = s.accs := by
  simp [writeModule]

@[simp] theorem writeModule_dataBuf : (writeModule m ped noise mask s).dataBuf = s.dataBuf := by
  simp [writeModule]

@[simp] theorem writeModule_corrRow : (writeModule m ped noise mask s).corrRow = s.corrRow := by
  simp [writeModule]

@[simp] theorem writeModule_corrCol : (writeModule m ped noise mask s).corrCol = s.corrCol := by
  simp [writeModule]

end

/-- CAL_COMMIT's writes: MASK stays. -/
theorem writeModule_keep_mask {m : Nat} (hm : m < 16) (ped noise : Mat) (s : State) :
    writeMat (noiseId m) noise (writeMat (pedId m) ped s)
      = writeModule m ped noise (readMat s (maskId m)) s := by
  have hmask : readMat (writeMat (noiseId m) noise (writeMat (pedId m) ped s)) (maskId m)
      = readMat s (maskId m) := by
    rw [readMat_writeMat_ne _ _ _ _ (by unfold maskId noiseId; omega),
      readMat_writeMat_ne _ _ _ _ (by unfold maskId pedId; omega)]
  rw [writeModule, ← hmask, writeMat_readMat _ _ (by unfold maskId; omega)]

/-- CAL_LOAD's writes, in its order. -/
theorem writeModule_of_load (m : Nat) (ped noise mask : Mat) (s : State) :
    writeMat (noiseId m) noise (writeMat (pedId m) ped (writeMat (maskId m) mask s))
      = writeModule m ped noise mask s := by
  rw [writeModule, writeMat_comm (i := pedId m) (by unfold maskId pedId; omega),
    writeMat_comm (i := noiseId m) (by unfold maskId noiseId; omega)]

/-! ### The files -/

namespace FilesOk

/-- Only the files count. -/
theorem congr {s t : State} (hs : FilesOk s) (hm : t.mats = s.mats) (ha : t.accs = s.accs)
    (hb : t.dataBuf = s.dataBuf) (hr : t.corrRow = s.corrRow) (hc : t.corrCol = s.corrCol) :
    FilesOk t := by
  have hmat := readMat_congr hm
  have hacc := readAcc_congr ha
  constructor
  · simpa only [hmat] using hs.mats
  · simpa only [hmat] using hs.tags
  · simpa only [hmat] using hs.snapshot
  · simpa only [hacc] using hs.accs
  · rw [hb]; exact hs.buffer
  · rw [hr, hc]; exact hs.corr

/-- A register that is no PED and no NOISE written within the limits. -/
theorem writeMat {s : State} (hs : FilesOk s) {id : Nat} {m : Mat} (hid : id < 128 ∨ 160 ≤ id)
    (hwf : m.wf) (htags : 128 ≤ id → m.untagged) : FilesOk (writeMat id m s) := by
  have hread : ∀ i, i ≠ id → readMat (Machine.writeMat id m s) i = readMat s i :=
    fun i hi => readMat_writeMat_ne _ _ _ _ hi
  constructor
  · intro i hi
    by_cases he : i = id
    · subst he
      rwa [readMat_writeMat_same _ _ _ hi]
    · rw [hread i he]
      exact hs.mats i hi
  · intro i hlo hi
    by_cases he : i = id
    · subst he
      rw [readMat_writeMat_same _ _ _ hi]
      exact htags hlo
    · rw [hread i he]
      exact hs.tags i hlo hi
  · intro k hk
    rw [hread _ (by unfold pedId; omega), hread _ (by unfold noiseId; omega)]
    exact hs.snapshot k hk
  · exact hs.accs
  · exact hs.buffer
  · exact hs.corr

/-- A register refilled within the limits; its tags stay. -/
theorem refill {s : State} (hs : FilesOk s) {id nX nY : Nat} {d : List F64}
    (hid : id < 128 ∨ 160 ≤ id) (hlt : id < 184) (hwf : (matFill nX nY d (readMat s id)).wf) :
    FilesOk (Machine.writeMat id (matFill nX nY d (readMat s id)) s) :=
  hs.writeMat hid hwf fun hlo => hs.tags id hlo hlt

/-- The matrices of a module written with one shape and no tags. -/
theorem writeModule {s : State} (hs : FilesOk s) {m : Nat} (hm : m < 16) {ped noise mask : Mat}
    (hped : ped.wf ∧ ped.untagged) (hnoise : noise.wf ∧ noise.untagged)
    (hmask : mask.wf ∧ mask.untagged) (hd : sameDims ped noise = true) :
    FilesOk (writeModule m ped noise mask s) := by
  have hwf : ∀ q ∈ [ped, noise, mask], q.wf ∧ q.untagged := by simp [hped, hnoise, hmask]
  have written : ∀ i,
      (∃ q ∈ [ped, noise, mask], readMat (Machine.writeModule m ped noise mask s) i = q)
      ∨ readMat (Machine.writeModule m ped noise mask s) i = readMat s i := by
    intro i
    by_cases hp : i = pedId m
    · exact .inl ⟨ped, by simp, hp ▸ readMat_writeModule_ped hm ..⟩
    by_cases hn : i = noiseId m
    · exact .inl ⟨noise, by simp, hn ▸ readMat_writeModule_noise hm ..⟩
    by_cases hk : i = maskId m
    · exact .inl ⟨mask, by simp, hk ▸ readMat_writeModule_mask hm ..⟩
    · exact .inr (readMat_writeModule_ne _ _ _ _ hp hn hk)
  constructor
  · intro i hi
    rcases written i with ⟨q, hq, he⟩ | he
    · rw [he]; exact (hwf q hq).1
    · rw [he]; exact hs.mats i hi
  · intro i hlo hi
    rcases written i with ⟨q, hq, he⟩ | he
    · rw [he]; exact (hwf q hq).2
    · rw [he]; exact hs.tags i hlo hi
  · intro k hk
    by_cases hkm : k = m
    · subst hkm
      rwa [readMat_writeModule_ped hm, readMat_writeModule_noise hm]
    · rw [readMat_writeModule_ne _ _ _ _ (by unfold pedId; omega) (by unfold pedId noiseId; omega)
          (by unfold pedId maskId; omega),
        readMat_writeModule_ne _ _ _ _ (by unfold noiseId pedId; omega) (by unfold noiseId; omega)
          (by unfold noiseId maskId; omega)]
      exact hs.snapshot k hk
  · intro k hk
    rw [readAcc_congr (writeModule_accs ..)]
    exact hs.accs k hk
  · rw [writeModule_dataBuf]
    exact hs.buffer
  · rw [writeModule_corrRow, writeModule_corrCol]
    exact hs.corr

theorem writeAcc {s : State} (hs : FilesOk s) {m : Nat} {acc : Acc} (hm : m < 16) (hwf : acc.wf) :
    FilesOk (writeAcc m acc s) := by
  refine ⟨hs.mats, hs.tags, hs.snapshot, fun k hk => ?_, hs.buffer, hs.corr⟩
  rw [readAcc_writeAcc _ _ _ _ hm]
  split
  · exact hwf
  · exact hs.accs k hk

/-! ### The walk -/

theorem readData {s t : State} {n : Nat} (hr : Machine.readData n s = .ok t) (hs : FilesOk s) :
    FilesOk t := by
  obtain ⟨hn, g, -, -, rfl⟩ := readData_ok hr
  refine ⟨hs.mats, hs.tags, hs.snapshot, hs.accs, ?_, hs.corr⟩
  show (memReadN _ _ _).length ≤ _
  rwa [memReadN_length]

/-- A decoded frame fills an event slot. -/
theorem decodeFrames {t : ConvKind} {um : Bool} {h : RecHdr} {gate : BitVec 10}
    {base left f off : Nat} {s s' : State} (hslots : base + (f + left) ≤ 128)
    (hd : Machine.decodeFrames t um h gate base left f off s = .ok s') (hs : FilesOk s) :
    FilesOk s' := by
  induction left generalizing f off s with
  | zero => cases hd; exact hs
  | succ left ih =>
    unfold Machine.decodeFrames at hd
    split at hd
    · cases hd
    · rename_i u hu
      obtain ⟨-, rfl⟩ := convert_ok hu
      refine ih (by omega) hd ?_
      have hslot : base + f < 128 := by omega
      have hfilled := hs.refill (.inl hslot) (by omega)
        (converted_wf t um off gate.toNat s.dataBuf (readMat s (base + f)))
      exact hfilled.writeMat (.inl hslot) (hfilled.mats _ (by omega)) (by omega)

theorem decodeBlob {k : RecKind} {h : RecHdr} {ord : BitVec 4} {s s' : State}
    (hd : Machine.decodeBlob k h ord s = .ok s') (hs : FilesOk s) : FilesOk s' := by
  obtain ⟨t, um, hd⟩ := decodeBlob_ok hd
  have ho := ord.isLt
  have ht := s.tLatch.isLt
  have hbase : ord.toNat * (1 + s.tLatch.toNat) ≤ 15 * (1 + s.tLatch.toNat) :=
    Nat.mul_le_mul_right _ (by omega)
  exact hs.decodeFrames (by omega) hd

theorem takeData {k : RecKind} {h : RecHdr} {d : Bool} {s t : State}
    (ht : Machine.takeData k h d s = .ok t) (hs : FilesOk s) : FilesOk t := by
  unfold Machine.takeData at ht
  split at ht
  · split at ht
    · rename_i u hu
      exact (hs.readData hu).decodeBlob ht
    · cases ht
  · obtain ⟨g, -, -, rfl⟩ := skipData_ok ht
    exact hs.congr rfl rfl rfl rfl rfl

theorem readHeader {s t : State} {b : Bool} (hr : Machine.readHeader s = (t, b)) (hs : FilesOk s) :
    FilesOk t := by
  have hf := readHeader_frame hr
  exact hs.congr (by rw [hf]) (by rw [hf]) (by rw [hf]) (by rw [hf]) (by rw [hf])

theorem walkKeeps (d : Bool) : WalkKeeps d FilesOk where
  book hb hs := hs.congr (by rw [hb]) (by rw [hb]) (by rw [hb]) (by rw [hb]) (by rw [hb])
  header := readHeader
  skip h hs := by
    have hf := (skipWords_frame h).1
    exact hs.congr (by rw [hf]) (by rw [hf]) (by rw [hf]) (by rw [hf]) (by rw [hf])
  take := takeData

/-- After a fault of the walk the event slots and DATA_BUF are free, within their limits (log 4). -/
theorem forgetWalk {d : Bool} {s : State} (hs : FilesOk s) : FilesOk (forgetWalk d s) := by
  have high : ∀ i, 128 ≤ i → readMat (Machine.forgetWalk d s) i = readMat s i := fun i hi => by
    rw [readMat_forgetWalk, if_neg (by omega)]
  constructor
  · intro i hi
    rw [readMat_forgetWalk]
    split
    · exact freeSlot_limits _ _
    · exact hs.mats i hi
  · intro i hlo hi
    rw [high i hlo]
    exact hs.tags i hlo hi
  · intro k hk
    rw [high _ (by unfold pedId; omega), high _ (by unfold noiseId; omega)]
    exact hs.snapshot k hk
  · exact hs.accs
  · cases d with
    | false => exact hs.buffer
    | true =>
      have := freeBelow_lt s.freeTick .dataLen 0 0 (Config.dataBufBytes / 4 + 1) (by omega)
      simp only [Machine.forgetWalk, if_true, List.length_map, List.length_range]
      omega
  · exact hs.corr

end FilesOk

/-! ### CM_APPLY -/

/-- A list of corrections is within its limit (10_state.md R170, log 14). -/
def CorrOk (l : List F64) : Prop := l.length ≤ Config.maxPixels ∨ ∀ v ∈ l, v = fZero

/-- The corrections of a stage are within their limit. -/
theorem cmRunStage_corrOk {s : State} {g : CmStage} {nX nY : Nat} {mask noise : Option Mat}
    {d d' corrs : List F64} (hd : d.length = nX * nY) (hmax : nX * nY ≤ Config.maxPixels)
    (hl : cmEnabled s g = true → cmLegal s g nX nY = true)
    (h : cmRunStage s g nX nY mask noise d = .ok (d', corrs)) : CorrOk corrs := by
  rcases Nat.eq_zero_or_pos (nX * nY) with h0 | hpos
  · rw [h0, List.length_eq_zero_iff] at hd
    subst hd
    exact .inr (cmRunStage_empty h).2
  · left
    unfold cmRunStage at h
    split at h
    · rename_i he
      rw [(cmBlocks_length h).2]
      exact (cmBlockCount_le (hl he) hpos).trans hmax
    · cases h
      exact Nat.zero_le _

theorem cmRun_corrOk {s : State} {nX nY : Nat} {mask noise : Option Mat} {d d' rows cols : List F64}
    (hd : d.length = nX * nY) (hmax : nX * nY ≤ Config.maxPixels)
    (hl : ∀ g, cmEnabled s g = true → cmLegal s g nX nY = true)
    (h : cmRun s nX nY mask noise d = .ok (d', rows, cols)) : CorrOk rows ∧ CorrOk cols := by
  unfold cmRun at h
  split at h
  · cases h
  · rename_i d1 r1 h1
    split at h
    · cases h
    · rename_i d2 r2 h2
      cases h
      have hz : (cmZeroMasked mask d).length = nX * nY := (cmZeroMasked_length mask d).trans hd
      exact ⟨cmRunStage_corrOk hz hmax (hl _) h1,
        cmRunStage_corrOk ((cmRunStage_length h1).trans hz) hmax (hl _) h2⟩

namespace FilesOk

theorem setCorr {s t : State} (hs : FilesOk s) (hm : t.mats = s.mats) (ha : t.accs = s.accs)
    (hb : t.dataBuf = s.dataBuf) (hr : CorrOk t.corrRow) (hc : CorrOk t.corrCol) : FilesOk t := by
  have hu : FilesOk { t with corrRow := s.corrRow, corrCol := s.corrCol } :=
    hs.congr hm ha hb rfl rfl
  refine ⟨hu.mats, hu.tags, hu.snapshot, hu.accs, hu.buffer, fun l hl => ?_⟩
  rcases List.mem_pair.1 hl with rfl | rfl
  · exact hr
  · exact hc

theorem cmApply {a b c : BitVec 8} {s : State} {mask noise : Option Mat} {d rows cols : List F64}
    (hs : FilesOk s) (ho : cmOperands a b c s = .ok (a.toNat, mask, noise)) (hw : isWork a)
    (hr : cmRun s (readMat s a.toNat).nX (readMat s a.toNat).nY mask noise (readMat s a.toNat).data
      = .ok (d, rows, cols)) :
    FilesOk (draw { Machine.writeMat a.toNat { readMat s a.toNat with data := d } s with
      corrRow := rows, corrCol := cols }) := by
  obtain ⟨hlo, hhi⟩ := hw
  have hwf := hs.mats a.toNat (by omega)
  obtain ⟨-, -, -, -, -, -, -, hl⟩ := cmOperands_ok ho
  obtain ⟨hrows, hcols⟩ := cmRun_corrOk hwf.1 hwf.2.2.2 hl hr
  exact (hs.refill (.inr (by omega)) (by omega) (wf_of_pixels (cmRun_length hr) hwf)).setCorr
    rfl rfl rfl hrows hcols

/-- After NUMERIC the destination's pixels and the corrections are free, within their limits
(log 5). -/
theorem forgetCm {a : BitVec 8} {s : State} (hs : FilesOk s) (hw : isWork a) :
    FilesOk (forgetCm a.toNat s) := by
  obtain ⟨hlo, hhi⟩ := hw
  have hwf := hs.mats a.toNat (by omega)
  exact (hs.refill (.inr (by omega)) (by omega) (wf_of_pixels (by simp) hwf)).setCorr
    rfl rfl rfl (.inl (freeCorr_length ..)) (.inl (freeCorr_length ..))

/-! ### Every command -/

/-- PED, NOISE and MASK are within the limits and carry no tags. -/
theorem calibration {s : State} (hs : FilesOk s) {m : Nat} (hm : m < 16) :
    ∀ id ∈ [pedId m, noiseId m, maskId m], (readMat s id).wf ∧ (readMat s id).untagged := by
  intro id hid
  have hrange : 128 ≤ id ∧ id < 184 := by
    simp only [List.mem_cons, List.not_mem_nil, or_false, pedId, noiseId, maskId] at hid
    omega
  exact ⟨hs.mats id hrange.2, hs.tags id hrange.1 hrange.2⟩

theorem calCommit {s : State} (hs : FilesOk s) {m : Nat} (hm : m < 16) {noise : List F64}
    (hn : noise.length = (readAcc s m).cells.length) :
    FilesOk (Machine.writeModule m
      (matFill (readAcc s m).nX (readAcc s m).nY ((readAcc s m).cells.map AccCell.mean)
        (readMat s (pedId m)))
      (matFill (readAcc s m).nX (readAcc s m).nY noise (readMat s (noiseId m)))
      (readMat s (maskId m)) s) := by
  obtain ⟨hlen, hext⟩ := hs.accs m hm
  obtain ⟨-, hped⟩ := hs.calibration hm (pedId m) (by simp)
  obtain ⟨-, hnoise⟩ := hs.calibration hm (noiseId m) (by simp)
  have hmask := hs.calibration hm (maskId m) (by simp)
  exact hs.writeModule hm ⟨matFill_wf _ (by rw [List.length_map, hlen]) hext, hped⟩
    ⟨matFill_wf _ (hn.trans hlen) hext, hnoise⟩ hmask ((sameDims_iff ..).2 ⟨rfl, rfl⟩)

theorem calInit {s : State} (hs : FilesOk s) {m nX nY : Nat} (hm : m < 16) (he : ExtentsOk nX nY) :
    FilesOk (Machine.writeModule m (matResize nX nY (readMat s (pedId m)))
      (matResize nX nY (readMat s (noiseId m))) (matResize nX nY (readMat s (maskId m))) s) := by
  have resized : ∀ id ∈ [pedId m, noiseId m, maskId m],
      (matResize nX nY (readMat s id)).wf ∧ (matResize nX nY (readMat s id)).untagged :=
    fun id hid => ⟨⟨matResize_data_length .., he⟩, (hs.calibration hm id hid).2⟩
  exact hs.writeModule hm (resized _ (by simp)) (resized _ (by simp)) (resized _ (by simp))
    ((sameDims_iff ..).2 ⟨rfl, rfl⟩)

theorem calLoad {s : State} (hs : FilesOk s) {m : Nat} (hm : m < 16) (k : Nat)
    (ped noise mask : F64) :
    FilesOk (Machine.writeModule m (matPut k ped (readMat s (pedId m)))
      (matPut k noise (readMat s (noiseId m))) (matPut k mask (readMat s (maskId m))) s) := by
  have put : ∀ id ∈ [pedId m, noiseId m, maskId m], ∀ v,
      (matPut k v (readMat s id)).wf ∧ (matPut k v (readMat s id)).untagged := fun id hid v =>
    have ⟨hwf, htags⟩ := hs.calibration hm id hid
    ⟨wf_of_pixels (List.length_set ..) hwf, htags⟩
  exact hs.writeModule hm (put _ (by simp) _) (put _ (by simp) _) (put _ (by simp) _)
    (hs.snapshot m hm)

theorem completed {i : Instr} {s t : State} (h : Completes s i t) (hs : FilesOk s) : FilesOk t := by
  cases h with
  | readHeader _ _ _ hr => exact (hs.readHeader hr).congr rfl rfl rfl rfl rfl
  | readData _ _ hr => exact (hs.readData hr).congr rfl rfl rfl rfl rfl
  | skipData _ hr =>
    obtain ⟨g, -, -, rfl⟩ := skipData_ok hr
    exact hs.congr rfl rfl rfl rfl rfl
  | work nX nY d _ _ hw _ hwf =>
    obtain ⟨hlo, hhi⟩ := hw
    exact (hs.refill (.inr (by omega)) (by omega) (hwf (hs.mats _ (by omega)))).congr
      rfl rfl rfl rfl rfl
  | accumulator acc _ _ _ hm hwf =>
    have hm := Nat.lt_succ_of_le hm
    exact (hs.writeAcc hm (hwf (hs.accs _ hm))).congr rfl rfl rfl rfl rfl
  | calCommit noise hm hn =>
    have hm := Nat.lt_succ_of_le hm
    rw [writeModule_keep_mask hm]
    exact (hs.calCommit hm hn).congr rfl rfl rfl rfl rfl
  | calInit nX nY hm he => exact hs.calInit (Nat.lt_succ_of_le hm) he
  | calLoad k ped noise mask hm =>
    rw [writeModule_of_load]
    exact hs.calLoad (Nat.lt_succ_of_le hm) k ped noise mask
  | cmApply ho hw hr => exact hs.cmApply ho hw hr
  | results | noEvent | segPush | segClear | openStream | openNext =>
    exact hs.congr rfl rfl rfl rfl rfl

theorem of_reset {t : State} (hm : t.mats = State.reset.mats) (ha : t.accs = State.reset.accs)
    (hb : t.dataBuf = []) (hr : t.corrRow = []) (hc : t.corrCol = []) : FilesOk t := by
  have hmat : ∀ i, readMat t i = Mat.empty := fun i => by
    rw [readMat_congr hm, readMat]
    by_cases hi : i < 184 <;> simp [State.reset, hi]
  have hacc : ∀ i, readAcc t i = Acc.empty := fun i => by
    rw [readAcc_congr ha, readAcc]
    by_cases hi : i < 16 <;> simp [State.reset, hi]
  constructor
  · intro i _
    rw [hmat]
    exact ⟨rfl, Nat.zero_le _, Nat.zero_le _, Nat.zero_le _⟩
  · intro i _ _
    rw [hmat]
    exact ⟨rfl, rfl, rfl, rfl⟩
  · intro m _
    rw [hmat, hmat]
    rfl
  · intro m _
    rw [hacc]
    exact ⟨rfl, Nat.zero_le _, Nat.zero_le _, Nat.zero_le _⟩
  · rw [hb]
    exact Nat.zero_le _
  · rw [hr, hc]
    simp

theorem invariant : Invariant FilesOk where
  walked _ h hs := (h ▸ walkStep_keeps (walkKeeps _) hs).of_ok
  walkFaulted _ hs := hs.forgetWalk.congr rfl rfl rfl rfl rfl
  started _ _ hs := hs.congr rfl rfl rfl rfl rfl
  completed _ := completed
  finished hs := hs.congr rfl rfl rfl rfl rfl
  faulted _ hs := hs.congr rfl rfl rfl rfl rfl
  numeric hw hs := hs.forgetCm hw
  reset _ := of_reset rfl rfl rfl rfl rfl
  abort _ hs := hs.congr rfl rfl rfl rfl rfl
  registers h hs := hs.congr (by rw [h]) (by rw [h]) (by rw [h]) (by rw [h]) (by rw [h])
  poke _ _ hs := hs.congr rfl rfl rfl rfl rfl
  issued _ _ hs := hs.congr rfl rfl rfl rfl rfl

end FilesOk

/-- Settles O58: the limits of the files are an invariant. -/
theorem filesInvariantKept : Obligations.FilesInvariantKept :=
  fun _ _ hs h => FilesOk.invariant.step hs h

end Sys2Proof.Machine
end

section
/-! The slot map (10_state.md R140, 43_assembler.md R505, R511, R512): empty until a group
establishes it, then the modules of that group in the order of their records. -/

namespace Sys2Proof.Machine

open Sys2Proof

/-- The fields of the slot map, and T_LATCH, are as before. -/
structure SameMap (s t : State) : Prop where
  nmod : t.nmod = s.nmod
  modmap : t.modmap = s.modmap
  mapValid : t.mapValid = s.mapValid
  nslots : t.nslots = s.nslots
  tLatch : t.tLatch = s.tLatch

theorem SameMap.trans {s t u : State} (h : SameMap s t) (h' : SameMap t u) : SameMap s u :=
  ⟨h'.nmod.trans h.nmod, h'.modmap.trans h.modmap, h'.mapValid.trans h.mapValid,
    h'.nslots.trans h.nslots, h'.tLatch.trans h.tLatch⟩

theorem eventDone_sameMap (c : WalkCmd) (s : State) : SameMap s (eventDone c s) := by
  rw [eventDone_frame]
  exact ⟨rfl, rfl, rfl, rfl, rfl⟩

theorem readHeader_sameMap {s u : State} {b : Bool} (h : readHeader s = (u, b)) : SameMap s u := by
  rw [readHeader_frame h]
  exact ⟨rfl, rfl, rfl, rfl, rfl⟩

/-! ### What the map holds -/

namespace MapHolds

theorem congr {s t : State} {mods : List (BitVec 4)} (h : MapHolds s mods) (hn : t.nmod = s.nmod)
    (hm : t.modmap = s.modmap) : MapHolds t mods := by
  obtain ⟨hnodup, hlen, hmods⟩ := h
  refine ⟨hnodup, hn.trans hlen, fun m o => ?_⟩
  rw [readModmap_congr hm]
  exact hmods m o

theorem of_empty {t : State} (hn : t.nmod = 0) (hm : t.modmap = Vector.replicate 16 none) :
    MapHolds t [] := by
  refine ⟨List.nodup_nil, hn, fun m o => ?_⟩
  rw [readModmap_congr (s := clearMap t) hm, readModmap_clearMap]
  simp

end MapHolds

/-- There are 16 modules. -/
theorem modules_length_le {mods : List (BitVec 4)} (h : mods.Nodup) : mods.length ≤ 16 :=
  h.length_le_card.trans_eq (by decide)

namespace MapHolds

theorem nmod_le {s : State} {mods : List (BitVec 4)} (h : MapHolds s mods) : s.nmod ≤ 16 := by
  obtain ⟨hnodup, hlen, -⟩ := h
  rw [hlen]
  exact modules_length_le hnodup

/-- A new module takes the next ordinal. -/
theorem add {s t : State} {mods : List (BitVec 4)} {m : BitVec 4} (h : MapHolds s mods)
    (hm : m ∉ mods) (hmap : t.modmap = (addModule m s).modmap) (hn : t.nmod = s.nmod + 1) :
    MapHolds t (mods ++ [m]) := by
  obtain ⟨hnodup, hlen, hmods⟩ := h
  have hnodup' : (mods ++ [m]).Nodup :=
    List.nodup_append.2 ⟨hnodup, List.nodup_singleton m, fun a ha b hb =>
      List.mem_singleton.1 hb ▸ ne_of_mem_of_not_mem ha hm⟩
  have hbound : mods.length + 1 ≤ 16 := by simpa using modules_length_le hnodup'
  have hord : ∀ o : BitVec 4, BitVec.ofNat 4 mods.length = o ↔ o.toNat = mods.length := fun o => by
    rw [← BitVec.toNat_inj, BitVec.toNat_ofNat, Nat.mod_eq_of_lt (by omega), eq_comm]
  refine ⟨hnodup', by rw [hn, hlen, List.length_append, List.length_singleton], fun n o => ?_⟩
  rw [readModmap_congr hmap, readModmap_addModule, hlen]
  by_cases hnm : n = m
  · -- the new module: its ordinal is the number of those before it
    rw [if_pos hnm, Option.some_inj, hord, hnm]
    rcases lt_trichotomy o.toNat mods.length with hlt | heq | hgt
    · rw [List.getElem?_append_left hlt]
      exact iff_of_false hlt.ne fun hmem => hm (List.mem_of_getElem? hmem)
    · rw [heq, List.getElem?_concat_length]
      simp
    · rw [List.getElem?_eq_none (by simpa using hgt)]
      exact iff_of_false hgt.ne' nofun
  · -- another module: its ordinal stays
    rw [if_neg hnm, hmods]
    rcases lt_or_ge o.toNat mods.length with hlt | hge
    · rw [List.getElem?_append_left hlt]
    · rw [List.getElem?_eq_none hge, List.getElem?_append_right hge]
      refine iff_of_false nofun fun hmem => hnm ?_
      exact List.mem_singleton.1 (List.mem_of_getElem? hmem)

end MapHolds

/-! ### Between the groups -/

theorem SameMap.mapIdle {s t : State} (hf : SameMap s t) (h : MapIdle s) : MapIdle t := by
  unfold MapIdle at h ⊢
  rw [hf.mapValid, hf.nslots, hf.nmod, hf.tLatch]
  split at h
  · rename_i hv
    obtain ⟨⟨mods, hm⟩, hn⟩ := h
    rw [if_pos hv]
    exact ⟨⟨mods, hm.congr hf.nmod hf.modmap⟩, hn⟩
  · rename_i hv
    rw [if_neg hv]
    exact ⟨h.1.congr hf.nmod hf.modmap, h.2⟩

/-- An emptied map is idle. -/
theorem mapIdle_of_empty {t : State} (hv : t.mapValid = false) (hn : t.nmod = 0) (hs : t.nslots = 0)
    (hm : t.modmap = Vector.replicate 16 none) : MapIdle t := by
  rw [MapIdle, hv]
  exact ⟨.of_empty hn hm, hs⟩

/-- Inside a group the walk is at one of its two places. -/
theorem placeOk_enter {s t : State} (hf : SameMap s t) (n : Nat) (h : MapIdle s) :
    PlaceOk t (.group n [] (!s.mapValid)) := by
  have ht := hf.mapIdle h
  cases hv : s.mapValid with
  | true => exact ⟨hf.mapValid.trans hv, ht⟩
  | false =>
    rw [MapIdle, hf.mapValid, hv] at ht
    obtain ⟨hempty, hslots⟩ := ht
    exact ⟨hf.mapValid.trans hv, hslots, hempty⟩

theorem placeOk_nested {s t : State} {n n' : Nat} {seen seen' : List (BitVec 4)} {est : Bool}
    (hstep : MapStep est seen seen' s t) (hv : t.mapValid = s.mapValid) (hn : t.nslots = s.nslots)
    (hl : t.tLatch = s.tLatch) (h : PlaceOk s (.group n seen est)) :
    PlaceOk t (.group n' seen' est) := by
  cases est with
  | true =>
    obtain ⟨hmv, hslots, hholds⟩ := h
    refine ⟨hv.trans hmv, hn.trans hslots, ?_⟩
    rcases hstep with ⟨rfl, hm, hnm⟩ | ⟨m, hm, rfl, hmap, hnm⟩
    · exact hholds.congr hnm hm
    · rw [List.reverse_cons]
      exact hholds.add (by simpa using hm) hmap hnm
  | false =>
    obtain ⟨hmv, hidle⟩ := h
    refine ⟨hv.trans hmv, ?_⟩
    rcases hstep with ⟨-, hm, hnm⟩ | ⟨m, -, -, -, hm, hnm⟩
    · exact SameMap.mapIdle ⟨hnm, hm, hv, hn, hl⟩ hidle
    · exact SameMap.mapIdle ⟨hnm, hm, hv, hn, hl⟩ hidle

theorem SameMap.placeOk {s t : State} (hf : SameMap s t) {p : Place} (h : PlaceOk s p) :
    PlaceOk t p := by
  cases p with
  | top => exact hf.mapIdle h
  | group n seen est =>
    exact placeOk_nested (.inl ⟨rfl, hf.modmap, hf.nmod⟩) hf.mapValid hf.nslots hf.tLatch h

/-- The map when a group is closed: just established, or as it was. -/
def closedMap (est : Bool) (s : State) : State :=
  if est then { s with mapValid := true, nslots := s.nmod * (1 + s.tLatch.toNat) } else s

theorem mapIdle_closedMap {s : State} {n : Nat} {seen : List (BitVec 4)} {est : Bool}
    (h : PlaceOk s (.group n seen est)) : MapIdle (closedMap est s) := by
  cases est with
  | true =>
    obtain ⟨-, -, hholds⟩ := h
    exact ⟨⟨_, hholds.congr rfl rfl⟩, rfl⟩
  | false => exact h.2

/-- An idle map is within the limits of 10_state.md R140. -/
theorem MapIdle.limits {s : State} (h : MapIdle s) : s.nmod ≤ 16 ∧ s.nslots ≤ 128 := by
  unfold MapIdle at h
  split at h
  · obtain ⟨⟨mods, hm⟩, hn⟩ := h
    have hl := s.tLatch.isLt
    refine ⟨hm.nmod_le, ?_⟩
    calc s.nslots = s.nmod * (1 + s.tLatch.toNat) := hn
      _ ≤ 16 * 8 := Nat.mul_le_mul hm.nmod_le (by omega)
  · obtain ⟨hm, hn⟩ := h
    exact ⟨hm.nmod_le, by omega⟩

theorem PlaceOk.limits {s : State} {p : Place} (h : PlaceOk s p) :
    s.nmod ≤ 16 ∧ s.nslots ≤ 128 := by
  cases p with
  | top => exact MapIdle.limits h
  | group n seen est =>
    cases est with
    | true =>
      obtain ⟨-, hslots, hholds⟩ := h
      exact ⟨hholds.nmod_le, by omega⟩
    | false => exact MapIdle.limits h.2

namespace MapOk

/-- The walk has ended, or none runs, and the map is idle. -/
theorem of_idle {s : State} (hw : ∀ w, s.walk = some w → w.place = .top) (h : MapIdle s) :
    MapOk s := by
  obtain ⟨hn, hs⟩ := h.limits
  refine ⟨hn, hs, fun _ _ => h, fun w hsome => ?_⟩
  rw [hw w hsome]
  exact h

theorem of_place {s : State} {w : Walk} (hw : s.walk = some w) (h : PlaceOk s w.place) :
    MapOk s := by
  obtain ⟨hn, hs⟩ := h.limits
  refine ⟨hn, hs, fun hnone => ?_, fun w' hw' => ?_⟩
  · rw [hw] at hnone
    cases hnone
  · rw [hw] at hw'
    cases hw'
    exact h

theorem of_fault {s : State} (hw : s.walk = none) (hf : s.fault = true) (hn : s.nmod ≤ 16)
    (hs : s.nslots ≤ 128) : MapOk s := by
  refine ⟨hn, hs, fun _ hf' => ?_, fun w hw' => ?_⟩
  · rw [hf] at hf'
    cases hf'
  · rw [hw] at hw'
    cases hw'

theorem congr {s t : State} (hs : MapOk s) (hf : SameMap s t) (hw : t.walk = s.walk)
    (hft : t.fault = s.fault) : MapOk t := by
  constructor
  · rw [hf.nmod]; exact hs.nmod
  · rw [hf.nslots]; exact hs.nslots
  · rw [hw, hft]; exact fun hn hz => hf.mapIdle (hs.idle hn hz)
  · rw [hw]; exact fun w h => SameMap.placeOk hf (hs.walking w h)

/-! ### The walk -/

/-- A group closed. -/
theorem close {c : WalkCmd} {n : Nat} {seen : List (BitVec 4)} {est : Bool} {s t : State}
    (hp : PlaceOk s (.group n seen est)) (h : closeGroup c seen est s = .ok t) : MapOk t := by
  obtain rfl : t = eventDone c (closedMap est s) := closeGroup_ok h
  refine of_idle (fun w hw => ?_) ((eventDone_sameMap _ _).mapIdle (mapIdle_closedMap hp))
  rcases eventDone_walk c (closedMap est s) with hnone | ⟨n, k, -, -, hsome⟩
  · rw [hnone] at hw
    cases hw
  · rw [hsome] at hw
    cases hw
    rfl

/-- The end of the input. -/
theorem ended {c : WalkCmd} {s u : State} (hp : MapIdle s) (hr : readHeader s = (u, false)) :
    MapOk (walkEnd c u) := by
  have hu := (readHeader_sameMap hr).mapIdle hp
  cases c with
  | next => exact of_idle nofun (SameMap.mapIdle ⟨rfl, rfl, rfl, rfl, rfl⟩ hu)
  | skip n k => exact of_idle nofun (SameMap.mapIdle ⟨rfl, rfl, rfl, rfl, rfl⟩ hu)

/-- A record taken. -/
theorem record {k : RecKind} {h : RecHdr} {w : Walk} {s t : State} (hw : s.walk = some w)
    (hp : PlaceOk s w.place) (hb : recordBody k h w s = .ok t) : MapOk t := by
  obtain ⟨-, hframe, -, hv, hn, ho⟩ := recordBody_ok hb
  have hl : t.tLatch = s.tLatch := by rw [hframe.rest]
  obtain ⟨c, p⟩ := w
  cases p with
  | top =>
    obtain ⟨hm, hnm, hstay | henter⟩ := ho
    · exact of_place (hstay.trans hw) (SameMap.mapIdle ⟨hnm, hm, hv, hn, hl⟩ hp)
    · exact of_place henter (placeOk_enter ⟨hnm, hm, hv, hn, hl⟩ _ hp)
  | group remaining seen est =>
    obtain ⟨-, seen', hstep, hwalk⟩ := ho
    exact of_place hwalk (placeOk_nested hstep hv hn hl hp)

theorem walked {w : Walk} {s t : State} (hw : s.walk = some w) (h : walkStep w s = .ok t)
    (hs : MapOk s) : MapOk t := by
  have hp := hs.walking w hw
  rcases walkStep_cases h with ⟨seen, est, hg, hc⟩ | ⟨htop, u, hu, rfl⟩ | ⟨u, k, hd, hu, -, hb⟩
  · rw [hg] at hp
    exact close hp hc
  · rw [htop] at hp
    exact ended hp hu
  · have huw : u.walk = some w := by rw [readHeader_frame hu]; exact hw
    exact record huw (SameMap.placeOk (readHeader_sameMap hu) hp) hb

theorem walkFault {c : WalkCmd} {r : Raise} {s : State} : MapOk (walkFault c r s) :=
  of_fault rfl rfl (Nat.lt_succ_iff.1 (freeBelow_lt s.freeTick .nmod 0 0 17 (by omega)))
    (Nat.lt_succ_iff.1 (freeBelow_lt s.freeTick .nslots 0 0 129 (by omega)))

/-! ### The commands -/

theorem emptied {t : State} (hw : t.walk = none) (hv : t.mapValid = false) (hn : t.nmod = 0)
    (hs : t.nslots = 0) (hm : t.modmap = Vector.replicate 16 none) : MapOk t := by
  refine of_idle (fun w h => ?_) (mapIdle_of_empty hv hn hs hm)
  rw [hw] at h
  cases h

/-- Of the commands with precise faults only OPEN writes the slot map (10_state.md R140). -/
theorem completed {i : Instr} {s t : State} (hn : s.walk = none) (h : Completes s i t)
    (hs : MapOk s) : MapOk t := by
  have hw := h.frame.walk
  have hf := h.frame.fault
  cases h with
  | openStream => exact emptied hn rfl rfl rfl rfl
  | readHeader _ _ _ hr =>
    exact hs.congr ((readHeader_sameMap hr).trans ⟨rfl, rfl, rfl, rfl, rfl⟩) hw hf
  | readData _ _ hr =>
    obtain ⟨-, g, -, -, rfl⟩ := readData_ok hr
    exact hs.congr ⟨rfl, rfl, rfl, rfl, rfl⟩ hw hf
  | skipData _ hr =>
    obtain ⟨g, -, -, rfl⟩ := skipData_ok hr
    exact hs.congr ⟨rfl, rfl, rfl, rfl, rfl⟩ hw hf
  | calCommit | calInit | calLoad =>
    exact hs.congr ⟨by simp, by simp, by simp, by simp, by simp⟩ hw hf
  | results | noEvent | segPush | segClear | openNext | work | accumulator | cmApply =>
    exact hs.congr ⟨rfl, rfl, rfl, rfl, rfl⟩ hw hf

theorem invariant : Invariant MapOk where
  walked := walked
  walkFaulted _ _ := walkFault
  started hn hf hs := of_place rfl (SameMap.mapIdle ⟨rfl, rfl, rfl, rfl, rfl⟩ (hs.idle hn hf))
  completed := completed
  finished hs := hs.congr ⟨rfl, rfl, rfl, rfl, rfl⟩ rfl rfl
  faulted _ hs := of_fault rfl rfl hs.nmod hs.nslots
  numeric _ hs := hs.congr ⟨rfl, rfl, rfl, rfl, rfl⟩ rfl rfl
  reset _ := emptied rfl rfl rfl rfl rfl
  abort hn _ := emptied hn rfl rfl rfl rfl
  registers h hs := hs.congr (by rw [h]; exact ⟨rfl, rfl, rfl, rfl, rfl⟩) (by rw [h]) (by rw [h])
  poke _ _ hs := hs.congr ⟨rfl, rfl, rfl, rfl, rfl⟩ rfl rfl
  issued _ hn hs := hs.congr ⟨rfl, rfl, rfl, rfl, rfl⟩ hn.symm rfl

end MapOk

/-- Settles O59: what the slot map holds, with the place of the walk, is an invariant. -/
theorem mapInvariantKept : Obligations.MapInvariantKept :=
  fun _ _ hs h => MapOk.invariant.step hs h

end Sys2Proof.Machine
end

section
/-! The writers of each matrix register (10_state.md R150): the event slots are the walk's of NEXT,
the work matrices and a module's calibration matrices those of the command that names them. -/

namespace Sys2Proof.Machine

open Sys2Proof

/-! ### The walk -/

section
variable {id : Nat}

/-- The data of a record go to the event slots, where the walk decodes. -/
theorem takeData_readMat {k : RecKind} {h : RecHdr} {d : Bool} {s t : State}
    (hid : ¬ (d = true ∧ id < 128)) (ht : takeData k h d s = .ok t) :
    readMat t id = readMat s id := by
  cases d with
  | true =>
    obtain ⟨hf, -⟩ := takeData_ok ht
    exact hf.mats id (not_lt.1 fun hlt => hid ⟨rfl, hlt⟩)
  | false =>
    obtain ⟨g, -, -, rfl⟩ := skipData_ok ht
    rfl

theorem readMat_walkKeeps {d : Bool} (hid : ¬ (d = true ∧ id < 128)) (m : Mat) :
    WalkKeeps d fun s => readMat s id = m where
  book hb hs := (readMat_congr (by rw [hb]) id).trans hs
  header hr hs := (readMat_congr (by rw [readHeader_frame hr]) id).trans hs
  skip ht hs := (readMat_congr (by rw [(skipWords_frame ht).1]) id).trans hs
  take ht hs := (takeData_readMat hid ht).trans hs

theorem walkFault_readMat {c : WalkCmd} {r : Raise} {s : State}
    (hid : ¬ (decodes c = true ∧ id < 128)) : readMat (walkFault c r s) id = readMat s id := by
  rw [walkFault, readMat_congr (faultEntry_mats _ _), readMat_forgetWalk, if_neg hid]

/-- A walk stays the walk of its command. -/
theorem walkStep_decodes {w w' : Walk} {s t : State} (hw : s.walk = some w)
    (h : walkStep w s = .ok t) (hw' : t.walk = some w') : decodes w'.cmd = decodes w.cmd := by
  rcases walkStep_cases h with ⟨seen, est, -, hc⟩ | ⟨-, u, -, rfl⟩ | ⟨u, k, hd, hu, -, hb⟩
  · obtain rfl := closeGroup_ok hc
    rcases eventDone_walk w.cmd _ with hnone | ⟨n, k, hcmd, -, hsome⟩
    · rw [hnone] at hw'
      cases hw'
    · rw [hsome] at hw'
      cases hw'
      rw [hcmd]
      rfl
  · have hnone : (walkEnd w.cmd u).walk = none := by cases w.cmd <;> rfl
    rw [hnone] at hw'
    cases hw'
  · have huw : u.walk = some w := by rw [readHeader_frame hu]; exact hw
    obtain ⟨-, -, -, -, -, ho⟩ := recordBody_ok hb
    obtain ⟨c, p⟩ := w
    cases p with
    | top =>
      obtain ⟨-, -, hstay | henter⟩ := ho
      · rw [hstay, huw] at hw'
        cases hw'
        rfl
      · rw [henter] at hw'
        cases hw'
        rfl
    | group remaining seen est =>
      obtain ⟨-, seen', -, hwalk⟩ := ho
      rw [hwalk] at hw'
      cases hw'
      rfl

/-- A matrix register is as before in a walk that does not write it. -/
def WalkUntouched (id : Nat) (m : Mat) (s : State) : Prop :=
  readMat s id = m ∧ ∀ w, s.walk = some w → ¬ (decodes w.cmd = true ∧ id < 128)

theorem walkRun_readMat {fuel : Nat} {m : Mat} {s t : State} (hs : WalkUntouched id m s)
    (h : walkRun fuel s = some t) : readMat t id = m := by
  have keep : ∀ w u v, WalkUntouched id m u → u.walk = some w → walkStep w u = .ok v →
      WalkUntouched id m v := by
    rintro w u v ⟨hm, hid⟩ hw hv
    refine ⟨(hv ▸ walkStep_keeps (readMat_walkKeeps (hid w hw) m) hm).of_ok, fun w' hw' => ?_⟩
    rw [walkStep_decodes hw hv hw']
    exact hid w hw
  rcases walkRun_induct _ fuel s t keep hs h with ⟨ht, -⟩ | ⟨u, w, r, ⟨hm, hid⟩, hw, -, rfl⟩
  · exact ht.1
  · rw [walkFault_readMat (hid w hw), hm]

/-- A record writes event slots only. -/
theorem record_readMat {k : RecKind} {h : RecHdr} {s t : State}
    (hr : runRecord (recordBody k h) s = .next t) (hid : ¬ id < 128) :
    readMat t id = readMat s id := by
  have hid' : ∀ d : Bool, ¬ (d = true ∧ id < 128) := fun d hd => hid hd.2
  unfold runRecord at hr
  split at hr
  · cases hr
    rfl
  · split at hr
    · rename_i hb
      cases hr
      exact (hb ▸ recordBody_keeps (readMat_walkKeeps (hid' _) _) rfl).of_ok
    · cases hr
      exact walkFault_readMat (hid' _)

end

/-! ### The commands -/

theorem calibration_readMat {s : State} {m id : Nat} {ped noise mask : Mat}
    (hid : ¬ (id = pedId m ∨ id = noiseId m ∨ id = maskId m)) :
    readMat (writeModule m ped noise mask s) id = readMat s id :=
  readMat_writeModule_ne _ _ _ _ (fun h => hid (.inl h)) (fun h => hid (.inr (.inl h)))
    fun h => hid (.inr (.inr h))

/-- A command that completes writes only the registers it names. -/
theorem Completes.readMat {i : Instr} {s t : State} {id : Nat} (h : Completes s i t)
    (hid : ¬ mayWrite i id) : Machine.readMat t id = Machine.readMat s id := by
  have ne_of_may : ∀ {n}, mayWrite i n → id ≠ n := by
    rintro n hn rfl
    exact hid hn
  cases h with
  | readHeader _ _ _ hr => exact readMat_congr (by rw [readHeader_frame hr]) id
  | readData _ _ hr => obtain ⟨-, g, -, -, rfl⟩ := readData_ok hr; rfl
  | skipData _ hr => obtain ⟨g, -, -, rfl⟩ := skipData_ok hr; rfl
  | work _ _ _ _ _ _ may _ => exact readMat_writeMat_ne _ _ _ _ (ne_of_may may)
  | calCommit _ hm _ =>
    exact (readMat_writeMat_ne _ _ _ _ (ne_of_may ⟨hm, .inr rfl⟩)).trans
      (readMat_writeMat_ne _ _ _ _ (ne_of_may ⟨hm, .inl rfl⟩))
  | calInit _ _ hm _ => exact calibration_readMat fun he => hid ⟨hm, he⟩
  | calLoad _ _ _ _ hm =>
    rw [writeModule_of_load]
    exact calibration_readMat fun he => hid ⟨hm, he⟩
  | cmApply _ hw _ => exact readMat_writeMat_ne _ _ _ _ (ne_of_may ⟨hw, rfl⟩)
  | results | noEvent | segPush | segClear | openStream | openNext => exact readMat_congr rfl id
  | accumulator => exact readMat_congr (by simp) id

/-- The walk of a command writes the event slots where the command may. -/
theorem walkOf_mayWrite {s : State} {i : Instr} {c : WalkCmd} {id : Nat} (hc : walkOf s i = some c)
    (hid : ¬ mayWrite i id) : ¬ (decodes c = true ∧ id < 128) := by
  rintro ⟨hd, hlt⟩
  cases i <;> cases hc
  · exact hid hlt
  · cases hd

theorem Outcome.readMat {i : Instr} {s t : State} {id : Nat} (h : Outcome s i t)
    (hid : ¬ mayWrite i id) : Machine.readMat t id = Machine.readMat s id := by
  cases h with
  | ignored | faulted => exact readMat_congr rfl id
  | abort => exact readMat_congr (by simp [abortState]) id
  | completed _ h => exact (readMat_congr rfl id).trans (h.readMat hid)
  | numeric _ hcm _ hw =>
    subst hcm
    exact readMat_forgetCm _ _ _ fun he => hid ⟨hw, he⟩
  | reset hr =>
    subst hr
    exact absurd trivial hid
  | walked _ hc hrun =>
    refine walkRun_readMat (s := setPlace _ .top { s with fsm := .waitGroup }) ?_ hrun
    refine ⟨rfl, fun w hw => ?_⟩
    cases hw
    exact walkOf_mayWrite hc hid

/-- Settles O22: commands by what they complete with, records by the walk that takes them. -/
theorem matrixRegistersHaveFixedWriters : Obligations.MatrixRegistersHaveFixedWriters := by
  intro i s t id h hid
  cases hi : i.space with
  | command => exact (exec_outcome hi h).readMat hid
  | record =>
    cases i with
    | groupRunBegin hd => exact record_readMat (k := .groupRunBegin) h hid
    | groupRunEnd hd => exact record_readMat (k := .groupRunEnd) h hid
    | groupData hd => exact record_readMat (k := .groupData) h hid
    | depfet hd => exact record_readMat (k := .depfet) h hid
    | depfet128 hd => exact record_readMat (k := .depfet128) h hid
    | depfetDcd hd => exact record_readMat (k := .depfetDcd) h hid
    | bat hd => exact record_readMat (k := .bat) h hid
    | tpll hd => exact record_readMat (k := .tpll) h hid
    | unknown hd => exact record_readMat (k := .unknown) h hid
    | tlu hd => exact record_readMat (k := .tlu) h hid
    | info hd => exact record_readMat (k := .info) h hid
    | other hd => exact record_readMat (k := .other) h hid
    | _ => cases hi

end Sys2Proof.Machine
end

section
/-! What a HOST reads (10_state.md R195, 60_exceptions.md R700, 70_reset_and_hazards.md R800): the
words composed of fields, and the register behind every offset of the map. -/

namespace Sys2Proof.Machine

open Sys2Proof

/-! ### Words composed of fields -/

/-- The value of two fields side by side. -/
theorem toNat_fields {v w : Nat} (x : BitVec v) (y : BitVec w) :
    (x ++ y).toNat = x.toNat * 2 ^ w + y.toNat := by
  rw [BitVec.toNat_append, ← Nat.shiftLeft_add_eq_or_of_lt y.isLt, Nat.shiftLeft_eq]

/-- STATUS bit by bit (10_state.md R103). -/
theorem statusWord_bits (s : State) : ∀ i b, (i, b) ∈ [(0, s.busy), (1, s.fault), (2, s.opened),
    (3, s.eoi), (4, s.limit), (5, s.mapValid), (6, s.fsm == .readingModules),
    (7, s.fsm == .eventReady)] → (statusWord s).getLsbD i = b := by
  intro i b h
  simp only [List.mem_cons, Prod.mk.injEq, List.not_mem_nil, or_false] at h
  rcases h with ⟨rfl, rfl⟩ | ⟨rfl, rfl⟩ | ⟨rfl, rfl⟩ | ⟨rfl, rfl⟩ | ⟨rfl, rfl⟩ | ⟨rfl, rfl⟩ |
    ⟨rfl, rfl⟩ | ⟨rfl, rfl⟩
  case inr.inr.inr.inr.inr.inr.inl | inr.inr.inr.inr.inr.inr.inr =>
    simp only [statusWord, BitVec.getLsbD_append]
    cases s.fsm <;> simp [fsmBits]
  all_goals
    simp only [statusWord, BitVec.getLsbD_append]
    simp

theorem statusWord_lt (s : State) : (statusWord s).toNat < 2 ^ 8 := by
  have hfsm := (fsmBits s.fsm).isLt
  have hbit : ∀ b : Bool, (BitVec.ofBool b).toNat ≤ 1 := by decide
  have := hbit s.mapValid
  have := hbit s.limit
  have := hbit s.eoi
  have := hbit s.opened
  have := hbit s.fault
  have := hbit s.busy
  simp only [statusWord, toNat_fields, BitVec.ofNat_eq_ofNat, BitVec.toNat_ofNat]
  omega

theorem nslotsWord_toNat {s : State} (hm : s.nmod ≤ 16) (hs : s.nslots ≤ 128) :
    (nslotsWord s).toNat = s.nslots + 2 ^ 8 * s.nmod + 2 ^ 16 * s.tLatch.toNat := by
  simp only [nslotsWord, toNat_fields, BitVec.ofNat_eq_ofNat, BitVec.toNat_ofNat]
  omega

theorem modmapWord_toNat {s : State} {m o : BitVec 4} (h : readModmap s m = some o) :
    (modmapWord s m).toNat = 2 ^ 31 + 2 ^ 8 * (o.toNat * (1 + s.tLatch.toNat)) + o.toNat := by
  have ho := o.isLt
  have ht := s.tLatch.isLt
  have hslot : o.toNat * (1 + s.tLatch.toNat) ≤ 15 * 8 := Nat.mul_le_mul (by omega) (by omega)
  simp only [modmapWord, h, toNat_fields, BitVec.ofNat_eq_ofNat, BitVec.toNat_ofNat]
  omega

theorem modmapWord_invalid {s : State} {m : BitVec 4} (h : readModmap s m = none) :
    modmapWord s m = 0 := by simp only [modmapWord, h]

theorem errCodeByte_codes (e : ErrCode) : (e, (errCodeByte e).setWidth 32) ∈
    [(ErrCode.none, (0x00 : Word)), (.viewExtent, 0x01), (.dimMismatch, 0x02),
      (.outOfBounds, 0x03), (.truncatedEvent, 0x04), (.truncatedRecord, 0x05), (.size, 0x06),
      (.reservedDevType, 0x07), (.reservedEvType, 0x08), (.unexpectedRecord, 0x09),
      (.duplicateModule, 0x0A), (.unknownModule, 0x0B), (.config, 0x0C), (.badOperand, 0x0D),
      (.numeric, 0x0E), (.unsupported, 0x0F), (.notOpen, 0x10), (.illegalCommand, 0x11),
      (.illegalOperand, 0x12), (.overrun, 0x13), (.capacity, 0x14)] := by
  cases e <;> decide

/-! ### The register map -/

/-- The offsets of the map that are no MODMAP word (10_state.md R195). -/
def mapOffsets : List Nat :=
  List.range' 0x00 15 4 ++ List.range' 0x40 2 4 ++ List.range' 0x80 5 4 ++ List.range' 0x98 8 4
    ++ List.range' 0x100 11 4

theorem readOffset_unmapped {s : State} {o : Nat} (h : o ∉ mapOffsets)
    (hm : ¬ (0x140 ≤ o ∧ o < 0x180)) : readOffset s o = 0 := by
  unfold readOffset
  split
  case h_41 => exact if_neg hm
  all_goals exact absurd (by decide) h

theorem readOffset_modmap (s : State) {o : Nat} (hm : 0x140 ≤ o ∧ o < 0x180) :
    readOffset s o = modmapWord s (BitVec.ofNat 4 ((o - 0x140) / 4)) := by
  unfold readOffset
  split
  case h_41 => exact if_pos hm
  all_goals omega

/-- What a register that is one field of the state, or CMD, reads (10_state.md R195). -/
def fieldRegisters (s : State) : List (Nat × Word) :=
  [(0x000, 0x44455046), (0x00C, s.errInfo), (0x010, 0), (0x014, s.argN0), (0x018, s.argN1),
    (0x01C, s.argN2), (0x020, s.argX.extractLsb' 0 32), (0x024, s.argX.extractLsb' 32 32),
    (0x028, s.argW.extractLsb' 0 32), (0x02C, s.argW.extractLsb' 32 32), (0x030, s.resN0),
    (0x034, s.resN1), (0x038, s.resN2), (0x040, s.resF.extractLsb' 0 32),
    (0x044, s.resF.extractLsb' 32 32), (0x080, s.cfgFold.setWidth 32),
    (0x084, s.cfgUseMapping.setWidth 32), (0x088, s.cfgTrailing.setWidth 32),
    (0x08C, s.cfgMaxEvents), (0x090, s.cfgInfoLayout.setWidth 32),
    (0x098, s.cfgSigmaCut.extractLsb' 0 32), (0x09C, s.cfgSigmaCut.extractLsb' 32 32),
    (0x0A0, s.cmRowSize.setWidth 32), (0x0A4, s.cmRowDiv.setWidth 32),
    (0x0A8, s.cmColSize.setWidth 32), (0x0AC, s.cmColDiv.setWidth 32),
    (0x0B0, s.cmCut.extractLsb' 0 32), (0x0B4, s.cmCut.extractLsb' 32 32), (0x100, s.hdr0),
    (0x104, s.hdr1), (0x108, s.info), (0x10C, BitVec.ofNat 32 s.dataBuf.length),
    (0x110, s.runNumber), (0x114, s.eventNumber), (0x118, s.eventCount),
    (0x120, BitVec.ofNat 32 s.curSeg), (0x124, s.off), (0x128, BitVec.ofNat 32 s.segq.length)]

theorem readOffset_field (s : State) : ∀ p ∈ fieldRegisters s, readOffset s p.1 = p.2 :=
  List.map_inj_left.1 rfl

/-- The map is the fields' registers, three words of several fields, and the MODMAP words. -/
theorem mem_mapOffsets (s : State) : ∀ o ∈ mapOffsets,
    o ∈ (fieldRegisters s).map Prod.fst ∨ o ∈ [0x004, 0x008, 0x11C] := by
  have hoffsets : (fieldRegisters s).map Prod.fst = (fieldRegisters State.reset).map Prod.fst := rfl
  rw [hoffsets]
  decide

/-- An offset is that of a field, of a word of several fields, or of a MODMAP word, or it is not in
the map and reads 0. -/
theorem readOffset_cases (s : State) (o : Nat) :
    (o, readOffset s o) ∈ fieldRegisters s ∨ o ∈ [0x004, 0x008, 0x11C]
      ∨ (0x140 ≤ o ∧ o < 0x180) ∨ (readOffset s o = 0 ∧ o ∉ mapOffsets) := by
  by_cases hm : 0x140 ≤ o ∧ o < 0x180
  · exact .inr (.inr (.inl hm))
  by_cases ho : o ∈ mapOffsets
  · rcases mem_mapOffsets s o ho with hfield | hword
    · obtain ⟨p, hp, rfl⟩ := List.mem_map.1 hfield
      rw [readOffset_field s p hp]
      exact .inl hp
    · exact .inr (.inl hword)
  · exact .inr (.inr (.inr ⟨readOffset_unmapped ho hm, ho⟩))

/-- The value of the register at an offset after reset (70_reset_and_hazards.md R800). -/
def resetWord (o : Nat) : Word :=
  if o = 0x000 then 0x44455046
  else if o = 0x080 then 2
  else if o = 0x084 ∨ o = 0x0A4 ∨ o = 0x0AC then 1
  else 0

theorem resetWord_of_unmapped {o : Nat} (h : o ∉ mapOffsets) : resetWord o = 0 := by
  have hne : ∀ n ∈ mapOffsets, o ≠ n := by
    rintro n hn rfl
    exact h hn
  simp only [resetWord, hne 0x000 (by decide), hne 0x080 (by decide), hne 0x084 (by decide),
    hne 0x0A4 (by decide), hne 0x0AC (by decide), or_self, if_false]

theorem readModmap_reset (m : BitVec 4) : readModmap State.reset m = none :=
  readModmap_clearMap State.reset m

theorem readOffset_reset (o : Nat) : readOffset State.reset o = resetWord o := by
  have hfields : ∀ p ∈ fieldRegisters State.reset, p.2 = resetWord p.1 := by decide
  have hwords : ∀ n ∈ [0x004, 0x008, 0x11C], readOffset State.reset n = resetWord n := by decide
  have hmodmap : ∀ n ∈ mapOffsets, n < 0x140 := by decide
  rcases readOffset_cases State.reset o with hf | hw | hm | ⟨hz, ho⟩
  · exact hfields _ hf
  · exact hwords o hw
  · rw [readOffset_modmap _ hm, modmapWord_invalid (readModmap_reset _),
      resetWord_of_unmapped fun ho => by have := hmodmap o ho; omega]
  · rw [hz, resetWord_of_unmapped ho]

/-- Settles O50: a read answers the word of its offset, in every state and so after reset. -/
theorem resetValuesRead : Obligations.ResetValuesRead := by
  refine ⟨fun reg => readOffset_reset _, fun s => ⟨statusWord_bits s, statusWord_lt s,
    errCodeByte_codes s.errCode, nslotsWord_toNat, fun reg m hreg => ?_, fun reg => ?_⟩⟩
  · have hm := m.isLt
    have hread : regRead s reg = modmapWord s m := by
      rw [regRead, regOffset, hreg, readOffset_modmap s (by omega),
        show (0x140 + 4 * m.toNat - 0x140) / 4 = m.toNat by omega, BitVec.ofNat_toNat,
        BitVec.setWidth_eq]
    refine ⟨fun o ho => ?_, fun hnone => ?_⟩
    · rw [hread, modmapWord_toNat ho]
    · rw [hread, modmapWord_invalid hnone]
      rfl
  · rcases readOffset_cases s (4 * reg.toNat) with hf | hw | hm | hz
    · exact .inl hf
    · exact .inr (.inl hw)
    · exact .inr (.inr (.inl ⟨hm.1, by omega⟩))
    · exact .inr (.inr (.inr hz))

end Sys2Proof.Machine
end

section
/-! What the step of the machine runs (20_memory.md R210, 00_scope.md R18), and who writes IN
(20_memory.md R205, R206): the ENGINE never, the HOST a byte at a time and no byte of a queued
segment. -/

namespace Sys2Proof.Machine

open Sys2Proof

/-! ### Which step it is -/

/-- Outside a walk the ENGINE runs the pending command. -/
theorem engineStep_pending {s : State} {i : Instr} (hw : s.walk = none) (hb : s.busy = true)
    (hd : decodeCommand s.pending = .ok i) : engineStep s = exec i s := by
  simp only [engineStep, hw, hb, if_true, hd]

/-- The ENGINE steps where the HOST has no move, and where it waits for a command in execution. -/
theorem step_engine {s : State} (hw : s.walk = none) (hb : s.busy = true)
    (hh : s.host = [] ∨ ∃ rest, s.host = .wait :: rest) : step s = engineStep s := by
  rcases hh with hh | ⟨rest, hh⟩
  · simp only [step, hw, hh, Option.isSome_none, Bool.false_eq_true, if_false]
  · simp only [step, hw, hh, hb, Option.isSome_none, Bool.false_eq_true, if_false, if_true]

/-- A write of a byte of IN comes before the ENGINE's step. -/
theorem step_poke {s : State} {a : Word} {b : Byte} {rest : List HostMove} (hw : s.walk = none)
    (hh : s.host = .poke a b :: rest) : step s = hostMove (.poke a b) { s with host := rest } := by
  simp only [step, hw, hh, Option.isSome_none, Bool.false_eq_true, if_false]

/-- Settles O45: the step is the ENGINE's, and the ENGINE's is the pending command's. -/
theorem stepRunsThePendingCommand : Obligations.StepRunsThePendingCommand := by
  intro s i hw hb hh hd
  rw [step_engine hw hb hh, engineStep_pending hw hb hd]

/-! ### The ENGINE and IN -/

theorem inMem_walkKeeps (d : Bool) (m : Memory) : WalkKeeps d fun s => s.inMem = m where
  book hb hs := by rw [hb]; exact hs
  header hr hs := (readHeader_commandFrame hr).inMem.trans hs
  skip ht hs := by rw [(skipWords_frame ht).1]; exact hs
  take ht hs := by rw [(takeData_ok ht).1.rest]; exact hs

/-- A walk reads IN and does not write it, to its end or to its fault. -/
theorem walkRun_inMem {fuel : Nat} {s t : State} (h : walkRun fuel s = some t) :
    t.inMem = s.inMem := by
  have keep : ∀ w u v, u.inMem = s.inMem → u.walk = some w → walkStep w u = .ok v →
      v.inMem = s.inMem := fun w u v hu _ hv =>
    (hv ▸ walkStep_keeps (inMem_walkKeeps _ _) hu).of_ok
  rcases walkRun_induct (fun u => u.inMem = s.inMem) fuel s t keep rfl h with
    ⟨ht, -⟩ | ⟨u, w, r, hu, -, -, rfl⟩
  · exact ht
  · exact hu

theorem Outcome.inMem {i : Instr} {s t : State} (h : Outcome s i t) : t.inMem = s.inMem := by
  cases h with
  | completed _ h => exact h.frame.inMem
  | walked _ _ run => exact (walkRun_inMem run).trans rfl
  | ignored | faulted | numeric | reset | abort => rfl

theorem record_inMem {k : RecKind} {h : RecHdr} {s t : State}
    (hr : runRecord (recordBody k h) s = .next t) : t.inMem = s.inMem := by
  unfold runRecord at hr
  split at hr
  · cases hr
    rfl
  · rename_i w _
    cases hb : recordBody k h w s with
    | ok u =>
      rw [hb] at hr
      cases hr
      exact (hb ▸ recordBody_keeps (inMem_walkKeeps _ _) rfl).of_ok
    | error r =>
      rw [hb] at hr
      cases hr
      rfl

theorem eq_ofRecord {i : Instr} {k : RecKind} {h : RecHdr} (hi : i.record? = some (k, h)) :
    i = Instr.ofRecord k h := by
  cases i <;> cases hi <;> rfl

theorem space_of_no_record {i : Instr} (hi : i.record? = none) : i.space = .command := by
  rw [Instr.space, hi]

/-- No instruction writes IN (20_memory.md R205). -/
theorem exec_inMem {i : Instr} {s t : State} (h : exec i s = .next t) : t.inMem = s.inMem := by
  cases hi : i.record? with
  | none => exact (exec_outcome (space_of_no_record hi) h).inMem
  | some kh =>
    rw [eq_ofRecord hi, exec_ofRecord] at h
    exact record_inMem h

/-! ### The HOST and IN -/

theorem inQueue_iff (s : State) (a : Nat) :
    inQueue s a = true ↔ ∃ g ∈ s.segq, g.base.toNat ≤ a ∧ a < g.base.toNat + g.len.toNat := by
  simp [inQueue]

theorem hostMove_poke_queued {s : State} {a : Word} (b : Byte) (h : inQueue s a.toNat = true) :
    hostMove (.poke a b) s = .refused .queuedInput := by
  simp only [hostMove, h, if_true]

theorem hostMove_poke_free {s : State} {a : Word} (b : Byte) (h : inQueue s a.toNat = false) :
    hostMove (.poke a b) s = .next { s with inMem := memWrite s.inMem a.toNat b } := by
  simp only [hostMove, h, Bool.false_eq_true, if_false]

/-- Settles O51: every instruction keeps IN whole, and a write of a byte asks the queue first. -/
theorem inputMemoryIsTheHosts : Obligations.InputMemoryIsTheHosts := by
  refine ⟨fun i s t h a => by rw [exec_inMem h], fun s a b rest hwf hw hh =>
    ⟨fun hq => ?_, fun hfree => ?_⟩⟩ <;> rw [step_poke hw hh]
  · exact hostMove_poke_queued b ((inQueue_iff _ _).2 hq)
  · have outside : inQueue { s with host := rest } a.toNat = false := by
      rw [Bool.eq_false_iff, Ne, inQueue_iff]
      rintro ⟨g, hg, hlo, hhi⟩
      rcases hfree g hg with h | h <;> omega
    exact ⟨_, hostMove_poke_free b outside, rfl,
      memRead_memWrite s.inMem ((wf_iff _).1 hwf).1 a.toNat b⟩

end Sys2Proof.Machine
end

section
/-! What a HOST's register write does (10_state.md R101, R104, R195, 20_memory.md R201, R202): with
BUSY = 0 it replaces the one entry of the register map at its offset, or it is ignored, or it issues
a command. -/

namespace Sys2Proof.Machine

open Sys2Proof

/-! ### The halves of a 64-bit register, and the fields of a narrow one -/

theorem lowHalf_setLow (v : F64) (x : Word) : (setLow v x).extractLsb' 0 32 = x :=
  BitVec.extractLsb'_append_eq_right

theorem highHalf_setLow (v : F64) (x : Word) :
    (setLow v x).extractLsb' 32 32 = v.extractLsb' 32 32 :=
  BitVec.extractLsb'_append_eq_left

theorem lowHalf_setHigh (v : F64) (x : Word) :
    (setHigh v x).extractLsb' 0 32 = v.extractLsb' 0 32 :=
  BitVec.extractLsb'_append_eq_right

theorem highHalf_setHigh (v : F64) (x : Word) : (setHigh v x).extractLsb' 32 32 = x :=
  BitVec.extractLsb'_append_eq_left

/-- A register of the low `n` bits of a word holds the word masked to them. -/
theorem lowBits_masked {n : Nat} {mask : Word} (hm : mask.toNat = 2 ^ n - 1) (v : Word) :
    (v.extractLsb' 0 n).setWidth 32 = v &&& mask := by
  apply BitVec.eq_of_toNat_eq
  have hlt : v.toNat % 2 ^ n < 2 ^ 32 := lt_of_le_of_lt (Nat.mod_le _ _) v.isLt
  rw [BitVec.toNat_and, hm, Nat.and_two_pow_sub_one_eq_mod, BitVec.toNat_setWidth,
    BitVec.extractLsb'_toNat, Nat.shiftRight_zero, Nat.mod_eq_of_lt hlt]

/-! ### The RW registers -/

/-- The RW registers of the map, CMD aside, with the masks of their fields (10_state.md R104,
R195). -/
def rwRegisters : List (Nat × Word) :=
  [(0x014, 0xFFFFFFFF), (0x018, 0xFFFFFFFF), (0x01C, 0xFFFFFFFF), (0x020, 0xFFFFFFFF),
    (0x024, 0xFFFFFFFF), (0x028, 0xFFFFFFFF), (0x02C, 0xFFFFFFFF), (0x080, 7), (0x084, 1),
    (0x088, 7), (0x08C, 0xFFFFFFFF), (0x090, 1), (0x098, 0xFFFFFFFF), (0x09C, 0xFFFFFFFF),
    (0x0A0, 0xFFFF), (0x0A4, 0xFFFF), (0x0A8, 0xFFFF), (0x0AC, 0xFFFF), (0x0B0, 0xFFFFFFFF),
    (0x0B4, 0xFFFFFFFF)]

/-- The entries of the map with the one at an offset replaced. -/
def replaceEntry (o : Nat) (w : Word) (l : List (Nat × Word)) : List (Nat × Word) :=
  l.map fun e => (e.1, if e.1 = o then w else e.2)

/-- A store replaces the entry of its register by the masked value, and no other entry: the other
half of a 64-bit register stays too (20_memory.md R202). -/
theorem fieldRegisters_storeOffset (s : State) (v : Word) : ∀ p ∈ rwRegisters,
    fieldRegisters (storeOffset p.1 v s) = replaceEntry p.1 (v &&& p.2) (fieldRegisters s) := by
  have whole : v = v &&& 0xFFFFFFFF := (BitVec.and_allOnes).symm
  have bit : (v.extractLsb' 0 1).setWidth 32 = v &&& 1 := lowBits_masked rfl v
  have bits3 : (v.extractLsb' 0 3).setWidth 32 = v &&& 7 := lowBits_masked rfl v
  have bits16 : (v.extractLsb' 0 16).setWidth 32 = v &&& 0xFFFF := lowBits_masked rfl v
  simp only [rwRegisters, List.forall_mem_cons, ← whole, ← bit, ← bits3, ← bits16]
  simp [replaceEntry, fieldRegisters, storeOffset, lowHalf_setLow, highHalf_setLow,
    lowHalf_setHigh, highHalf_setHigh]

theorem rwRegisters_in_map (s : State) :
    ∀ p ∈ rwRegisters, p.1 ∈ (fieldRegisters s).map Prod.fst := by
  have hoffsets : (fieldRegisters s).map Prod.fst = (fieldRegisters State.reset).map Prod.fst := rfl
  rw [hoffsets]
  decide

/-- No register the HOST writes is in STATUS, ERR_CODE, NSLOTS or MODMAP: what is no field of the
state reads the same after a move that writes registers. -/
theorem readOffset_registerMove {s t : State} (h : RegisterMove s t) {o : Nat}
    (ho : o ∉ (fieldRegisters s).map Prod.fst) : readOffset t o = readOffset s o := by
  by_cases hm : 0x140 ≤ o ∧ o < 0x180
  · rw [readOffset_modmap _ hm, readOffset_modmap _ hm, h]
    rfl
  by_cases hmap : o ∈ mapOffsets
  · have hword : o ∈ [0x004, 0x008, 0x11C] := (mem_mapOffsets s o hmap).resolve_left ho
    simp only [List.mem_cons, List.not_mem_nil, or_false] at hword
    rw [h]
    rcases hword with rfl | rfl | rfl <;> rfl
  · rw [readOffset_unmapped hmap hm, readOffset_unmapped hmap hm]

/-- A read after a store: the masked value from the register stored to, every other register as
before. -/
theorem readOffset_storeOffset (s : State) (v : Word) {p : Nat × Word} (hp : p ∈ rwRegisters)
    (o : Nat) :
    readOffset (storeOffset p.1 v s) o = if o = p.1 then v &&& p.2 else readOffset s o := by
  by_cases ho : o ∈ (fieldRegisters s).map Prod.fst
  · obtain ⟨e, he, rfl⟩ := List.mem_map.1 ho
    have entry : (e.1, if e.1 = p.1 then v &&& p.2 else e.2)
        ∈ fieldRegisters (storeOffset p.1 v s) := by
      rw [fieldRegisters_storeOffset s v p hp]
      exact List.mem_map_of_mem he
    rw [readOffset_field s e he, readOffset_field _ _ entry]
  · rw [readOffset_registerMove (storeOffset_registerMove p.1 v s) ho, if_neg]
    rintro rfl
    exact ho (rwRegisters_in_map s p hp)

/-! ### A write of a register -/

theorem storeOffset_ignored {o : Nat} (h : o ∉ guardedOffsets) (v : Word) (s : State) :
    storeOffset o v s = s := by
  unfold storeOffset
  split
  case h_21 => rfl
  all_goals exact absurd (by decide) h

theorem writeOffset_ignored {o : Nat} (h : o ∉ guardedOffsets) (v : Word) (s : State) :
    writeOffset o v s = s := by
  have hcmd : o ≠ cmdOffset := by
    rintro rfl
    exact h (by decide)
  rw [writeOffset, if_neg hcmd, if_neg (by simp [h]), storeOffset_ignored h]

theorem writeOffset_cmd {s : State} (hb : s.busy = false) (v : Word) :
    writeOffset cmdOffset v s = issue v s := by
  simp only [writeOffset, hb, Bool.false_and, Bool.false_eq_true, if_true, if_false]

theorem writeOffset_store {s : State} (hb : s.busy = false) {o : Nat} (ho : o ≠ cmdOffset)
    (v : Word) : writeOffset o v s = storeOffset o v s := by
  simp only [writeOffset, hb, ho, Bool.false_and, Bool.false_eq_true, if_false]

theorem issue_of_no_walk {s : State} (hw : s.walk = none) (v : Word) :
    issue v s = { s with busy := true, pending := v } := by
  rw [issue, ← hw]

/-- A write of an RW register with BUSY = 0 is seen by a read of that register, masked, and by no
other read. -/
theorem readOffset_writeOffset {s : State} (hb : s.busy = false) (v : Word) {p : Nat × Word}
    (hp : p ∈ rwRegisters) (o : Nat) :
    readOffset (writeOffset p.1 v s) o = if o = p.1 then v &&& p.2 else readOffset s o := by
  have not_cmd : ∀ p ∈ rwRegisters, p.1 ≠ cmdOffset := by decide
  rw [writeOffset_store hb (not_cmd p hp), readOffset_storeOffset s v hp]

theorem regOffset_injective : Function.Injective regOffset := fun a b h =>
  BitVec.eq_of_toNat_eq (Nat.eq_of_mul_eq_mul_left (by omega) h)

/-- Settles O49: the offsets that ignore a write, CMD, and the RW registers. -/
theorem registerWritesReadBack : Obligations.RegisterWritesReadBack := by
  refine ⟨fun s reg v h => writeOffset_ignored h v s, fun s v hb hw => ?_,
    fun s reg v mask hb hp => ⟨?_, fun reg' hne => ?_⟩⟩
  · exact (writeOffset_cmd hb v).trans (issue_of_no_walk hw v)
  · exact (readOffset_writeOffset hb v hp _).trans (if_pos rfl)
  · exact (readOffset_writeOffset hb v hp _).trans (if_neg fun h => hne (regOffset_injective h))

end Sys2Proof.Machine
end

section
/-! Decoding undoes encoding (30_encoding.md R301, R302, R311, R330, R332): each field of a built
word is the field it was built from, so a command's word decodes by its OP and a record's words by
their device type and event type. And the words that are no command (R333). -/

namespace Sys2Proof.Machine

open Sys2Proof

/-! ### The fields of a command word (R330) -/

section
variable (op a b c : BitVec 8)

/-- The width is spelled as the sum of the fields' widths: the library's lemmas on `++` see no fields
in a `BitVec 32`. -/
theorem extractLsb'_commandWord (start len : Nat) :
    (commandWord op a b c).extractLsb' start len
      = BitVec.extractLsb' (n := 8 + 8 + 8 + 8) start len (c ++ b ++ a ++ op) := rfl

@[simp] theorem opField_commandWord : opField (commandWord op a b c) = op := by
  simp [opField, extractLsb'_commandWord, BitVec.extractLsb'_append_eq_ite, -Nat.reduceAdd]

@[simp] theorem aField_commandWord : aField (commandWord op a b c) = a := by
  simp [aField, extractLsb'_commandWord, BitVec.extractLsb'_append_eq_ite, -Nat.reduceAdd]

@[simp] theorem bField_commandWord : bField (commandWord op a b c) = b := by
  simp [bField, extractLsb'_commandWord, BitVec.extractLsb'_append_eq_ite, -Nat.reduceAdd]

@[simp] theorem cField_commandWord : cField (commandWord op a b c) = c := by
  simp [cField, extractLsb'_commandWord, BitVec.extractLsb'_append_eq_ite, -Nat.reduceAdd]

end

/-! ### The fields of a header word (R301) -/

section
variable (k : RecKind) (h : RecHdr)

theorem extractLsb'_headerWord (start len : Nat) :
    (headerWord k h).extractLsb' start len
      = BitVec.extractLsb' (n := 4 + 4 + 2 + 1 + 1 + 20) start len
          (k.deviceType ++ h.moduleNo ++ h.eventType ++ h.flag1 ++ h.flag0 ++ h.eventSize) := rfl

@[simp] theorem deviceTypeField_headerWord : deviceTypeField (headerWord k h) = k.deviceType := by
  simp [deviceTypeField, extractLsb'_headerWord, BitVec.extractLsb'_append_eq_ite, -Nat.reduceAdd]

/-- The header and the trigger word hold every field of the record that its kind does not fix. -/
@[simp] theorem decodeHeader_headerWord : decodeHeader (headerWord k h) h.trigger = h := by
  simp [decodeHeader, extractLsb'_headerWord, BitVec.extractLsb'_append_eq_ite, -Nat.reduceAdd]

@[simp] theorem eventType_headerWord : (headerWord k h).extractLsb' 22 2 = h.eventType :=
  congrArg RecHdr.eventType (decodeHeader_headerWord k h)

end

/-! ### Commands -/

/-- A command is one word, and the word decodes to it: its OP picks the arm, and the fields the arm
reads are the operands. -/
theorem decodeCommand_encode {i : Instr} (hi : i.record? = none) :
    ∃ w, encode i = [w] ∧ decodeCommand w = .ok i := by
  cases i
  case groupRunBegin | groupRunEnd | groupData | depfet | depfet128 | depfetDcd | bat | tpll
      | unknown | tlu | info | other => cases hi
  all_goals exact ⟨_, rfl, by simp [decodeCommand]⟩

theorem decodeWords_command {w : Word} {i : Instr} (hd : decodeCommand w = .ok i)
    (rest : List Word) : decodeWords .command (w :: rest) = .ok (i, rest) := by
  simp only [decodeWords, hd]

/-! ### Records -/

/-- A kind's device type and a well-formed header's event type name the kind: a GROUP's event type
tells the three kinds of device type 0 apart, and any other kind takes every event type but 3. -/
theorem recordKind_deviceType {k : RecKind} {h : RecHdr} (hw : k.wellFormed h = true) :
    recordKind k.deviceType h.eventType = .ok k := by
  cases k
  case groupRunBegin | groupRunEnd | groupData =>
    have fixed := eq_of_beq hw
    rw [fixed]
    rfl
  all_goals
    have not_reserved : h.eventType ≠ 3 := bne_iff_ne.1 hw
    exact if_neg not_reserved

theorem decodeRecord_headerWord {k : RecKind} {h : RecHdr} (hw : k.wellFormed h = true) :
    decodeRecord (headerWord k h) h.trigger = .ok (k, h) := by
  simp only [decodeRecord, deviceTypeField_headerWord, eventType_headerWord,
    recordKind_deviceType hw, decodeHeader_headerWord]

theorem encode_ofRecord (k : RecKind) (h : RecHdr) :
    encode (Instr.ofRecord k h) = recordWords k h := by
  cases k <;> rfl

theorem decodeWords_recordWords {k : RecKind} {h : RecHdr} (hw : k.wellFormed h = true)
    (rest : List Word) :
    decodeWords .record (recordWords k h ++ rest) = .ok (Instr.ofRecord k h, rest) := by
  simp only [recordWords, List.cons_append, List.nil_append, decodeWords,
    decodeRecord_headerWord hw]

theorem space_of_record {i : Instr} {k : RecKind} {h : RecHdr} (hi : i.record? = some (k, h)) :
    i.space = .record := by
  rw [Instr.space, hi]

theorem wellFormed_of_record {i : Instr} {k : RecKind} {h : RecHdr}
    (hi : i.record? = some (k, h)) : i.wellFormed = k.wellFormed h := by
  rw [Instr.wellFormed, hi]

/-- Settles O52: a command by its word, a record by its header and trigger words. -/
theorem decodeEncodeAgree : Obligations.DecodeEncodeAgree := by
  intro i rest hw
  cases hi : i.record? with
  | none =>
    obtain ⟨w, hword, hd⟩ := decodeCommand_encode hi
    rw [space_of_no_record hi, hword]
    exact decodeWords_command hd rest
  | some kh =>
    obtain ⟨k, h⟩ := kh
    rw [wellFormed_of_record hi] at hw
    rw [space_of_record hi, eq_ofRecord hi, encode_ofRecord]
    exact decodeWords_recordWords hw rest

/-! ### Words that are no command (R333) -/

/-- The decoder refuses exactly the OPs between and after the blocks of the opcode map. -/
theorem decodeCommand_illegal_iff (w : Word) :
    decodeCommand w = .error .illegalCommand
      ↔ (opField w).toNat ∈ List.range' 0x03 13 ∨ (opField w).toNat ∈ List.range' 0x18 8
        ∨ (opField w).toNat ∈ List.range' 0x25 11 ∨ (opField w).toNat ∈ List.range' 0x32 14
        ∨ (opField w).toNat ∈ List.range' 0x4A 6 ∨ (opField w).toNat ∈ List.range' 0x57 9
        ∨ (opField w).toNat ∈ List.range' 0x62 158 := by
  have op_lt : (opField w).toNat < 256 := (opField w).isLt
  simp only [List.mem_range'_1]
  unfold decodeCommand
  dsimp only
  split
  case h_38 =>
    -- the OP is none of the map's
    simp only [imp_false, true_iff] at *
    omega
  all_goals
    simp only [reduceCtorEq, false_iff]
    omega

/-- Outside a walk the ENGINE refuses a pending word that is no command. -/
theorem engineStep_illegal {s : State} {e : DecodeError} (hw : s.walk = none)
    (hb : s.busy = true) (hd : decodeCommand s.pending = .error e) :
    engineStep s = illegalCommand s := by
  simp only [engineStep, hw, hb, if_true, hd]

/-- Settles O47: the reserved OPs, and the fault a step with such a word raises. -/
theorem reservedOpcodesAreIllegal : Obligations.ReservedOpcodesAreIllegal := by
  refine ⟨decodeCommand_illegal_iff, fun s hw hh hb hf hd => ?_⟩
  rw [step_engine hw hb (.inl hh), engineStep_illegal hw hb hd]
  exact command_error hf rfl

end Sys2Proof.Machine
end

section
/-! The system commands (40_system.md): their encodings, what RESET and ABORT leave, what a CMD write
does while BUSY = 1, and that FAULT = 1 makes the ENGINE ignore every other command. -/

namespace Sys2Proof.Machine

open Sys2Proof

/-! ### The encodings (30_encoding.md R332) -/

theorem decodesTo_nop : decodesTo 0x00 fun _ _ _ => .nop := fun w hop => by
  simp only [decodeCommand, hop]
  rfl

theorem decodesTo_reset : decodesTo 0x01 fun _ _ _ => .reset := fun w hop => by
  simp only [decodeCommand, hop]
  rfl

theorem decodesTo_abort : decodesTo 0x02 fun _ _ _ => .abort := fun w hop => by
  simp only [decodeCommand, hop]
  rfl

/-! ### A CMD write while BUSY = 1 (60_exceptions.md R713) -/

/-- OVERRUN is recorded where no fault is. -/
theorem overrun_of_no_fault {s : State} (hf : s.fault = false) (o : Nat) :
    overrun o s = faultEntry ⟨.overrun, BitVec.ofNat 32 o⟩ s := by
  simp only [overrun, hf, Bool.false_eq_true, if_false]

/-- A command written while another awaits is an overrun, unless it is RESET. -/
theorem writeOffset_cmd_busy {s : State} (hb : s.busy = true) {v : Word} (hop : opField v ≠ 0x01) :
    writeOffset cmdOffset v s = overrun cmdOffset s := by
  have guarded : (s.busy && opField v != 0x01) = true := by simpa [hb] using hop
  simp only [writeOffset, guarded, if_true]

/-- RESET is issued whatever BUSY is (40_system.md R391). -/
theorem writeOffset_cmd_reset (s : State) {v : Word} (hop : opField v = 0x01) :
    writeOffset cmdOffset v s = issue v s := by
  simp only [writeOffset, hop, bne_self_eq_false, Bool.and_false, Bool.false_eq_true, if_true,
    if_false]

/-! ### RESET (40_system.md R391) -/

/-- No register shows what RESET keeps: each reads its reset value. -/
theorem readOffset_resetState (s : State) (o : Nat) : readOffset (resetState s) o = resetWord o :=
  calc readOffset (resetState s) o
    _ = readOffset State.reset o := rfl
    _ = resetWord o := readOffset_reset o

/-! ### The fault state (40_system.md R393) -/

/-- In the fault state a command ends where it begins: each meaning but that of RESET and of ABORT
asks FAULT first, the two that walk and CM_APPLY by a test of their own. -/
theorem exec_of_fault {i : Instr} {s : State} (hi : i.space = .command) (hr : i ≠ .reset)
    (ha : i ≠ .abort) (hf : s.fault = true) : exec i s = .next (finish s) := by
  cases i with
  | reset => exact absurd rfl hr
  | abort => exact absurd rfl ha
  | next | skip | cmApply a b c => exact if_pos hf
  | groupRunBegin h | groupRunEnd h | groupData h | depfet h | depfet128 h | depfetDcd h
  | bat h | tpll h | unknown h | tlu h | info h | other h => cases hi
  | nop | segClear | openStream => exact command_fault hf (.ok _)
  | _ => exact command_fault hf _

/-! ### The obligations -/

/-- Settles O1: NOP completes with nothing done, ABORT's state is the one written out, and its word
is no RESET, so that writing it while BUSY = 1 is an overrun. -/
theorem nopAndAbortComplete : Obligations.NopAndAbortComplete := by
  refine ⟨decodesTo_nop, decodesTo_abort, fun s => ⟨fun hf => command_ok hf rfl,
    fun hb hf v hop => ?_, rfl⟩⟩
  have not_reset : opField v ≠ 0x01 := by
    rw [hop]
    decide
  exact (writeOffset_cmd_busy hb not_reset).trans (overrun_of_no_fault hf _)

/-- Settles O2: RESET answers `resetState`, whose registers read as after reset, and its word is
issued while BUSY = 1 too. -/
theorem resetRestoresEveryItem : Obligations.ResetRestoresEveryItem := by
  refine ⟨decodesTo_reset, fun s => rfl, fun s t h => ?_, fun s v _ hop => ?_⟩
  · cases h
    exact ⟨readOffset_resetState s _, readOffset_resetState s _⟩
  · have issued : regWrite 4 v s = issue v s := writeOffset_cmd_reset s hop
    rw [issued]
    exact ⟨rfl, rfl, rfl⟩

/-- Settles O3: a command by its test of FAULT, and ILLEGAL_COMMAND of a word that is no command by
the same test. -/
theorem faultStateIgnoresCommands : Obligations.FaultStateIgnoresCommands := by
  refine ⟨fun _ _ => exec_of_fault, fun s hw hh hb hf hd => ?_⟩
  rw [step_engine hw hb (.inl hh), engineStep_illegal hw hb hd]
  exact command_fault hf _

end Sys2Proof.Machine
end

section
/-! The stream commands (41_stream.md): their encodings, NOT_OPEN, and for each command the next
state of every way it can end. -/

namespace Sys2Proof.Machine

open Sys2Proof

/-! ### The encodings (30_encoding.md R332) -/

/-- The stream commands that use no operand field, with their OPs. -/
def streamOpcodes : List (BitVec 8 × Instr) :=
  [(0x10, .segPush), (0x11, .segClear), (0x12, .openStream), (0x13, .openNext), (0x14, .readHeader),
    (0x15, .readData), (0x16, .skipData)]

theorem decodesTo_streamOpcode {op : BitVec 8} {i : Instr} (h : (op, i) ∈ streamOpcodes) :
    decodesTo op fun _ _ _ => i := fun w hop => by
  simp only [decodeCommand, hop]
  simp only [streamOpcodes, List.mem_cons, List.not_mem_nil, or_false, Prod.mk.injEq] at h
  rcases h with ⟨rfl, rfl⟩ | ⟨rfl, rfl⟩ | ⟨rfl, rfl⟩ | ⟨rfl, rfl⟩ | ⟨rfl, rfl⟩ | ⟨rfl, rfl⟩
    | ⟨rfl, rfl⟩
  all_goals rfl

/-! ### NOT_OPEN (R400) -/

theorem needOpen_of_open {s : State} (ho : s.opened = true) (k : Except Raise State) :
    needOpen s k = k := if_pos ho

theorem needOpen_of_closed {s : State} (ho : s.opened = false) (k : Except Raise State) :
    needOpen s k = .error ⟨.notOpen, s.pending⟩ := if_neg (by simp [ho])

theorem command_open_ok {s u : State} {k : Except Raise State} (hf : s.fault = false)
    (ho : s.opened = true) (h : k = .ok u) : command s (needOpen s k) = .next (finish u) :=
  command_ok hf ((needOpen_of_open ho k).trans h)

theorem command_open_error {s : State} {r : Raise} {k : Except Raise State} (hf : s.fault = false)
    (ho : s.opened = true) (h : k = .error r) : command s (needOpen s k) = .next (faultEntry r s) :=
  command_error hf ((needOpen_of_open ho k).trans h)

/-- The commands that need an open stream. -/
def openStreamCommands : List Instr := [.openNext, .readHeader, .readData, .skipData, .next, .skip]

/-- Four of them ask OPEN through `needOpen`; NEXT and SKIP by a test of their own. -/
theorem exec_of_closed {i : Instr} {s : State} (hi : i ∈ openStreamCommands) (hf : s.fault = false)
    (ho : s.opened = false) : exec i s = .next (faultEntry ⟨.notOpen, s.pending⟩ s) := by
  cases i with
  | openNext | readHeader | readData | skipData => exact command_error hf (needOpen_of_closed ho _)
  | next => simp [exec, execNext, hf, ho]
  | skip => simp [exec, execSkip, hf, ho]
  | _ => simp [openStreamCommands] at hi

/-! ### The routines (R410, R420) -/

/-- A segment too short for a header at the offset the search tries in it. -/
theorem sub_tryOffset_lt {len off j : Nat} (h : len < (if j = 0 then off else 0) + 8) :
    len - tryOffset off j < 8 := by
  unfold tryOffset
  omega

/-- Past the last segment the offset is 0, unless the cursor stood there already. -/
theorem ofNat_tryOffset_end (off : Word) (cur len : Nat) :
    BitVec.ofNat 32 (tryOffset off.toNat (len - cur)) = if cur < len then 0 else off := by
  unfold tryOffset
  by_cases h : cur < len
  · rw [if_pos h, if_neg (by omega)]
    rfl
  · rw [if_neg h, if_pos (by omega), BitVec.ofNat_toNat, BitVec.setWidth_eq]

/-- The blob is checked against the buffer before the segment (R420). -/
theorem readData_of_large {s : State} (h : Config.dataBufBytes < 4 * s.argN0.toNat) :
    readData s.argN0.toNat s = .error ⟨.capacity, s.argN0⟩ := by
  rw [readData, if_pos h, raise_eq, BitVec.ofNat_toNat, BitVec.setWidth_eq]

theorem readData_of_short {s : State} {n : Nat} (hn : 4 * n ≤ Config.dataBufBytes)
    (h : ∀ g, s.segq[s.curSeg]? = some g → g.len.toNat - s.off.toNat < 4 * (1 + n)) :
    readData n s = .error ⟨.truncatedRecord, s.off⟩ := by
  rw [readData, if_neg (by omega), inSegment_of_short h]

/-! ### The queue and the cursor (R402, R405) -/

section
variable {s : State} (hf : s.fault = false)
include hf

theorem exec_segPush (hn : s.segq.length ≠ Config.segqDepth)
    (hend : s.argN0.toNat + s.argN1.toNat ≤ 2 ^ 32) :
    exec .segPush s = .next (finish { s with
      segq := s.segq ++ [⟨s.argN0, s.argN1⟩], resN0 := BitVec.ofNat 32 (s.segq.length + 1) }) :=
  command_ok hf (by rw [if_neg hn, if_neg (by omega)])

theorem exec_segPush_of_full (hn : s.segq.length = Config.segqDepth) :
    exec .segPush s = .next (faultEntry ⟨.capacity, BitVec.ofNat 32 Config.segqDepth⟩ s) :=
  command_error hf (if_pos hn)

theorem exec_segPush_of_past (hn : s.segq.length ≠ Config.segqDepth)
    (hend : 2 ^ 32 < s.argN0.toNat + s.argN1.toNat) :
    exec .segPush s = .next (faultEntry ⟨.illegalOperand, s.argN0⟩ s) :=
  command_error hf (by rw [if_neg hn, if_pos hend, raise_eq])

theorem exec_openNext (ho : s.opened = true) :
    exec .openNext s = .next (finish { s with
      curSeg := if s.curSeg < s.segq.length then s.curSeg + 1 else s.curSeg
      off := if s.curSeg < s.segq.length then 0 else s.off
      resN0 := if s.curSeg + 1 < s.segq.length then 1 else 0 }) :=
  command_open_ok hf ho rfl

/-! ### READ_HEADER (R410 to R412) -/

theorem exec_readHeader_of_read {u : State} (ho : s.opened = true) (h : readHeader s = (u, true)) :
    exec .readHeader s
      = .next (finish { u with resN0 := 1, resN1 := u.hdr0, resN2 := u.hdr1 }) :=
  command_open_ok hf ho (by simp only [h])

theorem exec_readHeader_of_end {u : State} (ho : s.opened = true) (h : readHeader s = (u, false)) :
    exec .readHeader s = .next (finish { u with resN0 := 0 }) :=
  command_open_ok hf ho (by simp only [h])

/-! ### READ_DATA and SKIP_DATA (R420, R421, R425) -/

theorem exec_readData_of_ok {u : State} (ho : s.opened = true)
    (h : readData s.argN0.toNat s = .ok u) :
    exec .readData s = .next (finish { u with
      resN0 := u.info, resN1 := BitVec.ofNat 32 u.dataBuf.length }) :=
  command_open_ok hf ho (by simp only [h])

theorem exec_readData_of_error {r : Raise} (ho : s.opened = true)
    (h : readData s.argN0.toNat s = .error r) : exec .readData s = .next (faultEntry r s) :=
  command_open_error hf ho (by simp only [h])

theorem exec_skipData_of_ok {u : State} (ho : s.opened = true)
    (h : skipData s.argN0.toNat s = .ok u) :
    exec .skipData s = .next (finish { u with resN0 := u.off }) :=
  command_open_ok hf ho (by simp only [h])

theorem exec_skipData_of_error {r : Raise} (ho : s.opened = true)
    (h : skipData s.argN0.toNat s = .error r) : exec .skipData s = .next (faultEntry r s) :=
  command_open_error hf ho (by simp only [h])

end

/-- Neither command has its bytes in the current segment: both raise TRUNCATED_RECORD, READ_DATA
where the blob fits the buffer. -/
theorem exec_data_of_short {s : State} (hf : s.fault = false) (ho : s.opened = true)
    (h : ∀ g, s.segq[s.curSeg]? = some g → g.len.toNat - s.off.toNat < 4 * (1 + s.argN0.toNat)) :
    exec .skipData s = .next (faultEntry ⟨.truncatedRecord, s.off⟩ s)
      ∧ (4 * s.argN0.toNat ≤ Config.dataBufBytes →
        exec .readData s = .next (faultEntry ⟨.truncatedRecord, s.off⟩ s)) :=
  ⟨exec_skipData_of_error hf ho (inSegment_of_short h),
    fun hn => exec_readData_of_error hf ho (readData_of_short hn h)⟩

/-! ### VIEW_READ: the element type and the extents (R430) -/

/-- The code of an element type in operand A (R432). -/
def elemTypeCode : ElemType → BitVec 8
  | .int8 => 0
  | .int16 => 1
  | .uint32 => 2

@[simp] theorem checkElemType_elemTypeCode {α : Type} (t : ElemType)
    (k : ElemType → Except Raise α) : checkElemType (elemTypeCode t) k = k t := by cases t <;> rfl

theorem elemTypeCode_injective : Function.Injective elemTypeCode := by
  intro t u h
  have checked : (.ok t : Except Raise ElemType) = .ok u :=
    calc .ok t
      _ = checkElemType (elemTypeCode t) .ok := (checkElemType_elemTypeCode t _).symm
      _ = .ok u := by rw [h, checkElemType_elemTypeCode]
  exact Except.ok.inj checked

/-- A code of an element type and its width name that type (R430). -/
theorem elemType_of_code {a : BitVec 8} {es : Nat}
    (h : (a, es) ∈ [((0 : BitVec 8), 1), (1, 2), (2, 4)]) :
    ∃ t, a = elemTypeCode t ∧ es = elemSize t := by
  simp only [List.mem_cons, List.not_mem_nil, or_false, Prod.mk.injEq] at h
  rcases h with ⟨rfl, rfl⟩ | ⟨rfl, rfl⟩ | ⟨rfl, rfl⟩
  · exact ⟨.int8, rfl, rfl⟩
  · exact ⟨.int16, rfl, rfl⟩
  · exact ⟨.uint32, rfl, rfl⟩

theorem checkElemType_of_gt {α : Type} {a : BitVec 8} (h : 2 < a.toNat)
    (k : ElemType → Except Raise α) :
    checkElemType a k = .error ⟨.illegalOperand, a.setWidth 32⟩ := by
  unfold checkElemType
  split
  case h_4 => rfl
  all_goals omega

/-- The extents `nX`, `nY` of a view of elements of `es` bytes over `bytes` bytes, where `gX` and `gY`
are given: both, one with the other inferred, or none (0 is a missing one). -/
def ExtentsOf (es bytes gX gY nX nY : Nat) : Prop :=
  0 < gX ∧ 0 < gY ∧ gX * gY * es ≤ bytes ∧ nX = gX ∧ nY = gY
    ∨ 0 < gX ∧ gY = 0 ∧ nX = gX ∧ nY = bytes / (gX * es)
    ∨ gX = 0 ∧ 0 < gY ∧ nX = bytes / (gY * es) ∧ nY = gY
    ∨ gX = 0 ∧ gY = 0 ∧ nX = bytes / es ∧ nY = 1

theorem viewExtent_eq {t : ElemType} {len gX gY nX nY : Nat} {off : Word} (hoff : off.toNat ≤ len)
    (h : ExtentsOf (elemSize t) (len - off.toNat) gX gY nX nY) :
    viewExtent t len off gX gY = .ok (nX, nY) := by
  rw [viewExtent, if_neg (by omega)]
  rcases h with ⟨hX, hY, hfit, rfl, rfl⟩ | ⟨hX, rfl, rfl, rfl⟩ | ⟨rfl, hY, rfl, rfl⟩
    | ⟨rfl, rfl, rfl, rfl⟩
  · simp [hX, hY, Nat.not_lt.2 hfit]
  · simp [hX]
  · simp [hY]
  · simp

theorem viewExtent_of_past {t : ElemType} {len gX gY : Nat} {off : Word}
    (h : len < off.toNat ∨ 0 < gX ∧ 0 < gY ∧ len - off.toNat < gX * gY * elemSize t) :
    viewExtent t len off gX gY = .error ⟨.viewExtent, off⟩ := by
  by_cases hoff : len < off.toNat
  · exact if_pos hoff
  · obtain ⟨hX, hY, hfit⟩ := h.resolve_left hoff
    rw [viewExtent, if_neg hoff]
    exact (if_pos ⟨hX, hY⟩).trans (if_pos hfit)

/-! ### VIEW_READ: the element (R431) -/

theorem bufByte_of_getElem? {buf : List Byte} {p : Nat} {b : Byte} (h : buf[p]? = some b) :
    bufByte buf p = b := by
  rw [bufByte, List.getD_eq_getElem?_getD, h, Option.getD_some]

/-- An element is its bytes, the lowest first: two's complement, or unsigned where it has four. -/
theorem elemAt_eq {t : ElemType} {buf : List Byte} {p : Nat} {b : Nat → Byte} {v : Int}
    (hb : ∀ i, i < elemSize t → buf[p + i]? = some (b i))
    (hv : elemTypeCode t = 0 ∧ v = (b 0).toInt ∨ elemTypeCode t = 1 ∧ v = (b 1 ++ b 0).toInt
      ∨ elemTypeCode t = 2 ∧ v = ((b 3 ++ b 2 ++ b 1 ++ b 0).toNat : Int)) :
    elemAt t buf p = v := by
  have byte (i : Nat) (hi : i < elemSize t) : bufByte buf (p + i) = b i :=
    bufByte_of_getElem? (hb i hi)
  rcases hv with ⟨ht, rfl⟩ | ⟨ht, rfl⟩ | ⟨ht, rfl⟩
  · obtain rfl : t = .int8 := elemTypeCode_injective ht
    exact congrArg BitVec.toInt (byte 0 (by decide))
  · obtain rfl : t = .int16 := elemTypeCode_injective ht
    rw [elemAt, ← byte 0 (by decide), ← byte 1 (by decide)]
    rfl
  · obtain rfl : t = .uint32 := elemTypeCode_injective ht
    rw [elemAt, ← byte 0 (by decide), ← byte 1 (by decide), ← byte 2 (by decide),
      ← byte 3 (by decide)]
    rfl

/-! ### VIEW_READ: the command (R432) -/

/-- The extents of the view VIEW_READ asks for: ARG_N1 gives {nY, nX}, ARG_N0 the offset. -/
def askedExtent (t : ElemType) (s : State) : Except Raise (Nat × Nat) :=
  viewExtent t s.dataBuf.length s.argN0 (s.argN1.extractLsb' 0 16).toNat
    (s.argN1.extractLsb' 16 16).toNat

/-- The index x that VIEW_READ asks for, the low half of ARG_N2. -/
def askedX (s : State) : Nat := (s.argN2.extractLsb' 0 16).toNat

/-- The index y that VIEW_READ asks for, the high half of ARG_N2. -/
def askedY (s : State) : Nat := (s.argN2.extractLsb' 16 16).toNat

section
variable {s : State} {t : ElemType} (hf : s.fault = false)
include hf

theorem exec_viewRead_of_error {r : Raise} (h : askedExtent t s = .error r) :
    exec (.viewRead (elemTypeCode t)) s = .next (faultEntry r s) := by
  unfold askedExtent at h
  exact command_error hf (by simp only [checkElemType_elemTypeCode, h])

theorem exec_viewRead_of_outside {nX nY : Nat} (h : askedExtent t s = .ok (nX, nY))
    (hxy : nX ≤ askedX s ∨ nY ≤ askedY s) :
    exec (.viewRead (elemTypeCode t)) s = .next (faultEntry ⟨.outOfBounds, s.argN2⟩ s) := by
  unfold askedExtent at h
  refine command_error hf ?_
  simp only [checkElemType_elemTypeCode, h]
  exact if_pos hxy

theorem exec_viewRead_of_inside {nX nY : Nat} (h : askedExtent t s = .ok (nX, nY))
    (hx : askedX s < nX) (hy : askedY s < nY) {v : Int}
    (hv : elemAt t s.dataBuf (s.argN0.toNat + (askedX s * nY + askedY s) * elemSize t) = v) :
    exec (.viewRead (elemTypeCode t)) s = .next (finish { s with
      resN0 := BitVec.ofInt 32 v
      resN1 := BitVec.ofNat 32 nX, resN2 := BitVec.ofNat 32 nY, resF := fOfInt v }) := by
  unfold askedExtent at h
  refine command_ok hf ?_
  simp only [checkElemType_elemTypeCode, h]
  rw [← hv]
  exact if_neg (not_or.2 ⟨not_le.2 hx, not_le.2 hy⟩)

end

/-! ### The obligations -/

/-- Settles O10: the search stops at the first segment with 8 bytes left, or past the last one. -/
theorem readHeaderSplices : Obligations.ReadHeaderSplices := by
  refine ⟨decodesTo_streamOpcode (by decide), fun s hf => ⟨exec_of_closed (by decide) hf,
    fun ho => ⟨fun j g hg h8 hall => ?_, fun hall => ?_⟩⟩⟩
  · exact exec_readHeader_of_read hf ho (readHeader_eq hg h8 fun i hi g' hg' =>
      sub_tryOffset_lt (hall i g' hi hg'))
  · have cursor : s.curSeg + (s.segq.length - s.curSeg) = max s.curSeg s.segq.length := by omega
    rw [exec_readHeader_of_end hf ho (readHeader_eq_end fun i g' hg' =>
      sub_tryOffset_lt (hall i g' hg')), cursor, ofNat_tryOffset_end]
    rfl

/-- Settles O7: the queue's depth is checked first, then the end of the segment. -/
theorem segPushAppends : Obligations.SegPushAppends :=
  ⟨decodesTo_streamOpcode (by decide), fun _ hf =>
    ⟨exec_segPush hf, exec_segPush_of_full hf, exec_segPush_of_past hf⟩⟩

/-- Settles O8: OPEN_NEXT's cursor by whether it still stands at a segment. -/
theorem cursorCommands : Obligations.CursorCommands := by
  refine ⟨decodesTo_streamOpcode (by decide), decodesTo_streamOpcode (by decide),
    decodesTo_streamOpcode (by decide), fun s hf => ⟨command_ok hf rfl, command_ok hf rfl,
      fun ho hc => ?_, fun ho hc => ?_, exec_of_closed (by decide) hf⟩⟩
  · rw [exec_openNext hf ho, if_pos hc, if_pos hc]
    rfl
  · rw [exec_openNext hf ho, if_neg (by omega), if_neg (by omega), if_neg (by omega)]
    rfl

/-- Settles O9: OPEN is checked before anything else a command of the six does. -/
theorem streamCommandsNeedOpen : Obligations.StreamCommandsNeedOpen :=
  fun _ _ => exec_of_closed

/-- Settles O11: READ_DATA's CAPACITY stands before the two ways of being short. -/
theorem dataReadsAndSkips : Obligations.DataReadsAndSkips := by
  refine ⟨decodesTo_streamOpcode (by decide), decodesTo_streamOpcode (by decide),
    fun s hf => ⟨fun ho i hi => ?_, fun ho hn => ?_, fun ho hnone => ?_⟩,
    fun s g hf ho hg => ⟨fun hn hfit => ?_, fun hfit => ?_, fun hshort => ?_⟩⟩
  · have needs : [Instr.readData, .skipData] ⊆ openStreamCommands := by decide
    exact exec_of_closed (needs hi) hf ho
  · exact exec_readData_of_error hf ho (readData_of_large hn)
  · exact exec_data_of_short hf ho fun g hg => absurd (hnone.symm.trans hg) nofun
  · rw [exec_readData_of_ok hf ho (readData_eq hn hg (by omega)), memReadN_length]
    rfl
  · exact exec_skipData_of_ok hf ho (skipData_eq hg (by omega))
  · refine exec_data_of_short hf ho fun g' hg' => ?_
    obtain rfl : g = g' := Option.some.inj (hg.symm.trans hg')
    omega

/-- Settles O12: the element type first, then the extents, then the index, then the element. -/
theorem viewReadsOneElement : Obligations.ViewReadsOneElement := by
  intro s a hf
  refine ⟨fun ha => command_error hf (checkElemType_of_gt ha _), ?_⟩
  intro es bytes gX gY x y hcode hbytes hgX hgY hx hy
  obtain ⟨t, rfl, rfl⟩ := elemType_of_code hcode
  subst hbytes hgX hgY hx hy
  refine ⟨fun hpast => exec_viewRead_of_error hf (viewExtent_of_past hpast),
    fun nX nY hoff hext => ?_⟩
  have asked : askedExtent t s = .ok (nX, nY) := viewExtent_eq hoff hext
  exact ⟨exec_viewRead_of_outside hf asked, fun hx hy b v hb hv =>
    exec_viewRead_of_inside hf asked hx hy (elemAt_eq hb hv)⟩

end Sys2Proof.Machine
end

section
/-! The converters (42_convert.md): the pixel every element goes to, the properties P1 to P6 of R457
that hold whatever the open tables are, and every way a conversion command can end. -/

namespace Sys2Proof.Machine

open Sys2Proof

/-! ### The pixels of a conversion (R454, R455) -/

/-- The pixel value of element `e` of the frame at byte `off` (R452). -/
def frameElem (t : ConvKind) (off : Nat) (buf : List Byte) (e : Nat) : F64 :=
  fOfInt (elemAt (Config.elemType t) buf (off + e * elemSize (Config.elemType t)))

section
variable (t : ConvKind) (um : Bool) (off sg : Nat) (buf : List Byte)

/-- Pixel `q` takes the element that the lookup table names. -/
theorem convertData_eq_ofFn :
    convertData t um off sg buf = List.ofFn fun q => frameElem t off buf (lut t um sg q) := rfl

theorem convertData_getElem? (q : Fin t.npix) :
    (convertData t um off sg buf)[q.val]? = some (frameElem t off buf (lut t um sg q)) := by
  rw [convertData_eq_ofFn, List.getElem?_ofFn, dif_pos q.isLt]

/-- The lookup table lists every element of the frame exactly once (R457 P3). -/
theorem ofFn_lut_perm_range : (List.ofFn (lut t um sg)).Perm (List.range t.npix) := by
  refine (List.perm_ext_iff_of_nodup (List.nodup_ofFn.2 (lut_injective t um sg))
    List.nodup_range).2 fun e => ?_
  rw [List.mem_ofFn, List.mem_range]
  constructor
  · rintro ⟨q, rfl⟩
    exact lut_lt t um sg q
  · exact lut_surjective t um sg

/-- The pixels are the elements in another order (R457 P4). -/
theorem convertData_perm :
    (convertData t um off sg buf).Perm ((List.range t.npix).map (frameElem t off buf)) := by
  have mapped : convertData t um off sg buf
      = (List.ofFn (lut t um sg)).map (frameElem t off buf) := by
    rw [convertData_eq_ofFn, List.map_ofFn]
    rfl
  rw [mapped]
  exact (ofFn_lut_perm_range t um sg).map _

end

/-! ### The rotation with the start gate (R457 P5, P6) -/

/-- The element that the rotation of R457 P5 moves to place `e`: of the same inner step, one block
earlier, cyclically over the blocks. -/
def blockBefore (t : ConvKind) (e : Nat) : Nat :=
  (e / Config.inner t + (Config.gates t - 1)) % Config.gates t * Config.inner t
    + e % Config.inner t

section
variable (t : ConvKind) (sg : Nat)

theorem blockBefore_lt (e : Nat) : blockBefore t e < t.npix := by
  have hg := Nat.mod_lt (e / Config.inner t + (Config.gates t - 1)) (gates_pos t)
  have hj := Nat.mod_lt e (inner_pos t)
  calc blockBefore t e
    _ < ((e / Config.inner t + (Config.gates t - 1)) % Config.gates t + 1) * Config.inner t := by
      rw [Nat.add_mul]
      unfold blockBefore
      omega
    _ ≤ Config.gates t * Config.inner t := Nat.mul_le_mul_right _ hg
    _ = t.npix := gates_mul_inner t

/-- One start gate later, the element one block earlier has the place. -/
theorem scanCode_succ_blockBefore (e : Nat) :
    scanCode t (sg + 1) (blockBefore t e) = scanCode t sg e := by
  have hj := Nat.mod_lt e (inner_pos t)
  have hN := gates_pos t
  have turn : sg + 1 + Config.gateOffset t + (e / Config.inner t + (Config.gates t - 1))
      = sg + Config.gateOffset t + e / Config.inner t + Config.gates t := by omega
  unfold scanCode blockBefore
  rw [pair_div hj, pair_mod hj, Nat.add_mod_mod, turn, Nat.add_mod_right]

theorem lut_succ (q : Fin t.npix) : lut t true (sg + 1) q = blockBefore t (lut t true sg q) := by
  simp only [lut, if_true]
  generalize hp : ((Config.place t).symm q).val = p
  have p_lt : p < t.npix := hp ▸ Fin.isLt _
  calc scanElement t (sg + 1) p
    _ = scanElement t (sg + 1) (scanCode t sg (scanElement t sg p)) := by
      rw [scanCode_scanElement t sg p_lt]
    _ = scanElement t (sg + 1) (scanCode t (sg + 1) (blockBefore t (scanElement t sg p))) := by
      rw [scanCode_succ_blockBefore]
    _ = blockBefore t (scanElement t sg p) := scanElement_scanCode t (sg + 1) (blockBefore_lt t _)

theorem lut_mod_gates (q : Fin t.npix) : lut t true (sg % Config.gates t) q = lut t true sg q := by
  simp only [lut, if_true, scanElement, Nat.mod_add_mod]

/-- Converting with the start gate one later is converting the rotated frame `buf'`. -/
theorem convertData_succ {off : Nat} {buf buf' : List Byte}
    (h : ∀ e i, e < t.npix → i < elemSize (Config.elemType t) →
      bufByte buf' (off + e * elemSize (Config.elemType t) + i)
        = bufByte buf (off + blockBefore t e * elemSize (Config.elemType t) + i)) :
    convertData t true off (sg + 1) buf = convertData t true off sg buf' := by
  have moved (e : Nat) (he : e < t.npix) :
      frameElem t off buf (blockBefore t e) = frameElem t off buf' e :=
    congrArg fOfInt (elemAt_congr _ fun i hi => (h e i he hi).symm)
  simp only [convertData_eq_ofFn, lut_succ, moved _ (lut_lt t true sg _)]

theorem convertData_mod_gates (off : Nat) (buf : List Byte) :
    convertData t true off (sg % Config.gates t) buf = convertData t true off sg buf := by
  simp only [convertData_eq_ofFn, lut_mod_gates]

end

/-! ### The commands (R460 to R464) -/

/-- The OP of a kind's conversion command (30_encoding.md R332). -/
def convOpcode : ConvKind → BitVec 8
  | .s3a => 0x20
  | .s3b2 => 0x21
  | .s3b4 => 0x22
  | .dcd2 => 0x23
  | .dcd4 => 0x24

theorem decodesTo_convOpcode (t : ConvKind) :
    decodesTo (convOpcode t) fun a _ _ => convInstr t a := fun w hop => by
  simp only [decodeCommand, hop]
  cases t <;> rfl

/-- The five conversion commands are one, of five kinds. -/
theorem exec_convInstr (t : ConvKind) (a : BitVec 8) (s : State) :
    exec (convInstr t a) s = convCommand t (convMapping s t) a s := by
  cases t <;> rfl

section
variable {s : State} {t : ConvKind} {a : BitVec 8} (hf : s.fault = false)
include hf

theorem exec_conv_of_not_work (ha : ¬ isWork a) :
    exec (convInstr t a) s = .next (faultEntry ⟨.illegalOperand, a.setWidth 32⟩ s) := by
  rw [exec_convInstr]
  exact command_error hf (checkWork_of_not _ ha)

theorem exec_conv_of_gate (ha : isWork a) (hg : gateLimit s ≤ s.argN1.toNat) :
    exec (convInstr t a) s = .next (faultEntry ⟨.illegalOperand, s.argN1⟩ s) := by
  rw [exec_convInstr]
  exact command_error hf ((checkWork_of_work _ ha).trans (if_pos hg))

theorem exec_conv_of_short (ha : isWork a) (hg : s.argN1.toNat < gateLimit s)
    (hn : s.dataBuf.length < s.argN0.toNat + consumed t) :
    exec (convInstr t a) s = .next (faultEntry ⟨.viewExtent, s.argN0⟩ s) := by
  rw [exec_convInstr]
  refine command_error hf ?_
  rw [checkWork_of_work _ ha, if_neg (by omega), convert_short hn, BitVec.ofNat_toNat,
    BitVec.setWidth_eq]

theorem exec_conv_of_fits (ha : isWork a) (hg : s.argN1.toNat < gateLimit s)
    (hn : s.argN0.toNat + consumed t ≤ s.dataBuf.length) :
    exec (convInstr t a) s = .next (finish { writeMat a.toNat { readMat s a.toNat with
        nX := t.dims.1, nY := t.dims.2
        data := convertData t (convMapping s t) s.argN0.toNat s.argN1.toNat s.dataBuf } s with
      resN0 := BitVec.ofNat 32 (consumed t) }) := by
  rw [exec_convInstr]
  refine command_ok hf ?_
  rw [checkWork_of_work _ ha, if_neg (by omega), convert_eq hn]

end

/-! ### The obligations -/

/-- Settles O14: the lookup table takes the placed pixel back to the element, and is injective. -/
theorem conversionPlacesElements : Obligations.ConversionPlacesElements := by
  intro k off sg e buf he
  have placed := lut_place k sg he
  refine ⟨Config.place k ⟨scanCode k sg e, scanCode_lt k sg e⟩, ⟨scanCode_lt k sg e, rfl⟩, ?_,
    fun q' hq' => lut_injective k true sg (hq'.trans placed.symm)⟩
  rw [convertData_getElem?, placed]
  rfl

/-- Settles O15: P1 from the matrix a conversion leaves, P2 from the bytes an element reads, P3 and
P4 from the lookup table being a bijection, P5 and P6 from its rotation. -/
theorem converterProperties : Obligations.ConverterProperties := by
  intro k um off sg buf
  refine ⟨fun s t dst hdst h => ?_, fun buf' h => convertData_congr h, lut_injective k um sg,
    fun e => lut_surjective k um sg, convertData_perm k um off sg buf,
    fun buf' => convertData_succ k sg, convertData_mod_gates k sg off buf⟩
  obtain ⟨-, rfl⟩ := convert_ok h
  rw [readMat_writeMat_same _ _ _ hdst]
  exact ⟨rfl, rfl, rfl, (convertData_length ..).trans (npix_eq_dims k)⟩

/-- Settles O13: the destination is checked first, then the start gate, then the frame's extent. -/
theorem conversionCompletes : Obligations.ConversionCompletes := by
  refine ⟨fun p hp => ?_, fun k a s hf => ⟨exec_conv_of_fits hf, exec_conv_of_not_work hf,
    exec_conv_of_gate hf, exec_conv_of_short hf⟩⟩
  have opcodes : ∀ p ∈ [((0x20 : BitVec 8), ConvKind.s3a), (0x21, .s3b2), (0x22, .s3b4),
      (0x23, .dcd2), (0x24, .dcd4)], p.1 = convOpcode p.2 := by decide
  rw [opcodes p hp]
  exact decodesTo_convOpcode p.2

end Sys2Proof.Machine
end

section
/-! A walk as steps of the machine (43_assembler.md R510, R521; log 6): each action is one step, and
NEXT and SKIP answer where the steps from the top level end. -/

namespace Sys2Proof.Machine

open Sys2Proof

/-! ### An action and a step -/

theorem step_of_walk {s : State} {w : Walk} (hw : s.walk = some w) : step s = engineStep s :=
  if_pos (by rw [hw]; rfl)

/-- What a step inside a walk answers to an action of the walk. -/
def answerOf (w : Walk) (s : State) (e : Except Raise State) : Result :=
  match e with
  | .ok t => .next t
  | .error r => .next (walkFault w.cmd r s)

theorem runRecord_walk {body : Walk → State → Except Raise State} {s : State} {w : Walk}
    (hw : s.walk = some w) : runRecord body s = answerOf w s (body w s) := by
  simp only [runRecord, hw]
  rfl

/-- A record, as an instruction, is an action of the walk it stands in. -/
theorem exec_record {s : State} {w : Walk} (hw : s.walk = some w) (k : RecKind) (h : RecHdr) :
    exec (Instr.ofRecord k h) s = answerOf w s (recordBody k h w s) :=
  (exec_ofRecord k h s).trans (runRecord_walk hw)

theorem engineStep_of_fetch {s : State} {w : Walk} (hw : s.walk = some w) {k : RecKind}
    {h : RecHdr} {u : State} (hf : fetchRecord w s = .record k h u) :
    engineStep s = exec (Instr.ofRecord k h) u := by
  simp only [engineStep, hw, hf]

/-- A step inside a walk is one action of it; a fault is taken in the state before the action, which
differs from the one after the header read only in what the fault forgets. -/
theorem step_walk {s : State} {w : Walk} (hw : s.walk = some w) :
    step s = answerOf w s (walkStep w s) := by
  rw [step_of_walk hw]
  cases hf : fetchRecord w s with
  | moved u => simp only [engineStep, hw, walkStep, hf, answerOf]
  | faulted r => simp only [engineStep, hw, walkStep, hf, answerOf]
  | record k h u =>
    have read := fetchRecord_record hf
    have huw : u.walk = some w := by rw [readHeader_frame read]; exact hw
    have action : walkStep w s = recordBody k h w u := by simp only [walkStep, hf]
    rw [engineStep_of_fetch hw hf, exec_record huw, action]
    cases recordBody k h w u with
    | ok t => rfl
    | error r => exact congrArg Host.Outcome.next (walkFault_readHeader read w.cmd r)

theorem step_of_walkStep_ok {s t : State} {w : Walk} (hw : s.walk = some w)
    (h : walkStep w s = .ok t) : step s = .next t := by
  rw [step_walk hw, h]
  rfl

theorem step_of_walkStep_error {s : State} {w : Walk} {r : Raise} (hw : s.walk = some w)
    (h : walkStep w s = .error r) : step s = .next (walkFault w.cmd r s) := by
  rw [step_walk hw, h]
  rfl

/-! ### A walk and its steps -/

/-- An action of a walk, and the rest of it. -/
theorem WalkRuns.act {s u t : State} {w : Walk} (hw : s.walk = some w) (h : walkStep w s = .ok u)
    (ht : WalkRuns u t) : WalkRuns s t :=
  .more s u t (by rw [hw]; rfl) (step_of_walkStep_ok hw h) ht

/-- A fault ends a walk. -/
theorem WalkRuns.fault {s : State} {w : Walk} {r : Raise} (hw : s.walk = some w)
    (h : walkStep w s = .error r) : WalkRuns s (walkFault w.cmd r s) :=
  .more s _ _ (by rw [hw]; rfl) (step_of_walkStep_error hw h) (.done _ rfl)

/-- The machine is deterministic, so a walk ends in one state. -/
theorem WalkRuns.unique {s t u : State} (ht : WalkRuns s t) (hu : WalkRuns s u) : t = u := by
  induction ht with
  | done s hn =>
    cases hu with
    | done => rfl
    | more _ _ _ hsome => rw [hn] at hsome; cases hsome
  | more s v t hsome hs _ ih =>
    cases hu with
    | done _ hn => rw [hn] at hsome; cases hsome
    | more _ v' _ _ hs' hu' =>
      obtain rfl : v = v' := Host.Outcome.next.inj (hs.symm.trans hs')
      exact ih hu'

theorem walkRuns_of_walkRun {fuel : Nat} {s t : State} (h : walkRun fuel s = some t) :
    WalkRuns s t := by
  induction fuel generalizing s with
  | zero => cases h
  | succ fuel ih =>
    cases hw : s.walk with
    | none =>
      rw [walkRun_done hw] at h
      cases h
      exact .done _ hw
    | some w =>
      cases ha : walkStep w s with
      | ok u =>
        rw [walkRun_step hw ha] at h
        exact .act hw ha (ih h)
      | error r =>
        rw [walkRun_fault hw ha] at h
        cases h
        exact .fault hw ha

/-- The state in which a command's walk begins. -/
def walkStart (c : WalkCmd) (s : State) : State := setPlace c .top { s with fsm := .waitGroup }

/-- A command run as a walk answers where the steps of the walk end. -/
theorem runWalk_iff (c : WalkCmd) (s t : State) :
    runWalk c s = .next t ↔ WalkRuns (walkStart c s) t := by
  constructor
  · exact fun h => walkRuns_of_walkRun (runWalk_eq h)
  · intro h
    obtain ⟨u, hu⟩ := runWalk_next c s
    rw [hu, (walkRuns_of_walkRun (runWalk_eq hu)).unique h]

section
variable {s : State} (hf : s.fault = false) (ho : s.opened = true)
include hf ho

theorem exec_next_walks (hl : s.cfgMaxEvents = 0 ∨ s.eventCount.toNat < s.cfgMaxEvents.toNat) :
    exec .next s = runWalk .next s := by
  have below : ¬ (s.cfgMaxEvents ≠ 0 ∧ s.cfgMaxEvents.toNat ≤ s.eventCount.toNat) := by
    rintro ⟨hne, hle⟩
    rcases hl with h | h
    · exact hne h
    · omega
  simp only [exec, execNext, hf, ho, Bool.false_eq_true, Bool.not_true, if_false, if_neg below]

theorem exec_skip_walks (hn : s.argN0 ≠ 0) :
    exec .skip s = runWalk (.skip s.argN0.toNat 0) s := by
  simp only [exec, execSkip, hf, ho, Bool.false_eq_true, Bool.not_true, if_false, if_neg hn]

theorem exec_skip_zero (hn : s.argN0 = 0) :
    exec .skip s = .next (finish { s with fsm := .waitGroup, resN0 := 0 }) := by
  simp only [exec, execSkip, hf, ho, Bool.false_eq_true, Bool.not_true, if_false, if_pos hn]

end

/-- Settles O39: an action and its fault by `step_walk`, NEXT and SKIP by `runWalk_iff`. -/
theorem walkActionsAreEngineSteps : Obligations.WalkActionsAreEngineSteps := by
  refine ⟨fun s t w hw h => step_of_walkStep_ok hw h, fun s w r hw h => step_of_walkStep_error hw h,
    fun s t hf ho _ => ⟨fun hl => ?_, fun hn => ?_⟩⟩
  · rw [exec_next_walks hf ho hl]
    exact runWalk_iff _ _ _
  · rw [exec_skip_walks hf ho hn]
    exact runWalk_iff _ _ _

/-! ### The record at the cursor -/

/-- Where a walk reads a header: at the top level, and in a group with two words left. -/
def FetchesAt (p : Place) : Prop :=
  p = .top ∨ ∃ remaining seen est, p = .group remaining seen est ∧ 2 ≤ remaining

/-- A walk that reads a header fetches the record it decodes to. -/
theorem fetchRecord_of_decode {w : Walk} {s u : State} {k : RecKind} {h : RecHdr}
    (hp : FetchesAt w.place) (hr : readHeader s = (u, true))
    (hd : decodeRecord u.hdr0 u.hdr1 = .ok (k, h)) : fetchRecord w s = .record k h u := by
  rcases hp with hp | ⟨remaining, seen, est, hp, h2⟩
  · simp only [fetchRecord, hp, hr, hd]
  · obtain ⟨n, rfl⟩ := Nat.exists_eq_add_of_le' h2
    simp only [fetchRecord, hp, hr, hd]

theorem walkStep_of_decode {w : Walk} {s u : State} {k : RecKind} {h : RecHdr}
    (hp : FetchesAt w.place) (hr : readHeader s = (u, true))
    (hd : decodeRecord u.hdr0 u.hdr1 = .ok (k, h)) : walkStep w s = recordBody k h w u := by
  simp only [walkStep, fetchRecord_of_decode hp hr hd]

/-- The record at the head of 8 bytes of IN is the one their two words decode to. -/
theorem decodeRecord_of_bytes {m : Memory} {a : Nat} {i : Instr}
    (h : decodeRecordBytes (memReadN m a 8) = .ok (i, [])) :
    ∃ k hd, decodeRecord (memWord m a) (memWord m (a + 4)) = .ok (k, hd)
      ∧ i = Instr.ofRecord k hd := by
  have listed : memReadN m a 8 = [memRead m a, memRead m (a + 1), memRead m (a + 2),
      memRead m (a + 3), memRead m (a + 4), memRead m (a + 4 + 1), memRead m (a + 4 + 2),
      memRead m (a + 4 + 3)] := rfl
  rw [listed, decodeRecordBytes] at h
  split at h
  · rename_i k hd hdec
    cases h
    exact ⟨k, hd, hdec, rfl⟩
  · cases h

/-- Settles O46: the header read stays in its segment, and its words decode to the record. -/
theorem stepRunsTheRecordAtTheCursor : Obligations.StepRunsTheRecordAtTheCursor := by
  rintro s u c p g i hw hp hg h8 hbytes rfl
  obtain ⟨k, hd, hdec, rfl⟩ := decodeRecord_of_bytes hbytes
  have read := readHeader_eq (s := s) (j := 0) hg h8 (fun i hi => absurd hi (Nat.not_lt_zero i))
  rw [step_of_walk hw, engineStep_of_fetch hw (fetchRecord_of_decode hp read hdec)]
  rfl

end Sys2Proof.Machine
end

section
/-! The slot map once it is established (43_assembler.md R512): a walk that finds it so never adds a
module, and no other command but OPEN, ABORT and RESET writes it. -/

namespace Sys2Proof.Machine

open Sys2Proof

/-! ### The commands that complete -/

/-- Of the commands with precise faults only OPEN writes the slot map (10_state.md R140). -/
theorem Completes.sameMap {i : Instr} {s t : State} (h : Completes s i t) (hi : i ≠ .openStream) :
    SameMap s t := by
  cases h with
  | openStream => exact absurd rfl hi
  | readHeader _ _ _ hr => exact (readHeader_sameMap hr).trans ⟨rfl, rfl, rfl, rfl, rfl⟩
  | readData _ _ hr =>
    obtain ⟨-, g, -, -, rfl⟩ := readData_ok hr
    exact ⟨rfl, rfl, rfl, rfl, rfl⟩
  | skipData _ hr =>
    obtain ⟨g, -, -, rfl⟩ := skipData_ok hr
    exact ⟨rfl, rfl, rfl, rfl, rfl⟩
  | calCommit | calInit | calLoad => constructor <;> simp
  | results | noEvent | segPush | segClear | openNext | work | accumulator | cmApply =>
    exact ⟨rfl, rfl, rfl, rfl, rfl⟩

/-! ### The walk -/

/-- The walk stands in no group that establishes the slot map. -/
def Place.notEstablishing : Place → Prop
  | .top => True
  | .group _ _ est => est = false

/-- What a walk over an established map keeps: the map, and that it is in no establishing group. -/
structure MapFixed (s t : State) : Prop where
  same : SameMap s t
  valid : t.mapValid = true
  place : ∀ w, t.walk = some w → w.place.notEstablishing

theorem MapFixed.of_walk {s t : State} {w : Walk} (hs : SameMap s t) (hv : t.mapValid = true)
    (hw : t.walk = some w) (hp : w.place.notEstablishing) : MapFixed s t :=
  ⟨hs, hv, fun w' hw' => by
    rw [hw] at hw'
    cases hw'
    exact hp⟩

/-- A record inside a later group adds no module. -/
theorem MapStep.keeps {seen seen' : List (BitVec 4)} {s t : State}
    (h : MapStep false seen seen' s t) : t.modmap = s.modmap ∧ t.nmod = s.nmod := by
  rcases h with ⟨-, hm, hn⟩ | ⟨m, -, -, -, hm, hn⟩
  · exact ⟨hm, hn⟩
  · exact ⟨hm, hn⟩

theorem MapFixed.record {k : RecKind} {h : RecHdr} {w : Walk} {s u t : State} (hu : MapFixed s u)
    (hw : u.walk = some w) (hb : recordBody k h w u = .ok t) : MapFixed s t := by
  obtain ⟨-, hframe, -, hv, hn, ho⟩ := recordBody_ok hb
  have hl : t.tLatch = u.tLatch := by rw [hframe.rest]
  have valid : t.mapValid = true := hv.trans hu.valid
  have hplace := hu.place w hw
  obtain ⟨c, p⟩ := w
  cases p with
  | top =>
    obtain ⟨hm, hnm, hstay | henter⟩ := ho
    · exact .of_walk (hu.same.trans ⟨hnm, hm, hv, hn, hl⟩) valid (hstay.trans hw) trivial
    · exact .of_walk (hu.same.trans ⟨hnm, hm, hv, hn, hl⟩) valid henter
        (show (!u.mapValid) = false by rw [hu.valid]; rfl)
  | group remaining seen est =>
    obtain rfl : est = false := hplace
    obtain ⟨-, seen', hstep, hwalk⟩ := ho
    obtain ⟨hm, hnm⟩ := hstep.keeps
    exact .of_walk (hu.same.trans ⟨hnm, hm, hv, hn, hl⟩) valid hwalk rfl

theorem walkEnd_sameMap (c : WalkCmd) (s : State) : SameMap s (walkEnd c s) := by
  cases c <;> exact ⟨rfl, rfl, rfl, rfl, rfl⟩

theorem walkEnd_walk (c : WalkCmd) (s : State) : (walkEnd c s).walk = none := by
  cases c <;> rfl

theorem MapFixed.walked {w : Walk} {s u t : State} (hu : MapFixed s u) (hw : u.walk = some w)
    (h : walkStep w u = .ok t) : MapFixed s t := by
  rcases walkStep_cases h with ⟨seen, est, hg, hc⟩ | ⟨-, v, hv, rfl⟩ | ⟨v, k, hd, hv, -, hb⟩
  · -- a group is closed: it is no establishing one
    have hp := hu.place w hw
    rw [hg] at hp
    obtain rfl : est = false := hp
    obtain rfl : t = eventDone w.cmd u := closeGroup_ok hc
    have same := eventDone_sameMap w.cmd u
    refine ⟨hu.same.trans same, same.mapValid.trans hu.valid, fun w' hw' => ?_⟩
    rcases eventDone_walk w.cmd u with hnone | ⟨n, k, -, -, hsome⟩
    · rw [hnone] at hw'
      cases hw'
    · rw [hsome] at hw'
      cases hw'
      trivial
  · -- the input has ended
    have same := (readHeader_sameMap hv).trans (walkEnd_sameMap w.cmd v)
    refine ⟨hu.same.trans same, same.mapValid.trans hu.valid, fun w' hw' => ?_⟩
    rw [walkEnd_walk] at hw'
    cases hw'
  · -- a record is taken
    have same := readHeader_sameMap hv
    have hvw : v.walk = some w := by rw [readHeader_frame hv]; exact hw
    exact MapFixed.record
      (.of_walk (hu.same.trans same) (same.mapValid.trans hu.valid) hvw (hu.place w hw)) hvw hb

/-- A walk over an established map ends with the same map, or with a fault. -/
theorem walkRun_sameMap {c : WalkCmd} {fuel : Nat} {s t : State} (hv : s.mapValid = true)
    (h : walkRun fuel (setPlace c .top { s with fsm := .waitGroup }) = some t) :
    SameMap s t ∨ t.fault = true := by
  have start : MapFixed s (setPlace c .top { s with fsm := .waitGroup }) :=
    .of_walk ⟨rfl, rfl, rfl, rfl, rfl⟩ hv rfl trivial
  rcases walkRun_induct (MapFixed s) fuel _ t (fun _ _ _ hu hw => hu.walked hw) start h with
    ⟨ht, -⟩ | ⟨u, w, r, -, -, -, rfl⟩
  · exact .inl ht.same
  · exact .inr rfl

/-! ### Every command -/

theorem Outcome.sameMap {i : Instr} {s t : State} (h : Outcome s i t) (ho : i ≠ .openStream)
    (ha : i ≠ .abort) (hr : i ≠ .reset) (hv : s.mapValid = true) :
    SameMap s t ∨ t.fault = true := by
  cases h with
  | ignored => exact .inl ⟨rfl, rfl, rfl, rfl, rfl⟩
  | faulted | numeric => exact .inr rfl
  | completed _ h => exact .inl ((h.sameMap ho).trans ⟨rfl, rfl, rfl, rfl, rfl⟩)
  | reset h => exact absurd h hr
  | abort h => exact absurd h ha
  | walked _ _ run => exact walkRun_sameMap hv run

/-- Settles O44: a command ends with the same map, unless it faults. -/
theorem slotMapIsImmutable : Obligations.SlotMapIsImmutable := by
  intro i s t hi ho ha hr hv h hf
  rcases (exec_outcome hi h).sameMap ho ha hr hv with same | hfault
  · exact ⟨same.mapValid.trans hv, same.modmap, same.nmod, same.nslots⟩
  · rw [hf] at hfault
    cases hfault

end Sys2Proof.Machine
end

section
/-! The record kinds, said once for each place of the walk (43_assembler.md R503 to R505, R515, R516):
which of them pass over their body, which are entered, which are data, and the checks before that. -/

namespace Sys2Proof.Machine

open Sys2Proof

/-! ### The kinds -/

/-- The kinds that announce a group. -/
def groupKinds : List RecKind := [.groupRunBegin, .groupRunEnd, .groupData]

/-- The kinds that carry data. -/
def dataKinds : List RecKind := [.depfet, .depfet128, .depfetDcd]

/-- The kinds that a group's walk ignores. -/
def ignoredKinds : List RecKind := [.bat, .tpll, .unknown, .tlu, .other]

/-- What a kind does outside a group, its size checked. -/
def topBody (k : RecKind) (h : RecHdr) : WalkCmd → State → Except Raise State :=
  match k with
  | .groupRunBegin | .groupRunEnd => skipTop h
  | .groupData => enterGroup h
  | .info => infoTop h
  | _ => unexpectedTop

/-- What a kind does inside a group, its size checked. -/
def nestedBody (k : RecKind) (h : RecHdr) :
    WalkCmd → List (BitVec 4) → Bool → State → Except Raise (State × List (BitVec 4)) :=
  match k with
  | .groupRunBegin | .groupRunEnd | .groupData => unexpectedNested
  | .depfet => dataNested .depfet h
  | .depfet128 => dataNested .depfet128 h
  | .depfetDcd => dataNested .depfetDcd h
  | .bat | .tpll | .unknown | .tlu | .other => skipNested h
  | .info => infoNested h

theorem recordBody_eq (k : RecKind) (h : RecHdr) :
    recordBody k h = takeRecord h (topBody k h) (nestedBody k h) := by
  cases k <;> rfl

theorem topBody_unexpected {k : RecKind} (hk : k ∉ [RecKind.groupRunBegin, .groupRunEnd, .groupData,
    .info]) (h : RecHdr) : topBody k h = unexpectedTop := by
  cases k with
  | groupRunBegin | groupRunEnd | groupData | info => exact absurd (by decide) hk
  | _ => rfl

theorem topBody_marker {k : RecKind} (hk : k ∈ [RecKind.groupRunBegin, .groupRunEnd]) (h : RecHdr) :
    topBody k h = skipTop h := by
  cases k with
  | groupRunBegin | groupRunEnd => rfl
  | _ => exact absurd hk (by decide)

theorem nestedBody_group {k : RecKind} (hk : k ∈ groupKinds) (h : RecHdr) :
    nestedBody k h = unexpectedNested := by
  cases k with
  | groupRunBegin | groupRunEnd | groupData => rfl
  | _ => exact absurd hk (by decide)

theorem nestedBody_data {k : RecKind} (hk : k ∈ dataKinds) (h : RecHdr) :
    nestedBody k h = dataNested k h := by
  cases k with
  | depfet | depfet128 | depfetDcd => rfl
  | _ => exact absurd hk (by decide)

theorem nestedBody_ignored {k : RecKind} (hk : k ∈ ignoredKinds) (h : RecHdr) :
    nestedBody k h = skipNested h := by
  cases k with
  | bat | tpll | unknown | tlu | other => rfl
  | _ => exact absurd hk (by decide)

/-! ### The checks of a record (R502, R504) -/

section
variable {k : RecKind} {h : RecHdr} {c : WalkCmd} {s : State}

theorem recordBody_small (w : Walk) (h2 : h.eventSize.toNat < 2) :
    recordBody k h w s = .error ⟨.size, s.hdr0⟩ := by
  rw [recordBody_eq]
  exact if_pos h2

theorem recordBody_top (h2 : 2 ≤ h.eventSize.toNat) :
    recordBody k h ⟨c, .top⟩ s = topBody k h c s := by
  rw [recordBody_eq]
  exact if_neg (Nat.not_lt.2 h2)

variable {remaining : Nat} {seen : List (BitVec 4)} {est : Bool}

theorem recordBody_over (h2 : 2 ≤ h.eventSize.toNat) (hr : remaining < h.eventSize.toNat) :
    recordBody k h ⟨c, .group remaining seen est⟩ s = .error ⟨.size, s.hdr0⟩ := by
  rw [recordBody_eq]
  exact (if_neg (Nat.not_lt.2 h2)).trans (if_pos hr)

section
variable (h2 : 2 ≤ h.eventSize.toNat) (hr : h.eventSize.toNat ≤ remaining)
include h2 hr

theorem recordBody_group_ok {t : State} {seen' : List (BitVec 4)}
    (hn : nestedBody k h c seen est s = .ok (t, seen')) :
    recordBody k h ⟨c, .group remaining seen est⟩ s
      = .ok (setPlace c (.group (remaining - h.eventSize.toNat) seen' est) t) := by
  rw [recordBody_eq]
  refine (if_neg (Nat.not_lt.2 h2)).trans ((if_neg (Nat.not_lt.2 hr)).trans ?_)
  simp only [hn]

theorem recordBody_group_error {r : Raise} (hn : nestedBody k h c seen est s = .error r) :
    recordBody k h ⟨c, .group remaining seen est⟩ s = .error r := by
  rw [recordBody_eq]
  refine (if_neg (Nat.not_lt.2 h2)).trans ((if_neg (Nat.not_lt.2 hr)).trans ?_)
  simp only [hn]

end

/-! ### A body that is passed over -/

theorem skipTop_eq {g : Seg} (hg : s.segq[s.curSeg]? = some g)
    (hfit : 4 * bodyWords h ≤ g.len.toNat - s.off.toNat) :
    skipTop h c s = .ok { s with off := BitVec.ofNat 32 (s.off.toNat + 4 * bodyWords h) } :=
  skipWords_eq hg hfit

theorem skipNested_eq {g : Seg} (hg : s.segq[s.curSeg]? = some g)
    (hfit : 4 * bodyWords h ≤ g.len.toNat - s.off.toNat) :
    skipNested h c seen est s
      = .ok ({ s with off := BitVec.ofNat 32 (s.off.toNat + 4 * bodyWords h) }, seen) := by
  simp only [skipNested, skipWords_eq hg hfit]

theorem infoTop_eq {g : Seg} (hg : s.segq[s.curSeg]? = some g)
    (hfit : 4 * bodyWords h ≤ g.len.toNat - s.off.toNat) :
    infoTop h c s = .ok { s with
      runNumber := h.trigger, off := BitVec.ofNat 32 (s.off.toNat + 4 * bodyWords h) } :=
  skipTop_eq (c := c) (s := { s with runNumber := h.trigger }) hg hfit

theorem infoNested_eq {g : Seg} (hg : s.segq[s.curSeg]? = some g)
    (hfit : 4 * bodyWords h ≤ g.len.toNat - s.off.toNat) :
    infoNested h c seen est s = .ok ({ s with
      runNumber := h.trigger, off := BitVec.ofNat 32 (s.off.toNat + 4 * bodyWords h) }, seen) :=
  skipNested_eq (s := { s with runNumber := h.trigger }) hg hfit

theorem skipWords_short {n : Nat} (hn : 0 < n)
    (hshort : ∀ g, s.segq[s.curSeg]? = some g → g.len.toNat - s.off.toNat < 4 * n) :
    skipWords n s = .error ⟨.truncatedRecord, s.off⟩ :=
  (if_neg hn.ne').trans (inSegment_of_short hshort)

theorem skipNested_short (hn : 0 < bodyWords h) (hshort : ∀ g, s.segq[s.curSeg]? = some g →
    g.len.toNat - s.off.toNat < 4 * bodyWords h) :
    skipNested h c seen est s = .error ⟨.truncatedRecord, s.off⟩ := by
  simp only [skipNested, skipWords_short hn hshort]

/-! ### A record that carries data (R505) -/

/-- The slot map a data record is looked up in: its module is added where the group establishes it. -/
def withModule (est : Bool) (m : BitVec 4) (s : State) : State := if est then addModule m s else s

theorem withModule_frame (est : Bool) (m : BitVec 4) (s : State) :
    withModule est m s = { s with
      modmap := (withModule est m s).modmap, nmod := (withModule est m s).nmod } := by
  cases est <;> rfl

theorem dataNested_short (hs : h.eventSize.toNat < 3) :
    dataNested k h c seen est s = .error ⟨.size, s.hdr0⟩ := if_pos hs

theorem dataNested_duplicate (h3 : 3 ≤ h.eventSize.toNat) (hm : h.moduleNo ∈ seen) :
    dataNested k h c seen est s = .error ⟨.duplicateModule, h.moduleNo.setWidth 32⟩ :=
  (if_neg (Nat.not_lt.2 h3)).trans (if_pos hm)

theorem dataNested_unknown (h3 : 3 ≤ h.eventSize.toNat) (hm : h.moduleNo ∉ seen)
    (hk : readModmap s h.moduleNo = none) :
    dataNested k h c seen false s = .error ⟨.unknownModule, h.moduleNo.setWidth 32⟩ :=
  (if_neg (Nat.not_lt.2 h3)).trans ((if_neg hm).trans (if_pos (by rw [hk]; rfl)))

section
variable (h3 : 3 ≤ h.eventSize.toNat) (hm : h.moduleNo ∉ seen)
  (hk : est = true ∨ readModmap s h.moduleNo ≠ none)
include h3 hm hk

theorem dataNested_checked : dataNested k h c seen est s
    = (takeData k h (decodes c) (withModule est h.moduleNo s)).map (·, h.moduleNo :: seen) := by
  have known : ¬ (!est && (readModmap s h.moduleNo).isNone) = true := by
    rcases hk with rfl | hk
    · exact Bool.false_ne_true
    · rw [Option.isNone_eq_false_iff.2 (Option.isSome_iff_ne_none.2 hk), Bool.and_false]
      exact Bool.false_ne_true
  refine (if_neg (Nat.not_lt.2 h3)).trans ((if_neg hm).trans ((if_neg known).trans ?_))
  change _ = Except.map _ (takeData k h (decodes c)
    (if est = true then addModule h.moduleNo s else s))
  cases takeData k h (decodes c) (if est = true then addModule h.moduleNo s else s) <;> rfl

theorem dataNested_eq_ok {t : State}
    (ht : takeData k h (decodes c) (withModule est h.moduleNo s) = .ok t) :
    dataNested k h c seen est s = .ok (t, h.moduleNo :: seen) := by
  rw [dataNested_checked h3 hm hk, ht]
  rfl

theorem dataNested_eq_error {r : Raise}
    (ht : takeData k h (decodes c) (withModule est h.moduleNo s) = .error r) :
    dataNested k h c seen est s = .error r := by
  rw [dataNested_checked h3 hm hk, ht]
  rfl

end

end

/-! ### A record as an instruction -/

section
variable {k : RecKind} {h : RecHdr} {c : WalkCmd} {s t : State} (h2 : 2 ≤ h.eventSize.toNat)
include h2

theorem exec_record_top (hw : s.walk = some ⟨c, .top⟩) (hb : topBody k h c s = .ok t) :
    exec (Instr.ofRecord k h) s = .next t := by
  rw [exec_record hw, recordBody_top h2, hb]
  rfl

theorem exec_record_group {remaining : Nat} {seen seen' : List (BitVec 4)} {est : Bool}
    (hw : s.walk = some ⟨c, .group remaining seen est⟩) (hr : h.eventSize.toNat ≤ remaining)
    (hb : nestedBody k h c seen est s = .ok (t, seen')) :
    exec (Instr.ofRecord k h) s
      = .next (setPlace c (.group (remaining - h.eventSize.toNat) seen' est) t) := by
  rw [exec_record hw, recordBody_group_ok h2 hr hb]
  rfl

end

/-- Settles O35: a group is entered, a marker's body and INFO's are skipped. -/
theorem recordsAtTopLevel : Obligations.RecordsAtTopLevel := by
  intro s c h g hw h2 hg _
  refine ⟨exec_record_top (k := .groupData) h2 hw rfl, fun hfit => ?_⟩
  have body : 4 * bodyWords h ≤ g.len.toNat - s.off.toNat := by unfold bodyWords; omega
  constructor
  · refine (List.forall_mem_map (f := (Instr.ofRecord · h))
      (l := [RecKind.groupRunBegin, .groupRunEnd])).2 fun k hk => exec_record_top h2 hw ?_
    rw [topBody_marker hk]
    exact skipTop_eq hg body
  · exact exec_record_top (k := .info) h2 hw (infoTop_eq (c := c) hg body)

/-- A data record that SKIP passes over. -/
theorem dataNested_skip {k : RecKind} {h : RecHdr} {n j : Nat} {seen : List (BitVec 4)} {est : Bool}
    {s : State} {g : Seg} (h3 : 3 ≤ h.eventSize.toNat) (hm : h.moduleNo ∉ seen)
    (hk : est = true ∨ readModmap s h.moduleNo ≠ none) (hg : s.segq[s.curSeg]? = some g)
    (hfit : 4 * (h.eventSize.toNat - 2) ≤ g.len.toNat - s.off.toNat) :
    dataNested k h (.skip n j) seen est s = .ok ({ withModule est h.moduleNo s with
      off := BitVec.ofNat 32 (s.off.toNat + 4 * (h.eventSize.toNat - 2)) }, h.moduleNo :: seen) := by
  have words : 1 + (h.eventSize.toNat - 3) = h.eventSize.toNat - 2 := by omega
  refine dataNested_eq_ok h3 hm hk ?_
  rw [withModule_frame]
  have skipped := skipData_eq (s := withModule est h.moduleNo s) (n := h.eventSize.toNat - 3) (g := g)
    (by rw [withModule_frame]; exact hg) (by rw [withModule_frame, words]; exact hfit)
  rw [words, withModule_frame] at skipped
  exact skipped

/-- Settles O36: the ignored kinds and INFO by the skip of a body, the data kinds by that of data. -/
theorem recordsPassedInGroup : Obligations.RecordsPassedInGroup := by
  intro s c h g remaining seen est hw hg h2 hr hfit
  have body : 4 * bodyWords h ≤ g.len.toNat - s.off.toNat := by unfold bodyWords; omega
  refine ⟨?_, ?_, fun n j hc h3 hm => ?_⟩
  · refine (List.forall_mem_map (f := (Instr.ofRecord · h)) (l := ignoredKinds)).2 fun k hk => ?_
    have skipped := skipNested_eq (c := c) (seen := seen) (est := est) hg body
    rw [← nestedBody_ignored hk] at skipped
    exact exec_record_group h2 hw hr skipped
  · exact exec_record_group (k := .info) h2 hw hr (infoNested_eq hg body)
  · subst hc
    refine (List.forall_mem_map (f := (Instr.ofRecord · h)) (l := dataKinds)).2 fun k hk => ?_
    have passed : (est = true ∨ readModmap s h.moduleNo ≠ none) →
        exec (Instr.ofRecord k h) s = .next (setPlace (.skip n j)
          (.group (remaining - h.eventSize.toNat) (h.moduleNo :: seen) est)
          { withModule est h.moduleNo s with
            off := BitVec.ofNat 32 (s.off.toNat + 4 * (h.eventSize.toNat - 2)) }) := fun hknown => by
      refine exec_record_group h2 hw hr ?_
      rw [nestedBody_data hk]
      exact dataNested_skip h3 hm hknown hg (by omega)
    constructor
    · rintro rfl
      exact passed (.inl rfl)
    · rintro rfl hknown
      exact passed (.inr hknown)

end Sys2Proof.Machine
end

section
/-! The faults of the record walk (43_assembler.md R502 to R507, R514): those of fetching a header,
those of the checks on a record, a body that is cut off, and data that cannot be decoded. -/

namespace Sys2Proof.Machine

open Sys2Proof

/-! ### What a fault of the walk leaves -/

/-- What a fault of the walk forgets is what R711 lists; the other matrix registers stay. -/
theorem walkFaults_walkFault (c : WalkCmd) (code : ErrCode) (info : Word) (s : State) :
    walkFaults s code info (.next (walkFault c ⟨code, info⟩ s)) :=
  ⟨_, rfl, rfl, fun _ hid => walkFault_readMat fun h => absurd h.2 (Nat.not_lt.2 hid)⟩

theorem step_walkFaults {s : State} {w : Walk} {code : ErrCode} {info : Word}
    (hw : s.walk = some w) (h : walkStep w s = .error ⟨code, info⟩) :
    walkFaults s code info (step s) := by
  rw [step_of_walkStep_error hw h]
  exact walkFaults_walkFault ..

theorem record_walkFaults {s : State} {w : Walk} {k : RecKind} {h : RecHdr} {code : ErrCode}
    {info : Word} (hw : s.walk = some w) (hb : recordBody k h w s = .error ⟨code, info⟩) :
    walkFaults s code info (exec (Instr.ofRecord k h) s) := by
  rw [exec_record hw, hb]
  exact walkFaults_walkFault ..

/-! ### Fetching a header (R502, R504, R514) -/

section
variable {w : Walk} {s u : State} {seen : List (BitVec 4)}

theorem walkStep_one_word {est : Bool} (hp : w.place = .group 1 seen est) :
    walkStep w s = .error ⟨.size, 1⟩ := by
  simp only [walkStep, fetchRecord, hp]

/-- A group over an established map must hold every module of it. -/
theorem walkStep_missing (hp : w.place = .group 0 seen false) (hn : seen.length < s.nmod) :
    walkStep w s = .error ⟨.truncatedEvent, BitVec.ofNat 32 seen.length⟩ := by
  rw [walkStep_close hp]
  exact if_pos hn

theorem walkStep_group_end {remaining : Nat} {est : Bool} (hp : w.place = .group remaining seen est)
    (h2 : 2 ≤ remaining) (hr : readHeader s = (u, false)) :
    walkStep w s = .error ⟨.truncatedEvent, BitVec.ofNat 32 remaining⟩ := by
  obtain ⟨n, rfl⟩ := Nat.exists_eq_add_of_le' h2
  simp only [walkStep, fetchRecord, hp, hr]

theorem walkStep_reserved {e : DecodeError} (hp : FetchesAt w.place) (hr : readHeader s = (u, true))
    (hd : decodeRecord u.hdr0 u.hdr1 = .error e) : walkStep w s = .error (headerFault e u) := by
  rcases hp with hp | ⟨remaining, seen, est, hp, h2⟩
  · simp only [walkStep, fetchRecord, hp, hr, hd]
  · obtain ⟨n, rfl⟩ := Nat.exists_eq_add_of_le' h2
    simp only [walkStep, fetchRecord, hp, hr, hd]

end

/-- The device types that announce no record (30_encoding.md R303). -/
def reservedDevTypes : List Nat := [0x1, 0x6, 0x7, 0x8, 0x9, 0xC]

theorem recordKind_reservedDev : ∀ (dev : BitVec 4) (ev : BitVec 2), dev.toNat ∈ reservedDevTypes →
    recordKind dev ev = .error .reservedDevType := by decide

theorem recordKind_reservedEv : ∀ dev : BitVec 4, dev.toNat ∉ reservedDevTypes →
    recordKind dev 3 = .error .reservedEvType := by decide

theorem decodeRecord_error {h0 h1 : Word} {e : DecodeError}
    (h : recordKind (deviceTypeField h0) (h0.extractLsb' 22 2) = .error e) :
    decodeRecord h0 h1 = .error e := by
  simp only [decodeRecord, h]

/-! ### A body that is cut off (R420, R425, R426) -/

/-- The widest record's data fit the data buffer. -/
theorem payload_le (h : RecHdr) : 4 * (h.eventSize.toNat - 3) ≤ Config.dataBufBytes := by
  have hlt := h.eventSize.isLt
  unfold Config.dataBufBytes
  omega

section
variable {k : RecKind} {h : RecHdr} {d : Bool} {s : State}

theorem takeData_short (h3 : 3 ≤ h.eventSize.toNat) (hshort : ∀ g, s.segq[s.curSeg]? = some g →
      g.len.toNat - s.off.toNat < 4 * (h.eventSize.toNat - 2)) :
    takeData k h d s = .error ⟨.truncatedRecord, s.off⟩ := by
  have words : 1 + (h.eventSize.toNat - 3) = h.eventSize.toNat - 2 := by omega
  have short : ∀ g, s.segq[s.curSeg]? = some g →
      g.len.toNat - s.off.toNat < 4 * (1 + (h.eventSize.toNat - 3)) := by rwa [words]
  cases d with
  | true => simp only [takeData, readData_of_short (payload_le h) short, if_true]
  | false => exact (if_neg Bool.false_ne_true).trans (inSegment_of_short short)

end

/-- INFO skips its body with the run number set, which a fault forgets. -/
theorem infoTop_short {h : RecHdr} {c : WalkCmd} {s : State} (hn : 0 < bodyWords h)
    (hshort : ∀ g, s.segq[s.curSeg]? = some g →
      g.len.toNat - s.off.toNat < 4 * bodyWords h) :
    infoTop h c s = .error ⟨.truncatedRecord, s.off⟩ :=
  skipWords_short (s := { s with runNumber := h.trigger }) hn hshort

theorem infoNested_short {h : RecHdr} {c : WalkCmd} {seen : List (BitVec 4)} {est : Bool}
    {s : State} (hn : 0 < bodyWords h) (hshort : ∀ g, s.segq[s.curSeg]? = some g →
      g.len.toNat - s.off.toNat < 4 * bodyWords h) :
    infoNested h c seen est s = .error ⟨.truncatedRecord, s.off⟩ :=
  skipNested_short (s := { s with runNumber := h.trigger }) hn hshort

/-! ### Data that cannot be decoded (R506, R507) -/

theorem zerosupp_of_bit {iw : Word} (hz : iw.getLsbD 20 = true) (layout : BitVec 1) :
    (decodeInfo iw layout).zerosupp = 1 := by
  refine BitVec.eq_of_getLsbD_eq fun i hi => ?_
  obtain rfl : i = 0 := by omega
  simpa [decodeInfo] using hz

theorem zerosupp_of_no_bit {iw : Word} (hz : iw.getLsbD 20 = false) (layout : BitVec 1) :
    (decodeInfo iw layout).zerosupp ≠ 1 := by
  intro h
  have bit : iw.getLsbD 20 = true := by
    simpa [decodeInfo] using congrArg (fun b : BitVec 1 => b.getLsbD 0) h
  rw [hz] at bit
  cases bit

section
variable {k : RecKind} {h : RecHdr} {ord : BitVec 4} {s : State}

theorem decodeBlob_unsupported (hz : s.info.getLsbD 20 = true) :
    decodeBlob k h ord s = .error ⟨.unsupported, s.info⟩ :=
  if_pos (zerosupp_of_bit hz _)

theorem decodeBlob_eq (hz : s.info.getLsbD 20 = false) {t : ConvKind} {um : Bool}
    (hd : dispatchConv k s = .ok (t, um)) :
    decodeBlob k h ord s = decodeFrames t um h (decodeInfo s.info s.cfgInfoLayout).startGate
      (ord.toNat * (1 + s.tLatch.toNat)) (1 + s.tLatch.toNat) 0 0 s := by
  refine (if_neg (zerosupp_of_no_bit hz _)).trans ?_
  simp only [hd]

theorem decodeBlob_undispatched (hz : s.info.getLsbD 20 = false) {r : Raise}
    (hd : dispatchConv k s = .error r) : decodeBlob k h ord s = .error r := by
  refine (if_neg (zerosupp_of_no_bit hz _)).trans ?_
  simp only [hd]

/-- The kind DEPFET alone has a converter whatever CFG_FOLD is. -/
theorem dispatchConv_config (hk : k ∈ dataKinds) (hne : k ≠ .depfet) (h2 : s.cfgFold ≠ 2)
    (h4 : s.cfgFold ≠ 4) : dispatchConv k s = .error ⟨.config, s.cfgFold.setWidth 32⟩ := by
  cases k with
  | depfet => exact absurd rfl hne
  | depfet128 | depfetDcd => exact (if_neg h2).trans (if_neg h4)
  | _ => exact absurd hk (by decide)

/-- The converter of a data record (R506). -/
def ConverterOf (fold : BitVec 3) (k : RecKind) (t : ConvKind) : Prop :=
  (k, t) ∈ [(RecKind.depfet, ConvKind.s3a)]
    ∨ fold = 2 ∧ (k, t) ∈ [(RecKind.depfet128, ConvKind.s3b2), (.depfetDcd, .dcd2)]
    ∨ fold = 4 ∧ (k, t) ∈ [(RecKind.depfet128, ConvKind.s3b4), (.depfetDcd, .dcd4)]

theorem dispatchConv_eq {t : ConvKind} (hk : ConverterOf s.cfgFold k t) :
    ∃ um, dispatchConv k s = .ok (t, um) := by
  simp only [ConverterOf, List.mem_cons, List.not_mem_nil, or_false, Prod.mk.injEq] at hk
  rcases hk with ⟨rfl, rfl⟩ | ⟨hf, ⟨rfl, rfl⟩ | ⟨rfl, rfl⟩⟩ | ⟨hf, ⟨rfl, rfl⟩ | ⟨rfl, rfl⟩⟩
  · exact ⟨_, rfl⟩
  all_goals exact ⟨_, by simp only [dispatchConv, hf]; rfl⟩

end

/-- The frames before the one that does not fit are decoded; that one raises VIEW_EXTENT. -/
theorem decodeFrames_short {t : ConvKind} {um : Bool} {h : RecHdr} {gate : BitVec 10}
    {base left f off m : Nat} {s : State} (hm : m < left)
    (hfit : off + m * consumed t ≤ s.dataBuf.length)
    (hshort : s.dataBuf.length < off + (m + 1) * consumed t) :
    decodeFrames t um h gate base left f off s
      = .error ⟨.viewExtent, BitVec.ofNat 32 (off + m * consumed t)⟩ := by
  induction left generalizing f off m s with
  | zero => omega
  | succ left ih =>
    cases m with
    | zero =>
      rw [Nat.zero_add, Nat.one_mul] at hshort
      simp only [decodeFrames, convert_short hshort, Nat.zero_mul, Nat.add_zero]
    | succ m =>
      have next : off + (m + 1) * consumed t = off + consumed t + m * consumed t := by ring
      have after : off + (m + 1 + 1) * consumed t = off + consumed t + (m + 1) * consumed t := by ring
      have first : off + consumed t ≤ s.dataBuf.length := by omega
      simp only [decodeFrames, convert_eq first]
      rw [next] at hfit ⊢
      rw [after] at hshort
      exact ih (by omega) hfit hshort

/-- The data of a record that NEXT has read: the state in which its blob is decoded. -/
def dataRead (est : Bool) (h : RecHdr) (g : Seg) (s : State) : State :=
  { withModule est h.moduleNo s with
    info := memWord s.inMem (g.base.toNat + s.off.toNat)
    dataBuf := memReadN s.inMem (g.base.toNat + s.off.toNat + 4) (4 * (h.eventSize.toNat - 3))
    off := BitVec.ofNat 32 (s.off.toNat + 4 * (h.eventSize.toNat - 2)) }

section
variable {k : RecKind} {h : RecHdr} {seen : List (BitVec 4)} {est : Bool} {s : State} {g : Seg}
  (h3 : 3 ≤ h.eventSize.toNat) (hg : s.segq[s.curSeg]? = some g)
  (hfit : s.off.toNat + 4 * (h.eventSize.toNat - 2) ≤ g.len.toNat)
include h3 hg hfit

theorem readData_withModule :
    readData (h.eventSize.toNat - 3) (withModule est h.moduleNo s) = .ok (dataRead est h g s) := by
  have words : 1 + (h.eventSize.toNat - 3) = h.eventSize.toNat - 2 := by omega
  have left : 4 * (h.eventSize.toNat - 2) ≤ g.len.toNat - s.off.toNat := by omega
  have read := readData_eq (s := withModule est h.moduleNo s) (g := g) (payload_le h)
    (by rw [withModule_frame]; exact hg) (by rw [withModule_frame, words]; exact left)
  rw [read, words, dataRead, withModule_frame]

theorem takeData_next : takeData k h true (withModule est h.moduleNo s)
    = decodeBlob k h ((readModmap (dataRead est h g s) h.moduleNo).getD 0) (dataRead est h g s) := by
  simp only [takeData, if_true, readData_withModule h3 hg hfit]

end

/-! ### The checks of a record and its body, at each place -/

section
variable {k : RecKind} {h : RecHdr} {c : WalkCmd} {s : State} {remaining : Nat}
  {seen : List (BitVec 4)} {est : Bool}

theorem recordBody_top_unexpected (h2 : 2 ≤ h.eventSize.toNat)
    (hk : k ∉ [RecKind.groupRunBegin, .groupRunEnd, .groupData, .info]) :
    recordBody k h ⟨c, .top⟩ s = .error ⟨.unexpectedRecord, s.hdr0⟩ := by
  rw [recordBody_top h2, topBody_unexpected hk]
  rfl

theorem recordBody_nested_group (h2 : 2 ≤ h.eventSize.toNat) (hr : h.eventSize.toNat ≤ remaining)
    (hk : k ∈ groupKinds) : recordBody k h ⟨c, .group remaining seen est⟩ s
      = .error ⟨.unexpectedRecord, s.hdr0⟩ := by
  refine recordBody_group_error h2 hr ?_
  rw [nestedBody_group hk]
  rfl

theorem recordBody_data_error {r : Raise} (h2 : 2 ≤ h.eventSize.toNat)
    (hr : h.eventSize.toNat ≤ remaining) (hk : k ∈ dataKinds)
    (hd : dataNested k h c seen est s = .error r) :
    recordBody k h ⟨c, .group remaining seen est⟩ s = .error r := by
  refine recordBody_group_error h2 hr ?_
  rwa [nestedBody_data hk]

section
variable (hs : 2 < h.eventSize.toNat) (hshort : ∀ g, s.segq[s.curSeg]? = some g →
  g.len.toNat - s.off.toNat < 4 * (h.eventSize.toNat - 2))
include hs hshort

theorem recordBody_top_short (hk : k ∈ [RecKind.groupRunBegin, .groupRunEnd, .info]) :
    recordBody k h ⟨c, .top⟩ s = .error ⟨.truncatedRecord, s.off⟩ := by
  have some_words : 0 < h.eventSize.toNat - 2 := by omega
  rw [recordBody_top hs.le]
  cases k with
  | groupRunBegin | groupRunEnd => exact skipWords_short some_words hshort
  | info => exact infoTop_short (c := c) some_words hshort
  | _ => exact absurd hk (by decide)

theorem recordBody_group_short (hr : h.eventSize.toNat ≤ remaining)
    (hk : k ∈ [RecKind.bat, .tpll, .unknown, .tlu, .other, .info]) :
    recordBody k h ⟨c, .group remaining seen est⟩ s = .error ⟨.truncatedRecord, s.off⟩ := by
  have some_words : 0 < bodyWords h := Nat.sub_pos_of_lt hs
  refine recordBody_group_error hs.le hr ?_
  cases k with
  | bat | tpll | unknown | tlu | other =>
    exact skipNested_short (c := c) (est := est) some_words hshort
  | info => exact infoNested_short (c := c) (est := est) some_words hshort
  | _ => exact absurd hk (by decide)

theorem recordBody_data_short (hr : h.eventSize.toNat ≤ remaining) (hk : k ∈ dataKinds)
    (hm : h.moduleNo ∉ seen) (hknown : est = true ∨ readModmap s h.moduleNo ≠ none) :
    recordBody k h ⟨c, .group remaining seen est⟩ s = .error ⟨.truncatedRecord, s.off⟩ := by
  refine recordBody_data_error hs.le hr hk (dataNested_eq_error hs hm hknown ?_)
  rw [withModule_frame]
  exact takeData_short hs hshort

end

end

/-! ### The obligation, part by part -/

/-- The fault of the first check that a record fails (R502 to R505). -/
def CheckFault (s : State) (p : Place) (h : RecHdr) (k : RecKind) (code : ErrCode) (info : Word) :
    Prop :=
  h.eventSize.toNat < 2 ∧ code = ErrCode.size ∧ info = s.hdr0
  ∨ 2 ≤ h.eventSize.toNat ∧ p = .top
    ∧ k ∉ [RecKind.groupRunBegin, .groupRunEnd, .groupData, .info]
    ∧ code = .unexpectedRecord ∧ info = s.hdr0
  ∨ ∃ remaining seen est, p = .group remaining seen est ∧ 2 ≤ h.eventSize.toNat
    ∧ (remaining < h.eventSize.toNat ∧ code = .size ∧ info = s.hdr0
      ∨ h.eventSize.toNat ≤ remaining ∧ k ∈ groupKinds
        ∧ code = .unexpectedRecord ∧ info = s.hdr0
      ∨ h.eventSize.toNat ≤ remaining ∧ k ∈ dataKinds
        ∧ (h.eventSize.toNat = 2 ∧ code = .size ∧ info = s.hdr0
          ∨ 3 ≤ h.eventSize.toNat ∧ h.moduleNo ∈ seen ∧ code = .duplicateModule
            ∧ info = h.moduleNo.setWidth 32
          ∨ 3 ≤ h.eventSize.toNat ∧ h.moduleNo ∉ seen ∧ est = false
            ∧ readModmap s h.moduleNo = none ∧ code = .unknownModule
            ∧ info = h.moduleNo.setWidth 32))

section
variable {s : State} {c : WalkCmd} {p : Place} (hw : s.walk = some ⟨c, p⟩)
include hw

theorem fetch_walkFaults :
    (∀ seen est, p = .group 1 seen est → walkFaults s .size 1 (step s))
    ∧ (∀ seen, p = .group 0 seen false → seen.length < s.nmod →
      walkFaults s .truncatedEvent (BitVec.ofNat 32 seen.length) (step s))
    ∧ (∀ remaining seen est, p = .group remaining seen est → 2 ≤ remaining →
      (∀ i g, s.segq[s.curSeg + i]? = some g →
        g.len.toNat < (if i = 0 then s.off.toNat else 0) + 8) →
      walkFaults s .truncatedEvent (BitVec.ofNat 32 remaining) (step s))
    ∧ ∀ u, FetchesAt p → readHeader s = (u, true) →
      ((u.hdr0.extractLsb' 28 4).toNat ∈ reservedDevTypes →
        walkFaults s .reservedDevType u.hdr0 (step s))
      ∧ ((u.hdr0.extractLsb' 28 4).toNat ∉ reservedDevTypes → u.hdr0.extractLsb' 22 2 = 3 →
        walkFaults s .reservedEvType u.hdr0 (step s)) := by
  refine ⟨fun seen est hp => ?_, fun seen hp hn => ?_, fun remaining seen est hp h2 hall => ?_,
    fun u hp hr => ⟨fun hdev => ?_, fun hdev hev => ?_⟩⟩
  · exact step_walkFaults hw (walkStep_one_word hp)
  · exact step_walkFaults hw (walkStep_missing hp hn)
  · exact step_walkFaults hw (walkStep_group_end hp h2
      (readHeader_eq_end fun i g hg => sub_tryOffset_lt (hall i g hg)))
  · exact step_walkFaults hw (walkStep_reserved hp hr
      (decodeRecord_error (recordKind_reservedDev _ _ hdev)))
  · have reserved : decodeRecord u.hdr0 u.hdr1 = .error .reservedEvType :=
      decodeRecord_error (by rw [hev]; exact recordKind_reservedEv _ hdev)
    exact step_walkFaults hw (walkStep_reserved hp hr reserved)

theorem check_walkFaults {h : RecHdr} {k : RecKind} {code : ErrCode} {info : Word}
    (hc : CheckFault s p h k code info) : walkFaults s code info (exec (Instr.ofRecord k h) s) := by
  refine record_walkFaults hw ?_
  rcases hc with ⟨h2, rfl, rfl⟩ | ⟨h2, rfl, hk, rfl, rfl⟩ | ⟨remaining, seen, est, rfl, h2, hc⟩
  · exact recordBody_small _ h2
  · exact recordBody_top_unexpected h2 hk
  rcases hc with ⟨hr, rfl, rfl⟩ | ⟨hr, hk, rfl, rfl⟩ | ⟨hr, hk, hc⟩
  · exact recordBody_over h2 hr
  · exact recordBody_nested_group h2 hr hk
  refine recordBody_data_error h2 hr hk ?_
  rcases hc with ⟨hsize, rfl, rfl⟩ | ⟨h3, hm, rfl, rfl⟩ | ⟨h3, hm, rfl, hnone, rfl, rfl⟩
  · exact dataNested_short (by omega)
  · exact dataNested_duplicate h3 hm
  · exact dataNested_unknown h3 hm hnone

theorem body_walkFaults {h : RecHdr} {k : RecKind} (hs : 2 < h.eventSize.toNat)
    (hp : p = .top ∧ k ∈ [RecKind.groupRunBegin, .groupRunEnd, .info]
      ∨ ∃ remaining seen est, p = .group remaining seen est ∧ h.eventSize.toNat ≤ remaining
        ∧ (k ∈ [RecKind.bat, .tpll, .unknown, .tlu, .other, .info]
          ∨ k ∈ dataKinds ∧ h.moduleNo ∉ seen
            ∧ (est = true ∨ readModmap s h.moduleNo ≠ none)))
    (hshort : ∀ g, s.segq[s.curSeg]? = some g →
      g.len.toNat - s.off.toNat < 4 * (h.eventSize.toNat - 2)) :
    walkFaults s .truncatedRecord s.off (exec (Instr.ofRecord k h) s) := by
  refine record_walkFaults hw ?_
  rcases hp with ⟨rfl, hk⟩ | ⟨remaining, seen, est, rfl, hr, hk | ⟨hk, hm, hknown⟩⟩
  · exact recordBody_top_short hs hshort hk
  · exact recordBody_group_short hs hshort hr hk
  · exact recordBody_data_short hs hshort hr hk hm hknown

end

/-- NEXT's fault on data it cannot decode is that of the blob, whatever the module's ordinal. -/
theorem blob_walkFaults {s : State} {h : RecHdr} {k : RecKind} {remaining : Nat}
    {seen : List (BitVec 4)} {est : Bool} {g : Seg} {code : ErrCode} {info : Word}
    (hw : s.walk = some ⟨.next, .group remaining seen est⟩) (h3 : 3 ≤ h.eventSize.toNat)
    (hr : h.eventSize.toNat ≤ remaining) (hk : k ∈ dataKinds) (hm : h.moduleNo ∉ seen)
    (hknown : est = true ∨ readModmap s h.moduleNo ≠ none) (hg : s.segq[s.curSeg]? = some g)
    (hfit : s.off.toNat + 4 * (h.eventSize.toNat - 2) ≤ g.len.toNat)
    (hb : ∀ ord, decodeBlob k h ord (dataRead est h g s) = .error ⟨code, info⟩) :
    walkFaults s code info (exec (Instr.ofRecord k h) s) := by
  have h2 : 2 ≤ h.eventSize.toNat := by omega
  refine record_walkFaults hw (recordBody_data_error h2 hr hk (dataNested_eq_error h3 hm hknown ?_))
  exact (takeData_next h3 hg hfit).trans (hb _)

section
variable {est : Bool} {h : RecHdr} {g : Seg} {s : State}

theorem dataRead_frame : dataRead est h g s = { s with
    modmap := (dataRead est h g s).modmap, nmod := (dataRead est h g s).nmod
    info := (dataRead est h g s).info, dataBuf := (dataRead est h g s).dataBuf
    off := (dataRead est h g s).off } := by
  unfold dataRead
  rw [withModule_frame]

theorem dataRead_info :
    (dataRead est h g s).info = memWord s.inMem (g.base.toNat + s.off.toNat) := rfl

theorem dataRead_dataBuf : (dataRead est h g s).dataBuf
    = memReadN s.inMem (g.base.toNat + s.off.toNat + 4) (4 * (h.eventSize.toNat - 3)) := rfl

@[simp] theorem dataRead_dataBuf_length :
    (dataRead est h g s).dataBuf.length = 4 * (h.eventSize.toNat - 3) := memReadN_length ..

end

/-- Settles O38, part by part, in the order of the checks. -/
theorem misplacedRecordsFault : Obligations.MisplacedRecordsFault := by
  intro s c p hw
  refine ⟨fetch_walkFaults hw, fun h k => ⟨fun code info hc => check_walkFaults hw hc,
    fun hs hp hshort => body_walkFaults hw hs hp hshort, ?_⟩⟩
  rintro remaining seen est g iw rfl rfl h3 hr hk hm hknown hg hfit hiw
  obtain rfl : iw = (dataRead est h g s).info := hiw
  have blob {code : ErrCode} {info : Word} :=
    blob_walkFaults (code := code) (info := info) hw h3 hr hk hm hknown hg hfit
  have layout : (dataRead est h g s).cfgFold = s.cfgFold := by rw [dataRead_frame]
  refine ⟨fun hz => blob fun _ => decodeBlob_unsupported hz, fun hz hne hf2 hf4 => blob fun _ => ?_,
    ?_⟩
  · refine decodeBlob_undispatched hz ?_
    rw [← layout] at hf2 hf4 ⊢
    exact dispatchConv_config hk hne hf2 hf4
  · rintro t f n hz hconv rfl hf hfits hover
    refine blob fun ord => ?_
    obtain ⟨um, hdisp⟩ := dispatchConv_eq (s := dataRead est h g s) (by rw [layout]; exact hconv)
    have frames : (dataRead est h g s).tLatch = s.tLatch := by rw [dataRead_frame]
    rw [decodeBlob_eq hz hdisp, frames]
    have short := decodeFrames_short (t := t) (um := um) (h := h)
      (gate := (decodeInfo (dataRead est h g s).info (dataRead est h g s).cfgInfoLayout).startGate)
      (base := ord.toNat * (1 + s.tLatch.toNat)) (left := 1 + s.tLatch.toNat) (f := 0) (off := 0)
      (m := f) (s := dataRead est h g s) (by omega) (by simpa [consumed] using hfits)
      (by simpa [consumed] using hover)
    rwa [Nat.zero_add] at short

end Sys2Proof.Machine
end

section
/-! SKIP (43_assembler.md R521): its walk does the same whatever number of events it was asked for, so
that SKIP of several events is SKIP of one and SKIP of the rest; and what it leaves as it was. -/

namespace Sys2Proof.Machine

open Sys2Proof

/-! ### What SKIP was asked -/

/-- What a SKIP was asked and has counted, with the registers it does not read while it walks. -/
structure SkipAsk where
  n : Nat
  k : Nat
  argN0 : Word
  resN0 : Word
  busy : Bool

/-- The walk's command. -/
def SkipAsk.cmd (x : SkipAsk) : WalkCmd := .skip x.n x.k

/-- A state with a SKIP in execution that was asked `x` and stands at `p`. -/
def SkipAsk.put (x : SkipAsk) (p : Place) (s : State) : State :=
  { s with argN0 := x.argN0, resN0 := x.resN0, busy := x.busy, walk := some ⟨x.cmd, p⟩ }

/-- What the actions of a SKIP before its end write, besides what it was asked. -/
def SkipKept (s t : State) : Prop :=
  t = { s with
    curSeg := t.curSeg, off := t.off, hdr0 := t.hdr0, hdr1 := t.hdr1, eoi := t.eoi
    runNumber := t.runNumber, eventNumber := t.eventNumber, fsm := t.fsm
    nmod := t.nmod, modmap := t.modmap, mapValid := t.mapValid, nslots := t.nslots }

theorem SkipKept.trans {s t u : State} (h : SkipKept s t) (h' : SkipKept t u) : SkipKept s u := by
  unfold SkipKept at h h' ⊢
  rw [h', h]

theorem SkipKept.fault {s t : State} (h : SkipKept s t) : t.fault = s.fault := by rw [h]

theorem readHeader_skipKept {s u : State} {b : Bool} (h : readHeader s = (u, b)) : SkipKept s u := by
  unfold SkipKept
  rw [readHeader_frame h]

/-! ### The routines of a record -/

/-- A routine does the same whatever SKIP was asked: it raises one fault, or leaves one state. -/
def Same (s : State) (q : Place) (body : SkipAsk → Except Raise State) : Prop :=
  (∃ r, ∀ x, body x = .error r) ∨ ∃ t, SkipKept s t ∧ ∀ x, body x = .ok (x.put q t)

theorem Same.of_kept {s u : State} {q : Place} {body : SkipAsk → Except Raise State}
    (hk : SkipKept s u) (h : Same u q body) : Same s q body :=
  h.imp_right fun ⟨t, ht, hb⟩ => ⟨t, hk.trans ht, hb⟩

section
variable {s : State} {p : Place}

theorem inSegment_same (need : Nat) :
    Same s p fun x => inSegment (x.put p s) need fun _ => .ok (advance need (x.put p s)) := by
  by_cases hshort : ∀ g, s.segq[s.curSeg]? = some g → g.len.toNat - s.off.toNat < need
  · exact .inl ⟨⟨.truncatedRecord, s.off⟩, fun x => inSegment_of_short hshort⟩
  · push Not at hshort
    obtain ⟨g, hg, hle⟩ := hshort
    exact .inr ⟨advance need s, rfl, fun x => inSegment_of_left (s := x.put p s) hg hle⟩

theorem skipWords_same (n : Nat) : Same s p fun x => skipWords n (x.put p s) := by
  by_cases hn : n = 0
  · exact .inr ⟨s, rfl, fun _ => if_pos hn⟩
  · simp only [skipWords, if_neg hn]
    exact inSegment_same _

/-! ### A record -/

variable {k : RecKind} {h : RecHdr} {remaining : Nat} {seen : List (BitVec 4)} {est : Bool}

theorem infoTop_same : Same s p fun x => infoTop h x.cmd (x.put p s) :=
  Same.of_kept (u := { s with runNumber := h.trigger }) rfl (skipWords_same (bodyWords h))

theorem topBody_same (k : RecKind) (h : RecHdr) (s : State) :
    ∃ q, Same s q fun x => topBody k h x.cmd (x.put .top s) := by
  cases k with
  | groupRunBegin | groupRunEnd => exact ⟨.top, skipWords_same (bodyWords h)⟩
  | info => exact ⟨.top, infoTop_same⟩
  | groupData =>
    exact ⟨.group (bodyWords h) [] (!s.mapValid),
      .inr ⟨{ s with eventNumber := h.trigger, fsm := .readingModules }, rfl, fun _ => rfl⟩⟩
  | _ => exact ⟨.top, .inl ⟨⟨.unexpectedRecord, s.hdr0⟩, fun _ => rfl⟩⟩

/-- The same of what a kind does inside a group, with the modules seen after it. -/
def SameNested (s : State) (p : Place)
    (body : SkipAsk → Except Raise (State × List (BitVec 4))) : Prop :=
  (∃ r, ∀ x, body x = .error r) ∨ ∃ t seen, SkipKept s t ∧ ∀ x, body x = .ok (x.put p t, seen)

theorem skipNested_same : SameNested s p fun x => skipNested h x.cmd seen est (x.put p s) := by
  rcases skipWords_same (s := s) (p := p) (bodyWords h) with ⟨r, hr⟩ | ⟨t, ht, hb⟩
  · exact .inl ⟨r, fun x => by simp only [skipNested, hr]⟩
  · exact .inr ⟨t, seen, ht, fun x => by simp only [skipNested, hb]⟩

theorem infoNested_same : SameNested s p fun x => infoNested h x.cmd seen est (x.put p s) := by
  rcases skipNested_same (s := { s with runNumber := h.trigger }) (p := p) (h := h) (seen := seen)
    (est := est) with hr | ⟨t, seen', ht, hb⟩
  · exact .inl hr
  · exact .inr ⟨t, seen', SkipKept.trans (t := { s with runNumber := h.trigger }) rfl ht, hb⟩

theorem withModule_put (x : SkipAsk) (m : BitVec 4) :
    withModule est m (x.put p s) = x.put p (withModule est m s) := by
  cases est <;> rfl

theorem withModule_skipKept (m : BitVec 4) : SkipKept s (withModule est m s) := by
  unfold SkipKept
  rw [withModule_frame]

/-- The checks of a data record read its header and the map, and SKIP passes over its data. -/
theorem dataNested_same : SameNested s p fun x => dataNested k h x.cmd seen est (x.put p s) := by
  by_cases h3 : h.eventSize.toNat < 3
  · exact .inl ⟨⟨.size, s.hdr0⟩, fun x => dataNested_short (s := x.put p s) h3⟩
  have h3 := not_lt.1 h3
  by_cases hm : h.moduleNo ∈ seen
  · exact .inl ⟨⟨.duplicateModule, h.moduleNo.setWidth 32⟩, fun _ => dataNested_duplicate h3 hm⟩
  by_cases hk : est = true ∨ readModmap s h.moduleNo ≠ none
  · rcases inSegment_same (s := withModule est h.moduleNo s) (p := p)
      (4 * (1 + (h.eventSize.toNat - 3))) with ⟨r, hr⟩ | ⟨t, ht, hb⟩
    · refine .inl ⟨r, fun x => dataNested_eq_error (s := x.put p s) h3 hm hk ?_⟩
      rw [withModule_put]
      exact hr x
    · refine .inr ⟨t, _, (withModule_skipKept _).trans ht, fun x =>
        dataNested_eq_ok (s := x.put p s) h3 hm hk ?_⟩
      rw [withModule_put]
      exact hb x
  · push Not at hk
    obtain ⟨hest, hnone⟩ := hk
    obtain rfl : est = false := Bool.eq_false_iff.2 hest
    exact .inl ⟨⟨.unknownModule, h.moduleNo.setWidth 32⟩, fun x =>
      dataNested_unknown (s := x.put p s) h3 hm hnone⟩

theorem nestedBody_same : SameNested s p fun x => nestedBody k h x.cmd seen est (x.put p s) := by
  cases k with
  | groupRunBegin | groupRunEnd | groupData =>
    exact .inl ⟨⟨.unexpectedRecord, s.hdr0⟩, fun _ => rfl⟩
  | depfet | depfet128 | depfetDcd => exact dataNested_same
  | bat | tpll | unknown | tlu | other => exact skipNested_same (est := est)
  | info => exact infoNested_same (est := est)

theorem recordBody_same (k : RecKind) (h : RecHdr) (p : Place) (s : State) :
    ∃ q, Same s q fun x => recordBody k h ⟨x.cmd, p⟩ (x.put p s) := by
  by_cases h2 : h.eventSize.toNat < 2
  · exact ⟨p, .inl ⟨⟨.size, s.hdr0⟩, fun x => recordBody_small (s := x.put p s) _ h2⟩⟩
  have h2 := not_lt.1 h2
  cases p with
  | top =>
    simp only [recordBody_top h2]
    exact topBody_same k h s
  | group remaining seen est =>
    by_cases hr : remaining < h.eventSize.toNat
    · exact ⟨.top, .inl ⟨⟨.size, s.hdr0⟩, fun x => recordBody_over (s := x.put _ s) h2 hr⟩⟩
    have hr := not_lt.1 hr
    rcases nestedBody_same (k := k) (h := h) (s := s) (p := .group remaining seen est)
      (seen := seen) (est := est) with ⟨r, hb⟩ | ⟨t, seen', ht, hb⟩
    · exact ⟨.top, .inl ⟨r, fun x => recordBody_group_error h2 hr (hb x)⟩⟩
    · exact ⟨.group (remaining - h.eventSize.toNat) seen' est,
        .inr ⟨t, ht, fun x => recordBody_group_ok h2 hr (hb x)⟩⟩

end

/-! ### An action of the walk -/

/-- The action of a SKIP that was asked `x` and stands at `p`. -/
def SkipAsk.action (x : SkipAsk) (p : Place) (s : State) : Except Raise State :=
  walkStep ⟨x.cmd, p⟩ (x.put p s)

/-- Everything an action of a SKIP can be, whatever it was asked: a fault, a step on, the end of the
input, or an event skipped. -/
inductive SkipActs (p : Place) (s : State) : Prop
  | faulted (r : Raise) (act : ∀ x : SkipAsk, x.action p s = .error r)
  | goesOn (q : Place) (t : State) (kept : SkipKept s t)
      (act : ∀ x : SkipAsk, x.action p s = .ok (x.put q t))
  | ended (t : State) (kept : SkipKept s t)
      (act : ∀ x : SkipAsk, x.action p s = .ok (walkEnd x.cmd (x.put p t)))
  | event (t : State) (kept : SkipKept s t)
      (act : ∀ x : SkipAsk, x.action p s = .ok (eventDone x.cmd (x.put p t)))

theorem readHeader_put {s u : State} {b : Bool} (h : readHeader s = (u, b)) (x : SkipAsk)
    (p : Place) : readHeader (x.put p s) = (x.put p u, b) := by
  rw [readHeader_congr (s' := x.put p s) h rfl rfl rfl rfl rfl rfl]
  conv_rhs => rw [readHeader_frame h]
  rfl

/-- The group's close, by whether it establishes the map and whether its modules were all seen. -/
theorem skipActs_close (seen : List (BitVec 4)) (est : Bool) (s : State) :
    SkipActs (.group 0 seen est) s := by
  have close (x : SkipAsk) : x.action (.group 0 seen est) s
      = closeGroup x.cmd seen est (x.put (.group 0 seen est) s) := walkStep_close rfl
  cases est with
  | true =>
    exact .event { s with mapValid := true, nslots := s.nmod * (1 + s.tLatch.toNat) } rfl close
  | false =>
    by_cases hn : seen.length < s.nmod
    · exact .faulted _ fun x => (close x).trans (if_pos hn)
    · exact .event s rfl fun x => (close x).trans (if_neg hn)

/-- An action that reads a header. -/
theorem skipActs_fetch {p : Place} (hp : FetchesAt p) (s : State) : SkipActs p s := by
  rcases hr : readHeader s with ⟨u, b⟩
  have kept := readHeader_skipKept hr
  cases b with
  | false =>
    rcases hp with rfl | ⟨remaining, seen, est, rfl, h2⟩
    · exact .ended u kept fun x => walkStep_top_end rfl (readHeader_put hr x _)
    · exact .faulted _ fun x => walkStep_group_end rfl h2 (readHeader_put hr x _)
  | true =>
    cases hd : decodeRecord u.hdr0 u.hdr1 with
    | error e =>
      exact .faulted (headerFault e u) fun x =>
        walkStep_reserved (w := ⟨x.cmd, p⟩) (u := x.put p u) hp (readHeader_put hr x p) hd
    | ok kh =>
      obtain ⟨k, h⟩ := kh
      have take (x : SkipAsk) : x.action p s = recordBody k h ⟨x.cmd, p⟩ (x.put p u) :=
        walkStep_of_decode (w := ⟨x.cmd, p⟩) hp (readHeader_put hr x p) hd
      obtain ⟨q, ⟨r, hb⟩ | ⟨t, ht, hb⟩⟩ := recordBody_same k h p u
      · exact .faulted r fun x => (take x).trans (hb x)
      · exact .goesOn q t (kept.trans ht) fun x => (take x).trans (hb x)

theorem skipActs (p : Place) (s : State) : SkipActs p s := by
  cases p with
  | top => exact skipActs_fetch (.inl rfl) s
  | group remaining seen est =>
    match remaining with
    | 0 => exact skipActs_close seen est s
    | 1 => exact .faulted ⟨.size, 1⟩ fun x => walkStep_one_word rfl
    | n + 2 => exact skipActs_fetch (.inr ⟨_, _, _, rfl, Nat.le_add_left 2 n⟩) s

/-! ### The walk of a SKIP -/

/-- The walk of a SKIP that was asked `x`, from `s` at `p` to its end in `t`: action by action, each of
them what it is for every SKIP. -/
inductive SkipRuns : SkipAsk → Place → State → State → Prop
  | faulted {x : SkipAsk} {p : Place} {s : State} {r : Raise}
      (act : ∀ y : SkipAsk, y.action p s = .error r) :
      SkipRuns x p s (walkFault x.cmd r (x.put p s))
  | goesOn {x : SkipAsk} {p q : Place} {s v t : State} (kept : SkipKept s v)
      (act : ∀ y : SkipAsk, y.action p s = .ok (y.put q v)) (rest : SkipRuns x q v t) :
      SkipRuns x p s t
  | ended {x : SkipAsk} {p : Place} {s v : State} (kept : SkipKept s v)
      (act : ∀ y : SkipAsk, y.action p s = .ok (walkEnd y.cmd (y.put p v))) :
      SkipRuns x p s (walkEnd x.cmd (x.put p v))
  /-- An event is skipped, and not the last one asked for. -/
  | counted {x : SkipAsk} {p : Place} {s v t : State} (kept : SkipKept s v)
      (act : ∀ y : SkipAsk, y.action p s = .ok (eventDone y.cmd (y.put p v)))
      (more : x.k + 1 < x.n)
      (rest : SkipRuns { x with k := x.k + 1 } .top { v with fsm := .waitGroup } t) :
      SkipRuns x p s t
  | last {x : SkipAsk} {p : Place} {s v : State} (kept : SkipKept s v)
      (act : ∀ y : SkipAsk, y.action p s = .ok (eventDone y.cmd (y.put p v)))
      (enough : ¬ x.k + 1 < x.n) : SkipRuns x p s (eventDone x.cmd (x.put p v))

/-- Skipping an event that is not the last. -/
theorem eventDone_more {x : SkipAsk} (h : x.k + 1 < x.n) (p : Place) (s : State) :
    eventDone x.cmd (x.put p s)
      = { x with k := x.k + 1 }.put .top { s with fsm := .waitGroup } := if_pos h

/-- Skipping the last event. -/
theorem eventDone_last {x : SkipAsk} (h : ¬ x.k + 1 < x.n) (p : Place) (s : State) :
    eventDone x.cmd (x.put p s)
      = endWalk { x.put p s with fsm := .waitGroup, resN0 := BitVec.ofNat 32 (x.k + 1) } := if_neg h

theorem WalkRuns.eq_of_done {s t : State} (hn : s.walk = none) (h : WalkRuns s t) : t = s :=
  h.unique (.done s hn)

theorem skipRuns_of_walkRuns {x : SkipAsk} {p : Place} {s t : State}
    (h : WalkRuns (x.put p s) t) : SkipRuns x p s t := by
  generalize hst : x.put p s = st at h
  induction h generalizing x p s with
  | done st hn =>
    rw [← hst] at hn
    cases hn
  | more st u t _ hs ht ih =>
    subst hst
    have step : step (x.put p s) = answerOf ⟨x.cmd, p⟩ (x.put p s) (x.action p s) := step_walk rfl
    rw [step] at hs
    cases skipActs p s with
    | faulted r act =>
      rw [act] at hs
      obtain rfl := Host.Outcome.next.inj hs
      rw [ht.eq_of_done rfl]
      exact .faulted act
    | goesOn q v kept act =>
      rw [act] at hs
      exact .goesOn kept act (ih (Host.Outcome.next.inj hs))
    | ended v kept act =>
      rw [act] at hs
      obtain rfl := Host.Outcome.next.inj hs
      rw [ht.eq_of_done rfl]
      exact .ended kept act
    | event v kept act =>
      rw [act] at hs
      have hu := Host.Outcome.next.inj hs
      by_cases hmore : x.k + 1 < x.n
      · rw [eventDone_more hmore] at hu
        exact .counted kept act hmore (ih hu)
      · rw [eventDone_last hmore] at hu
        subst hu
        rw [ht.eq_of_done rfl, ← eventDone_last hmore]
        exact .last kept act hmore

theorem walkRuns_act {y : SkipAsk} {p : Place} {s u t : State} (act : y.action p s = .ok u)
    (h : WalkRuns u t) : WalkRuns (y.put p s) t := .act rfl act h

/-! ### What SKIP leaves (R521) -/

/-- What SKIP may write, a fault of its walk included. -/
def SkipLeaves (s t : State) : Prop :=
  t = { s with
    curSeg := t.curSeg, off := t.off, hdr0 := t.hdr0, hdr1 := t.hdr1, eoi := t.eoi
    runNumber := t.runNumber, eventNumber := t.eventNumber, fsm := t.fsm
    nmod := t.nmod, modmap := t.modmap, mapValid := t.mapValid, nslots := t.nslots
    argN0 := t.argN0, resN0 := t.resN0, busy := t.busy, walk := t.walk
    fault := t.fault, errCode := t.errCode, errInfo := t.errInfo, freeTick := t.freeTick }

theorem SkipLeaves.trans {s t u : State} (h : SkipLeaves s t) (h' : SkipLeaves t u) :
    SkipLeaves s u := by
  unfold SkipLeaves at h h' ⊢
  rw [h', h]

theorem SkipKept.leaves {s t : State} (h : SkipKept s t) : SkipLeaves s t := by
  unfold SkipLeaves
  rw [h]

theorem eventDone_skipLeaves (x : SkipAsk) (p : Place) (s : State) :
    SkipLeaves s (eventDone x.cmd (x.put p s)) := by
  by_cases h : x.k + 1 < x.n
  · rw [eventDone_more h]
    rfl
  · rw [eventDone_last h]
    rfl

theorem SkipRuns.leaves {x : SkipAsk} {p : Place} {s t : State} (h : SkipRuns x p s t) :
    SkipLeaves s t := by
  induction h with
  | faulted => rfl
  | goesOn kept _ _ ih => exact kept.leaves.trans ih
  | ended kept => exact kept.leaves.trans rfl
  | @counted x p s v t kept _ _ _ ih =>
    exact kept.leaves.trans (SkipLeaves.trans (t := { v with fsm := .waitGroup }) rfl ih)
  | last kept => exact kept.leaves.trans (eventDone_skipLeaves _ _ _)

/-- What a SKIP that is to run asks. -/
def askOf (s : State) : SkipAsk := ⟨s.argN0.toNat, 0, s.argN0, s.resN0, s.busy⟩

/-- SKIP of at least one event is a walk of what it asks. -/
theorem exec_skip_iff {s t : State} (hf : s.fault = false) (ho : s.opened = true)
    (hn : s.argN0 ≠ 0) : exec .skip s = .next t
      ↔ WalkRuns ((askOf s).put .top { s with fsm := .waitGroup }) t := by
  rw [exec_skip_walks hf ho hn]
  exact runWalk_iff _ s t

theorem exec_skip_leaves {s t : State} (h : exec .skip s = .next t) : SkipLeaves s t := by
  by_cases hf : s.fault = true
  · rw [exec_of_fault (by decide) (by decide) (by decide) hf] at h
    cases h
    rfl
  have hf := Bool.eq_false_iff.2 hf
  by_cases ho : s.opened = false
  · rw [exec_of_closed (by decide) hf ho] at h
    cases h
    rfl
  have ho := Bool.of_not_eq_false ho
  by_cases hn : s.argN0 = 0
  · rw [exec_skip_zero hf ho hn] at h
    cases h
    rfl
  · have runs := skipRuns_of_walkRuns ((exec_skip_iff hf ho hn).1 h)
    exact SkipLeaves.trans (t := { s with fsm := .waitGroup }) rfl runs.leaves

/-- Settles O43: none of these is among what SKIP may write. -/
theorem skipLeavesEventData : Obligations.SkipLeavesEventData := by
  intro s t h
  rw [exec_skip_leaves h]
  exact ⟨rfl, rfl, rfl, rfl, rfl, rfl, rfl, rfl, rfl, rfl, rfl, rfl, rfl⟩

end Sys2Proof.Machine
end

section
/-! The events SKIP counts (43_assembler.md R512, R521): none, the end of the input, one over an empty
group, and several as one and the rest. -/

namespace Sys2Proof.Machine

open Sys2Proof

/-! ### One event of several -/

/-- What the first event of a SKIP that was asked for more, `y`, is: what SKIP of one answers in `t` is
its own answer, or the walk goes on from there with one event counted. -/
def FirstEvent (y : SkipAsk) (p : Place) (s t : State) : Prop :=
  (t.fault = true ∨ t.fault = false ∧ t.resN0 = 0)
      ∧ WalkRuns (y.put p s) { t with argN0 := y.argN0 }
    ∨ t.fault = false ∧ t.resN0 = 1
      ∧ ∀ u, WalkRuns ({ y with k := 1 }.put .top { t with fsm := .waitGroup }) u →
        WalkRuns (y.put p s) u

theorem FirstEvent.act {y : SkipAsk} {p q : Place} {s v t : State}
    (act : y.action p s = .ok (y.put q v)) (h : FirstEvent y q v t) : FirstEvent y p s t := by
  rcases h with ⟨hres, hruns⟩ | ⟨hf, hres, hgo⟩
  · exact .inl ⟨hres, walkRuns_act act hruns⟩
  · exact .inr ⟨hf, hres, fun u hu => walkRuns_act act (hgo u hu)⟩

theorem walkFault_put {x y : SkipAsk} (hres : y.resN0 = x.resN0) (r : Raise) (p : Place)
    (s : State) : walkFault y.cmd r (y.put p s)
      = { walkFault x.cmd r (x.put p s) with argN0 := y.argN0 } := by
  cases y
  cases hres
  rfl

theorem walkEnd_put {x y : SkipAsk} (hk : y.k = x.k) (p : Place) (s : State) :
    walkEnd y.cmd (y.put p s) = { walkEnd x.cmd (x.put p s) with argN0 := y.argN0 } := by
  cases y
  cases hk
  rfl

/-- SKIP of one and SKIP of several take the same actions until the first event is skipped. -/
theorem SkipRuns.firstEvent {x y : SkipAsk} {p : Place} {s t : State} (h : SkipRuns x p s t)
    (hxn : x.n = 1) (hxk : x.k = 0) (hyn : 2 ≤ y.n) (hyk : y.k = 0) (hres : y.resN0 = x.resN0)
    (hf : s.fault = false) : FirstEvent y p s t := by
  induction h with
  | @faulted x p s r act =>
    refine .inl ⟨.inl rfl, ?_⟩
    rw [← walkFault_put hres]
    exact .fault rfl (act y)
  | goesOn kept act _ ih => exact .act (act y) (ih hxn hxk hres (kept.fault.trans hf))
  | @ended x p s v kept act =>
    have none : (walkEnd x.cmd (x.put p v)).resN0 = BitVec.ofNat 32 x.k := rfl
    refine .inl ⟨.inr ⟨kept.fault.trans hf, by rw [none, hxk]; rfl⟩, ?_⟩
    rw [← walkEnd_put (hyk.trans hxk.symm)]
    exact walkRuns_act (act y) (.done _ rfl)
  | counted _ _ more => omega
  | @last x p s v kept act enough =>
    have more : y.k + 1 < y.n := by omega
    rw [eventDone_last enough, hxk]
    refine .inr ⟨kept.fault.trans hf, rfl, fun u hu => ?_⟩
    refine walkRuns_act (act y) ?_
    rw [eventDone_more more, hyk]
    exact hu

/-! ### The rest of several -/

theorem walkEnd_put_succ {x y : SkipAsk} (hk : y.k = x.k + 1) (p : Place) (s : State) :
    walkEnd y.cmd (y.put p s) = { walkEnd x.cmd (x.put p s) with
      argN0 := y.argN0, resN0 := (walkEnd x.cmd (x.put p s)).resN0 + 1 } := by
  simp only [walkEnd, SkipAsk.cmd, hk, BitVec.ofNat_add]
  rfl

theorem eventDone_put_succ {x y : SkipAsk} (hx : ¬ x.k + 1 < x.n) (hy : ¬ y.k + 1 < y.n)
    (hk : y.k = x.k + 1) (p : Place) (s : State) :
    eventDone y.cmd (y.put p s) = { eventDone x.cmd (x.put p s) with
      argN0 := y.argN0, resN0 := (eventDone x.cmd (x.put p s)).resN0 + 1 } := by
  rw [eventDone_last hx, eventDone_last hy, hk, BitVec.ofNat_add (x.k + 1)]
  rfl

/-- A SKIP that has counted one event more, of one more asked for, takes the same actions and answers
one more. -/
theorem SkipRuns.oneMore {x y : SkipAsk} {p : Place} {s t : State} (h : SkipRuns x p s t)
    (hn : y.n = x.n + 1) (hk : y.k = x.k + 1) (hf : s.fault = false) :
    (t.fault = false → WalkRuns (y.put p s) { t with argN0 := y.argN0, resN0 := t.resN0 + 1 })
    ∧ (t.fault = true → WalkRuns (y.put p s) { t with argN0 := y.argN0, resN0 := y.resN0 }) := by
  induction h generalizing y with
  | faulted act => exact ⟨nofun, fun _ => .fault rfl (act y)⟩
  | goesOn kept act _ ih =>
    have ⟨ok, bad⟩ := ih hn hk (kept.fault.trans hf)
    exact ⟨fun h => walkRuns_act (act y) (ok h), fun h => walkRuns_act (act y) (bad h)⟩
  | @ended x p s v kept act =>
    have clear : (walkEnd x.cmd (x.put p v)).fault = false := kept.fault.trans hf
    refine ⟨fun _ => walkRuns_act (act y) ?_, fun h => absurd (h.symm.trans clear) nofun⟩
    rw [walkEnd_put_succ hk]
    exact .done _ rfl
  | @counted x p s v t kept act more _ ih =>
    have more' : y.k + 1 < y.n := by omega
    have ⟨ok, bad⟩ := ih (y := { y with k := y.k + 1 }) hn (by rw [hk]) (kept.fault.trans hf)
    have act' := (act y).trans (congrArg _ (eventDone_more more' p v))
    exact ⟨fun h => walkRuns_act act' (ok h), fun h => walkRuns_act act' (bad h)⟩
  | @last x p s v kept act enough =>
    have clear : (eventDone x.cmd (x.put p v)).fault = false := by
      rw [eventDone_last enough]
      exact kept.fault.trans hf
    have ended : (eventDone x.cmd (x.put p v)).walk = none := by
      rw [eventDone_last enough]
      rfl
    refine ⟨fun _ => walkRuns_act (act y) ?_, fun h => absurd (h.symm.trans clear) nofun⟩
    rw [eventDone_put_succ enough (by omega) hk]
    exact .done _ ended

/-! ### None, or the end of the input -/

/-- A header read where no segment has 8 bytes left goes past the last one (R412). -/
theorem readHeader_at_end {s : State} (hall : ∀ i g, s.segq[s.curSeg + i]? = some g →
      g.len.toNat < (if i = 0 then s.off.toNat else 0) + 8) :
    readHeader s = ({ s with
      curSeg := max s.curSeg s.segq.length
      off := if s.curSeg < s.segq.length then 0 else s.off, eoi := true }, false) := by
  have cursor : s.curSeg + (s.segq.length - s.curSeg) = max s.curSeg s.segq.length := by omega
  rw [readHeader_eq_end fun i g hg => sub_tryOffset_lt (hall i g hg), cursor, ofNat_tryOffset_end]

/-! ### An empty group -/

/-- A walk that has entered the group with header `h`, of `n` words. -/
def atGroup (c : WalkCmd) (n : Nat) (est : Bool) (h : RecHdr) (u : State) : State :=
  setPlace c (.group n [] est) { u with eventNumber := h.trigger, fsm := .readingModules }

/-- A walk enters the group whose header it reads first. -/
theorem walkStep_enters {c : WalkCmd} {s u : State} {h : RecHdr} (hr : readHeader s = (u, true))
    (hd : decodeRecord u.hdr0 u.hdr1 = .ok (.groupData, h)) (h2 : 2 ≤ h.eventSize.toNat) :
    walkStep ⟨c, .top⟩ (walkStart c s) = .ok (atGroup c (bodyWords h) (!s.mapValid) h u) := by
  have read := readHeader_congr (s' := walkStart c s) hr rfl rfl rfl rfl rfl rfl
  rw [walkStep_top rfl read hd, recordBody_top h2]
  conv_rhs => rw [readHeader_frame hr]
  rfl

/-- The close of the group that establishes the slot map (R512). -/
theorem walkStep_establishes {c : WalkCmd} {s : State} (seen : List (BitVec 4)) :
    walkStep ⟨c, .group 0 seen true⟩ s = .ok (eventDone c
      { s with mapValid := true, nslots := s.nmod * (1 + s.tLatch.toNat) }) :=
  (walkStep_close (w := ⟨c, .group 0 seen true⟩) rfl).trans rfl

/-- SKIP of one event over an empty first group: the map is established, of no module. -/
theorem exec_skip_empty_group {s u : State} {h : RecHdr} (hf : s.fault = false)
    (ho : s.opened = true) (hw : s.walk = none) (hn : s.argN0 = 1) (hv : s.mapValid = false)
    (hm : s.nmod = 0) (hr : readHeader s = (u, true))
    (hd : decodeRecord u.hdr0 u.hdr1 = .ok (.groupData, h)) (hs : h.eventSize = 2) :
    exec .skip s = .next { u with
      eventNumber := h.trigger, mapValid := true, nslots := 0
      fsm := .waitGroup, resN0 := 1, busy := false } := by
  have frame := readHeader_frame hr
  have ended : u = { u with walk := none } := by rw [frame, hw]
  have modules : u.nmod = 0 := by rw [frame]; exact hm
  have empty : bodyWords h = 0 := by rw [bodyWords, hs]; rfl
  have entered := walkStep_enters (c := .skip 1 0) hr hd (by rw [hs]; decide)
  rw [empty, hv] at entered
  rw [exec_skip_walks hf ho (by rw [hn]; decide), hn, runWalk_iff]
  refine .act rfl entered (.act rfl (walkStep_establishes []) ?_)
  rw [atGroup, setPlace_nmod, modules, Nat.zero_mul]
  conv => arg 2; rw [ended]
  exact .done _ rfl

/-! ### The obligation -/

/-- Settles O42: SKIP of several by the first event and the rest, whose walks take the same actions. -/
theorem skipCountsEvents : Obligations.SkipCountsEvents := by
  intro s hf ho hw
  refine ⟨exec_skip_zero hf ho, fun hn hall => ?_, fun hn hv hm u h hr hd hs =>
    exec_skip_empty_group hf ho hw hn hv hm hr hd hs, fun t hn ht => ?_⟩
  · rw [exec_skip_walks hf ho hn, runWalk_iff, hw]
    exact .act rfl (walkStep_top_end rfl (readHeader_at_end (s := walkStart _ s) hall)) (.done _ rfl)
  · have several : s.argN0 ≠ 0 := by bv_omega
    have answers {u : State} := (exec_skip_iff (t := u) hf ho several).2
    have one : WalkRuns ((askOf { s with argN0 := 1 }).put .top { s with fsm := .waitGroup }) t :=
      (exec_skip_iff (s := { s with argN0 := 1 }) hf ho (show (1 : Word) ≠ 0 by decide)).1 ht
    have opened : t.opened = true := by
      rw [(skipRuns_of_walkRuns one).leaves]
      exact ho
    rcases (skipRuns_of_walkRuns one).firstEvent (y := askOf s) rfl rfl hn rfl rfl hf with
      ⟨hstop, hruns⟩ | ⟨hclear, hone, hgo⟩
    · refine ⟨fun _ => answers hruns, fun hclear => ?_⟩
      have zero : t.resN0 = 0 := by
        rcases hstop with hfault | ⟨-, hzero⟩
        · exact absurd (hclear.symm.trans hfault) nofun
        · exact hzero
      exact ⟨.inl zero, fun _ => answers hruns, fun hone => absurd (zero.symm.trans hone) (by decide)⟩
    · refine ⟨fun hfault => absurd (hclear.symm.trans hfault) nofun, fun _ => ⟨.inr hone,
        fun hzero => absurd (hzero.symm.trans hone) (by decide), fun _ u hu => ?_⟩⟩
      have fewer : (s.argN0 - 1).toNat + 1 = s.argN0.toNat := by
        bv_omega
      have some_left : s.argN0 - 1 ≠ 0 := by bv_omega
      have rest := (exec_skip_iff (s := { t with argN0 := s.argN0 - 1 }) hclear opened some_left).1 hu
      have ⟨ok, bad⟩ := (skipRuns_of_walkRuns rest).oneMore (y := { askOf s with k := 1 })
        fewer.symm rfl hclear
      exact ⟨fun h => answers (hgo _ (ok h)), fun h => answers (hgo _ (bad h))⟩

end Sys2Proof.Machine
end

section
/-! An event that NEXT delivers (43_assembler.md R503 to R508, R510, R512): the data of a record that
fits its frames, and the first group after OPEN with one such record. -/

namespace Sys2Proof.Machine

open Sys2Proof

/-! ### Data that fit their frames (R507) -/

/-- The slots of a module lie below the calibration matrices. -/
theorem slot_bound (ord : BitVec 4) (l : BitVec 3) :
    ord.toNat * (1 + l.toNat) + (0 + (1 + l.toNat)) ≤ 184 := by
  have ho : ord.toNat ≤ 15 := Nat.lt_succ_iff.1 ord.isLt
  have hl := l.isLt
  have := Nat.mul_le_mul_right (1 + l.toNat) ho
  omega

/-- The data that NEXT reads and decodes: the slots of the module hold its frames, in order, and no
other matrix register changes. -/
theorem takeData_fit {k : RecKind} {h : RecHdr} {est : Bool} {s : State} {g : Seg} {t : ConvKind}
    {um : Bool} {ord : BitVec 4} (h3 : 3 ≤ h.eventSize.toNat) (hg : s.segq[s.curSeg]? = some g)
    (hfit : s.off.toNat + 4 * (h.eventSize.toNat - 2) ≤ g.len.toNat)
    (hz : (dataRead est h g s).info.getLsbD 20 = false)
    (hd : dispatchConv k (dataRead est h g s) = .ok (t, um))
    (hord : readModmap (dataRead est h g s) h.moduleNo = some ord)
    (hlen : (1 + s.tLatch.toNat) * consumed t ≤ (dataRead est h g s).dataBuf.length) :
    ∃ v, takeData k h true (withModule est h.moduleNo s) = .ok v
      ∧ v = { dataRead est h g s with mats := v.mats }
      ∧ (∀ id, (∀ f, f ≤ s.tLatch.toNat → id ≠ ord.toNat * (1 + s.tLatch.toNat) + f) →
        readMat v id = readMat s id)
      ∧ ∀ f, f ≤ s.tLatch.toNat → readMat v (ord.toNat * (1 + s.tLatch.toNat) + f)
        = frameMat t um h
          (decodeInfo (dataRead est h g s).info (dataRead est h g s).cfgInfoLayout).startGate f
          (f * consumed t) (dataRead est h g s).dataBuf := by
  have latch : (dataRead est h g s).tLatch = s.tLatch := by rw [dataRead_frame]
  have mats : (dataRead est h g s).mats = s.mats := by rw [dataRead_frame]
  have decoded : takeData k h true (withModule est h.moduleNo s) = decodeFrames t um h
      (decodeInfo (dataRead est h g s).info (dataRead est h g s).cfgInfoLayout).startGate
      (ord.toNat * (1 + s.tLatch.toNat)) (1 + s.tLatch.toNat) 0 0 (dataRead est h g s) := by
    rw [takeData_next h3 hg hfit, hord, Option.getD_some, decodeBlob_eq hz hd, latch]
  obtain ⟨v, hv, frames⟩ := decodeFrames_fit (t := t) (um := um) (h := h)
    (gate := (decodeInfo (dataRead est h g s).info (dataRead est h g s).cfgInfoLayout).startGate)
    (base := ord.toNat * (1 + s.tLatch.toNat)) (f := 0) (off := 0) (s := dataRead est h g s)
    (by rw [Nat.zero_add]; exact hlen) (slot_bound ord s.tLatch)
  refine ⟨v, decoded.trans hv, decodeFrames_frame hv, fun id hid => ?_, fun f hf => ?_⟩
  · rw [decodeFrames_other hv id fun i hi => by rw [Nat.zero_add]; exact hid i (by omega)]
    exact readMat_congr mats id
  · have frame := frames f (by omega)
    rwa [Nat.zero_add, Nat.zero_add] at frame

/-! ### The first group after OPEN -/

theorem readHeader_eoi {s u : State} (h : readHeader s = (u, true)) : u.eoi = false := by
  rcases readHeader_cases h with ⟨-, j, g, -, -, -, rfl⟩ | ⟨hb, -, -⟩
  · rfl
  · cases hb

/-- The module that a group adds to the map first has the ordinal 0. -/
theorem readModmap_dataRead_first {h : RecHdr} {g : Seg} {s : State} (hn : s.nmod = 0) :
    readModmap (dataRead true h g s) h.moduleNo = some 0 := by
  have added : (dataRead true h g s).modmap = (addModule h.moduleNo s).modmap := rfl
  rw [readModmap_congr added, readModmap_addModule, if_pos rfl, hn]
  rfl

/-- The one record of the group that establishes the slot map, with no trailing frame: slot 0 holds
its frame. -/
theorem walkStep_first_record {s u : State} {h : RecHdr} {g : Seg} (hr : readHeader s = (u, true))
    (hd : decodeRecord u.hdr0 u.hdr1 = .ok (.depfet, h)) (h3 : 3 ≤ h.eventSize.toNat)
    (hl : u.tLatch = 0) (hn : u.nmod = 0) (hg : u.segq[u.curSeg]? = some g)
    (hfit : u.off.toNat + 4 * (h.eventSize.toNat - 2) ≤ g.len.toNat)
    (hz : (dataRead true h g u).info.getLsbD 20 = false)
    (hlen : consumed .s3a ≤ (dataRead true h g u).dataBuf.length) :
    ∃ v, walkStep ⟨.next, .group h.eventSize.toNat [] true⟩ s
        = .ok (setPlace .next (.group 0 [h.moduleNo] true) v)
      ∧ v = { dataRead true h g u with mats := v.mats }
      ∧ (∀ id, id ≠ 0 → readMat v id = readMat u id)
      ∧ readMat v 0 = frameMat .s3a true h
          (decodeInfo (dataRead true h g u).info u.cfgInfoLayout).startGate 0 0
          (dataRead true h g u).dataBuf := by
  have h2 : 2 ≤ h.eventSize.toNat := by omega
  obtain ⟨v, hv, hrest, hother, hslot⟩ := takeData_fit (um := true) (t := .s3a) h3 hg hfit hz
    (by rfl : dispatchConv .depfet _ = _) (readModmap_dataRead_first hn)
    (by rw [hl]; simpa using hlen)
  have first : (0 : BitVec 4).toNat * (1 + u.tLatch.toNat) = 0 := Nat.zero_mul _
  rw [first] at hother hslot
  have taken : nestedBody .depfet h .next [] true u = .ok (v, [h.moduleNo]) :=
    dataNested_eq_ok h3 (List.not_mem_nil) (.inl rfl) hv
  have body := recordBody_group_ok (c := .next) h2 (le_refl h.eventSize.toNat) taken
  rw [Nat.sub_self] at body
  refine ⟨v, ?_, hrest, fun id hid => ?_, ?_⟩
  · rw [walkStep_of_decode (.inr ⟨_, _, _, rfl, h2⟩) hr hd, body]
  · refine hother id fun f hf => ?_
    rw [hl] at hf
    rwa [Nat.le_zero.1 hf]
  · have slot := hslot 0 (Nat.zero_le _)
    have layout : (dataRead true h g u).cfgInfoLayout = u.cfgInfoLayout := by rw [dataRead_frame]
    rwa [Nat.zero_mul, layout] at slot


/-- A header is read inside a group as outside it. -/
theorem readHeader_atGroup {c : WalkCmd} {n : Nat} {est : Bool} {h : RecHdr} {s u : State} {b : Bool}
    (hr : readHeader s = (u, b)) : readHeader (atGroup c n est h s) = (atGroup c n est h u, b) := by
  rw [readHeader_congr (s' := atGroup c n est h s) hr rfl rfl rfl rfl rfl rfl]
  conv_rhs => rw [readHeader_frame hr]
  rfl

/-- Settles O41: the group is entered, its one record taken, and its close establishes the map. -/
theorem nextDeliversOneModuleEvent : Obligations.NextDeliversOneModuleEvent := by
  intro s u1 u2 hg hd g iw payload hf ho hw hv hn hl hlimit hr1 hd1 hr2 hd2 hsize h3 hseg hfit hiw hz
    hpay hlen
  have words : bodyWords hg = hd.eventSize.toNat := by unfold bodyWords; omega
  have entered := walkStep_enters (c := .next) hr1 hd1 (by omega)
  rw [words, hv] at entered
  have read := readHeader_atGroup (c := .next) (n := hd.eventSize.toNat) (est := true) (h := hg) hr2
  have frame : u2 = { s with
      curSeg := u2.curSeg, off := u2.off, hdr0 := u2.hdr0, hdr1 := u2.hdr1, eoi := false } := by
    conv_lhs => rw [readHeader_frame hr2, readHeader_frame hr1, readHeader_eoi hr2]
  obtain ⟨c, o, w, x, rfl⟩ : ∃ c o w x, u2 = { s with
      curSeg := c, off := o, hdr0 := w, hdr1 := x, eoi := false } := ⟨_, _, _, _, frame⟩
  subst hiw hpay
  rw [memReadN_length] at hlen
  obtain ⟨v, taken, hrest, hother, hslot⟩ := walkStep_first_record read hd2 h3 hl hn hseg hfit
    (by rw [dataRead_info]; exact hz) (by rw [dataRead_dataBuf_length]; exact hlen)
  rw [dataRead_info, dataRead_dataBuf] at hslot
  have ends := WalkRuns.act rfl entered (.act rfl taken
    (.act rfl (walkStep_establishes _) (.done _ rfl)))
  refine ⟨_, (exec_next_walks hf ho hlimit).trans ((runWalk_iff _ _ _).2 ends), ?_,
    fun id hid => (readMat_congr rfl id).trans ((hother id hid).trans (readMat_congr rfl id)),
    (readMat_congr rfl 0).trans hslot⟩
  obtain ⟨m, rfl⟩ : ∃ m, v = { dataRead true hd g _ with mats := m } := ⟨_, hrest⟩
  simp only [eventDone, dataRead, withModule, addModule, atGroup, setPlace, endWalk, finish, hn, hl, hw,
    if_true]
  rfl

end Sys2Proof.Machine
end

section
/-! The matrix commands (44_matrix.md): their encodings, the operand checks they share with the
accumulator and common-mode commands, and for each command the next state of every way it can
end. -/

namespace Sys2Proof.Machine

open Sys2Proof

/-! ### The encodings (30_encoding.md R332) -/

/-- The matrix commands whose one operand is A, with their OPs. -/
def matrixOpcodes : List (BitVec 8 × (BitVec 8 → Instr)) :=
  [(0x40, .mresize), (0x41, .mget), (0x42, .mput), (0x43, .mgetf), (0x44, .mputf), (0x48, .minfo),
    (0x49, .mtrig)]

theorem decodesTo_matrixOpcode {op : BitVec 8} {i : BitVec 8 → Instr}
    (h : (op, i) ∈ matrixOpcodes) : decodesTo op fun a _ _ => i a := fun w hop => by
  simp only [decodeCommand, hop]
  simp only [matrixOpcodes, List.mem_cons, List.not_mem_nil, or_false, Prod.mk.injEq] at h
  rcases h with ⟨rfl, rfl⟩ | ⟨rfl, rfl⟩ | ⟨rfl, rfl⟩ | ⟨rfl, rfl⟩ | ⟨rfl, rfl⟩ | ⟨rfl, rfl⟩
    | ⟨rfl, rfl⟩
  all_goals rfl

/-! ### The elements of a matrix (R550, R554, R557) -/

section
variable {s : State} {m : Mat} {n : Nat}

theorem checkXY_of_inside (hx : s.argN0.toNat < m.nX) (hy : s.argN1.toNat < m.nY)
    (k : Nat → Except Raise State) : checkXY s m k = k (s.argN0.toNat * m.nY + s.argN1.toNat) :=
  if_neg (by omega)

theorem checkXY_of_outside (h : m.nX ≤ s.argN0.toNat ∨ m.nY ≤ s.argN1.toNat)
    (k : Nat → Except Raise State) :
    checkXY s m k = .error ⟨.outOfBounds, xyInfo s.argN0 s.argN1⟩ := if_pos h

theorem checkFlat_of_lt (h : s.argN0.toNat < n) (k : Nat → Except Raise State) :
    checkFlat s n k = k s.argN0.toNat := if_neg (by omega)

theorem checkFlat_of_ge (h : n ≤ s.argN0.toNat) (k : Nat → Except Raise State) :
    checkFlat s n k = .error ⟨.outOfBounds, s.argN0⟩ := if_pos h

end

/-- A 2D index in range is a flat index in range (R550). -/
theorem flatIndex_lt {x y nX nY : Nat} (hx : x < nX) (hy : y < nY) : x * nY + y < nX * nY :=
  calc x * nY + y
    _ < (x + 1) * nY := by rw [Nat.succ_mul]; omega
    _ ≤ nX * nY := Nat.mul_le_mul_right _ hx

/-- Within MAX_PIXELS it is a word. -/
theorem flatIndex_toNat {x y nX nY : Nat} (hx : x < nX) (hy : y < nY)
    (hn : nX * nY ≤ Config.maxPixels) : (BitVec.ofNat 32 (x * nY + y)).toNat = x * nY + y := by
  have inside := flatIndex_lt hx hy
  unfold Config.maxPixels at hn
  rw [BitVec.toNat_ofNat, Nat.mod_eq_of_lt (by omega)]

theorem matElem_of_getElem? {m : Mat} {k : Nat} {v : F64} (h : m.data[k]? = some v) :
    matElem m k = v := by
  rw [matElem, List.getD_eq_getElem?_getD, h, Option.getD_some]

/-- The pixels of A after an element-wise command. -/
def algebraData (f : Nat → F64 → F64 → F64) (m w : Mat) : List F64 :=
  m.data.mapIdx fun k v => f k v (matElem w k)

theorem algebraData_getElem? (f : Nat → F64 → F64 → F64) {m w : Mat} {k : Nat} {v x : F64}
    (hv : m.data[k]? = some v) (hx : w.data[k]? = some x) :
    (algebraData f m w)[k]? = some (f k v x) := by
  rw [algebraData, List.getElem?_mapIdx, hv, matElem_of_getElem? hx]
  rfl

/-! ### The operand that may be NONE (R555) -/

/-- What an operand names: no matrix where it is NONE. -/
def optionalId (a : BitVec 8) : Option Nat := if a = 0xFF then none else some a.toNat

theorem optionalId_of_lt {a : BitVec 8} (h : a.toNat < 184) : optionalId a = some a.toNat :=
  if_neg (by rintro rfl; exact absurd h (by decide))

theorem checkMatOrNone_of_allowed {α : Type} {a : BitVec 8} (h : a = 0xFF ∨ a.toNat < 184)
    (k : Option Nat → Except Raise α) : checkMatOrNone a k = k (optionalId a) := by
  rcases h with rfl | h
  · exact checkMatOrNone_none k
  · rw [checkMatOrNone_some k h, optionalId_of_lt h]

/-- A snapshot that is named passes the check of its shape exactly where the shapes are equal. -/
theorem optional_sameDims_iff {a : BitVec 8} (h : a.toNat < 184) (s : State) (w : Mat) :
    (((optionalId a).map (readMat s)).all fun q => sameDims q w) = true
      ↔ (readMat s a.toNat).nX = w.nX ∧ (readMat s a.toNat).nY = w.nY := by
  rw [optionalId_of_lt h]
  exact sameDims_iff _ _

/-- A snapshot that is not named always passes it. -/
theorem optional_sameDims {a : BitVec 8} {s : State} {w : Mat}
    (h : a = 0xFF ∨ a.toNat < 184 ∧ (readMat s a.toNat).nX = w.nX ∧ (readMat s a.toNat).nY = w.nY) :
    (((optionalId a).map (readMat s)).all fun q => sameDims q w) = true := by
  rcases h with rfl | ⟨hlt, heq⟩
  · rfl
  · exact (optional_sameDims_iff hlt s w).2 heq

/-! ### Operand A, the same check in many commands (R555, 30_encoding.md R331) -/

/-- The commands that read the matrix A. -/
def readCommands (a : BitVec 8) : List Instr := [.mget a, .mgetf a, .minfo a, .mtrig a]

/-- The commands that compute a work matrix A from the matrix B. -/
def algebraCommands (a b : BitVec 8) : List Instr := [.madd a b, .msub a b, .mset a b]

/-- The commands that write a work matrix A, the converters aside. -/
def workCommands (a b c : BitVec 8) : List Instr :=
  [.mresize a, .mput a, .mputf a, .madd a b, .msub a b, .mset a b, .cmApply a b c]

/-- The commands on the module A. -/
def moduleCommands (a b c : BitVec 8) : List Instr :=
  [.accClear a, .accAdd a, .accAddm a b c, .accRead a b, .calCommit a, .calInit a, .calLoad a]

/-- MADD, MSUB and MSET are one command, of three functions. -/
theorem exec_algebra {a b : BitVec 8} {i : Instr} (hi : i ∈ algebraCommands a b) (s : State) :
    ∃ f, exec i s = elementwise a b f s := by
  simp only [algebraCommands, List.mem_cons, List.not_mem_nil, or_false] at hi
  rcases hi with rfl | rfl | rfl
  all_goals
    simp only [exec, execMadd, execMsub, execMset]
    exact ⟨_, rfl⟩

section
variable {s : State} {a b c : BitVec 8} {i : Instr} (hf : s.fault = false)
include hf

theorem exec_cmApply_of_error {r : Raise} (h : cmOperands a b c s = .error r) :
    exec (.cmApply a b c) s = .next (faultEntry r s) := by
  simp only [exec, execCmApply, hf, h, Bool.false_eq_true, if_false]

theorem exec_of_reserved_matrix (ha : 184 ≤ a.toNat) (hi : i ∈ readCommands a) :
    exec i s = .next (faultEntry ⟨.illegalOperand, a.setWidth 32⟩ s) := by
  simp only [readCommands, List.mem_cons, List.not_mem_nil, or_false] at hi
  rcases hi with rfl | rfl | rfl | rfl
  all_goals exact command_error hf (checkMat_of_ge _ ha)

/-- CM_APPLY checks A in `cmOperands`, every other command of the list first in its body. -/
theorem exec_of_not_work (ha : ¬ isWork a) (hi : i ∈ workCommands a b c) :
    exec i s = .next (faultEntry ⟨.illegalOperand, a.setWidth 32⟩ s) := by
  simp only [workCommands, List.mem_cons, List.not_mem_nil, or_false] at hi
  rcases hi with rfl | rfl | rfl | rfl | rfl | rfl | rfl
  case inr.inr.inr.inr.inr.inr => exact exec_cmApply_of_error hf (checkWork_of_not _ ha)
  all_goals exact command_error hf (checkWork_of_not _ ha)

theorem exec_of_no_module (ha : 15 < a.toNat) (hi : i ∈ moduleCommands a b c) :
    exec i s = .next (faultEntry ⟨.illegalOperand, a.setWidth 32⟩ s) := by
  simp only [moduleCommands, List.mem_cons, List.not_mem_nil, or_false] at hi
  rcases hi with rfl | rfl | rfl | rfl | rfl | rfl | rfl
  all_goals exact command_error hf (checkModule_of_gt _ ha)

/-! ### MRESIZE (R560) -/

theorem exec_mresize (ha : isWork a) (hx : s.argN0.toNat ≤ Config.maxPixels)
    (hy : s.argN1.toNat ≤ Config.maxPixels)
    (hxy : s.argN0.toNat * s.argN1.toNat ≤ Config.maxPixels) :
    exec (.mresize a) s = .next (finish (writeMat a.toNat
      (matResize s.argN0.toNat s.argN1.toNat (readMat s a.toNat)) s)) :=
  command_ok hf ((checkWork_of_work _ ha).trans (checkExtents_of_le _ ⟨hx, hy, hxy⟩))

theorem exec_mresize_of_large (ha : isWork a)
    (h : Config.maxPixels < s.argN0.toNat ∨ Config.maxPixels < s.argN1.toNat
      ∨ Config.maxPixels < s.argN0.toNat * s.argN1.toNat) :
    exec (.mresize a) s = .next (faultEntry ⟨.capacity, s.argN0⟩ s) :=
  command_error hf ((checkWork_of_work _ ha).trans (checkExtents_of_gt _ h))

/-! ### MGET and MGETF (R561, R563) -/

theorem exec_mget (ha : a.toNat < 184) (hx : s.argN0.toNat < (readMat s a.toNat).nX)
    (hy : s.argN1.toNat < (readMat s a.toNat).nY) :
    exec (.mget a) s = .next (finish { s with
      resF := matElem (readMat s a.toNat)
        (s.argN0.toNat * (readMat s a.toNat).nY + s.argN1.toNat) }) :=
  command_ok hf ((checkMat_of_lt _ ha).trans (checkXY_of_inside hx hy _))

theorem exec_mget_of_outside (ha : a.toNat < 184)
    (h : (readMat s a.toNat).nX ≤ s.argN0.toNat ∨ (readMat s a.toNat).nY ≤ s.argN1.toNat) :
    exec (.mget a) s = .next (faultEntry ⟨.outOfBounds, xyInfo s.argN0 s.argN1⟩ s) :=
  command_error hf ((checkMat_of_lt _ ha).trans (checkXY_of_outside h _))

theorem exec_mgetf (ha : a.toNat < 184)
    (h : s.argN0.toNat < (readMat s a.toNat).nX * (readMat s a.toNat).nY) :
    exec (.mgetf a) s
      = .next (finish { s with resF := matElem (readMat s a.toNat) s.argN0.toNat }) :=
  command_ok hf ((checkMat_of_lt _ ha).trans (checkFlat_of_lt h _))

theorem exec_mgetf_of_outside (ha : a.toNat < 184)
    (h : (readMat s a.toNat).nX * (readMat s a.toNat).nY ≤ s.argN0.toNat) :
    exec (.mgetf a) s = .next (faultEntry ⟨.outOfBounds, s.argN0⟩ s) :=
  command_error hf ((checkMat_of_lt _ ha).trans (checkFlat_of_ge h _))

/-- MGET's answer is MGETF's for the flat index of the same element. -/
theorem mgetf_agrees_with_mget (ha : a.toNat < 184) (hx : s.argN0.toNat < (readMat s a.toNat).nX)
    (hy : s.argN1.toNat < (readMat s a.toNat).nY) {k : Word} {t t' : State}
    (hk : k.toNat = s.argN0.toNat * (readMat s a.toNat).nY + s.argN1.toNat)
    (hget : exec (.mget a) s = .next t)
    (hgetf : exec (.mgetf a) { s with argN0 := k } = .next t') : t'.resF = t.resF := by
  have inside : k.toNat < (readMat s a.toNat).nX * (readMat s a.toNat).nY := by
    rw [hk]
    exact flatIndex_lt hx hy
  rw [exec_mget hf ha hx hy] at hget
  rw [exec_mgetf (s := { s with argN0 := k }) hf ha inside] at hgetf
  cases hget
  cases hgetf
  exact congrArg (matElem (readMat s a.toNat)) hk

/-! ### MINFO and MTRIG (R568, R569) -/

theorem exec_minfo (ha : a.toNat < 184) :
    exec (.minfo a) s = .next (finish { s with
      resN0 := BitVec.ofNat 32 (readMat s a.toNat).nX
      resN1 := BitVec.ofNat 32 (readMat s a.toNat).nY, resN2 := tagWord (readMat s a.toNat) }) :=
  command_ok hf (checkMat_of_lt _ ha)

theorem exec_mtrig (ha : a.toNat < 184) :
    exec (.mtrig a) s = .next (finish { s with resN0 := (readMat s a.toNat).triggerNr }) :=
  command_ok hf (checkMat_of_lt _ ha)

/-! ### MPUT and MPUTF (R562, R564) -/

theorem exec_mput (ha : isWork a) (hx : s.argN0.toNat < (readMat s a.toNat).nX)
    (hy : s.argN1.toNat < (readMat s a.toNat).nY) :
    exec (.mput a) s = .next (finish (writeMat a.toNat (matPut
      (s.argN0.toNat * (readMat s a.toNat).nY + s.argN1.toNat) s.argX (readMat s a.toNat)) s)) :=
  command_ok hf ((checkWork_of_work _ ha).trans (checkXY_of_inside hx hy _))

theorem exec_mput_of_outside (ha : isWork a)
    (h : (readMat s a.toNat).nX ≤ s.argN0.toNat ∨ (readMat s a.toNat).nY ≤ s.argN1.toNat) :
    exec (.mput a) s = .next (faultEntry ⟨.outOfBounds, xyInfo s.argN0 s.argN1⟩ s) :=
  command_error hf ((checkWork_of_work _ ha).trans (checkXY_of_outside h _))

theorem exec_mputf (ha : isWork a)
    (h : s.argN0.toNat < (readMat s a.toNat).nX * (readMat s a.toNat).nY) :
    exec (.mputf a) s = .next (finish (writeMat a.toNat
      (matPut s.argN0.toNat s.argX (readMat s a.toNat)) s)) :=
  command_ok hf ((checkWork_of_work _ ha).trans (checkFlat_of_lt h _))

theorem exec_mputf_of_outside (ha : isWork a)
    (h : (readMat s a.toNat).nX * (readMat s a.toNat).nY ≤ s.argN0.toNat) :
    exec (.mputf a) s = .next (faultEntry ⟨.outOfBounds, s.argN0⟩ s) :=
  command_error hf ((checkWork_of_work _ ha).trans (checkFlat_of_ge h _))

/-! ### MADD, MSUB and MSET (R553, R565 to R567) -/

theorem exec_algebra_of_reserved (ha : isWork a) (hb : 184 ≤ b.toNat)
    (hi : i ∈ algebraCommands a b) :
    exec i s = .next (faultEntry ⟨.illegalOperand, b.setWidth 32⟩ s) := by
  obtain ⟨f, he⟩ := exec_algebra hi s
  rw [he]
  exact command_error hf ((checkWork_of_work _ ha).trans (checkMat_of_ge _ hb))

theorem exec_algebra_of_shapes (ha : isWork a) (hb : b.toNat < 184)
    (hne : ¬ ((readMat s a.toNat).nX = (readMat s b.toNat).nX
      ∧ (readMat s a.toNat).nY = (readMat s b.toNat).nY)) (hi : i ∈ algebraCommands a b) :
    exec i s = .next (faultEntry ⟨.dimMismatch, pairInfo b a⟩ s) := by
  obtain ⟨f, he⟩ := exec_algebra hi s
  have differ : ¬ sameDims (readMat s a.toNat) (readMat s b.toNat) = true :=
    mt (sameDims_iff _ _).1 hne
  rw [he]
  refine command_error hf ?_
  rw [checkWork_of_work _ ha, checkMat_of_lt _ hb, if_neg differ, raise_eq]

theorem elementwise_of_shapes (f : Nat → F64 → F64 → F64) (ha : isWork a) (hb : b.toNat < 184)
    (hx : (readMat s a.toNat).nX = (readMat s b.toNat).nX)
    (hy : (readMat s a.toNat).nY = (readMat s b.toNat).nY) :
    elementwise a b f s = .next (finish (draw (writeMat a.toNat { readMat s a.toNat with
      data := algebraData f (readMat s a.toNat) (readMat s b.toNat) } s))) := by
  refine command_ok hf ?_
  rw [checkWork_of_work _ ha, checkMat_of_lt _ hb, if_pos ((sameDims_iff _ _).2 ⟨hx, hy⟩)]
  rfl

/-! ### ACC_ADDM's operands (45_calibration.md R612) -/

theorem exec_accAddm_of_reserved_sample (ha : a.toNat ≤ 15) (hb : 184 ≤ b.toNat) :
    exec (.accAddm a b c) s = .next (faultEntry ⟨.illegalOperand, b.setWidth 32⟩ s) :=
  command_error hf ((checkModule_of_le _ ha).trans (checkMat_of_ge _ hb))

theorem exec_accAddm_of_reserved_mask (ha : a.toNat ≤ 15) (hb : b.toNat < 184)
    (hc : 184 ≤ c.toNat) (hnone : c ≠ 0xFF) :
    exec (.accAddm a b c) s = .next (faultEntry ⟨.illegalOperand, c.setWidth 32⟩ s) :=
  command_error hf ((checkModule_of_le _ ha).trans
    ((checkMat_of_lt _ hb).trans (checkMatOrNone_of_reserved _ hc hnone)))

theorem exec_accAddm_of_sample_shape (ha : a.toNat ≤ 15) (hb : b.toNat < 184)
    (hc : c = 0xFF ∨ c.toNat < 184)
    (hne : ¬ ((readAcc s a.toNat).nX = (readMat s b.toNat).nX
      ∧ (readAcc s a.toNat).nY = (readMat s b.toNat).nY)) :
    exec (.accAddm a b c) s = .next (faultEntry ⟨.dimMismatch, pairInfo b a⟩ s) := by
  refine command_error hf ?_
  rw [checkModule_of_le _ ha, checkMat_of_lt _ hb, checkMatOrNone_of_allowed hc]
  exact if_pos hne

theorem exec_accAddm_of_mask_shape (ha : a.toNat ≤ 15) (hb : b.toNat < 184) (hc : c.toNat < 184)
    (hx : (readAcc s a.toNat).nX = (readMat s b.toNat).nX)
    (hy : (readAcc s a.toNat).nY = (readMat s b.toNat).nY)
    (hne : ¬ ((readMat s c.toNat).nX = (readMat s b.toNat).nX
      ∧ (readMat s c.toNat).nY = (readMat s b.toNat).nY)) :
    exec (.accAddm a b c) s = .next (faultEntry ⟨.dimMismatch, pairInfo c b⟩ s) := by
  refine command_error hf ?_
  rw [checkModule_of_le _ ha, checkMat_of_lt _ hb, checkMatOrNone_of_allowed (.inr hc)]
  exact (if_neg (not_not.2 ⟨hx, hy⟩)).trans (if_pos (mt (optional_sameDims_iff hc s _).1 hne))

/-! ### CM_APPLY's operands (46_commonmode.md R660) -/

theorem exec_cmApply_of_reserved_mask (ha : isWork a) (hb : 184 ≤ b.toNat) (hnone : b ≠ 0xFF) :
    exec (.cmApply a b c) s = .next (faultEntry ⟨.illegalOperand, b.setWidth 32⟩ s) :=
  exec_cmApply_of_error hf
    ((checkWork_of_work _ ha).trans (checkMatOrNone_of_reserved _ hb hnone))

theorem exec_cmApply_of_reserved_noise (ha : isWork a) (hb : b = 0xFF ∨ b.toNat < 184)
    (hc : 184 ≤ c.toNat) (hnone : c ≠ 0xFF) :
    exec (.cmApply a b c) s = .next (faultEntry ⟨.illegalOperand, c.setWidth 32⟩ s) :=
  exec_cmApply_of_error hf ((checkWork_of_work _ ha).trans
    ((checkMatOrNone_of_allowed hb _).trans (checkMatOrNone_of_reserved _ hc hnone)))

theorem exec_cmApply_of_mask_shape (ha : isWork a) (hb : b.toNat < 184)
    (hc : c = 0xFF ∨ c.toNat < 184)
    (hne : ¬ ((readMat s b.toNat).nX = (readMat s a.toNat).nX
      ∧ (readMat s b.toNat).nY = (readMat s a.toNat).nY)) :
    exec (.cmApply a b c) s = .next (faultEntry ⟨.dimMismatch, pairInfo b a⟩ s) := by
  refine exec_cmApply_of_error hf ?_
  rw [cmOperands, checkWork_of_work _ ha, checkMatOrNone_of_allowed (.inr hb),
    checkMatOrNone_of_allowed hc]
  exact if_pos (mt (optional_sameDims_iff hb s _).1 hne)

theorem exec_cmApply_of_noise_shape (ha : isWork a) (hc : c.toNat < 184)
    (hb : b = 0xFF ∨ b.toNat < 184 ∧ (readMat s b.toNat).nX = (readMat s a.toNat).nX
      ∧ (readMat s b.toNat).nY = (readMat s a.toNat).nY)
    (hne : ¬ ((readMat s c.toNat).nX = (readMat s a.toNat).nX
      ∧ (readMat s c.toNat).nY = (readMat s a.toNat).nY)) :
    exec (.cmApply a b c) s = .next (faultEntry ⟨.dimMismatch, pairInfo c a⟩ s) := by
  refine exec_cmApply_of_error hf ?_
  rw [cmOperands, checkWork_of_work _ ha, checkMatOrNone_of_allowed (hb.imp_right And.left),
    checkMatOrNone_of_allowed (.inr hc)]
  exact (if_neg (not_not.2 (optional_sameDims hb))).trans
    (if_pos (mt (optional_sameDims_iff hc s _).1 hne))

end

/-! ### The tag word (R568) -/

section
variable (m : Mat)

/-- The width is spelled as the sum of the fields' widths: the library's lemmas on `++` see no fields
in a `BitVec 32`. -/
theorem extractLsb'_tagWord (start len : Nat) :
    (tagWord m).extractLsb' start len = BitVec.extractLsb' (n := 6 + 10 + 5 + 3 + 4 + 4) start len
      (0#6 ++ m.startGate ++ 0#5 ++ m.frameNr ++ 0#4 ++ m.moduleNr) := rfl

theorem tagWord_startGate : (tagWord m).extractLsb' 16 10 = m.startGate := by
  simp [extractLsb'_tagWord, BitVec.extractLsb'_append_eq_ite, -Nat.reduceAdd]

theorem tagWord_frameNr : (tagWord m).extractLsb' 8 3 = m.frameNr := by
  simp [extractLsb'_tagWord, BitVec.extractLsb'_append_eq_ite, -Nat.reduceAdd]

theorem tagWord_moduleNr : (tagWord m).extractLsb' 0 4 = m.moduleNr := by
  simp [extractLsb'_tagWord, BitVec.extractLsb'_append_eq_ite, -Nat.reduceAdd]

/-- Field by field: the mask is 0 on the tags, and the word is 0 between them. -/
theorem tagWord_rest : tagWord m &&& 0xFC00F8F0 = 0 :=
  calc tagWord m &&& 0xFC00F8F0
    _ = 0#6 ++ m.startGate ++ 0#5 ++ m.frameNr ++ 0#4 ++ m.moduleNr
        &&& BitVec.allOnes 6 ++ 0#10 ++ BitVec.allOnes 5 ++ 0#3 ++ BitVec.allOnes 4 ++ 0#4 := rfl
    _ = 0 := by
      simp only [BitVec.and_append, BitVec.zero_and, BitVec.and_zero]
      rfl

end

/-! ### What writing the pixels of a work matrix leaves -/

/-- New pixels in a work matrix: its dimensions and tags stay, and every other matrix. -/
theorem readMat_of_new_pixels {s t : State} {a : BitVec 8} {d : List F64} (ha : isWork a)
    (ht : t.mats = (writeMat a.toNat { readMat s a.toNat with data := d } s).mats) :
    (∀ id, id ≠ a.toNat → readMat t id = readMat s id)
      ∧ readMat t a.toNat = { readMat s a.toNat with data := d } := by
  have work_lt : a.toNat < 184 := Nat.lt_of_le_of_lt ha.2 (by decide)
  exact ⟨fun id hid => (readMat_congr ht id).trans (readMat_writeMat_ne _ id _ s hid),
    (readMat_congr ht _).trans (readMat_writeMat_same _ _ s work_lt)⟩

/-- A command that puts one value into a work matrix changes that element alone. -/
theorem one_element_of_put {s : State} {a : BitVec 8} {j : Nat} {v : F64} {r : Result}
    (ha : isWork a) (hwf : (readMat s a.toNat).wf)
    (hj : j < (readMat s a.toNat).nX * (readMat s a.toNat).nY)
    (hr : r = .next (finish (writeMat a.toNat (matPut j v (readMat s a.toNat)) s))) :
    ∃ t, r = .next t ∧ t = { s with mats := t.mats, busy := false }
      ∧ (∀ id, id ≠ a.toNat → readMat t id = readMat s id)
      ∧ readMat t a.toNat = { readMat s a.toNat with data := (readMat t a.toNat).data }
      ∧ ∀ k, (readMat t a.toNat).data[k]?
          = if k = j then some v else (readMat s a.toNat).data[k]? := by
  obtain ⟨others, written⟩ := readMat_of_new_pixels (s := s) ha
    (t := finish (writeMat a.toNat (matPut j v (readMat s a.toNat)) s)) rfl
  have inside : j < (readMat s a.toNat).data.length := hwf.1 ▸ hj
  refine ⟨_, hr, rfl, others, by rw [written], fun k => ?_⟩
  rw [written, List.getElem?_set, if_pos inside]
  exact if_congr eq_comm rfl rfl

/-! ### The obligations -/

/-- Settles O19: each of the two commands puts ARG_X at one flat index. -/
theorem elementWrites : Obligations.ElementWrites := by
  refine ⟨decodesTo_matrixOpcode (by simp [matrixOpcodes]),
    decodesTo_matrixOpcode (by simp [matrixOpcodes]), fun a s hf ha i hi => ?_,
    fun a s hf ha hwf => ⟨fun hx hy => ?_, fun hk => ?_, exec_mput_of_outside hf ha,
      exec_mputf_of_outside hf ha⟩⟩
  · have puts : [Instr.mput a, .mputf a] ⊆ workCommands a 0 0 := by simp [workCommands]
    exact exec_of_not_work hf ha (puts hi)
  · exact one_element_of_put ha hwf (flatIndex_lt hx hy) (exec_mput hf ha hx hy)
  · exact one_element_of_put ha hwf hk (exec_mputf hf ha hk)

/-- Settles O20: the three commands are `elementwise` of their functions. -/
theorem elementwiseAlgebra : Obligations.ElementwiseAlgebra := by
  intro a b s i f hf ha hb _ _ hx hy hi
  have runs : exec i s = elementwise a b f s := by
    rcases hi with ⟨rfl, rfl⟩ | ⟨rfl, rfl⟩ | ⟨rfl, rfl⟩ <;> rfl
  rw [elementwise_of_shapes hf f ha hb hx hy] at runs
  obtain ⟨others, written⟩ := readMat_of_new_pixels (s := s) ha
    (t := finish (draw (writeMat a.toNat { readMat s a.toNat with
      data := algebraData f (readMat s a.toNat) (readMat s b.toNat) } s))) rfl
  refine ⟨_, runs, rfl, others, by rw [written], ?_, fun k v w hv hw => ?_⟩
  · rw [written]
    exact List.length_mapIdx
  · rw [written]
    exact algebraData_getElem? f hv hw

/-- Settles O17: the destination is checked first, then the extents. -/
theorem mresizeClears : Obligations.MresizeClears :=
  ⟨decodesTo_matrixOpcode (by simp [matrixOpcodes]), fun _ _ hf =>
    ⟨fun ha => exec_of_not_work (b := 0) (c := 0) hf ha List.mem_cons_self, exec_mresize hf,
      exec_mresize_of_large hf⟩⟩

/-- Settles O18: the id is checked first, then the index; MINFO's third answer is the tag word. -/
theorem matrixReads : Obligations.MatrixReads := by
  refine ⟨decodesTo_matrixOpcode (by simp [matrixOpcodes]),
    decodesTo_matrixOpcode (by simp [matrixOpcodes]),
    decodesTo_matrixOpcode (by simp [matrixOpcodes]),
    decodesTo_matrixOpcode (by simp [matrixOpcodes]),
    fun a s hf ha i => exec_of_reserved_matrix hf ha, fun a s hf ha => ⟨fun hx hy =>
      ⟨exec_mget hf ha hx hy, ?_⟩, exec_mgetf hf ha, exec_mget_of_outside hf ha,
      exec_mgetf_of_outside hf ha, exec_mtrig hf ha, _, exec_minfo hf ha, rfl,
      tagWord_startGate _, tagWord_frameNr _, tagWord_moduleNr _, tagWord_rest _⟩⟩
  rintro _ t t' rfl hn
  exact mgetf_agrees_with_mget hf ha hx hy (flatIndex_toNat hx hy hn)

/-- Settles O21: A before B before C, and then the shapes. -/
theorem illegalOperandsAreRaised : Obligations.IllegalOperandsAreRaised := fun _ _ _ _ hf =>
  ⟨fun ha _ => exec_of_reserved_matrix hf ha, fun ha _ => exec_of_not_work hf ha,
    fun ha _ => exec_of_no_module hf ha, fun ha hb _ => exec_algebra_of_reserved hf ha hb,
    fun ha hb hne _ => exec_algebra_of_shapes hf ha hb hne, exec_accAddm_of_sample_shape hf,
    exec_accAddm_of_reserved_sample hf,
    fun ha hb hnone hc => exec_accAddm_of_reserved_mask hf ha hb hc hnone,
    exec_accAddm_of_mask_shape hf,
    fun ha hnone hb => exec_cmApply_of_reserved_mask hf ha hb hnone,
    fun ha hb hnone hc => exec_cmApply_of_reserved_noise hf ha hb hc hnone,
    exec_cmApply_of_mask_shape hf, exec_cmApply_of_noise_shape hf⟩

end Sys2Proof.Machine
end

section
/-! The calibration commands (45_calibration.md): their encodings, the checks and the decision of
Add, and for each command the next state of every way it can end. -/

namespace Sys2Proof.Machine

open Sys2Proof

/-! ### The encodings (30_encoding.md R332) -/

/-- The calibration commands with their OPs and the operand fields they use. -/
def calibrationOpcodes : List (BitVec 8 × (BitVec 8 → BitVec 8 → BitVec 8 → Instr)) :=
  [(0x50, fun a _ _ => .accClear a), (0x51, fun a _ _ => .accAdd a), (0x52, .accAddm),
    (0x53, fun a b _ => .accRead a b), (0x54, fun a _ _ => .calCommit a),
    (0x55, fun a _ _ => .calInit a), (0x56, fun a _ _ => .calLoad a)]

theorem decodesTo_calibrationOpcode {op : BitVec 8} {i : BitVec 8 → BitVec 8 → BitVec 8 → Instr}
    (h : (op, i) ∈ calibrationOpcodes) : decodesTo op i := fun w hop => by
  simp only [decodeCommand, hop]
  simp only [calibrationOpcodes, List.mem_cons, List.not_mem_nil, or_false, Prod.mk.injEq] at h
  rcases h with ⟨rfl, rfl⟩ | ⟨rfl, rfl⟩ | ⟨rfl, rfl⟩ | ⟨rfl, rfl⟩ | ⟨rfl, rfl⟩ | ⟨rfl, rfl⟩
    | ⟨rfl, rfl⟩
  all_goals rfl

/-! ### NaNs (00_scope.md R15) -/

/-- Whatever its sign and payload are, its 12 bits below the sign are set. -/
theorem fIsNaN_fNaN (p : BitVec 52) : fIsNaN (fNaN p) = true := by
  have bits : (fNaN p).toNat
      = (p.extractLsb' 51 1).toNat * 2 ^ 63 + (0xFFF * 2 ^ 51 + (p.extractLsb' 0 51).toNat) := by
    rw [fNaN, toNat_fields, toNat_fields]
    rfl
  simp only [fIsNaN, fMag, fInfMag, bits, decide_eq_true_eq]
  omega

theorem fIsNaN_nanAt (s : State) (op k : Nat) : fIsNaN (nanAt s op k) = true := fIsNaN_fNaN _

theorem fSqrt_of_nan (n : F64) {x : F64} (h : fIsNaN x = true) : fSqrt n x = n := if_pos h

theorem fMul_of_nan (n : F64) {x : F64} (h : fIsNaN x = true) (y : F64) : fMul n x y = n := by
  have not_one : x ≠ fOne := by
    rintro rfl
    exact absurd h (by decide)
  rw [fMul, if_neg not_one, h, Bool.true_or, if_pos rfl]

theorem fDiv_zero_zero (n : F64) : fDiv n 0 0 = n := rfl

theorem fLt_of_nan {x : F64} (h : fIsNaN x = true) (y : F64) : fLt x y = false := by
  rw [fLt, h, Bool.not_true, Bool.false_and, Bool.false_and]

/-! ### The checks of Add (R600) -/

/-- A sigma cut that raises CONFIG. -/
def BadCut (c : F64) : Prop := fIsNaN c = true ∨ fLt c 0 = true

/-- A sample and a weight that Add takes. -/
structure GoodSample (x w : F64) : Prop where
  sample : fFinite x = true
  weight : fFinite w = true
  positive : fLt 0 w = true

section
variable {x w c : F64} {k : Except Raise State}

theorem checkCut_of_bad (h : BadCut c) : checkCut c k = .error ⟨.config, 0x098⟩ :=
  if_pos (Bool.or_eq_true_iff.2 h)

theorem checkCut_of_legal (h : ¬ BadCut c) : checkCut c k = k :=
  if_neg (mt Bool.or_eq_true_iff.1 h)

theorem checkSample_of_infinite (h : ¬ fFinite x = true) :
    checkSample x w c k = .error ⟨.badOperand, 0⟩ := if_pos (by simpa using h)

theorem checkSample_of_weight (hx : fFinite x = true) (h : ¬ (fFinite w = true ∧ fLt 0 w = true)) :
    checkSample x w c k = .error ⟨.badOperand, 1⟩ := by
  have bad : (!fFinite w || !fLt fZero w) = true := by
    rw [← Bool.not_and, Bool.not_eq_true', ← Bool.not_eq_true]
    exact mt Bool.and_eq_true_iff.1 h
  rw [checkSample, hx, if_neg (by decide), if_pos bad, raise_eq]

theorem checkSample_of_good (h : GoodSample x w) : checkSample x w c k = checkCut c k := by
  have positive : fLt fZero w = true := h.positive
  rw [checkSample, h.sample, h.weight, positive, if_neg (by decide), if_neg (by decide)]

/-- What Add does not take it raises, whatever would follow. -/
theorem checkSample_raises (h : ¬ (GoodSample x w ∧ ¬ BadCut c)) :
    ∃ r, ∀ k, checkSample x w c k = .error r := by
  by_cases hx : fFinite x = true
  · by_cases hw : fFinite w = true ∧ fLt 0 w = true
    · have good : GoodSample x w := ⟨hx, hw.1, hw.2⟩
      have bad : BadCut c := by
        by_contra hc
        exact h ⟨good, hc⟩
      exact ⟨_, fun _ => (checkSample_of_good good).trans (checkCut_of_bad bad)⟩
    · exact ⟨_, fun _ => checkSample_of_weight hx hw⟩
  · exact ⟨_, fun _ => checkSample_of_infinite hx⟩

end

/-! ### The decision of Add (R600, R603) -/

theorem rejects_iff (nan : Nat → F64) (x c : F64) (p : AccCell) :
    rejects nan x c p = true ↔ fLt 0 c = true
      ∧ fLt (fMul (nan 3) (sigma nan p) c) (fAbs (fSub (nan 2) x p.mean)) = true :=
  Bool.and_eq_true_iff

/-- 0 /f 0 is a NaN, and so are its root and the bound, which no deviation exceeds (R603). -/
theorem rejects_of_no_entries {nan : Nat → F64} (hnan : ∀ op, fIsNaN (nan op) = true)
    (x c mean : F64) : rejects nan x c ⟨0, mean, 0⟩ = false := by
  have bound : fMul (nan 3) (sigma nan ⟨0, mean, 0⟩) c = nan 3 := by
    rw [sigma, fDiv_zero_zero, fSqrt_of_nan _ (hnan 0), fMul_of_nan _ (hnan 1)]
  rw [rejects, bound, fLt_of_nan (hnan 3), Bool.and_false]

/-! ### The pixels of an accumulator -/

theorem accCell_of_getElem? {acc : Acc} {k : Nat} {p : AccCell} (h : acc.cells[k]? = some p) :
    accCell acc k = p := by
  rw [accCell, List.getD_eq_getElem?_getD, h, Option.getD_some]

/-- Writing back what an accumulator holds changes nothing. -/
theorem writeAcc_readAcc {m : Nat} (hm : m < 16) (s : State) : writeAcc m (readAcc s m) s = s := by
  have same : s.accs.setIfInBounds m (readAcc s m) = s.accs := by
    refine Vector.ext fun j hj => ?_
    rw [Vector.getElem_setIfInBounds hj]
    split
    · subst_vars
      simp [readAcc, hm]
    · rfl
  rw [writeAcc, same]

/-- A pixel put back as it was. -/
theorem writeAcc_set_same {m k : Nat} {p : AccCell} {s : State} (hm : m < 16)
    (h : (readAcc s m).cells[k]? = some p) :
    writeAcc m { readAcc s m with cells := (readAcc s m).cells.set k p } s = s := by
  obtain ⟨inside, rfl⟩ := List.getElem?_eq_some_iff.1 h
  rw [List.set_getElem_self]
  exact writeAcc_readAcc hm s

/-- What ACC_READ may answer of the pixel ARG_N0, by the selector in B (R613). -/
def accStatistics (s : State) (p : AccCell) : List (BitVec 8 × F64) :=
  [(0, p.entries), (1, p.mean), (2, p.var), (3, sigma (fun op => nanAt s op s.argN0.toNat) p)]

section
variable {s : State} {a b : BitVec 8} (hf : s.fault = false) (ha : a.toNat ≤ 15)
include hf ha

/-! ### ACC_CLEAR (R610) -/

theorem exec_accClear (hx : s.argN0.toNat ≤ Config.maxPixels)
    (hy : s.argN1.toNat ≤ Config.maxPixels)
    (hxy : s.argN0.toNat * s.argN1.toNat ≤ Config.maxPixels) :
    exec (.accClear a) s = .next (finish (writeAcc a.toNat
      { nX := s.argN0.toNat, nY := s.argN1.toNat
        cells := List.replicate (s.argN0.toNat * s.argN1.toNat) accZero } s)) :=
  command_ok hf ((checkModule_of_le _ ha).trans (checkExtents_of_le _ ⟨hx, hy, hxy⟩))

theorem exec_accClear_of_large (h : Config.maxPixels < s.argN0.toNat
    ∨ Config.maxPixels < s.argN1.toNat ∨ Config.maxPixels < s.argN0.toNat * s.argN1.toNat) :
    exec (.accClear a) s = .next (faultEntry ⟨.capacity, s.argN0⟩ s) :=
  command_error hf ((checkModule_of_le _ ha).trans (checkExtents_of_gt _ h))

/-! ### ACC_ADD (R611) -/

theorem exec_accAdd_of_outside
    (h : (readAcc s a.toNat).nX * (readAcc s a.toNat).nY ≤ s.argN0.toNat) :
    exec (.accAdd a) s = .next (faultEntry ⟨.outOfBounds, s.argN0⟩ s) :=
  command_error hf ((checkModule_of_le _ ha).trans (checkFlat_of_ge h _))

theorem exec_accAdd_of_check {r : Raise}
    (hin : s.argN0.toNat < (readAcc s a.toNat).nX * (readAcc s a.toNat).nY)
    (hr : ∀ k, checkSample s.argX s.argW s.cfgSigmaCut k = .error r) :
    exec (.accAdd a) s = .next (faultEntry r s) :=
  command_error hf ((checkModule_of_le _ ha).trans ((checkFlat_of_lt hin _).trans (hr _)))

section
variable {p : AccCell} (hin : s.argN0.toNat < (readAcc s a.toNat).nX * (readAcc s a.toNat).nY)
  (hp : (readAcc s a.toNat).cells[s.argN0.toNat]? = some p) (hs : GoodSample s.argX s.argW)
  (hc : ¬ BadCut s.cfgSigmaCut)
include hin hp hs hc

theorem exec_accAdd_of_added {q : AccCell} {accepted : Bool}
    (h : addSample (fun op => nanAt s op s.argN0.toNat) s.argX s.argW s.cfgSigmaCut p
      = (q, accepted)) :
    exec (.accAdd a) s = .next (finish (draw { writeAcc a.toNat { readAcc s a.toNat with
      cells := (readAcc s a.toNat).cells.set s.argN0.toNat q } s with
        resN0 := if accepted then 1 else 0 })) := by
  refine command_ok hf ?_
  rw [checkModule_of_le _ ha, checkFlat_of_lt hin, checkSample_of_good hs, checkCut_of_legal hc,
    accCell_of_getElem? hp, h]

/-- A rejected sample leaves the accumulator as it was. -/
theorem exec_accAdd_of_rejected
    (h : rejects (fun op => nanAt s op s.argN0.toNat) s.argX s.cfgSigmaCut p = true) :
    exec (.accAdd a) s = .next (finish (draw { s with resN0 := 0 })) :=
  calc exec (.accAdd a) s
    _ = .next (finish (draw { writeAcc a.toNat { readAcc s a.toNat with
          cells := (readAcc s a.toNat).cells.set s.argN0.toNat p } s with resN0 := 0 })) :=
        exec_accAdd_of_added hf ha hin hp hs hc (if_pos h)
    _ = .next (finish (draw { s with resN0 := 0 })) := by
        rw [writeAcc_set_same (Nat.lt_succ_of_le ha) hp]

theorem exec_accAdd_of_accepted
    (h : rejects (fun op => nanAt s op s.argN0.toNat) s.argX s.cfgSigmaCut p = false) :
    exec (.accAdd a) s = .next (finish (draw { writeAcc a.toNat { readAcc s a.toNat with
      cells := (readAcc s a.toNat).cells.set s.argN0.toNat
        (welford (fun op => nanAt s op s.argN0.toNat) s.argX s.argW p) } s with resN0 := 1 })) :=
  exec_accAdd_of_added hf ha hin hp hs hc (if_neg (Bool.not_eq_true _ ▸ h))

end

/-- ACC_ADD ends without a fault only where its checks let the sample through. -/
theorem checks_of_accAdd {t : State}
    (hin : s.argN0.toNat < (readAcc s a.toNat).nX * (readAcc s a.toNat).nY)
    (ht : exec (.accAdd a) s = .next t) (hft : t.fault = false) :
    GoodSample s.argX s.argW ∧ ¬ BadCut s.cfgSigmaCut := by
  by_contra hbad
  obtain ⟨r, hr⟩ := checkSample_raises hbad
  rw [exec_accAdd_of_check hf ha hin hr] at ht
  cases ht
  cases hft

/-! ### ACC_READ (R602, R613) -/

theorem exec_accRead_of_selector (hb : 3 < b.toNat) :
    exec (.accRead a b) s = .next (faultEntry ⟨.illegalOperand, b.setWidth 32⟩ s) :=
  command_error hf ((checkModule_of_le _ ha).trans (if_pos hb))

theorem exec_accRead_of_outside (hb : b.toNat ≤ 3)
    (h : (readAcc s a.toNat).nX * (readAcc s a.toNat).nY ≤ s.argN0.toNat) :
    exec (.accRead a b) s = .next (faultEntry ⟨.outOfBounds, s.argN0⟩ s) :=
  command_error hf ((checkModule_of_le _ ha).trans
    ((if_neg (Nat.not_lt.2 hb)).trans (checkFlat_of_ge h _)))

theorem exec_accRead {p : AccCell} {r : F64}
    (hin : s.argN0.toNat < (readAcc s a.toNat).nX * (readAcc s a.toNat).nY)
    (hp : (readAcc s a.toNat).cells[s.argN0.toNat]? = some p) (hr : (b, r) ∈ accStatistics s p) :
    exec (.accRead a b) s = .next (finish (draw { s with
      resF := r, resN0 := BitVec.ofNat 32 (readAcc s a.toNat).nX
      resN1 := BitVec.ofNat 32 (readAcc s a.toNat).nY })) := by
  refine command_ok hf ?_
  rw [checkModule_of_le _ ha, checkFlat_of_lt hin, accCell_of_getElem? hp]
  simp only [accStatistics, List.mem_cons, List.not_mem_nil, or_false, Prod.mk.injEq] at hr
  rcases hr with ⟨rfl, rfl⟩ | ⟨rfl, rfl⟩ | ⟨rfl, rfl⟩ | ⟨rfl, rfl⟩
  all_goals rfl

/-! ### CAL_COMMIT (R620) -/

theorem exec_calCommit :
    exec (.calCommit a) s = .next (finish (draw
      (writeMat (noiseId a.toNat)
        (matFill (readAcc s a.toNat).nX (readAcc s a.toNat).nY
          ((readAcc s a.toNat).cells.mapIdx fun k p => sigma (fun op => nanAt s op k) p)
          (readMat s (noiseId a.toNat)))
        (writeMat (pedId a.toNat)
          (matFill (readAcc s a.toNat).nX (readAcc s a.toNat).nY
            ((readAcc s a.toNat).cells.map AccCell.mean) (readMat s (pedId a.toNat))) s)))) :=
  command_ok hf (checkModule_of_le _ ha)

/-! ### CAL_INIT (R621) -/

theorem exec_calInit (hx : s.argN0.toNat ≤ Config.maxPixels) (hy : s.argN1.toNat ≤ Config.maxPixels)
    (hxy : s.argN0.toNat * s.argN1.toNat ≤ Config.maxPixels) :
    exec (.calInit a) s = .next (finish (writeModule a.toNat
      (matResize s.argN0.toNat s.argN1.toNat (readMat s (pedId a.toNat)))
      (matResize s.argN0.toNat s.argN1.toNat (readMat s (noiseId a.toNat)))
      (matResize s.argN0.toNat s.argN1.toNat (readMat s (maskId a.toNat))) s)) :=
  command_ok hf ((checkModule_of_le _ ha).trans (checkExtents_of_le _ ⟨hx, hy, hxy⟩))

theorem exec_calInit_of_large (h : Config.maxPixels < s.argN0.toNat
    ∨ Config.maxPixels < s.argN1.toNat ∨ Config.maxPixels < s.argN0.toNat * s.argN1.toNat) :
    exec (.calInit a) s = .next (faultEntry ⟨.capacity, s.argN0⟩ s) :=
  command_error hf ((checkModule_of_le _ ha).trans (checkExtents_of_gt _ h))

/-! ### CAL_LOAD (R622) -/

theorem exec_calLoad_of_outside (h : (readMat s (pedId a.toNat)).nX ≤ s.argN0.toNat
    ∨ (readMat s (pedId a.toNat)).nY ≤ s.argN1.toNat) :
    exec (.calLoad a) s = .next (faultEntry ⟨.outOfBounds, xyInfo s.argN0 s.argN1⟩ s) :=
  command_error hf ((checkModule_of_le _ ha).trans (checkXY_of_outside h _))

section
variable {k : Nat} (hx : s.argN0.toNat < (readMat s (pedId a.toNat)).nX)
  (hy : s.argN1.toNat < (readMat s (pedId a.toNat)).nY)
  (hk : k = s.argN0.toNat * (readMat s (pedId a.toNat)).nY + s.argN1.toNat)
include hx hy hk

/-- The index is in PED and past MASK or NOISE (log 13). -/
theorem exec_calLoad_of_past (h : matPixels (readMat s (maskId a.toNat)) ≤ k
    ∨ matPixels (readMat s (noiseId a.toNat)) ≤ k) :
    exec (.calLoad a) s = .next (faultEntry ⟨.outOfBounds, BitVec.ofNat 32 k⟩ s) := by
  subst hk
  exact command_error hf ((checkModule_of_le _ ha).trans
    ((checkXY_of_inside hx hy _).trans (if_pos h)))

theorem exec_calLoad (hmask : k < matPixels (readMat s (maskId a.toNat)))
    (hnoise : k < matPixels (readMat s (noiseId a.toNat))) :
    exec (.calLoad a) s = .next (finish (writeModule a.toNat
      (matPut k s.argX (readMat s (pedId a.toNat)))
      (matPut k s.argW (readMat s (noiseId a.toNat)))
      (matPut k (fOfInt (s.argN2.toNat : Int)) (readMat s (maskId a.toNat))) s)) := by
  subst hk
  refine command_ok hf ?_
  rw [checkModule_of_le _ ha, checkXY_of_inside hx hy, if_neg (by omega), writeModule_of_load]

end

end

/-! ### The snapshots of a module after a write (R620 to R622) -/

theorem readMat_finish (s : State) (id : Nat) : readMat (finish s) id = readMat s id :=
  readMat_congr rfl id

theorem readMat_draw (s : State) (id : Nat) : readMat (draw s) id = readMat s id :=
  readMat_congr rfl id

/-- A command that writes two matrices and draws free values changes nothing else. -/
theorem finish_draw_writeMat_writeMat (i j : Nat) (m m' : Mat) (s : State) :
    finish (draw (writeMat i m (writeMat j m' s))) = { s with
      mats := (finish (draw (writeMat i m (writeMat j m' s)))).mats
      freeTick := s.freeTick + 1, busy := false } := by
  simp only [finish, draw, writeMat]

/-- A command that writes the snapshots of a module changes nothing else. -/
theorem finish_writeModule (m : Nat) (ped noise mask : Mat) (s : State) :
    finish (writeModule m ped noise mask s) = { s with
      mats := (finish (writeModule m ped noise mask s)).mats, busy := false } := by
  simp only [finish, writeModule, writeMat]

section
variable {m id : Nat} {ped noise mask : Mat}

/-- The ids of PED, NOISE and MASK of a module. -/
def snapshotIds (m : Nat) : List Nat := [pedId m, noiseId m, maskId m]

theorem readMat_writeModule_others (s : State) (h : id ∉ snapshotIds m) :
    readMat (finish (writeModule m ped noise mask s)) id = readMat s id := by
  rw [readMat_finish]
  simp only [snapshotIds, List.mem_cons, List.not_mem_nil, or_false, not_or] at h
  obtain ⟨hped, hnoise, hmask⟩ := h
  exact readMat_writeModule_ne _ _ _ s hped hnoise hmask

end

/-! ### ACC_ADDM (R612) -/

theorem firstBad_eq_some {mask : Option Mat} {d : List F64} {k : Nat} {v : F64}
    (hv : d[k]? = some v) (hmask : maskedAt mask k = false) (hbad : ¬ fFinite v = true)
    (hfirst : ∀ k' v', k' < k → d[k']? = some v' → maskedAt mask k' = true ∨ fFinite v' = true) :
    firstBad mask d = some k := by
  have pixel : d.getD k fZero = v := by rw [List.getD_eq_getElem?_getD, hv, Option.getD_some]
  obtain ⟨inside, -⟩ := List.getElem?_eq_some_iff.1 hv
  refine List.find?_range_eq_some.2 ⟨?_, List.mem_range.2 inside, fun j hj => ?_⟩
  · rw [pixel, hmask, Bool.eq_false_iff.2 hbad]
    rfl
  · rw [List.getD_eq_getElem _ _ (hj.trans inside)]
    rcases hfirst j _ hj (List.getElem?_eq_getElem (hj.trans inside)) with h | h
    · rw [h]
      rfl
    · rw [h, Bool.not_true, Bool.and_false]
      rfl

theorem firstBad_eq_none {mask : Option Mat} {d : List F64}
    (h : ∀ k v, d[k]? = some v → maskedAt mask k = false → fFinite v = true) :
    firstBad mask d = none := by
  refine List.find?_range_eq_none.2 fun k hk => ?_
  rw [List.getD_eq_getElem _ _ hk]
  cases hmask : maskedAt mask k with
  | true => rfl
  | false =>
    rw [h k _ (List.getElem?_eq_getElem hk) hmask]
    rfl

/-- What adding pixel `k` of a matrix to an accumulator gives, where it is not masked. -/
def addmSample (s : State) (m : Mat) (acc : Acc) (k : Nat) : AccCell × Bool :=
  addSample (fun op => nanAt s op k) (matElem m k) fOne s.cfgSigmaCut (accCell acc k)

/-- The same with the mask: what `addMatrix` holds for pixel `k`. -/
def addmPixel (s : State) (mask : Option Mat) (m : Mat) (acc : Acc) (k : Nat) :
    AccCell × Option Bool :=
  if maskedAt mask k then (accCell acc k, none)
  else ((addmSample s m acc k).1, some (addmSample s m acc k).2)

theorem addMatrix_eq_map (s : State) (mask : Option Mat) (m : Mat) (acc : Acc) :
    addMatrix s mask m acc = (List.range acc.cells.length).map (addmPixel s mask m acc) := by
  refine List.ext_getElem (by simp [addMatrix]) fun k hk hk' => ?_
  have inside : k < acc.cells.length := by simpa using hk'
  have cell : accCell acc k = acc.cells[k] := List.getD_eq_getElem _ _ inside
  simp [addMatrix, addmPixel, addmSample, cell]

theorem addmPixel_count (s : State) (mask : Option Mat) (m : Mat) (acc : Acc) (k : Nat) (b : Bool) :
    ((addmPixel s mask m acc k).2 == some b)
      = (!maskedAt mask k && ((addmSample s m acc k).2 == b)) := by
  cases hmask : maskedAt mask k <;> simp [addmPixel, hmask]

theorem countP_addMatrix (s : State) (mask : Option Mat) (m : Mat) (acc : Acc) (b : Bool) :
    (addMatrix s mask m acc).countP (fun p => p.2 == some b)
      = (List.range acc.cells.length).countP fun k =>
          !maskedAt mask k && ((addmSample s m acc k).2 == b) := by
  rw [addMatrix_eq_map, List.countP_map]
  exact congrArg (fun q => List.countP q _) (funext fun k => addmPixel_count s mask m acc k b)

theorem addMatrix_cells_getElem? (s : State) (mask : Option Mat) (m : Mat) (acc : Acc) {k : Nat}
    (hk : k < acc.cells.length) :
    ((addMatrix s mask m acc).map Prod.fst)[k]?
      = if maskedAt mask k then acc.cells[k]? else some (addmSample s m acc k).1 := by
  have cell : acc.cells[k]? = some (accCell acc k) := by
    rw [accCell, List.getD_eq_getElem _ _ hk, List.getElem?_eq_getElem hk]
  rw [addMatrix_eq_map, List.map_map, List.getElem?_map, List.getElem?_range hk, cell]
  cases hmask : maskedAt mask k <;> simp [addmPixel, hmask]

/-- What ACC_ADDM leaves of the pixels it has added: the accumulator and the two counts. -/
def matrixAdded (m : Nat) (pixels : List (AccCell × Option Bool)) (s : State) : State :=
  draw { writeAcc m { readAcc s m with cells := pixels.map Prod.fst } s with
    resN0 := BitVec.ofNat 32 (pixels.countP fun p => p.2 == some true)
    resN1 := BitVec.ofNat 32 (pixels.countP fun p => p.2 == some false) }

theorem readAcc_matrixAdded {m : Nat} (hm : m < 16) (pixels : List (AccCell × Option Bool))
    (s : State) (j : Nat) : readAcc (finish (matrixAdded m pixels s)) j
      = if j = m then { readAcc s m with cells := pixels.map Prod.fst } else readAcc s j :=
  readAcc_writeAcc m j _ s hm

theorem finish_matrixAdded (m : Nat) (pixels : List (AccCell × Option Bool)) (s : State) :
    finish (matrixAdded m pixels s) = { s with
      accs := (finish (matrixAdded m pixels s)).accs, freeTick := s.freeTick + 1, busy := false
      resN0 := BitVec.ofNat 32 (pixels.countP fun p => p.2 == some true)
      resN1 := BitVec.ofNat 32 (pixels.countP fun p => p.2 == some false) } := rfl

/-- Operands that ACC_ADDM takes: a module, a sample and a mask or none, all of one shape. -/
structure AddmOperands (a b c : BitVec 8) (s : State) (mask : Option Mat) : Prop where
  number : a.toNat ≤ 15
  sample : b.toNat < 184
  mask : c = 0xFF ∧ mask = none ∨ c.toNat < 184 ∧ mask = some (readMat s c.toNat)
    ∧ (readMat s c.toNat).nX = (readMat s b.toNat).nX
    ∧ (readMat s c.toNat).nY = (readMat s b.toNat).nY
  nX : (readAcc s a.toNat).nX = (readMat s b.toNat).nX
  nY : (readAcc s a.toNat).nY = (readMat s b.toNat).nY

namespace AddmOperands
variable {a b c : BitVec 8} {s : State} {mask : Option Mat} (h : AddmOperands a b c s mask)
include h

theorem mask_allowed : c = 0xFF ∨ c.toNat < 184 ∧ (readMat s c.toNat).nX = (readMat s b.toNat).nX
    ∧ (readMat s c.toNat).nY = (readMat s b.toNat).nY :=
  h.mask.imp And.left fun ⟨hlt, _, hshape⟩ => ⟨hlt, hshape⟩

theorem mask_eq : (optionalId c).map (readMat s) = mask := by
  rcases h.mask with ⟨rfl, rfl⟩ | ⟨hlt, rfl, -⟩
  · rfl
  · rw [optionalId_of_lt hlt, Option.map_some]

/-- Past the operands, the cut is checked, and then the pixels. -/
theorem exec_eq : ∃ k, exec (.accAddm a b c) s = command s (checkCut s.cfgSigmaCut k)
    ∧ (∀ j, firstBad mask (readMat s b.toNat).data = some j →
      k = .error ⟨.badOperand, BitVec.ofNat 32 j⟩)
    ∧ (firstBad mask (readMat s b.toNat).data = none →
      k = .ok (matrixAdded a.toNat
        (addMatrix s mask (readMat s b.toNat) (readAcc s a.toNat)) s)) := by
  have shape : ¬¬((readAcc s a.toNat).nX = (readMat s b.toNat).nX
    ∧ (readAcc s a.toNat).nY = (readMat s b.toNat).nY) := not_not.2 ⟨h.nX, h.nY⟩
  have mask_shape : ¬¬(mask.all fun q => sameDims q (readMat s b.toNat)) = true :=
    not_not.2 (h.mask_eq ▸ optional_sameDims h.mask_allowed)
  simp only [exec, execAccAddm, checkModule_of_le _ h.number, checkMat_of_lt _ h.sample,
    checkMatOrNone_of_allowed (h.mask_allowed.imp_right And.left), h.mask_eq, if_neg shape,
    if_neg mask_shape]
  refine ⟨_, rfl, fun j hj => ?_, fun hnone => ?_⟩
  · rw [hj]
    rfl
  · rw [hnone]
    rfl

variable (hf : s.fault = false)
include hf

theorem exec_of_bad_cut (hc : BadCut s.cfgSigmaCut) :
    exec (.accAddm a b c) s = .next (faultEntry ⟨.config, 0x098⟩ s) := by
  obtain ⟨k, runs, -, -⟩ := h.exec_eq
  rw [runs]
  exact command_error hf (checkCut_of_bad hc)

theorem exec_of_bad_pixel (hc : ¬ BadCut s.cfgSigmaCut) {j : Nat}
    (hj : firstBad mask (readMat s b.toNat).data = some j) :
    exec (.accAddm a b c) s = .next (faultEntry ⟨.badOperand, BitVec.ofNat 32 j⟩ s) := by
  obtain ⟨k, runs, raises, -⟩ := h.exec_eq
  rw [runs]
  exact command_error hf ((checkCut_of_legal hc).trans (raises j hj))

theorem exec_of_finite (hc : ¬ BadCut s.cfgSigmaCut)
    (hnone : firstBad mask (readMat s b.toNat).data = none) :
    exec (.accAddm a b c) s = .next (finish (matrixAdded a.toNat
      (addMatrix s mask (readMat s b.toNat) (readAcc s a.toNat)) s)) := by
  obtain ⟨k, runs, -, adds⟩ := h.exec_eq
  rw [runs]
  exact command_ok hf ((checkCut_of_legal hc).trans (adds hnone))

end AddmOperands

/-! ### The obligations -/

/-- Settles O24: the checks in order, and then the two ways of Add. -/
theorem accAddUpdatesOrRejects : Obligations.AccAddUpdatesOrRejects := by
  refine ⟨decodesTo_calibrationOpcode (by simp [calibrationOpcodes]), fun a s hf =>
    ⟨fun ha => exec_of_no_module (b := 0) (c := 0) hf ha (by simp [moduleCommands]),
      exec_accAdd_of_outside hf⟩, fun a s e mu v hf ha hin hp => ⟨fun hx => ?_, fun hx hw => ?_,
      fun hx hw hpos hc => ?_, ?_⟩⟩
  · exact exec_accAdd_of_check hf ha hin fun _ => checkSample_of_infinite hx
  · exact exec_accAdd_of_check hf ha hin fun _ => checkSample_of_weight hx hw
  · exact exec_accAdd_of_check hf ha hin fun _ =>
      (checkSample_of_good ⟨hx, hw, hpos⟩).trans (checkCut_of_bad hc)
  · intro hx hw hpos hc n hn d e1 mu1 sg hd he1 hmu1 hsg
    obtain rfl : n = fun op => nanAt s op s.argN0.toNat := funext hn
    subst hd he1 hmu1 hsg
    split
    · exact exec_accAdd_of_rejected hf ha hin hp ⟨hx, hw, hpos⟩ hc ((rejects_iff ..).2 ‹_›)
    · exact exec_accAdd_of_accepted hf ha hin hp ⟨hx, hw, hpos⟩ hc
        (Bool.eq_false_iff.2 (mt (rejects_iff ..).1 ‹_›))

/-- Settles O25: a pixel with no entries rejects nothing. -/
theorem firstSampleIsAccepted : Obligations.FirstSampleIsAccepted := by
  intro a s t hf ha hin hp ht hft
  obtain ⟨good, legal⟩ := checks_of_accAdd hf ha hin ht hft
  rw [exec_accAdd_of_accepted hf ha hin hp good legal
    (rejects_of_no_entries (fun op => fIsNaN_nanAt s op _) _ _ _)] at ht
  cases ht
  rfl

/-- Settles O26: the cut, then the first bad pixel, then each pixel by `addMatrix`. -/
theorem accAddmAddsEveryUnmaskedPixel : Obligations.AccAddmAddsEveryUnmaskedPixel := by
  intro a b c s mask p hf ha hb hmask _ _ hx hy hp
  have operands : AddmOperands a b c s mask := ⟨ha, hb, hmask, hx, hy⟩
  obtain rfl : p = addmSample s (readMat s b.toNat) (readAcc s a.toNat) := funext hp
  have hm : a.toNat < 16 := Nat.lt_succ_of_le ha
  refine ⟨operands.exec_of_bad_cut hf, fun hc => ⟨fun k v hv hunmasked hbad hfirst =>
    operands.exec_of_bad_pixel hf hc (firstBad_eq_some hv hunmasked hbad hfirst), fun hall =>
    ⟨_, operands.exec_of_finite hf hc (firstBad_eq_none hall), ?_, fun m hne => ?_, ?_,
      fun k hk => ?_⟩⟩⟩
  · simpa only [countP_addMatrix, beq_true, beq_false] using finish_matrixAdded a.toNat
      (addMatrix s mask (readMat s b.toNat) (readAcc s a.toNat)) s
  · rw [readAcc_matrixAdded hm, if_neg hne]
  · rw [readAcc_matrixAdded hm, if_pos rfl]
  · rw [readAcc_matrixAdded hm, if_pos rfl]
    exact addMatrix_cells_getElem? s mask _ _ hk

/-- Settles O28: PED's write and NOISE's, at the two ids; the sigmas are computed pixel by pixel. -/
theorem calCommitReplacesSnapshots : Obligations.CalCommitReplacesSnapshots := by
  refine ⟨decodesTo_calibrationOpcode (by simp [calibrationOpcodes]), fun a s hf ha =>
    exec_of_no_module (b := 0) (c := 0) hf ha (by simp [moduleCommands]), fun a s hf ha _ =>
    ⟨_, exec_calCommit hf ha, finish_draw_writeMat_writeMat .., ?_⟩⟩
  have ped_lt : pedId a.toNat < 184 := by
    unfold pedId
    omega
  have noise_lt : noiseId a.toNat < 184 := by
    unfold noiseId
    omega
  have ped_ne_noise : pedId a.toNat ≠ noiseId a.toNat := by
    unfold pedId noiseId
    omega
  rw [show 0x80 + a.toNat = pedId a.toNat from rfl, show 0x90 + a.toNat = noiseId a.toNat from rfl]
  simp only [readMat_finish, readMat_draw, readMat_writeMat_same _ _ _ noise_lt,
    readMat_writeMat_ne _ _ _ _ ped_ne_noise, readMat_writeMat_same _ _ _ ped_lt]
  refine ⟨fun id hped hnoise => ?_, rfl, rfl, List.length_mapIdx, fun k p hp => ?_⟩
  · rw [readMat_writeMat_ne _ _ _ _ hnoise, readMat_writeMat_ne _ _ _ _ hped]
  · exact List.getElem?_mapIdx.trans (congrArg _ hp)

/-- Settles O29: the checks, and then the writes of the three snapshots. -/
theorem calInitAndLoad : Obligations.CalInitAndLoad := by
  refine ⟨decodesTo_calibrationOpcode (by simp [calibrationOpcodes]),
    decodesTo_calibrationOpcode (by simp [calibrationOpcodes]), fun a s hf ha i hi => ?_,
    fun a s hf ha => ?_⟩
  · have snapshots : [Instr.calInit a, .calLoad a] ⊆ moduleCommands a 0 0 := by
      simp [moduleCommands]
    exact exec_of_no_module hf ha (snapshots hi)
  have hm : a.toNat < 16 := Nat.lt_succ_of_le ha
  refine ⟨fun hx hy hxy => ⟨_, exec_calInit hf ha hx hy hxy, finish_writeModule ..,
      fun id => readMat_writeModule_others s, fun id hid => ?_⟩, exec_calInit_of_large hf ha,
    exec_calLoad_of_outside hf ha, fun k hx hy hk => ⟨fun hpast => ?_, fun hin => ?_⟩⟩
  · simp only [List.mem_cons, List.not_mem_nil, or_false] at hid
    rw [readMat_finish]
    rcases hid with rfl | rfl | rfl
    · exact readMat_writeModule_ped hm _ _ _ s
    · exact readMat_writeModule_noise hm _ _ _ s
    · exact readMat_writeModule_mask hm _ _ _ s
  · simp only [List.mem_cons, List.not_mem_nil, or_false, exists_eq_or_imp, exists_eq_left] at hpast
    exact exec_calLoad_of_past hf ha hx hy hk hpast.symm
  · have in_noise := hin (noiseId a.toNat) (by simp [noiseId])
    have in_mask := hin (maskId a.toNat) (by simp [maskId])
    refine ⟨_, exec_calLoad hf ha hx hy hk in_mask in_noise, finish_writeModule ..,
      fun id => readMat_writeModule_others s, fun id v hv => ?_⟩
    simp only [List.mem_cons, List.not_mem_nil, or_false, Prod.mk.injEq] at hv
    rw [readMat_finish]
    rcases hv with ⟨rfl, rfl⟩ | ⟨rfl, rfl⟩ | ⟨rfl, rfl⟩
    · exact readMat_writeModule_ped hm _ _ _ s
    · exact readMat_writeModule_noise hm _ _ _ s
    · exact readMat_writeModule_mask hm _ _ _ s

/-- Settles O23: the module is checked first, then the extents. -/
theorem accClearZeroes : Obligations.AccClearZeroes :=
  ⟨decodesTo_calibrationOpcode (by simp [calibrationOpcodes]), fun _ _ hf =>
    ⟨fun ha => exec_of_no_module (b := 0) (c := 0) hf ha (by simp [moduleCommands]),
      exec_accClear hf, exec_accClear_of_large hf⟩⟩

/-- Settles O27: the module is checked first, then the selector, then the index. -/
theorem accReadAnswers : Obligations.AccReadAnswers :=
  ⟨decodesTo_calibrationOpcode (by simp [calibrationOpcodes]), fun _ b _ hf ha =>
    exec_of_no_module (b := b) (c := 0) hf ha (by simp [moduleCommands]), fun _ _ _ _ _ _ hf ha =>
    ⟨exec_accRead_of_selector hf ha, exec_accRead_of_outside hf ha, fun hin hp _ =>
      exec_accRead hf ha hin hp⟩⟩

end Sys2Proof.Machine
end

section
/-! The common-mode commands (46_commonmode.md): the element a median is, a stage as a function of
its data, where a stage finds a NaN, and for each command the next state of the ways it can end. -/

namespace Sys2Proof.Machine

open Sys2Proof

/-! ### The median of a selection (R654, R655) -/

section
variable {before after : List F64} {m : F64}
  (h : (before ++ m :: after).Pairwise fun a b => fKey a ≤ fKey b)
include h

/-- In an ascending list only what stands before an element can be below it. -/
theorem countP_below_le :
    (before ++ m :: after).countP (fun v => decide (fKey v < fKey m)) ≤ before.length := by
  obtain ⟨-, tail_sorted, -⟩ := List.pairwise_append.1 h
  have none_in_tail : (m :: after).countP (fun v => decide (fKey v < fKey m)) = 0 :=
    List.countP_eq_zero.2 (by simpa using (List.pairwise_cons.1 tail_sorted).1)
  rw [List.countP_append, none_in_tail]
  exact List.countP_le_length

/-- In an ascending list only what stands after an element can be above it. -/
theorem countP_above_le :
    (before ++ m :: after).countP (fun v => decide (fKey m < fKey v)) ≤ after.length := by
  obtain ⟨-, -, head_le⟩ := List.pairwise_append.1 h
  have none_in_head : before.countP (fun v => decide (fKey m < fKey v)) = 0 :=
    List.countP_eq_zero.2 (by simpa using fun v hv => head_le v hv m List.mem_cons_self)
  rw [List.countP_append, none_in_head, Nat.zero_add, List.countP_cons_of_neg (by simp)]
  exact List.countP_le_length

end

/-- The median parts the sorted selection at index size div 2. -/
theorem exists_sortAsc_eq_append {sel : List F64} (h : sel ≠ []) :
    ∃ before after, sortAsc sel = before ++ cmMedian sel :: after
      ∧ before.length = sel.length / 2 := by
  have inside : sel.length / 2 < (sortAsc sel).length := by
    rw [(sortAsc_perm sel).length_eq]
    exact Nat.div_lt_self (List.length_pos_iff.2 h) (by decide)
  have median : cmMedian sel = (sortAsc sel)[sel.length / 2] := by
    rw [cmMedian, if_neg (by simpa using h), List.getD_eq_getElem _ _ inside]
  refine ⟨(sortAsc sel).take (sel.length / 2), (sortAsc sel).drop (sel.length / 2 + 1), ?_,
    List.length_take_of_le inside.le⟩
  rw [median, ← List.drop_eq_getElem_cons, List.take_append_drop]

/-! ### Values that are finite (00_scope.md R15) -/

theorem not_nan_of_finite {v : F64} (h : fFinite v = true) : fIsNaN v = false := by
  simp only [fFinite, fIsNaN, decide_eq_true_eq, decide_eq_false_iff_not] at h ⊢
  omega

theorem not_inf_of_finite {v : F64} (h : fFinite v = true) : fIsInf v = false := by
  simp only [fFinite, decide_eq_true_eq] at h
  exact beq_eq_false_iff_ne.2 h.ne

theorem fFinite_fNeg (v : F64) : fFinite (fNeg v) = fFinite v := by
  have same : fMag (fNeg v) = fMag v := by
    rw [fMag, fNeg, BitVec.toNat_xor, Nat.xor_mod_two_pow]
    exact Nat.xor_zero _
  rw [fFinite, same, fFinite]

theorem not_nan_fMake (neg : Bool) {mag : Nat} (h : mag ≤ fInfMag) :
    fIsNaN (fMake neg mag) = false := by
  rw [fIsNaN, fMag_fMake neg (h.trans_lt (by decide))]
  exact decide_eq_false h.not_gt

/-- A sum of finite values is rounded, at most to infinity. -/
theorem not_nan_fAdd (n : F64) {a b : F64} (ha : fFinite a = true) (hb : fFinite b = true) :
    fIsNaN (fAdd n a b) = false := by
  simp only [fAdd, not_nan_of_finite ha, not_nan_of_finite hb, not_inf_of_finite ha,
    not_inf_of_finite hb, Bool.or_false, Bool.false_eq_true, if_false]
  split
  · exact not_nan_fMake _ (Nat.zero_le _)
  · exact not_nan_fMake _ (Nat.min_le_right _ _)

theorem not_nan_fSub (n : F64) {a b : F64} (ha : fFinite a = true) (hb : fFinite b = true) :
    fIsNaN (fSub n a b) = false := not_nan_fAdd n ha ((fFinite_fNeg b).trans hb)

section
variable {s : State} {g : CmStage} {nX nY j : Nat} {mask noise : Option Mat} {d : List F64}

/-! ### What a selection holds (R653) -/

/-- A selected value is that of an unmasked pixel. -/
theorem exists_pixel_of_selected {v : F64} (h : v ∈ cmSelection s g nX nY j mask noise d) :
    ∃ k, d[k]? = some v ∧ maskedAt mask k = false := by
  obtain ⟨⟨u, k⟩, hp, rfl⟩ := List.mem_map.1 h
  obtain ⟨pixel, chosen⟩ := List.mem_filter.1 hp
  simp only [Bool.and_eq_true, Bool.not_eq_true'] at chosen
  exact ⟨k, List.mem_zipIdx_iff_getElem?.1 pixel, chosen.1.2⟩

theorem finite_median (hd : ∀ k v, d[k]? = some v → maskedAt mask k = false → fFinite v = true) :
    fFinite (cmMedian (cmSelection s g nX nY j mask noise d)) = true := by
  by_cases h : cmSelection s g nX nY j mask noise d = []
  · rw [h]
    decide
  · obtain ⟨k, hk, hm⟩ := exists_pixel_of_selected (cmMedian_mem h)
    exact hd k _ hk hm

theorem stageNoNaN_of_pixels
    (hd : ∀ k v, d[k]? = some v → maskedAt mask k = false → fIsNaN v = false) (n : Nat) :
    stageNoNaN s g nX nY mask noise d n := by
  rintro - j - v hv
  obtain ⟨k, hk, hm⟩ := exists_pixel_of_selected hv
  exact hd k v hk hm

/-- The selections a stage comes to, from block `j` on, hold no NaN. -/
theorem no_nan_selected {n : Nat} (he : cmEnabled s g = true)
    (h : stageNoNaN s g nX nY mask noise d n) (hj : j < n) :
    (cmSelection s g nX nY j mask noise d).any fIsNaN = false :=
  List.any_eq_false.2 fun v hv => Bool.eq_false_iff.1 (h he j hj v hv)

/-- A block's correction is not seen by the selection of another block (R651, R653). -/
theorem cmSelection_cmCorrect (he : cmEnabled s g = true) (hl : cmLegal s g nX nY = true)
    (hd : d.length = nX * nY) {i : Nat} (hij : i ≠ j) (corr : F64) :
    cmSelection s g nX nY i mask noise (cmCorrect s g nX nY j mask corr d)
      = cmSelection s g nX nY i mask noise d := by
  refine cmSelection_congr (by simp) fun k hk hi => ?_
  rw [cmCorrect_length] at hk
  have other : ¬ cmInBlock s g nX nY j k = true := fun hj =>
    hij (((cmInBlock_iff he hl (hd ▸ hk)).1 hi).trans ((cmInBlock_iff he hl (hd ▸ hk)).1 hj).symm)
  rw [cmCorrect_getD _ _ _ _ _ _ _ _ hk, if_neg other]

/-- A selected value comes from a matrix with pixels, whose blocks are few (log 14). -/
theorem block_lt_of_selected {v : F64} (hl : cmLegal s g nX nY = true) (hd : d.length = nX * nY)
    (hmax : nX * nY ≤ Config.maxPixels) (hj : j < cmBlockCount s g nX nY)
    (hv : v ∈ cmSelection s g nX nY j mask noise d) : j < 2 ^ 16 := by
  obtain ⟨k, hk, -⟩ := exists_pixel_of_selected hv
  have pixels : 0 < nX * nY := hd ▸ Nat.zero_lt_of_lt (List.getElem?_eq_some_iff.1 hk).1
  calc j
    _ < nX * nY := hj.trans_le (cmBlockCount_le hl pixels)
    _ < 2 ^ 16 := hmax.trans_lt (by decide)

theorem cmInfo_eq (hj : j < 2 ^ 16) :
    cmInfo g j = BitVec.ofNat 32 (2 ^ 16 * (if g = .row then 0 else 1) + j) := by
  refine BitVec.eq_of_toNat_eq ?_
  rw [cmInfo, toNat_fields]
  cases g
  all_goals
    simp [cmNumber]
    omega

end

/-! ### A stage as a function of its data (R650 to R657) -/

/-- The pixels a stage leaves. -/
def cmStageData (s : State) (g : CmStage) (nX nY : Nat) (mask noise : Option Mat) (d : List F64) :
    List F64 :=
  if cmEnabled s g then
    d.mapIdx fun k v => if maskedAt mask k then fZero
      else fSub (nanAt s (2 + cmNumber g) k) v
        (cmMedian (cmSelection s g nX nY (cmBlockOf s g nX nY k) mask noise d))
  else d

/-- The corrections a stage records. -/
def cmStageCorrs (s : State) (g : CmStage) (nX nY : Nat) (mask noise : Option Mat) (d : List F64) :
    List F64 :=
  if cmEnabled s g then
    (List.range (cmBlockCount s g nX nY)).map fun j =>
      cmMedian (cmSelection s g nX nY j mask noise d)
  else []

section
variable {s : State} {g : CmStage} {nX nY : Nat} {mask noise : Option Mat} {d : List F64}

@[simp] theorem cmStageData_length : (cmStageData s g nX nY mask noise d).length = d.length := by
  unfold cmStageData
  split
  · exact List.length_mapIdx
  · rfl

/-- From finite pixels a stage computes no NaN. -/
theorem cmStageData_no_nan
    (hd : ∀ k v, d[k]? = some v → maskedAt mask k = false → fFinite v = true) {k : Nat} {v : F64}
    (hv : (cmStageData s g nX nY mask noise d)[k]? = some v) (hm : maskedAt mask k = false) :
    fIsNaN v = false := by
  unfold cmStageData at hv
  split at hv
  · rw [List.getElem?_mapIdx, Option.map_eq_some_iff] at hv
    obtain ⟨u, hu, rfl⟩ := hv
    rw [hm, if_neg (by decide)]
    exact not_nan_fSub _ (hd k u hu hm) (finite_median hd)
  · exact not_nan_of_finite (hd k v hv hm)

variable (hl : cmEnabled s g = true → cmLegal s g nX nY = true)
include hl

/-- Each pixel is corrected with the median of the one block it lies in. -/
theorem stageDone_cmStage : stageDone s g nX nY mask noise d
    (cmStageData s g nX nY mask noise d) (cmStageCorrs s g nX nY mask noise d) := by
  by_cases he : cmEnabled s g = true
  · rw [stageDone, if_pos he]
    refine ⟨cmStageData_length, by simp [cmStageCorrs, he], fun j hj => ?_,
      fun j k v hk hin hv => ?_⟩
    · simp only [cmStageCorrs, if_pos he, List.length_map, List.length_range] at hj ⊢
      rw [List.getElem?_map, List.getElem?_range hj]
      rfl
    · rw [cmStageData, if_pos he, List.getElem?_mapIdx, hv, (cmInBlock_iff he (hl he) hk).1 hin]
      rfl
  · rw [stageDone, if_neg he, cmStageData, if_neg he, cmStageCorrs, if_neg he]
    exact ⟨rfl, rfl⟩

end

/-! ### How a stage ends (R657, R658, R660) -/

section
variable {s : State} {g : CmStage} {nX nY : Nat} {mask noise : Option Mat} {d : List F64}
  (hd : d.length = nX * nY)
include hd

/-- The blocks of a stage end at the first selection with a NaN. -/
theorem cmBlocks_of_first_nan (he : cmEnabled s g = true) (hl : cmLegal s g nX nY = true)
    {left j i : Nat} (hi : i < left)
    (hbefore : ∀ i', i' < i → (cmSelection s g nX nY (j + i') mask noise d).any fIsNaN = false)
    (hnan : (cmSelection s g nX nY (j + i) mask noise d).any fIsNaN = true) :
    cmBlocks s g nX nY mask noise left j d = .error ⟨.numeric, cmInfo g (j + i)⟩ := by
  induction left generalizing j i d with
  | zero => exact absurd hi (Nat.not_lt_zero i)
  | succ left ih =>
    cases i with
    | zero => exact if_pos hnan
    | succ i =>
      have shift (i' : Nat) : j + 1 + i' = j + (i' + 1) := by omega
      have later (i' : Nat) :
          cmSelection s g nX nY (j + 1 + i') mask noise (cmCorrect s g nX nY j mask
              (cmMedian (cmSelection s g nX nY j mask noise d)) d)
            = cmSelection s g nX nY (j + (i' + 1)) mask noise d := by
        rw [cmSelection_cmCorrect he hl hd (by omega), shift]
      have rest := ih (j := j + 1) (i := i) (d := cmCorrect s g nX nY j mask
          (cmMedian (cmSelection s g nX nY j mask noise d)) d) (by simpa using hd) (by omega)
        (fun i' hi' => by rw [later]; exact hbefore (i' + 1) (by omega)) (by rw [later]; exact hnan)
      have here : (cmSelection s g nX nY j mask noise d).any fIsNaN = false :=
        hbefore 0 (Nat.succ_pos i)
      simp only [cmBlocks, here, rest, shift, Bool.false_eq_true, if_false]

variable (hl : cmEnabled s g = true → cmLegal s g nX nY = true)
include hl

/-- A stage that finds no NaN leaves what the functions say. -/
theorem cmRunStage_of_no_nan
    (h : stageNoNaN s g nX nY mask noise d (cmBlockCount s g nX nY)) :
    cmRunStage s g nX nY mask noise d
      = .ok (cmStageData s g nX nY mask noise d, cmStageCorrs s g nX nY mask noise d) := by
  by_cases he : cmEnabled s g = true
  · obtain ⟨⟨d', corrs⟩, hr⟩ := cmBlocks_ok (j := 0) he (hl he) hd fun i hi =>
      (Nat.zero_add i).symm ▸ no_nan_selected he h hi
    obtain ⟨hcorrs, -, hdata⟩ := cmBlocks_spec he (hl he) hd hr
    obtain ⟨data_length, corrs_length⟩ := cmBlocks_length hr
    have same_data : d' = cmStageData s g nX nY mask noise d := by
      refine List.ext_getElem (by simpa using data_length) fun k hk hk' => ?_
      have pixel : k < nX * nY := by omega
      have block := cmBlockOf_lt he (hl he) pixel
      have value := hdata k pixel (Nat.zero_le _) (by omega)
      rw [List.getD_eq_getElem _ _ hk, List.getD_eq_getElem _ _ (by omega)] at value
      simp only [value, cmStageData, if_pos he, List.getElem_mapIdx]
    have same_corrs : corrs = cmStageCorrs s g nX nY mask noise d := by
      refine List.ext_getElem (by simp [cmStageCorrs, he, corrs_length]) fun j hj hj' => ?_
      have value := hcorrs j (by omega)
      rw [List.getD_eq_getElem _ _ hj, Nat.zero_add] at value
      simp only [value, cmStageCorrs, if_pos he, List.getElem_map, List.getElem_range]
    rw [cmRunStage, if_pos he, hr, same_data, same_corrs]
  · rw [cmRunStage, if_neg he, cmStageData, if_neg he, cmStageCorrs, if_neg he]

/-- A stage raises NUMERIC at the first selection with a NaN. -/
theorem cmRunStage_of_first_nan (he : cmEnabled s g = true) {j : Nat}
    (hj : j < cmBlockCount s g nX nY) (hbefore : stageNoNaN s g nX nY mask noise d j)
    (hnan : ∃ v ∈ cmSelection s g nX nY j mask noise d, fIsNaN v = true) :
    cmRunStage s g nX nY mask noise d = .error ⟨.numeric, cmInfo g j⟩ := by
  have blocks := cmBlocks_of_first_nan (j := 0) (i := j) hd he (hl he) hj
    (fun i hi => (Nat.zero_add i).symm ▸ no_nan_selected he hbefore hi)
    ((Nat.zero_add j).symm ▸ List.any_eq_true.2 hnan)
  rw [cmRunStage, if_pos he, blocks, Nat.zero_add]

end

/-! ### The two stages (R650, R665) -/

theorem cmRun_of_row_error {s : State} {nX nY : Nat} {mask noise : Option Mat} {d : List F64}
    {r : Raise} (h : cmRunStage s .row nX nY mask noise (cmZeroMasked mask d) = .error r) :
    cmRun s nX nY mask noise d = .error r := by rw [cmRun, h]

theorem cmRun_of_col_error {s : State} {nX nY : Nat} {mask noise : Option Mat}
    {d d1 rows : List F64} {r : Raise}
    (h1 : cmRunStage s .row nX nY mask noise (cmZeroMasked mask d) = .ok (d1, rows))
    (h2 : cmRunStage s .col nX nY mask noise d1 = .error r) :
    cmRun s nX nY mask noise d = .error r := by
  rw [cmRun, h1]
  simp only [h2]

theorem cmRun_of_ok {s : State} {nX nY : Nat} {mask noise : Option Mat}
    {d d1 rows d2 cols : List F64}
    (h1 : cmRunStage s .row nX nY mask noise (cmZeroMasked mask d) = .ok (d1, rows))
    (h2 : cmRunStage s .col nX nY mask noise d1 = .ok (d2, cols)) :
    cmRun s nX nY mask noise d = .ok (d2, rows, cols) := by
  rw [cmRun, h1]
  simp only [h2]

/-- The data the row stage starts from (R660, D53). -/
theorem eq_cmZeroMasked {mask : Option Mat} {d d0 : List F64} (hlen : d0.length = d.length)
    (h : ∀ k v, d[k]? = some v → d0[k]? = some (if maskedAt mask k then 0 else v)) :
    d0 = cmZeroMasked mask d := by
  refine List.ext_getElem? fun k => ?_
  rw [cmZeroMasked, List.getElem?_mapIdx]
  cases hv : d[k]? with
  | none =>
    rw [List.getElem?_eq_none_iff] at hv
    exact List.getElem?_eq_none (hlen ▸ hv)
  | some v => exact h k v hv

/-- An unmasked pixel keeps its value before the stages. -/
theorem getElem?_of_cmZeroMasked {mask : Option Mat} {d : List F64} {k : Nat} {v : F64}
    (h : (cmZeroMasked mask d)[k]? = some v) (hm : maskedAt mask k = false) : d[k]? = some v := by
  rw [cmZeroMasked, List.getElem?_mapIdx, Option.map_eq_some_iff] at h
  obtain ⟨u, hu, rfl⟩ := h
  rw [hu, hm, if_neg (by decide)]

section
variable {s : State} {nX nY : Nat} {mask noise : Option Mat} {d : List F64}
  (hl : ∀ g, cmEnabled s g = true → cmLegal s g nX nY = true) (hd : d.length = nX * nY)
include hl hd

theorem cmRun_of_no_nan
    (hrow : stageNoNaN s .row nX nY mask noise (cmZeroMasked mask d) (cmBlockCount s .row nX nY))
    (hcol : stageNoNaN s .col nX nY mask noise
      (cmStageData s .row nX nY mask noise (cmZeroMasked mask d)) (cmBlockCount s .col nX nY)) :
    cmRun s nX nY mask noise d =
      .ok (cmStageData s .col nX nY mask noise
          (cmStageData s .row nX nY mask noise (cmZeroMasked mask d)),
        cmStageCorrs s .row nX nY mask noise (cmZeroMasked mask d),
        cmStageCorrs s .col nX nY mask noise
          (cmStageData s .row nX nY mask noise (cmZeroMasked mask d))) :=
  cmRun_of_ok (cmRunStage_of_no_nan (by simpa using hd) (hl _) hrow)
    (cmRunStage_of_no_nan (by simpa using hd) (hl _) hcol)

/-- The first NaN is found by the row stage, or by the column stage where the row stage found
none. -/
theorem cmRun_of_first_nan {g : CmStage} {e : List F64} {j : Nat}
    (hstage : g = .row ∧ e = cmZeroMasked mask d
      ∨ g = .col ∧ e = cmStageData s .row nX nY mask noise (cmZeroMasked mask d)
        ∧ stageNoNaN s .row nX nY mask noise (cmZeroMasked mask d) (cmBlockCount s .row nX nY))
    (he : cmEnabled s g = true) (hj : j < cmBlockCount s g nX nY)
    (hbefore : stageNoNaN s g nX nY mask noise e j)
    (hnan : ∃ v ∈ cmSelection s g nX nY j mask noise e, fIsNaN v = true) :
    cmRun s nX nY mask noise d = .error ⟨.numeric, cmInfo g j⟩ := by
  rcases hstage with ⟨rfl, rfl⟩ | ⟨rfl, rfl, hrow⟩
  · exact cmRun_of_row_error
      (cmRunStage_of_first_nan (by simpa using hd) (hl _) he hj hbefore hnan)
  · exact cmRun_of_col_error (cmRunStage_of_no_nan (by simpa using hd) (hl _) hrow)
      (cmRunStage_of_first_nan (by simpa using hd) (hl _) he hj hbefore hnan)

end

/-! ### The operands of CM_APPLY (R651, R660) -/

section
variable {s : State} {nX nY : Nat}

theorem row_refused_iff : (cmEnabled s .row && !cmLegal s .row nX nY) = true ↔ s.cmRowSize ≠ 0
    ∧ (s.cmRowDiv = 0 ∨ nY % s.cmRowSize.toNat ≠ 0 ∨ nX % s.cmRowDiv.toNat ≠ 0) := by
  rw [Bool.and_eq_true, Bool.not_eq_true', ← Bool.not_eq_true, cmLegal_iff, cmEnabled_iff]
  simp only [cmSize, cmDiv, cmExtents, ne_eq, ← BitVec.toNat_inj, BitVec.ofNat_eq_ofNat,
    BitVec.toNat_ofNat]
  omega

theorem col_refused_iff : (cmEnabled s .col && !cmLegal s .col nX nY) = true ↔ s.cmColSize ≠ 0
    ∧ (s.cmColDiv = 0 ∨ nX % s.cmColSize.toNat ≠ 0 ∨ nY % s.cmColDiv.toNat ≠ 0) := by
  rw [Bool.and_eq_true, Bool.not_eq_true', ← Bool.not_eq_true, cmLegal_iff, cmEnabled_iff]
  simp only [cmSize, cmDiv, cmExtents, ne_eq, ← BitVec.toNat_inj, BitVec.ofNat_eq_ofNat,
    BitVec.toNat_ofNat]
  omega

end

section
variable {s : State} {nX nY : Nat}

theorem row_not_refused (h : s.cmRowSize = 0 ∨ s.cmRowDiv ≠ 0 ∧ nY % s.cmRowSize.toNat = 0
      ∧ nX % s.cmRowDiv.toNat = 0) : ¬ (cmEnabled s .row && !cmLegal s .row nX nY) = true := by
  rw [row_refused_iff]
  tauto

theorem col_not_refused (h : s.cmColSize = 0 ∨ s.cmColDiv ≠ 0 ∧ nX % s.cmColSize.toNat = 0
      ∧ nY % s.cmColDiv.toNat = 0) : ¬ (cmEnabled s .col && !cmLegal s .col nX nY) = true := by
  rw [col_refused_iff]
  tauto

end

/-- What the two configurations let through is legal in every enabled stage. -/
theorem cmLegal_of_not_refused {s : State} {nX nY : Nat}
    (hrow : ¬ (cmEnabled s .row && !cmLegal s .row nX nY) = true)
    (hcol : ¬ (cmEnabled s .col && !cmLegal s .col nX nY) = true) (g : CmStage)
    (he : cmEnabled s g = true) : cmLegal s g nX nY = true := by
  cases g with
  | row => simpa [he] using hrow
  | col => simpa [he] using hcol

/-- The matrix an operand names (R555). -/
theorem optional_matrix (b : BitVec 8) (s : State) :
    (optionalId b).map (readMat s) = if b = 0xFF then none else some (readMat s b.toNat) := by
  unfold optionalId
  split <;> rfl

section
variable {s : State} {a b c : BitVec 8} (ha : isWork a)
  (hshape : ∀ o ∈ [b, c], o = 0xFF ∨ o.toNat < 184
    ∧ (readMat s o.toNat).nX = (readMat s a.toNat).nX
    ∧ (readMat s o.toNat).nY = (readMat s a.toNat).nY)
include ha hshape

/-- With operands of one shape only the configurations are left to check. -/
theorem cmOperands_of_shapes : cmOperands a b c s =
    if cmEnabled s .row && !cmLegal s .row (readMat s a.toNat).nX (readMat s a.toNat).nY then
      raise .config 0
    else if cmEnabled s .col && !cmLegal s .col (readMat s a.toNat).nX (readMat s a.toNat).nY then
      raise .config 1
    else .ok (a.toNat, (optionalId b).map (readMat s), (optionalId c).map (readMat s)) := by
  have hb := hshape b (by simp)
  have hc := hshape c (by simp)
  rw [cmOperands, checkWork_of_work _ ha, checkMatOrNone_of_allowed (hb.imp_right And.left),
    checkMatOrNone_of_allowed (hc.imp_right And.left)]
  exact (if_neg (not_not.2 (optional_sameDims hb))).trans
    (if_neg (not_not.2 (optional_sameDims hc)))

variable (hf : s.fault = false)
include hf

theorem exec_cmApply_of_row_refused
    (h : (cmEnabled s .row
      && !cmLegal s .row (readMat s a.toNat).nX (readMat s a.toNat).nY) = true) :
    exec (.cmApply a b c) s = .next (faultEntry ⟨.config, 0⟩ s) :=
  exec_cmApply_of_error hf ((cmOperands_of_shapes ha hshape).trans (if_pos h))

theorem exec_cmApply_of_col_refused
    (hrow : ¬ (cmEnabled s .row
      && !cmLegal s .row (readMat s a.toNat).nX (readMat s a.toNat).nY) = true)
    (h : (cmEnabled s .col
      && !cmLegal s .col (readMat s a.toNat).nX (readMat s a.toNat).nY) = true) :
    exec (.cmApply a b c) s = .next (faultEntry ⟨.config, 1⟩ s) :=
  exec_cmApply_of_error hf
    ((cmOperands_of_shapes ha hshape).trans ((if_neg hrow).trans (if_pos h)))

end

/-! ### CM_APPLY once its operands are taken (R657, R658, R660) -/

section
variable {s : State} {a b c : BitVec 8} {mask noise : Option Mat} (hf : s.fault = false)
  (ho : cmOperands a b c s = .ok (a.toNat, mask, noise))
include hf ho

theorem exec_cmApply_of_run {d rows cols : List F64}
    (hr : cmRun s (readMat s a.toNat).nX (readMat s a.toNat).nY mask noise (readMat s a.toNat).data
      = .ok (d, rows, cols)) :
    exec (.cmApply a b c) s = .next { (writeMat a.toNat { readMat s a.toNat with data := d } s) with
      corrRow := rows, corrCol := cols, freeTick := s.freeTick + 1, busy := false } := by
  simp only [exec, execCmApply, hf, ho, hr, Bool.false_eq_true, if_false]
  rfl

/-- The destination's pixels and the corrections are left open (60_exceptions.md R711, log 5). -/
theorem exec_cmApply_of_numeric {r : Raise}
    (hr : cmRun s (readMat s a.toNat).nX (readMat s a.toNat).nY mask noise (readMat s a.toNat).data
      = .error r) :
    ∃ t, exec (.cmApply a b c) s = .next t
      ∧ t = { s with
          fault := true, errCode := r.code, errInfo := r.info, busy := false, walk := none
          mats := t.mats, corrRow := t.corrRow, corrCol := t.corrCol, freeTick := s.freeTick + 1 }
      ∧ ∀ id, id ≠ a.toNat → readMat t id = readMat s id := by
  refine ⟨faultEntry r (forgetCm a.toNat s), ?_, rfl, fun id hid =>
    (readMat_congr rfl id).trans (readMat_forgetCm _ s id hid)⟩
  simp only [exec, execCmApply, hf, ho, hr, Bool.false_eq_true, if_false]

end

/-! ### CM_CORR (R662) -/

/-- The recorded corrections, by the stage in A. -/
def recordedCorrs (s : State) : List (BitVec 8 × List F64) := [(0, s.corrRow), (1, s.corrCol)]

section
variable {s : State} {a : BitVec 8} {l : List F64} (hf : s.fault = false)
include hf

theorem exec_cmCorr_of_stage (ha : 1 < a.toNat) :
    exec (.cmCorr a) s = .next (faultEntry ⟨.illegalOperand, a.setWidth 32⟩ s) :=
  command_error hf (if_pos ha)

variable (ha : (a, l) ∈ recordedCorrs s)
include ha

theorem exec_cmCorr {v : F64} (hv : l[s.argN0.toNat]? = some v) :
    exec (.cmCorr a) s
      = .next (finish { s with resF := v, resN0 := BitVec.ofNat 32 l.length }) := by
  obtain ⟨inside, rfl⟩ := List.getElem?_eq_some_iff.1 hv
  have answer : l.getD s.argN0.toNat fZero = l[s.argN0.toNat] := List.getD_eq_getElem _ _ inside
  simp only [recordedCorrs, List.mem_cons, List.not_mem_nil, or_false, Prod.mk.injEq] at ha
  rcases ha with ⟨rfl, rfl⟩ | ⟨rfl, rfl⟩
  all_goals
    rw [← answer]
    exact command_ok hf ((if_neg (by decide)).trans (if_neg (Nat.not_le.2 inside)))

theorem exec_cmCorr_of_outside (hout : l.length ≤ s.argN0.toNat) :
    exec (.cmCorr a) s = .next (faultEntry ⟨.outOfBounds, s.argN0⟩ s) := by
  simp only [recordedCorrs, List.mem_cons, List.not_mem_nil, or_false, Prod.mk.injEq] at ha
  rcases ha with ⟨rfl, rfl⟩ | ⟨rfl, rfl⟩
  all_goals exact command_error hf ((if_neg (by decide)).trans (if_pos hout))

end

/-! ### The obligations -/

/-- Settles O30: a pixel's one block is `cmBlockOf`. -/
theorem blocksPartitionTheMatrix : Obligations.BlocksPartitionTheMatrix :=
  fun _ _ _ _ _ he hl hk => ⟨_, cmBlockOf_lt he hl hk, (cmInBlock_iff he hl hk).2 rfl,
    fun _ => (cmInBlock_iff he hl hk).1⟩

/-- Settles O34: the stage is checked first, then the index. -/
theorem cmCorrAnswers : Obligations.CmCorrAnswers := fun _ _ _ hf =>
  ⟨exec_cmCorr_of_stage hf, fun ha =>
    ⟨fun _ hv => exec_cmCorr hf ha hv, exec_cmCorr_of_outside hf ha⟩⟩

/-- Settles O33: the counts are those of the sorted selection, parted at the median. -/
theorem correctionIsAMedian : Obligations.CorrectionIsAMedian := by
  refine ⟨rfl, fun sel h => ?_⟩
  obtain ⟨before, after, parted, before_length⟩ := exists_sortAsc_eq_append h
  have sorted := parted ▸ sortAsc_sorted sel
  have perm := parted ▸ sortAsc_perm sel
  have total := perm.length_eq
  rw [List.length_append, List.length_cons] at total
  have below := countP_below_le sorted
  have above := countP_above_le sorted
  rw [perm.countP_eq] at below above
  refine ⟨?_, cmMedian_mem h, by omega, by omega⟩
  calc (sortAsc sel)[sel.length / 2]?
    _ = (before ++ cmMedian sel :: after)[before.length]? := by rw [parted, before_length]
    _ = some (cmMedian sel) := by simp

/-- Settles O32: without a fault CM_APPLY ran both stages, and a masked pixel is +0.0 after them. -/
theorem maskedPixelsAreZeroAfterApply : Obligations.MaskedPixelsAreZeroAfterApply := by
  intro a b c s t k hf ht hft hb hm hk
  rcases execCmApply_cases ht with ⟨hfault, -⟩ | ⟨-, r, -, rfl⟩ | ⟨-, _, _, _, r, -, -, rfl⟩
    | ⟨-, i, mask, noise, d, rows, cols, ho, hr, rfl⟩
  · exact absurd (hf.symm.trans hfault) (by decide)
  · exact absurd hft (by simp)
  · exact absurd hft (by simp)
  · obtain ⟨rfl, hlo, hhi, hmask, -⟩ := cmOperands_ok ho
    rw [if_neg hb] at hmask
    obtain ⟨-, written⟩ := readMat_of_new_pixels (s := s) (d := d) ⟨hlo, hhi⟩
      (t := finish (draw { writeMat a.toNat { readMat s a.toNat with data := d } s with
        corrRow := rows, corrCol := cols })) rfl
    have inside : k < d.length := cmRun_length hr ▸ hk
    have zero : d.getD k fZero = fZero := cmRun_masked hr (hmask ▸ hm)
    rw [List.getD_eq_getElem _ _ inside] at zero
    rw [written, List.getElem?_eq_getElem inside, zero]
    rfl

/-- Settles O31: a stage is a function of its data where it finds no NaN, and ends at the first
selection with one. -/
theorem rowStageCorrectsEveryBlock : Obligations.RowStageCorrectsEveryBlock := by
  rintro a b c s w hf ha rfl hshape
  refine ⟨fun hsize hbad => ?_, fun hrow hsize hbad => ?_,
    fun hrow hcol hwf mask noise d0 hmask hnoise hlen hd0 => ?_⟩
  · exact exec_cmApply_of_row_refused ha hshape hf (row_refused_iff.2 ⟨hsize, hbad⟩)
  · exact exec_cmApply_of_col_refused ha hshape hf (row_not_refused hrow)
      (col_refused_iff.2 ⟨hsize, hbad⟩)
  obtain rfl := eq_cmZeroMasked hlen hd0
  have hl := cmLegal_of_not_refused (row_not_refused hrow) (col_not_refused hcol)
  have ho : cmOperands a b c s = .ok (a.toNat, mask, noise) := by
    rw [cmOperands_of_shapes ha hshape, if_neg (row_not_refused hrow),
      if_neg (col_not_refused hcol), optional_matrix, optional_matrix, ← hmask, ← hnoise]
  have pixels : (cmZeroMasked mask (readMat s a.toNat).data).length
      = (readMat s a.toNat).nX * (readMat s a.toNat).nY := hlen.trans hwf.1
  refine ⟨_, _, _, _, stageDone_cmStage (hl .row), stageDone_cmStage (hl .col),
    fun hfinite => ?_, fun no_row no_col => ?_, fun g e j hstage he hj hbefore hnan => ?_⟩
  · have finite : ∀ k v, (cmZeroMasked mask (readMat s a.toNat).data)[k]? = some v →
        maskedAt mask k = false → fFinite v = true :=
      fun k v hv hm => hfinite k v (getElem?_of_cmZeroMasked hv hm) hm
    exact ⟨stageNoNaN_of_pixels (fun k v hv hm => not_nan_of_finite (finite k v hv hm)) _,
      stageNoNaN_of_pixels (fun k v hv hm => cmStageData_no_nan finite hv hm) _⟩
  · exact exec_cmApply_of_run hf ho (cmRun_of_no_nan hl hwf.1 no_row no_col)
  · have length_e : e.length = (readMat s a.toNat).nX * (readMat s a.toNat).nY := by
      rcases hstage with ⟨-, rfl⟩ | ⟨-, rfl, -⟩
      · exact pixels
      · exact cmStageData_length.trans pixels
    have ⟨v, hv, _⟩ := hnan
    have block_lt := block_lt_of_selected (hl g he) length_e hwf.2.2.2 hj hv
    rw [← cmInfo_eq block_lt]
    exact exec_cmApply_of_numeric hf ho (cmRun_of_first_nan hl hwf.1 hstage he hj hbefore hnan)

end Sys2Proof.Machine
end

section
/-! The fault state between the commands (60_exceptions.md R712 to R714): OVERRUN of a HOST write, the
first fault kept until RESET or ABORT runs, and that the invariants hold at reset. -/

namespace Sys2Proof.Machine

open Sys2Proof

/-! ### OVERRUN (R713) -/

/-- A guarded register other than CMD, written while a command awaits, is an overrun. -/
theorem writeOffset_guarded_busy {s : State} (hb : s.busy = true) {o : Nat} (ho : o ≠ cmdOffset)
    (hg : o ∈ guardedOffsets) (v : Word) : writeOffset o v s = overrun o s := by
  have guarded : (s.busy && guardedOffsets.contains o) = true := by simp [hb, hg]
  rw [writeOffset, if_neg ho, if_pos guarded]

/-- OVERRUN outside a walk keeps the first fault. -/
theorem overrun_of_fault {s : State} (hf : s.fault = true) (hw : s.walk = none) (o : Nat) :
    overrun o s = finish s := by
  rw [overrun, if_pos hf, ← hw]
  rfl

/-- Outside a walk a precise fault writes the fault record and BUSY. -/
theorem faultEntry_of_no_walk {s : State} (hw : s.walk = none) (r : Raise) :
    faultEntry r s = { s with
      fault := true, errCode := r.code, errInfo := r.info, busy := false } := by
  rw [faultEntry, ← hw]

/-- Settles O48: the write is an overrun at its offset, whatever the register. -/
theorem writesWhileBusyOverrun : Obligations.WritesWhileBusyOverrun := by
  intro s reg v hb hw hreg
  have guarded_not_cmd : ∀ o ∈ guardedOffsets.tail, o ≠ cmdOffset ∧ o ∈ guardedOffsets := by decide
  have discarded : regWrite reg v s = overrun (4 * reg.toNat) s := by
    rcases hreg with ⟨hcmd, hop⟩ | hreg
    · rw [regWrite, regOffset, hcmd]
      exact writeOffset_cmd_busy hb hop
    · obtain ⟨not_cmd, guarded⟩ := guarded_not_cmd _ hreg
      exact writeOffset_guarded_busy hb not_cmd guarded v
  rw [discarded]
  exact ⟨fun hf => (overrun_of_no_fault hf _).trans (faultEntry_of_no_walk hw _),
    fun hf => overrun_of_fault hf hw _⟩

/-! ### The first fault (R712, R714) -/

/-- FAULT is set and stays, and ERR_CODE and ERR_INFO stay. -/
structure FaultKept (s t : State) : Prop where
  fault : t.fault = true
  errCode : t.errCode = s.errCode
  errInfo : t.errInfo = s.errInfo

/-- No move of the HOST leaves the fault state: OVERRUN keeps the first fault. -/
theorem Moved.faultKept {s t : State} (h : Moved s t) (hf : s.fault = true) : FaultKept s t := by
  cases h with
  | registers h => rw [h]; exact ⟨hf, rfl, rfl⟩
  | poke | issued => exact ⟨hf, rfl, rfl⟩
  | overrun o =>
    rw [Machine.overrun, if_pos hf]
    exact ⟨hf, rfl, rfl⟩

/-- In the fault state the ENGINE outside a walk is idle, or runs RESET or ABORT, or ignores what is
pending. -/
theorem engineStep_faultKept {s t : State} (hw : s.walk = none) (hf : s.fault = true)
    (h : engineStep s = .next t) :
    FaultKept s t ∨ s.busy = true
      ∧ (decodeCommand s.pending = .ok .reset ∨ decodeCommand s.pending = .ok .abort) := by
  have ignored : engineStep s = .next (finish s) → FaultKept s t := fun hi => by
    obtain rfl : finish s = t := Host.Outcome.next.inj (hi.symm.trans h)
    exact ⟨hf, rfl, rfl⟩
  cases hb : s.busy with
  | false =>
    simp only [engineStep, hw, hb, Bool.false_eq_true, if_false] at h
    cases h
    exact .inl ⟨hf, rfl, rfl⟩
  | true =>
    cases hd : decodeCommand s.pending with
    | error e => exact .inl (ignored ((engineStep_illegal hw hb hd).trans (command_fault hf _)))
    | ok i =>
      by_cases hr : i = .reset
      · exact .inr ⟨rfl, .inl (by rw [hr])⟩
      by_cases ha : i = .abort
      · exact .inr ⟨rfl, .inr (by rw [ha])⟩
      exact .inl (ignored ((engineStep_pending hw hb hd).trans
        (exec_of_fault (decodeCommand_space hd) hr ha hf)))

/-- A step outside a walk is the ENGINE's or a move of the HOST. -/
theorem step_outside_walk {s t : State} (hw : s.walk = none) (h : step s = .next t) :
    engineStep s = .next t ∨ ∃ rest, Moved { s with host := rest } t := by
  rw [step, if_neg (by simp [hw])] at h
  split at h
  · exact .inl h
  · split at h
    · exact .inl h
    · cases h
      exact .inr ⟨_, .registers rfl⟩
  · exact .inr ⟨_, hostMove_moved h⟩

/-- Settles O4: the ENGINE by what is pending, the HOST by its moves. -/
theorem firstFaultIsKept : Obligations.FirstFaultIsKept := by
  intro s t h hw hf
  rcases step_outside_walk hw h with hengine | ⟨rest, hmoved⟩
  · exact (engineStep_faultKept hw hf hengine).imp_left fun k => ⟨k.fault, k.errCode, k.errInfo⟩
  · have kept := hmoved.faultKept hf
    exact .inl ⟨kept.fault, kept.errCode, kept.errInfo⟩

/-! ### Reset (70_reset_and_hazards.md R800) -/

/-- Settles O60: nothing is queued, stored, recorded or mapped at reset. -/
theorem invariantsHoldAtReset : Obligations.InvariantsHoldAtReset :=
  ⟨reset_memory_wf, StreamOk.of_empty rfl rfl rfl, FilesOk.of_reset rfl rfl rfl rfl rfl,
    faultOk_faultExit State.reset, MapOk.emptied rfl rfl rfl rfl rfl⟩

end Sys2Proof.Machine
end

section
/-! The codes a fault can carry (60_exceptions.md R700, R711): those of the record walk, NOT_OPEN not
among them, and NUMERIC, the one code CM_APPLY raises once its operands are taken. -/

namespace Sys2Proof.Machine

open Sys2Proof

/-- Any fault the body raises has one of these codes. (`Answers` says only that it has a code.) -/
inductive RaisesIn {α : Type} (codes : List ErrCode) : Except Raise α → Prop
  | ok (x : α) : RaisesIn codes (.ok x)
  | raise {code : ErrCode} {info : Word} (h : code ∈ codes) : RaisesIn codes (.error ⟨code, info⟩)

namespace RaisesIn

variable {α β : Type} {codes : List ErrCode}

theorem code {e : Except Raise α} (he : RaisesIn codes e) {r : Raise} (h : e = .error r) :
    r.code ∈ codes := by
  subst h
  cases he
  assumption

/-- What follows a body passes the body's own faults on. -/
theorem passed {e : Except Raise α} (he : RaisesIn codes e) {r : Raise} (h : e = .error r) :
    RaisesIn codes (.error r : Except Raise β) := .raise (he.code h)

/-- A check that raises where a condition holds. -/
theorem guarded {c : Prop} [Decidable c] {code : ErrCode} {info : Word} {e : Except Raise α}
    (hc : code ∈ codes) (h : RaisesIn codes e) :
    RaisesIn codes (if c then Machine.raise code info else e) := by
  split
  · exact .raise hc
  · exact h

end RaisesIn

/-! ### The record walk (43_assembler.md R502 to R507, R514) -/

/-- The codes of the faults a walk raises. -/
def walkCodes : List ErrCode :=
  [.viewExtent, .truncatedEvent, .truncatedRecord, .size, .reservedDevType, .reservedEvType,
    .unexpectedRecord, .duplicateModule, .unknownModule, .config, .unsupported, .capacity]

theorem inSegment_raises {s : State} {need : Nat} {k : Nat → Except Raise State}
    (h : ∀ a, RaisesIn walkCodes (k a)) : RaisesIn walkCodes (inSegment s need k) := by
  unfold inSegment
  split
  · exact .raise (by decide)
  · exact .guarded (by decide) (h _)

theorem readData_raises (n : Nat) (s : State) : RaisesIn walkCodes (readData n s) :=
  .guarded (by decide) (inSegment_raises fun _ => .ok _)

theorem skipData_raises (n : Nat) (s : State) : RaisesIn walkCodes (skipData n s) :=
  inSegment_raises fun _ => .ok _

theorem skipWords_raises (n : Nat) (s : State) : RaisesIn walkCodes (skipWords n s) := by
  unfold skipWords
  split
  · exact .ok _
  · exact inSegment_raises fun _ => .ok _

theorem convert_raises (t : ConvKind) (um : Bool) (dst off sg : Nat) (s : State) :
    RaisesIn walkCodes (convert t um dst off sg s) := .guarded (by decide) (.ok _)

theorem decodeFrames_raises (t : ConvKind) (um : Bool) (h : RecHdr) (gate : BitVec 10)
    (base left f off : Nat) (s : State) :
    RaisesIn walkCodes (decodeFrames t um h gate base left f off s) := by
  induction left generalizing f off s with
  | zero => exact .ok _
  | succ left ih =>
    unfold decodeFrames
    split
    · exact (convert_raises ..).passed ‹_›
    · exact ih _ _ _

theorem dispatchConv_raises (k : RecKind) (s : State) : RaisesIn walkCodes (dispatchConv k s) := by
  have folded {x y : ConvKind × Bool} : RaisesIn walkCodes
      (if s.cfgFold = 2 then .ok x else if s.cfgFold = 4 then .ok y
        else Machine.raise .config (s.cfgFold.setWidth 32)) := by
    split
    · exact .ok _
    · split
      · exact .ok _
      · exact .raise (by decide)
  cases k with
  | depfet128 | depfetDcd => exact folded
  | _ => exact .ok _

theorem decodeBlob_raises (k : RecKind) (h : RecHdr) (ord : BitVec 4) (s : State) :
    RaisesIn walkCodes (decodeBlob k h ord s) := by
  refine .guarded (by decide) ?_
  split
  · exact (dispatchConv_raises k s).passed ‹_›
  · exact decodeFrames_raises ..

theorem takeData_raises (k : RecKind) (h : RecHdr) (d : Bool) (s : State) :
    RaisesIn walkCodes (takeData k h d s) := by
  unfold takeData
  split
  · split
    · exact decodeBlob_raises ..
    · exact (readData_raises ..).passed ‹_›
  · exact skipData_raises ..

theorem skipNested_raises (h : RecHdr) (c : WalkCmd) (seen : List (BitVec 4)) (est : Bool)
    (s : State) : RaisesIn walkCodes (skipNested h c seen est s) := by
  unfold skipNested
  split
  · exact .ok _
  · exact (skipWords_raises ..).passed ‹_›

theorem dataNested_raises (k : RecKind) (h : RecHdr) (c : WalkCmd) (seen : List (BitVec 4))
    (est : Bool) (s : State) : RaisesIn walkCodes (dataNested k h c seen est s) := by
  refine .guarded (by decide) (.guarded (by decide) (.guarded (by decide) ?_))
  split
  · exact .ok _
  · exact (takeData_raises ..).passed ‹_›

theorem topBody_raises (k : RecKind) (h : RecHdr) (c : WalkCmd) (s : State) :
    RaisesIn walkCodes (topBody k h c s) := by
  cases k with
  | groupRunBegin | groupRunEnd | info => exact skipWords_raises ..
  | groupData => exact .ok _
  | _ => exact .raise (by decide)

theorem nestedBody_raises (k : RecKind) (h : RecHdr) (c : WalkCmd) (seen : List (BitVec 4))
    (est : Bool) (s : State) : RaisesIn walkCodes (nestedBody k h c seen est s) := by
  cases k with
  | groupRunBegin | groupRunEnd | groupData => exact .raise (by decide)
  | depfet | depfet128 | depfetDcd => exact dataNested_raises ..
  | bat | tpll | unknown | tlu | other => exact skipNested_raises h c seen est s
  | info => exact skipNested_raises h c seen est { s with runNumber := h.trigger }

theorem recordBody_raises (k : RecKind) (h : RecHdr) (w : Walk) (s : State) :
    RaisesIn walkCodes (recordBody k h w s) := by
  rw [recordBody_eq]
  refine .guarded (by decide) ?_
  split
  · exact topBody_raises ..
  · refine .guarded (by decide) ?_
    split
    · exact .ok _
    · exact (nestedBody_raises ..).passed ‹_›

theorem closeGroup_raises (c : WalkCmd) (seen : List (BitVec 4)) (est : Bool) (s : State) :
    RaisesIn walkCodes (closeGroup c seen est s) := by
  unfold closeGroup
  split
  · exact .ok _
  · exact .guarded (by decide) (.ok _)

theorem headerFault_code (e : DecodeError) (s : State) : (headerFault e s).code ∈ walkCodes := by
  cases e with
  | reservedDevType => exact (by decide : ErrCode.reservedDevType ∈ walkCodes)
  | _ => exact (by decide : ErrCode.reservedEvType ∈ walkCodes)

/-- A fault before the record: of a group's close, or of fetching the header. -/
theorem fetchRecord_faulted_code {w : Walk} {s : State} {r : Raise} (h : fetchRecord w s = .faulted r) :
    r.code ∈ walkCodes := by
  unfold fetchRecord at h
  split at h
  · split at h
    · cases h
    · cases h
      exact (closeGroup_raises ..).code ‹_›
  · cases h
    exact (by decide : ErrCode.size ∈ walkCodes)
  · split at h
    · split at h <;> cases h
      exact (by decide : ErrCode.truncatedEvent ∈ walkCodes)
    · split at h <;> cases h
      exact headerFault_code ..

theorem walkStep_raises (w : Walk) (s : State) : RaisesIn walkCodes (walkStep w s) := by
  unfold walkStep
  split
  · exact .ok _
  · exact .raise (fetchRecord_faulted_code ‹_›)
  · exact recordBody_raises ..

/-- A walk that begins with no fault recorded ends with none, or with one of its own. -/
theorem walkRun_fault_code {fuel : Nat} {s t : State} (h : walkRun fuel s = some t)
    (hf : s.fault = false) : t.fault = false ∨ t.errCode ∈ walkCodes := by
  have keep : ∀ w u v, u.fault = false → u.walk = some w → walkStep w u = .ok v →
      v.fault = false := fun w u v hu _ hv => by
    rw [(walkStep_frame hv).rest]
    exact hu
  rcases walkRun_induct (fun u => u.fault = false) fuel s t keep hf h with
    ⟨clear, -⟩ | ⟨u, w, r, -, -, he, rfl⟩
  · exact .inl clear
  · exact .inr ((walkStep_raises ..).code he)

/-! ### CM_APPLY past its operands (46_commonmode.md R658) -/

theorem cmBlocks_raises (s : State) (g : CmStage) (nX nY : Nat) (mask noise : Option Mat)
    (left j : Nat) (d : List F64) :
    RaisesIn [.numeric] (cmBlocks s g nX nY mask noise left j d) := by
  induction left generalizing j d with
  | zero => exact .ok _
  | succ left ih =>
    refine .guarded (by decide) ?_
    split
    · exact .ok _
    · exact (ih _ _).passed ‹_›

theorem cmRunStage_raises (s : State) (g : CmStage) (nX nY : Nat) (mask noise : Option Mat)
    (d : List F64) : RaisesIn [.numeric] (cmRunStage s g nX nY mask noise d) := by
  unfold cmRunStage
  split
  · exact cmBlocks_raises ..
  · exact .ok _

theorem cmRun_raises (s : State) (nX nY : Nat) (mask noise : Option Mat) (d : List F64) :
    RaisesIn [.numeric] (cmRun s nX nY mask noise d) := by
  unfold cmRun
  split
  · exact (cmRunStage_raises ..).passed ‹_›
  · split
    · exact (cmRunStage_raises ..).passed ‹_›
    · exact .ok _

/-! ### The commands -/

/-- `t` is the state before a precise fault with the fault record and BUSY written. -/
def Precise (s t : State) : Prop :=
  t = { s with fault := true, errCode := t.errCode, errInfo := t.errInfo, busy := false }

theorem precise_faultEntry {s : State} (hw : s.walk = none) (r : Raise) :
    Precise s (faultEntry r s) := faultEntry_of_no_walk hw r

/-- CM_APPLY's faults but NUMERIC are those of its operands, which come before any write. -/
theorem execCmApply_precise {a b c : BitVec 8} {s t : State} (hw : s.walk = none)
    (h : execCmApply a b c s = .next t) (ht : t.fault = true) (hf : s.fault = false)
    (hn : t.errCode ≠ .numeric) : Precise s t := by
  rcases execCmApply_cases h with ⟨fault, -⟩ | ⟨-, r, -, rfl⟩ | ⟨-, i, _, _, r, -, run, rfl⟩
    | ⟨-, i, _, _, d, _, _, -, -, rfl⟩
  · exact absurd (hf.symm.trans fault) nofun
  · exact precise_faultEntry hw r
  · exact absurd (List.mem_singleton.1 ((cmRun_raises ..).code run)) hn
  · exact absurd (hf.symm.trans ht) nofun

/-- Settles O5: what each command can do, CM_APPLY by its operands; a walk raises no NOT_OPEN. -/
theorem faultsArePrecise : Obligations.FaultsArePrecise := by
  intro i s t hi hw hf h ht hcode
  have faults : t.fault ≠ false := by rw [ht]; nofun
  cases exec_outcome hi h with
  | ignored fault => exact absurd (hf.symm.trans fault) nofun
  | faulted _ _ => exact precise_faultEntry hw _
  | completed _ hc => exact absurd (hc.frame.fault.trans hf) faults
  | numeric _ cm _ _ =>
    subst cm
    refine execCmApply_precise hw h ht hf ?_
    rcases hcode with ⟨-, -, not_numeric⟩ | not_open
    · exact not_numeric _ _ _ rfl
    · rw [not_open]
      nofun
  | reset _ | abort _ => cases ht
  | walked _ hc run =>
    have walks : i = .next ∨ i = .skip := by
      cases i <;> cases hc
      · exact .inl rfl
      · exact .inr rfl
    rcases hcode with ⟨not_next, not_skip, -⟩ | not_open
    · exact absurd walks (not_or.2 ⟨not_next, not_skip⟩)
    · rcases walkRun_fault_code run hf with clear | code
      · exact absurd clear faults
      · rw [not_open] at code
        exact absurd code (by decide)

end Sys2Proof.Machine
end

section
/-! Every instruction answers a next state (00_scope.md R19, 70_reset_and_hazards.md R841). -/

namespace Sys2Proof.Machine

open Sys2Proof

/-- A meaning that answers in a branch, and otherwise goes on to one that answers, answers. -/
theorem next_of_branch {c : Prop} [Decidable c] {s : State} {r : Result} (h : ∃ t, r = .next t) :
    ∃ t, (if c then .next s else r) = .next t := by
  split
  · exact ⟨s, rfl⟩
  · exact h

theorem execCmApply_next (a b c : BitVec 8) (s : State) : ∃ t, execCmApply a b c s = .next t := by
  refine next_of_branch ?_
  cases cmOperands a b c s with
  | error r => exact ⟨_, rfl⟩
  | ok operands =>
    dsimp only
    split <;> exact ⟨_, rfl⟩

/-- Settles O6: NEXT and SKIP by the bound on their walk, CM_APPLY by its own branches, every other
command as one with precise faults, and a record as one action of the walk. -/
theorem everyInstructionTerminates : Obligations.EveryInstructionTerminates := by
  intro i s
  cases i with
  | reset | abort => exact ⟨_, rfl⟩
  | next | skip => exact next_of_branch (next_of_branch (next_of_branch (runWalk_next _ s)))
  | cmApply a b c => exact execCmApply_next a b c s
  | groupRunBegin h | groupRunEnd h | groupData h | depfet h | depfet128 h | depfetDcd h
  | bat h | tpll h | unknown h | tlu h | info h | other h => exact runRecord_next _ s
  | nop | segClear | openStream => exact command_next s (.ok _)
  | _ => exact command_next s _

end Sys2Proof.Machine
end

section
/-! Words and their meanings (30_encoding.md R301 to R306, R311): a header read back from the fields it
decodes to, the two layouts of the info word, and words written out in the spec. -/

namespace Sys2Proof.Machine

open Sys2Proof

/-! ### A header and its fields (R301, R302) -/

/-- The value of a bit field. -/
theorem extractLsb'_toNat_eq (w : Word) (start len : Nat) :
    (w.extractLsb' start len).toNat = w.toNat / 2 ^ start % 2 ^ len := by
  rw [BitVec.extractLsb'_toNat, Nat.shiftRight_eq_div_pow]

/-- A header word is made up of its fields. -/
theorem headerWord_decodeHeader {h0 : Word} {k : RecKind} (hk : k.deviceType = deviceTypeField h0)
    (h1 : Word) : headerWord k (decodeHeader h0 h1) = h0 := by
  apply BitVec.eq_of_toNat_eq
  have hlt := h0.isLt
  simp only [headerWord, hk, deviceTypeField, decodeHeader, toNat_fields, extractLsb'_toNat_eq]
  omega

/-- A kind that fixes no event type takes every one but 3 (R304). -/
theorem kind_of_event {ev : BitVec 2} {k k' : RecKind}
    (h : (if ev = 3 then .error .reservedEvType else .ok k' : Except DecodeError RecKind) = .ok k) :
    ev ≠ 3 ∧ k' = k := by
  split at h
  · cases h
  · exact ⟨‹_›, Except.ok.inj h⟩

/-- The device type and event type a kind is recognised by are those it is written with (R303, R304,
R311). -/
theorem recordKind_ok {dev : BitVec 4} {ev : BitVec 2} {k : RecKind}
    (h : recordKind dev ev = .ok k) :
    k.deviceType = dev ∧ ∀ hd : RecHdr, hd.eventType = ev → k.wellFormed hd = true := by
  have device {n : BitVec 4} (hn : dev.toNat = n.toNat) : n = dev := BitVec.eq_of_toNat_eq hn.symm
  unfold recordKind at h
  dsimp only at h
  split at h
  case h_1 hdev =>
    -- device type 0: the event type tells the three GROUP kinds apart
    split at h
    case h_4 => cases h
    all_goals
      rename_i hev
      cases h
      exact ⟨device hdev, fun hd he => beq_iff_eq.2 (he.trans (BitVec.eq_of_toNat_eq hev))⟩
  case h_11 => cases h
  all_goals
    rename_i hdev
    obtain ⟨not_reserved, rfl⟩ := kind_of_event h
    exact ⟨device hdev, fun hd he => bne_iff_ne.2 (he ▸ not_reserved)⟩

/-- Settles O53: the kind gives the device type back, and the header's fields the rest. -/
theorem headerWordsHaveOneMeaning : Obligations.HeaderWordsHaveOneMeaning := by
  intro h0 h1 k h hd
  cases hk : recordKind (deviceTypeField h0) (h0.extractLsb' 22 2) with
  | error e =>
    simp only [decodeRecord, hk] at hd
    cases hd
  | ok k' =>
    simp only [decodeRecord, hk] at hd
    cases hd
    obtain ⟨hdev, hwf⟩ := recordKind_ok hk
    constructor
    · rw [encode_ofRecord, recordWords, headerWord_decodeHeader hdev]
      rfl
    · cases k <;> exact hwf _ rfl

/-! ### The info word (R305, R306) -/

section
variable (w : Word)

/-- The start gate of the authoritative layout: bits 16:10. -/
theorem startGate_authoritative : (decodeInfo w 0).startGate.toNat = w.toNat / 2 ^ 10 % 2 ^ 7 := by
  change ((w.extractLsb' 10 7).setWidth 10).toNat = _
  rw [BitVec.toNat_setWidth, extractLsb'_toNat_eq]
  omega

/-- The padding of the authoritative layout: bits 19:17. -/
theorem padding_authoritative : (decodeInfo w 0).padding.toNat = w.toNat / 2 ^ 17 % 2 ^ 3 :=
  extractLsb'_toNat_eq w 17 3

/-- The start gate of the legacy layout: bits 19:10. -/
theorem startGate_legacy : (decodeInfo w 1).startGate.toNat = w.toNat / 2 ^ 10 % 2 ^ 10 :=
  extractLsb'_toNat_eq w 10 10

/-- An info word is made up of the fields of the authoritative layout. -/
theorem infoWord_eq_fields : w.toNat = (decodeInfo w 0).framecnt.toNat
    + 2 ^ 10 * (decodeInfo w 0).startGate.toNat + 2 ^ 17 * (decodeInfo w 0).padding.toNat
    + 2 ^ 20 * (decodeInfo w 0).zerosupp.toNat + 2 ^ 21 * (decodeInfo w 0).startgateVer.toNat
    + 2 ^ 22 * (decodeInfo w 0).tempRaw.toNat := by
  have hlt := w.isLt
  rw [startGate_authoritative, padding_authoritative]
  simp only [decodeInfo, extractLsb'_toNat_eq]
  omega

end

/-- Settles O54: only startGate and the padding read the layout, and bits 19:10 are the two. -/
theorem infoLayoutsDifferInThreeBits : Obligations.InfoLayoutsDifferInThreeBits := by
  intro w
  refine ⟨rfl, rfl, rfl, rfl, ?_, infoWord_eq_fields w⟩
  rw [startGate_authoritative, padding_authoritative, startGate_legacy]
  omega

/-! ### Words of the spec (R332, R335, 41_stream.md R411) -/

/-- Settles O55: each word decodes to the instruction it is written for. -/
theorem specWordsDecode : Obligations.SpecWordsDecode := ⟨rfl, rfl, rfl, rfl⟩

end Sys2Proof.Machine
end

section
/-! NEXT where it delivers no event (43_assembler.md R510, R520): at the event limit, and at the end of
the input. -/

namespace Sys2Proof.Machine

open Sys2Proof

theorem exec_next_at_limit {s : State} (hf : s.fault = false) (ho : s.opened = true)
    (hl : s.cfgMaxEvents ≠ 0 ∧ s.cfgMaxEvents.toNat ≤ s.eventCount.toNat) :
    exec .next s = .next (finish { s with fsm := .waitGroup, limit := true, resN0 := 0 }) := by
  simp only [exec, execNext, hf, ho, Bool.false_eq_true, Bool.not_true, if_false, if_pos hl]

/-- Settles O40: the limit is asked before the walk, whose first header read finds the end. -/
theorem nextStopsAtLimitAndEnd : Obligations.NextStopsAtLimitAndEnd := by
  intro s hf ho hw
  refine ⟨fun hne hle => exec_next_at_limit hf ho ⟨hne, hle⟩, fun hl hall => ?_⟩
  rw [exec_next_walks hf ho hl, runWalk_iff, hw]
  exact .act rfl (walkStep_top_end rfl (readHeader_at_end (s := walkStart _ s) hall)) (.done _ rfl)

end Sys2Proof.Machine
end

section
/-! A data-bearing record under NEXT (43_assembler.md R505 to R508): the converter its kind is
dispatched to, the ordinal of its module, and the slots its frames fill. -/

namespace Sys2Proof.Machine

open Sys2Proof

/-- The converter of a data-bearing kind under the configuration of `s`, with its useMapping
(R506). -/
def DispatchedTo (s : State) (k : RecKind) (t : ConvKind) (um : Bool) : Prop :=
  (k, t, um) ∈ [(RecKind.depfet, ConvKind.s3a, true)]
    ∨ s.cfgFold = 2 ∧ (k, t, um) ∈ [(RecKind.depfet128, ConvKind.s3b2, true),
        (.depfetDcd, .dcd2, s.cfgUseMapping == 1)]
    ∨ s.cfgFold = 4 ∧ (k, t, um) ∈ [(RecKind.depfet128, ConvKind.s3b4, true),
        (.depfetDcd, .dcd4, s.cfgUseMapping == 1)]

theorem DispatchedTo.eq {s : State} {k : RecKind} {t : ConvKind} {um : Bool}
    (h : DispatchedTo s k t um) : k ∈ dataKinds ∧ dispatchConv k s = .ok (t, um) := by
  simp only [DispatchedTo, List.mem_cons, List.not_mem_nil, or_false, Prod.mk.injEq] at h
  rcases h with ⟨rfl, rfl, rfl⟩ | ⟨hf, ⟨rfl, rfl, rfl⟩ | ⟨rfl, rfl, rfl⟩⟩
    | ⟨hf, ⟨rfl, rfl, rfl⟩ | ⟨rfl, rfl, rfl⟩⟩
  · exact ⟨by decide, rfl⟩
  · exact ⟨by decide, if_pos hf⟩
  · exact ⟨by decide, if_pos hf⟩
  · exact ⟨by decide, (if_neg (by rw [hf]; decide)).trans (if_pos hf)⟩
  · exact ⟨by decide, (if_neg (by rw [hf]; decide)).trans (if_pos hf)⟩

/-- Reading the data changes no configuration. -/
theorem dispatchConv_dataRead (k : RecKind) (est : Bool) (h : RecHdr) (g : Seg) (s : State) :
    dispatchConv k (dataRead est h g s) = dispatchConv k s := by
  rw [dataRead_frame]
  rfl

/-- The ordinal of a record's module: the next one while the map is being established, else the one
the map holds. -/
def OrdinalOf (est : Bool) (h : RecHdr) (s : State) (ord : Nat) : Prop :=
  est = true ∧ ord = s.nmod ∧ s.nmod < 16
    ∨ est = false ∧ readModmap s h.moduleNo = some (BitVec.ofNat 4 ord) ∧ ord < 16

section
variable {est : Bool} {h : RecHdr} {g : Seg} {s : State} {ord : Nat} (ho : OrdinalOf est h s ord)
include ho

theorem OrdinalOf.lt : ord < 16 := by
  rcases ho with ⟨-, rfl, hlt⟩ | ⟨-, -, hlt⟩ <;> exact hlt

theorem OrdinalOf.known : est = true ∨ readModmap s h.moduleNo ≠ none := by
  rcases ho with ⟨hest, -⟩ | ⟨-, hord, -⟩
  · exact .inl hest
  · exact .inr (by rw [hord]; nofun)

theorem OrdinalOf.dataRead :
    readModmap (Machine.dataRead est h g s) h.moduleNo = some (BitVec.ofNat 4 ord) := by
  rcases ho with ⟨rfl, rfl, -⟩ | ⟨rfl, hord, -⟩
  · exact (readModmap_congr (s := addModule h.moduleNo s) rfl _).trans
      ((readModmap_addModule ..).trans (if_pos rfl))
  · exact (readModmap_congr (s := s) rfl _).trans hord

end

/-- Settles O37: the data fit their frames, and the record is counted off. -/
theorem dataRecordDecodesEveryFrame : Obligations.DataRecordDecodesEveryFrame := by
  intro s h g remaining seen est k t um ord iw payload hw hg h3 hr hm hfit hconv hord hiw hz hpay
    hlen
  have ordinal : OrdinalOf est h s ord := hord
  obtain ⟨data, dispatched⟩ := DispatchedTo.eq hconv
  have ord_toNat : (BitVec.ofNat 4 ord).toNat = ord := Nat.mod_eq_of_lt ordinal.lt
  subst hiw hpay
  obtain ⟨v, taken, frame, others, slots⟩ := takeData_fit h3 hg hfit hz
    ((dispatchConv_dataRead k est h g s).trans dispatched) ordinal.dataRead hlen
  rw [ord_toNat] at others slots
  have nested : nestedBody k h .next seen est s = .ok (v, h.moduleNo :: seen) := by
    rw [nestedBody_data data]
    exact dataNested_eq_ok h3 hm ordinal.known taken
  refine ⟨_, exec_record_group (by omega) hw hr nested, ?_, fun id hid => ?_, fun f hf => ?_⟩
  · obtain ⟨m, rfl⟩ : ∃ m, v = { dataRead est h g s with mats := m } := ⟨_, frame⟩
    cases est <;> rfl
  · refine (readMat_congr (setPlace_mats ..) id).trans (others id fun f hf => ?_)
    rw [Nat.add_mul, Nat.one_mul] at hid
    omega
  · refine (readMat_congr (setPlace_mats ..) _).trans ((slots f hf).trans ?_)
    rw [dataRead_frame]
    rfl

end Sys2Proof.Machine
end
